-- ==== Sys2Proof/Word.lean ====
section
/-! DEFINITION. The word types: a register value (at most 32 bits, R7 `ACCESS_WIDTHS`) and a byte of system memory. -/

namespace Sys2Proof

/-- A register value. Every register of the block is 8, 16 or 32 bits wide (R7, R66); a narrower
register holds a value below `2^width`. -/
abbrev Word := BitVec 32

/-- One byte of system memory (R54 b). -/
abbrev Byte := BitVec 8

/-- An address on the system bus; `H.base` is one (R16). -/
abbrev Addr := BitVec 64

end Sys2Proof
end

