-- ==== Sys2Proof/Config.lean ====
section
/-! DEFINITION. The configuration: every parameter of R7 and R8 as plain data, its one reference
instantiation `cfgRef` (R107), and the free values the machine draws when the environment's script
in the state has run out. -/

namespace Sys2Proof

/-- The 21 register names of R31, the two windows written out word by word: `RESP[0..3]`, `CAP[0..1]`. -/
inductive Reg where
  | swreset | pwrctl | clkctl | timeoutctl | nis | eis | nie | eie | arg | cmd | blksize | blkcnt
  | xfermode | dmaaddr | resp0 | resp1 | resp2 | resp3 | cap0 | cap1 | hc | hc2 | bgc
  | boottimeout | acmd12stat
  deriving DecidableEq, Repr

/-- Every register word, in the order of R31. -/
def Reg.all : List Reg :=
  [.swreset, .pwrctl, .clkctl, .timeoutctl, .nis, .eis, .nie, .eie, .arg, .cmd, .blksize, .blkcnt,
   .xfermode, .dmaaddr] ++
  [.resp0, .resp1, .resp2, .resp3, .cap0, .cap1, .hc, .hc2, .bgc, .boottimeout, .acmd12stat]

/-- `OFF_<reg>` in bytes and `W_<reg>` in bits (R8). -/
structure Place where
  off   : Nat
  width : Nat
  deriving DecidableEq, Repr

/-- Where each register stands in the window (R8, R31). `resp` and `cap` are the first words of
their windows. -/
structure RegMap where
  swreset     : Place
  pwrctl      : Place
  clkctl      : Place
  timeoutctl  : Place
  nis         : Place
  eis         : Place
  nie         : Place
  eie         : Place
  arg         : Place
  cmd         : Place
  blksize     : Place
  blkcnt      : Place
  xfermode    : Place
  dmaaddr     : Place
  resp        : Place
  cap         : Place
  hc          : Place
  hc2         : Place
  bgc         : Place
  boottimeout : Place
  acmd12stat  : Place
  deriving DecidableEq, Repr

/-- The counts and value sets of R7: `RESP_LENS`, `N_RESP`, `N_CAP`, `ACCESS_WIDTHS`, `N_OPS`. -/
structure ShapeCfg where
  respLens     : List Nat
  nResp        : Nat
  nCap         : Nat
  accessWidths : List Nat
  nOps         : Nat
  deriving DecidableEq, Repr

/-- The four time budgets in microseconds (R7, R204). -/
structure Budgets where
  tReset : Nat
  tClk   : Nat
  tCmd   : Nat
  tData  : Nat
  deriving DecidableEq, Repr

/-- `RST_ALL`, `RST_CMD`, `RST_DAT` (R32). -/
structure ResetMasks where
  all : Word
  cmd : Word
  dat : Word
  deriving DecidableEq, Repr

/-- A bus voltage, or none (R18). -/
inductive Voltage where
  | none | v18 | v30 | v33
  deriving DecidableEq, Repr

/-- `PWR_ON` and the three voltage codes (R33). -/
structure PowerCodes where
  on  : Word
  v18 : Word
  v30 : Word
  v33 : Word
  deriving DecidableEq, Repr

/-- One capability bit: which of the two capability words holds it (`inCap1`), and its mask (R17). -/
structure CapBit where
  inCap1 : Bool
  mask   : Word
  deriving DecidableEq, Repr

/-- `CapBaseKHz(cap0, cap1)` as plain data: a bit field times a unit, or, since the capability pair is
constant (R47), simply its value. -/
inductive CapBase where
  /-- bits `lo .. lo+len-1` of CAP[0] (or CAP[1]), times `unit` kHz -/
  | field (inCap1 : Bool) (lo len unit : Nat)
  /-- the value itself -/
  | const (khz : BitVec 32)
  deriving DecidableEq, Repr

/-- How the capability words are decoded, and the constant pair itself (R8 `CAP`, R17, R47, R100). -/
structure CapLayout where
  base : CapBase
  v18  : CapBit
  v30  : CapBit
  v33  : CapBit
  cap0 : Word
  cap1 : Word
  deriving DecidableEq, Repr

/-- One bit-field move: bits `src .. src+len-1` of the divisor field go to `dst .. dst+len-1`. -/
structure BitMove where
  src : Nat
  len : Nat
  dst : Nat
  deriving DecidableEq, Repr

/-- `EncodeDiv(n)` as plain data (R97): a list of bit-field moves, or the table of its values. -/
inductive DivEncoding where
  | fields (moves : List BitMove)
  | table (values : List Word)
  deriving DecidableEq, Repr

/-- Clock control (R34, R97, R116). -/
structure ClockCfg where
  intEn         : Word
  stable        : Word
  cardEn        : Word
  encodeDiv     : DivEncoding
  maxDivisor    : Nat
  initTargetKHz : Nat
  divFloor      : Bool
  deriving DecidableEq, Repr

/-- Interrupt-status bits and the four "all" masks (R26, R36 to R39). -/
structure IrqCfg where
  cc           : Word
  tc           : Word
  dma          : Word
  brr          : Word
  err          : Word
  bootAck      : Word
  bootTerm     : Word
  nisAll       : Word
  eisAll       : Word
  nieAll       : Word
  eieAll       : Word
  errIsSummary : Bool
  deriving DecidableEq, Repr

/-- Command-register fields (R41, R91 to R94). `dataPresent` is the data-present bit inside the
direct group (R89, R93: from general knowledge), looked at by the command engine only. -/
structure CmdCfg where
  respNone    : Word
  resp136     : Word
  resp48      : Word
  resp48b     : Word
  indexShift  : Nat
  directMask  : Word
  dataPresent : Word
  deriving DecidableEq, Repr

/-- Transfer-mode bits (R44). -/
structure XferCfg where
  read   : Word
  dma    : Word
  multi  : Word
  bce    : Word
  acmd12 : Word
  deriving DecidableEq, Repr

/-- Block-size register values (R96) and the layout the DMA engine reads them by (R107: bits [11:0]
the size, a boundary of `bndUnit * 2^code` bytes with the code in bits [14:12]). -/
structure BlkCfg where
  defSize      : Word
  defBoundary  : Word
  bootSize     : Word
  bootBoundary : Word
  bootIndex    : Nat
  sizeMask     : Word
  bndMask      : Word
  bndShift     : Nat
  bndUnit      : Nat
  deriving DecidableEq, Repr

/-- Boot-stream parameters (R50, R51). -/
structure BootCfg where
  timeoutValue : Word
  bgcEn        : Word
  bgcAck       : Word
  deriving DecidableEq, Repr

/-- Host-control bits and the UHS mode field (R48, R49, R99). -/
structure HostCfg where
  w4             : Word
  w8             : Word
  hs             : Word
  uhsMask        : Word
  uhsShift       : Nat
  hsThresholdKHz : Nat
  hsClearOnLow   : Bool
  deriving DecidableEq, Repr

/-- The whole configuration (R7, R8). No K or C value of R107 is built into the machine: every rule
reads it from here. `dcKeepsFlags` is the model's own: it says whether flags already set outlive a
data+command reset (R169, R184 c) or are unspecified after it (R58), log entry 14. So is `fullEndsDc`: whether
the end of a full reset ends a data+command reset still running (R58's cell) or leaves its bits to HW (R184 a,
V-INIT-8), log entry 38. -/
structure Config where
  regs         : RegMap
  shape        : ShapeCfg
  budgets      : Budgets
  reset        : ResetMasks
  power        : PowerCodes
  voltPref     : List Voltage
  cap          : CapLayout
  clock        : ClockCfg
  irq          : IrqCfg
  cmd          : CmdCfg
  xfer         : XferCfg
  blk          : BlkCfg
  boot         : BootCfg
  host         : HostCfg
  timeoutValue : Word
  resetZero    : Bool
  dcKeepsFlags : Bool
  fullEndsDc   : Bool
  deriving DecidableEq, Repr

/-- R107, the register offsets and widths of `CFG_REF`. -/
def cfgRefRegs : RegMap where
  dmaaddr     := ⟨0x00, 32⟩
  blksize     := ⟨0x04, 16⟩
  blkcnt      := ⟨0x06, 16⟩
  arg         := ⟨0x08, 32⟩
  xfermode    := ⟨0x0C, 16⟩
  cmd         := ⟨0x0E, 16⟩
  resp        := ⟨0x10, 32⟩
  hc          := ⟨0x28, 8⟩
  pwrctl      := ⟨0x29, 8⟩
  bgc         := ⟨0x2A, 8⟩
  clkctl      := ⟨0x2C, 16⟩
  timeoutctl  := ⟨0x2E, 8⟩
  swreset     := ⟨0x2F, 8⟩
  nis         := ⟨0x30, 16⟩
  eis         := ⟨0x32, 16⟩
  nie         := ⟨0x34, 16⟩
  eie         := ⟨0x36, 16⟩
  acmd12stat  := ⟨0x3C, 16⟩
  hc2         := ⟨0x3E, 16⟩
  cap         := ⟨0x40, 32⟩
  boottimeout := ⟨0x70, 32⟩

/-- R107, `CFG_REF`; the shape, the budgets, the threshold and the voltage order are R7's, the readings of
what a reset does to flags and to SWRESET are the model's (log entries 14, 38). -/
def cfgRef : Config where
  regs         := cfgRefRegs
  shape        := ⟨[0, 32, 128], 4, 2, [8, 16, 32], 6⟩
  budgets      := ⟨100000, 100000, 100000, 4000000⟩
  reset        := ⟨0x01, 0x02, 0x04⟩
  power        := ⟨0x01, 0x0A, 0x0C, 0x0E⟩
  voltPref     := [.v18, .v30, .v33]
  cap          := ⟨.field false 8 8 1000, ⟨false, 0x04000000⟩, ⟨false, 0x02000000⟩,
                   ⟨false, 0x01000000⟩, 0x0400C800, 0⟩
  clock        := ⟨0x0001, 0x0002, 0x0004, .fields [⟨0, 8, 8⟩, ⟨8, 2, 6⟩], 2046, 400, false⟩
  irq          := ⟨0x0001, 0x0002, 0x0008, 0x0020, 0x8000, 0x2000, 0x4000,
                   0xFFFF, 0xFFFF, 0xFFFF, 0xFFFF, false⟩
  cmd          := ⟨0, 1, 2, 3, 8, 0x00F8, 0x0020⟩
  xfer         := ⟨0x0010, 0x0001, 0x0020, 0x0002, 0x0004⟩
  blk          := ⟨0x200, 0x7000, 0x200, 0x0000, 0, 0x0FFF, 0x7000, 12, 4096⟩
  boot         := ⟨0xFFFFFFFF, 0x20, 0x80⟩
  host         := ⟨0x02, 0x20, 0x04, 0x0007, 0, 25000, false⟩
  timeoutValue := 0x0E
  resetZero    := false
  dcKeepsFlags := true
  fullEndsDc   := false

/-- FREE VALUE. Field `k` of what the hardware does in its `n`-th step once the script in the state
has run out (R184: "every read of a volatile register returns a draw"); fields 14 and 15 are the length
of a transfer with block count or block size 0 that is taken up after step `n` (R225, log entry 32). It has no body:
nothing can be proved of its values. Log entry 3. -/
opaque Config.freeWord (n k : Nat) : Word

/-- FREE VALUE. By how many microseconds the clock advances before its `n`-th sample once the script
in the state has run out (R203: monotonic, no promised progress). Log entry 3. -/
opaque Config.freeDelta (n : Nat) : Nat

end Sys2Proof
end

