-- ==== Sys2Proof/Syntax.lean ====
section
/-! DEFINITION. The syntax: the six operation requests of R85 with their operand records, and the four
response-class forms of the command word (R108), which the command engine decodes. -/

namespace Sys2Proof

/-- The command descriptor `c` (R19), less its response buffer, which the caller owns and the state
holds (`State.respBuf`). `index` is a byte here so that a value above 63 can be written and refused
(R94). -/
structure Descriptor where
  index    : BitVec 8
  arg      : BitVec 32
  dataXfer : Bool
  read     : Bool
  dma      : Bool
  bootEn   : Bool
  busy     : Bool
  respLen  : BitVec 8
  direct   : BitVec 16
  blkcnt   : BitVec 16
  dmaAddr  : BitVec 32
  deriving DecidableEq, Repr

/-- The mode record `m` (R21). `width` is the number of data lines asked for; only 1, 4 and 8 are
legal (R102). `timing` is as wide as the widest UHS field a 32-bit HC2 can have (R21, R7), and legal when
it fits the field the configuration names (R102). -/
structure ModeRec where
  freqKHz : BitVec 32
  timing  : BitVec 32
  width   : BitVec 8
  deriving DecidableEq, Repr

/-- The instructions: one constructor per row of the opcode table (R85, R108). `direct` of a command
word is in register position, as `c.direct` is (R93). -/
inductive Instr where
  | init
  | sendCmd (c : Descriptor)
  | waitCmd (c : Descriptor)
  | bootWait
  | bootStop
  | setMode (m : ModeRec)
  | cmdwRespNone (index : BitVec 6) (direct : BitVec 16)
  | cmdwResp136 (index : BitVec 6) (direct : BitVec 16)
  | cmdwResp48 (index : BitVec 6) (direct : BitVec 16)
  | cmdwResp48b (index : BitVec 6) (direct : BitVec 16)
  deriving DecidableEq, Repr

end Sys2Proof
end

