-- ==== Sys2Proof/Machine/Bits.lean ====
section
/-! DEFINITION. Bit-field helpers, and the readings of the configuration's data that the rules name as
functions: `OFF_X`, `W_X`, `EncodeDiv`, `CapBaseKHz`. -/

namespace Sys2Proof

/-- The word with the `w` low bits set. -/
def mask (w : Nat) : Word := BitVec.ofNat 32 (2 ^ w - 1)

/-- `v mod 2^w` (R9, R10). -/
def trunc (w : Nat) (v : Word) : Word := v &&& mask w

/-- "Some bit of `m` is set in `v`", the mask test of R9. -/
def hasBit (v m : Word) : Bool := v &&& m != 0

/-- `v[lo+len-1 : lo]` as a number (R9). -/
def fieldOf (v : Word) (lo len : Nat) : Nat := v.toNat / 2 ^ lo % 2 ^ len

/-- The place of a register word; window word `i` stands at `OFF + 4*i` (R46, R47, R107). -/
def Config.place (cfg : Config) : Reg → Place
  | .swreset => cfg.regs.swreset
  | .pwrctl => cfg.regs.pwrctl
  | .clkctl => cfg.regs.clkctl
  | .timeoutctl => cfg.regs.timeoutctl
  | .nis => cfg.regs.nis
  | .eis => cfg.regs.eis
  | .nie => cfg.regs.nie
  | .eie => cfg.regs.eie
  | .arg => cfg.regs.arg
  | .cmd => cfg.regs.cmd
  | .blksize => cfg.regs.blksize
  | .blkcnt => cfg.regs.blkcnt
  | .xfermode => cfg.regs.xfermode
  | .dmaaddr => cfg.regs.dmaaddr
  | .resp0 => cfg.regs.resp
  | .resp1 => ⟨cfg.regs.resp.off + 4, cfg.regs.resp.width⟩
  | .resp2 => ⟨cfg.regs.resp.off + 8, cfg.regs.resp.width⟩
  | .resp3 => ⟨cfg.regs.resp.off + 12, cfg.regs.resp.width⟩
  | .cap0 => cfg.regs.cap
  | .cap1 => ⟨cfg.regs.cap.off + 4, cfg.regs.cap.width⟩
  | .hc => cfg.regs.hc
  | .hc2 => cfg.regs.hc2
  | .bgc => cfg.regs.bgc
  | .boottimeout => cfg.regs.boottimeout
  | .acmd12stat => cfg.regs.acmd12stat

/-- The register words there are: the response and capability windows have `N_RESP` and `N_CAP` words
(R7, R31). -/
def Config.hasReg (cfg : Config) : Reg → Bool
  | .resp0 => 0 < cfg.shape.nResp
  | .resp1 => 1 < cfg.shape.nResp
  | .resp2 => 2 < cfg.shape.nResp
  | .resp3 => 3 < cfg.shape.nResp
  | .cap0 => 0 < cfg.shape.nCap
  | .cap1 => 1 < cfg.shape.nCap
  | _ => true

/-- The register words there are, in the order of R31. -/
def Config.words (cfg : Config) : List Reg := Reg.all.filter cfg.hasReg

/-- A response length of `RESP_LENS` (R7, R101). That a length of R92 which `RESP_LENS` lacks counts as
unrecognised is the model's choice: R92 and R147 to R149 name 0, 32 and 128 and do not read it (log entry 43). -/
def Config.recognises (cfg : Config) (len : BitVec 8) : Bool := cfg.shape.respLens.contains len.toNat

/-- `OFF_X` in bytes (R8). -/
def Config.offset (cfg : Config) (x : Reg) : Nat := (cfg.place x).off

/-- `W_X` in bits (R8). -/
def Config.width (cfg : Config) (x : Reg) : Nat := (cfg.place x).width

/-- The three named reset masks together (R32). -/
def Config.resetMask (cfg : Config) : Word := cfg.reset.all ||| cfg.reset.cmd ||| cfg.reset.dat

/-- The mask of the combined data+command reset (R32, R195). -/
def Config.dcMask (cfg : Config) : Word := cfg.reset.cmd ||| cfg.reset.dat

/-- The index field of the command word: six bits at `CMD_INDEX_SHIFT` (R94). -/
def Config.indexMask (cfg : Config) : Word := (0x3F : Word) <<< cfg.cmd.indexShift

/-- One bit-field move of the divisor encoding. -/
def BitMove.apply (m : BitMove) (n : Nat) : Word :=
  BitVec.ofNat 32 (n / 2 ^ m.src % 2 ^ m.len * 2 ^ m.dst)

/-- `EncodeDiv(n)` (R97). -/
def DivEncoding.encode : DivEncoding → Nat → Word
  | .fields ms, n => ms.foldl (fun w m => w ||| m.apply n) 0
  | .table vs, n => vs.getD n 0

/-- `CapBaseKHz(cap0, cap1)` (R17, R100). -/
def CapBase.khz (b : CapBase) (cap0 cap1 : Word) : BitVec 32 :=
  match b with
  | .field inCap1 lo len unit => BitVec.ofNat 32 (fieldOf (if inCap1 then cap1 else cap0) lo len * unit)
  | .const k => k

/-- `(RegRead(CAP) & CAP_VNN) != 0` (R17). -/
def CapBit.supported (b : CapBit) (cap0 cap1 : Word) : Bool :=
  hasBit (if b.inCap1 then cap1 else cap0) b.mask

end Sys2Proof
end

