-- ==== Sys2Proof/WellFormed.lean ====
section
/-! DEFINITION. Well-formedness: of a configuration (the conditions at the end of R8, with R66 and R93,
and the model's own that log entry 34 lists), and of an instruction under a configuration (R94, R102,
R93). -/

namespace Sys2Proof

/-- A single-bit mask: a power of two. -/
def isSingleBit (m : Word) : Bool := m != 0 && (m &&& (m - 1)) == 0

/-- No two masks of the list share a bit. -/
def disjointMasks : List Word → Bool
  | [] => true
  | m :: ms => ms.all (fun k => m &&& k == 0) && disjointMasks ms

/-- Named single-bit masks of one register: powers of two, pairwise disjoint (R8). -/
def flagMasksOk (ms : List Word) : Bool := ms.all isSingleBit && disjointMasks ms

/-- A value fits a register of the given width. -/
def fits (w : Nat) (v : Word) : Bool := trunc w v == v

/-- Two byte ranges of the window do not meet. -/
def Place.apart (p q : Place) : Bool :=
  p.off + p.width / 8 ≤ q.off || q.off + q.width / 8 ≤ p.off

/-- The ranges `[OFF, OFF + W/8)` are pairwise disjoint (R8). -/
def placesApart : List Place → Bool
  | [] => true
  | p :: ps => ps.all p.apart && placesApart ps

/-- The shape of R7: access widths a `Word` can hold, and the window sizes and the operation count the
rules are written for. That other counts make a configuration ill-formed is the model's (log entry 34). -/
def Config.shapeOk (cfg : Config) : Bool :=
  let p := cfg.shape
  p.accessWidths.all [8, 16, 32].contains && p.nResp == 4 && p.nCap == 2 && p.nOps == 6

/-- A register has one of the access widths and is naturally aligned (R7, R8, R66); its offset is small
enough not to wrap in a system address (log entry 1). -/
def Place.ok (widths : List Nat) (p : Place) : Bool :=
  widths.contains p.width && p.off % (p.width / 8) == 0 && p.off < 2 ^ 32

/-- Layout of the register window (R8, R66); the response and capability words have 32 bits (R7). -/
def Config.layoutOk (cfg : Config) : Bool :=
  cfg.words.all (fun x => (cfg.place x).ok cfg.shape.accessWidths) && placesApart (cfg.words.map cfg.place)
    && cfg.regs.resp.width == 32 && cfg.regs.cap.width == 32

/-- The voltage bits that stand in CAP[1] (`inCap1`) or in CAP[0]. -/
def CapLayout.masksIn (c : CapLayout) (inCap1 : Bool) : List Word :=
  ([c.v18, c.v30, c.v33].filter (fun b => b.inCap1 == inCap1)).map CapBit.mask

/-- The bits of the base-clock field that stand in CAP[1] (`inCap1`) or in CAP[0]. -/
def CapBase.imageIn (b : CapBase) (inCap1 : Bool) : Word :=
  match b with
  | .field w lo len _ => if w == inCap1 then BitVec.ofNat 32 ((2 ^ len - 1) * 2 ^ lo) else 0
  | .const _ => 0

/-- `CAP_V18`, `CAP_V30`, `CAP_V33` are single bits, in each capability word apart from each other and
from the base-clock field (R8). -/
def Config.capOk (cfg : Config) : Bool :=
  let c := cfg.cap
  [c.v18, c.v30, c.v33].all (fun b => isSingleBit b.mask)
    && [false, true].all fun w => disjointMasks (c.base.imageIn w :: c.masksIn w)

/-- `RST_CMD`, `RST_DAT`, `RST_ALL` are pairwise disjoint non-zero masks (R8), of SWRESET's width (log
entry 34). -/
def Config.resetOk (cfg : Config) : Bool :=
  let ms := [cfg.reset.all, cfg.reset.cmd, cfg.reset.dat]
  ms.all (fun m => m != 0) && disjointMasks ms && ms.all (fits cfg.regs.swreset.width)

/-- `PWR_ON` is one bit outside the voltage codes (R8), all of PWRCTL's width (log entry 34). -/
def Config.powerOk (cfg : Config) : Bool :=
  let codes := [cfg.power.v18, cfg.power.v30, cfg.power.v33]
  isSingleBit cfg.power.on && codes.all (fun c => cfg.power.on &&& c == 0)
    && (cfg.power.on :: codes).all (fits cfg.regs.pwrctl.width)

/-- The bit-field moves take consecutive source fields and do not overlap in the result. -/
def movesOk : Nat → List BitMove → Bool
  | _, [] => true
  | at', m :: ms =>
    m.src == at' && m.dst + m.len ≤ 32
      && ms.all (fun k => m.dst + m.len ≤ k.dst || k.dst + k.len ≤ m.dst)
      && movesOk (at' + m.len) ms

/-- The bits a field encoding can set. -/
def moveImage (ms : List BitMove) : Word :=
  ms.foldl (fun w m => w ||| BitVec.ofNat 32 ((2 ^ m.len - 1) * 2 ^ m.dst)) 0

/-- `EncodeDiv` is injective on `0 .. MAX_DIVISOR/2` (R8). -/
def DivEncoding.injective (e : DivEncoding) (maxN : Nat) : Bool :=
  match e with
  | .fields ms => movesOk 0 ms && decide (maxN < 2 ^ (ms.foldl (fun n m => n + m.len) 0))
  | .table vs => decide vs.Nodup && decide (maxN < vs.length)

/-- Every bit `EncodeDiv` may set. -/
def DivEncoding.image : DivEncoding → Word
  | .fields ms => moveImage ms
  | .table vs => vs.foldl (· ||| ·) 0

/-- Clock control: flags single and disjoint, divisor field apart from them, `MAX_DIVISOR` even and
at least 2 (R8); all of CLKCTL's width (log entry 34). -/
def Config.clockOk (cfg : Config) : Bool :=
  let c := cfg.clock
  flagMasksOk [c.intEn, c.stable, c.cardEn]
    && c.encodeDiv.image &&& (c.intEn ||| c.stable ||| c.cardEn) == 0
    && c.encodeDiv.injective (c.maxDivisor / 2)
    && c.maxDivisor % 2 == 0 && 2 ≤ c.maxDivisor
    && [c.intEn, c.stable, c.cardEn, c.encodeDiv.image].all (fits cfg.regs.clkctl.width)

/-- Interrupt status: the seven named flags are single disjoint bits (R8, R26), of NIS's width (log entry
34). -/
def Config.irqOk (cfg : Config) : Bool :=
  let q := cfg.irq
  let flags := [q.cc, q.tc, q.dma, q.brr, q.err, q.bootAck, q.bootTerm]
  flagMasksOk flags && flags.all (fits cfg.regs.nis.width)

/-- Command word: the four class codes are distinct, and the direct group overlaps neither the class
codes nor the index field (R8, R93). The model's own (log entry 34): the index field, the direct group and
the codes lie within `W_CMD`, and data-present is a bit of the direct group. -/
def Config.cmdOk (cfg : Config) : Bool :=
  let c := cfg.cmd
  let codes := [c.respNone, c.resp136, c.resp48, c.resp48b]
  decide codes.Nodup && codes.all (fun k => k &&& (c.directMask ||| cfg.indexMask) == 0)
    && c.directMask &&& cfg.indexMask == 0 && decide (c.indexShift + 6 ≤ cfg.regs.cmd.width)
    && c.dataPresent &&& c.directMask == c.dataPresent
    && (c.directMask :: codes).all (fits cfg.regs.cmd.width)

/-- Transfer-mode, host-control and block-gap bits are single and disjoint (R8). The model's own (log
entry 34): they lie within their registers, and the UHS field is a run of bits at its shift. The boundary
unit is a power of two, so that every boundary code names one (R78; the unit is the model's field, log entry
11). -/
def Config.fieldsOk (cfg : Config) : Bool :=
  let t := cfg.xfer
  let h := cfg.host
  let tms := [t.read, t.dma, t.multi, t.bce, t.acmd12]
  let hcs := [h.w4, h.w8, h.hs]
  let bgs := [cfg.boot.bgcEn, cfg.boot.bgcAck]
  let uhs := h.uhsMask.toNat / 2 ^ h.uhsShift
  flagMasksOk tms && tms.all (fits cfg.regs.xfermode.width)
    && flagMasksOk hcs && hcs.all (fits cfg.regs.hc.width)
    && flagMasksOk bgs && bgs.all (fits cfg.regs.bgc.width)
    && fits cfg.regs.hc2.width h.uhsMask && h.uhsMask.toNat == uhs * 2 ^ h.uhsShift
    && uhs &&& (uhs + 1) == 0 && cfg.blk.bndUnit == 2 ^ cfg.blk.bndUnit.log2

/-- A well-formed configuration (R8): what a model checks once, at handle creation. -/
def Config.wf (cfg : Config) : Bool :=
  cfg.shapeOk && cfg.layoutOk && cfg.capOk && cfg.resetOk && cfg.powerOk && cfg.clockOk && cfg.irqOk
    && cfg.cmdOk && cfg.fieldsOk

/-- `c.index` is at most 63 (R94). -/
def Descriptor.wf (c : Descriptor) : Bool := c.index.toNat ≤ 63

/-- `m.width` is one of 1, 4, 8 (R102). -/
def ModeRec.widthOk (m : ModeRec) : Bool := m.width == 1 || m.width == 4 || m.width == 8

/-- `m.timing` is no wider than the UHS field (R102). -/
def ModeRec.timingOk (cfg : Config) (m : ModeRec) : Bool :=
  m.timing.toNat ≤ cfg.host.uhsMask.toNat / 2 ^ cfg.host.uhsShift

/-- The direct bits of a command word lie inside `DIRECT_MASK` (R93). -/
def directOk (cfg : Config) (direct : BitVec 16) : Bool :=
  direct.setWidth 32 &&& cfg.cmd.directMask == direct.setWidth 32

/-- A well-formed instruction. -/
def Instr.wf (cfg : Config) : Instr → Bool
  | .init => true
  | .sendCmd c => c.wf
  | .waitCmd c => c.wf
  | .bootWait => true
  | .bootStop => true
  | .setMode m => m.widthOk && m.timingOk cfg
  | .cmdwRespNone _ d => directOk cfg d
  | .cmdwResp136 _ d => directOk cfg d
  | .cmdwResp48 _ d => directOk cfg d
  | .cmdwResp48b _ d => directOk cfg d

end Sys2Proof
end

