-- ==== Sys2Proof/Decode.lean ====
section
/-! DEFINITION. The decoder and, after it, the encoder. The block decodes two things (section 30 of the
spec): the operation request the caller hands SEQ, a 3-bit op code with its operands (R85), and the
command word SEQ writes to CMD, which HW decodes in turn (R104, R108). The place of the operands in a
request word is the model's own (log entry 4): the spec gives them no layout (R86). -/

namespace Sys2Proof

/-- What is decoded: a request word from the caller's port, or a command word from CMD. -/
inductive Coded where
  | request (w : BitVec 128)
  | command (w : Word)
  deriving DecidableEq, Repr

/-- Why a word is no instruction: an unassigned op code (R88), an index above 63 (R94), a bus width
or timing out of range (R102), a response-class code that is none of the four (R104). -/
inductive DecodeError where
  | opcode | index | width | timing | reservedClass
  deriving DecidableEq, Repr

/-- Bits `lo .. lo+n-1` of a request word. -/
def reqField (w : BitVec 128) (lo n : Nat) : BitVec n := BitVec.ofNat n (w.toNat / 2 ^ lo)

/-- One bit of a request word. -/
def reqBit (w : BitVec 128) (i : Nat) : Bool := w.toNat / 2 ^ i % 2 == 1

/-- The descriptor of a request word: index [15:8], argument [47:16], the five flags [52:48], response
length [63:56], direct bits [79:64], block count [95:80], DMA address [127:96] (log entry 4). -/
def decodeDescriptor (w : BitVec 128) : Descriptor where
  index    := reqField w 8 8
  arg      := reqField w 16 32
  dataXfer := reqBit w 48
  read     := reqBit w 49
  dma      := reqBit w 50
  bootEn   := reqBit w 51
  busy     := reqBit w 52
  respLen  := reqField w 56 8
  direct   := reqField w 64 16
  blkcnt   := reqField w 80 16
  dmaAddr  := reqField w 96 32

/-- The mode record of a request word: frequency [39:8], timing [71:40], and in [79:72] the number of
data lines less one (log entry 4). -/
def decodeMode (w : BitVec 128) : ModeRec where
  freqKHz := reqField w 8 32
  timing  := reqField w 40 32
  width   := reqField w 72 8 + 1

/-- The operation request of R85, by its 3-bit op code in [2:0]; an op code from `N_OPS` on (6 and 7) is
unassigned (R7, R88). -/
def decodeRequest (cfg : Config) (w : BitVec 128) : Except DecodeError Instr :=
  if cfg.shape.nOps ≤ w.toNat % 8 then .error .opcode
  else match w.toNat % 8 with
  | 0 => .ok .init
  | 1 => if (decodeDescriptor w).wf then .ok (.sendCmd (decodeDescriptor w)) else .error .index
  | 2 => if (decodeDescriptor w).wf then .ok (.waitCmd (decodeDescriptor w)) else .error .index
  | 3 => .ok .bootWait
  | 4 => .ok .bootStop
  | 5 =>
    let m := decodeMode w
    if !m.widthOk then .error .width
    else if !m.timingOk cfg then .error .timing
    else .ok (.setMode m)
  | _ => .error .opcode

/-- The index field of a command word (R104). -/
def commandIndex (cfg : Config) (w : Word) : BitVec 6 := (w >>> cfg.cmd.indexShift).setWidth 6

/-- The direct bits of a command word, in register position (R93, R104). -/
def commandDirect (cfg : Config) (w : Word) : BitVec 16 := (w &&& cfg.cmd.directMask).setWidth 16

/-- What is left of a command word: the response-class code (R104; the table's mask 0xC007 under
`CFG_REF`). -/
def commandClass (cfg : Config) (w : Word) : Word := w &&& ~~~(cfg.cmd.directMask ||| cfg.indexMask)

/-- HW's decoding of a command word (R104, the inverse of R91). A configuration may give a class other than
none the code 0, as R8 asks for distinct codes only: code 0 is then that class and not reserved, which is the
model's choice, since R104 speaks of a code 0 that no class has (log entry 26). -/
def decodeCommand (cfg : Config) (w : Word) : Except DecodeError Instr :=
  let k := commandClass cfg w
  let i := commandIndex cfg w
  let d := commandDirect cfg w
  if k = cfg.cmd.respNone then .ok (.cmdwRespNone i d)
  else if k = cfg.cmd.resp136 then .ok (.cmdwResp136 i d)
  else if k = cfg.cmd.resp48 then .ok (.cmdwResp48 i d)
  else if k = cfg.cmd.resp48b then .ok (.cmdwResp48b i d)
  else .error .reservedClass

/-- The decoder: total on both kinds of word. -/
def decode (cfg : Config) : Coded → Except DecodeError Instr
  | .request w => decodeRequest cfg w
  | .command w => decodeCommand cfg w

/-- A Boolean as a bit. -/
def bitNat (b : Bool) : Nat := if b then 1 else 0

/-- A descriptor's bits in a request word, the op code left out. -/
def encodeDescriptor (c : Descriptor) : Nat :=
  c.index.toNat * 2 ^ 8 + c.arg.toNat * 2 ^ 16
    + bitNat c.dataXfer * 2 ^ 48 + bitNat c.read * 2 ^ 49 + bitNat c.dma * 2 ^ 50
    + bitNat c.bootEn * 2 ^ 51 + bitNat c.busy * 2 ^ 52
    + c.respLen.toNat * 2 ^ 56 + c.direct.toNat * 2 ^ 64 + c.blkcnt.toNat * 2 ^ 80
    + c.dmaAddr.toNat * 2 ^ 96

/-- A mode record's bits in a request word, the op code left out. -/
def encodeMode (m : ModeRec) : Nat :=
  m.freqKHz.toNat * 2 ^ 8 + m.timing.toNat * 2 ^ 40 + (m.width - 1).toNat * 2 ^ 72

/-- A command word from its three parts (R91, format CMDW of R89). -/
def encodeCommand (cfg : Config) (code : Word) (index : BitVec 6) (direct : BitVec 16) : Word :=
  trunc cfg.regs.cmd.width
    (code ||| direct.setWidth 32 ||| (index.setWidth 32 <<< cfg.cmd.indexShift))

/-- The encoder. -/
def encode (cfg : Config) : Instr → Coded
  | .init => .request 0
  | .sendCmd c => .request (BitVec.ofNat 128 (1 + encodeDescriptor c))
  | .waitCmd c => .request (BitVec.ofNat 128 (2 + encodeDescriptor c))
  | .bootWait => .request 3
  | .bootStop => .request 4
  | .setMode m => .request (BitVec.ofNat 128 (5 + encodeMode m))
  | .cmdwRespNone i d => .command (encodeCommand cfg cfg.cmd.respNone i d)
  | .cmdwResp136 i d => .command (encodeCommand cfg cfg.cmd.resp136 i d)
  | .cmdwResp48 i d => .command (encodeCommand cfg cfg.cmd.resp48 i d)
  | .cmdwResp48b i d => .command (encodeCommand cfg cfg.cmd.resp48b i d)

/-- Which of the two kinds of word an opcode-table word is: 16 bits make a command word (group CMDW),
anything else a request (group OPREQ) (R108). -/
def codedOfTable (nbits w : Nat) : Coded :=
  if nbits = 16 then .command (BitVec.ofNat 32 w) else .request (BitVec.ofNat 128 w)

/-- The instruction the decoder reads from an opcode-table word, under `CFG_REF`. -/
def decodeTableWord (nbits w : Nat) : Option Instr :=
  match decode cfgRef (codedOfTable nbits w) with
  | .ok i => some i
  | .error _ => none

end Sys2Proof
end

