-- ==== Sys2Proof/Machine/State.lean ====
section
/-! DEFINITION. The state, as plain data: the tuple `(H, seq, RB, HID)` of R15; the caller's side the
operations read and write (request port, response buffer, reply); system memory, which the DMA engine
reaches; the log and the access trace; and the environment's script (what HW does at each of its steps,
how far the clock moves at each sample). Also the reasons a step can stop, and the state at handle
creation. -/

namespace Sys2Proof.Machine

/-- `H.cap`, the discovered capabilities (R17). -/
structure Caps where
  baseKHz : BitVec 32
  v18     : Bool
  v30     : Bool
  v33     : Bool
  deriving DecidableEq, Repr

/-- The controller handle `H` (R16 to R18). -/
structure Handle where
  base    : Addr
  cap     : Caps
  voltage : Voltage
  ready   : Bool
  deriving DecidableEq, Repr

/-- The sequencer state register (R24). -/
inductive SeqState where
  | idle | issued | streaming
  deriving DecidableEq, Repr

/-- The contents of the 21 named registers (R31), the windows word by word. -/
structure Registers where
  swreset     : Word
  pwrctl      : Word
  clkctl      : Word
  timeoutctl  : Word
  nis         : Word
  eis         : Word
  nie         : Word
  eie         : Word
  arg         : Word
  cmd         : Word
  blksize     : Word
  blkcnt      : Word
  xfermode    : Word
  dmaaddr     : Word
  resp0       : Word
  resp1       : Word
  resp2       : Word
  resp3       : Word
  cap0        : Word
  cap1        : Word
  hc          : Word
  hc2         : Word
  bgc         : Word
  boottimeout : Word
  acmd12stat  : Word
  deriving DecidableEq, Repr

/-- The response class HW awaits (R104); `reserved` is a class code that is none of the four. -/
inductive RespKind where
  | none | r136 | r48 | r48b | reserved
  deriving DecidableEq, Repr

/-- The transfer registers as latched at the CMD write (R55), with the boot bits of BGC. -/
structure XferLatch where
  blksize  : Word
  blkcnt   : Word
  xfermode : Word
  dmaaddr  : Word
  boot     : Bool
  bootAck  : Bool
  deriving DecidableEq, Repr

/-- The command in flight (R55): the latched command word, argument and TIMEOUTCTL (R69), for a data or
boot command the latched transfer registers, and what has been done of it. `portLeft` counts the blocks a
transfer without DMA has still to move through the buffer port (R177, log entry 36), `dataCount` is the
data-timeout counter (R202, log entry 35), `busy` says that the card is still busy after the response of a
class-48 command (R185, log entry 40). -/
structure InFlight where
  word       : Word
  index      : BitVec 6
  kind       : RespKind
  arg        : Word
  timeoutctl : Word
  xfer       : Option XferLatch
  portLeft   : Nat
  dataCount  : Word
  respSeen   : Bool
  cmdDone    : Bool
  busy       : Bool
  deriving DecidableEq, Repr

/-- The DMA engine of the transfer in progress (R56): the address it has reached, the bytes still to
move, whether it is paused at a boundary, its direction, and the bytes it has fetched for the card
(a byte of memory the spec gives no content is `none`). -/
structure DmaEngine where
  pos     : Word
  left    : Nat
  paused  : Bool
  toMem   : Bool
  fetched : List (Option Byte)
  deriving DecidableEq, Repr

/-- The hidden state of the engines (R55 to R57), less what the registers already show (resets in
progress in SWRESET, clock stability in CLKCTL). `trigger` says that CMD has been written and the
command engine has not yet taken the command up. -/
structure Hidden where
  trigger   : Bool
  cmd       : Option InFlight
  dma       : Option DmaEngine
  powered   : Bool
  bootArmed : Bool
  bootCount : Word
  deriving DecidableEq, Repr

/-- An open-oracle step (R184 L0): what HW may do to volatile registers, its hidden state and, as the
DMA engine, memory, subject to the laws (a) to (e) and the enables of R174 only, which `Machine/Hw.lean`
applies. -/
structure OracleDraw where
  resetsEnd : Word
  stable    : Bool
  nis       : Word
  eis       : Word
  blkcnt    : Option Word
  dmaaddr   : Option Word
  resp0     : Option Word
  resp1     : Option Word
  resp2     : Option Word
  resp3     : Option Word
  acmd12    : Option Word
  bootCount : Option Word
  abandon   : Bool
  moved     : Nat
  paused    : Option Bool
  stores    : List (Nat × Byte)
  after     : Registers
  deriving DecidableEq, Repr

/-- One thing HW does (R166). All but `oracle` are the engines' transitions as rules R167 to R181
describe them, each with effect only when its trigger holds; `oracle` is the open oracle of R184. -/
inductive HwEvent where
  /-- the resets named by the mask end; `after` and `count` are the values the rules leave unspecified
  afterwards (R167 to R169) -/
  | resetEnds (m : Word) (after : Registers) (count : Word)
  /-- the clock generator reports the internal clock stable, or not (R170) -/
  | clock (stable : Bool)
  /-- a command of class none has been sent (R172) -/
  | commandSent
  /-- the card's response arrives (R172); `busy` says, for class 48, that the card is still busy after it
  (R185) -/
  | response (r0 r1 r2 r3 : Word) (busy : Bool := false)
  /-- the card releases busy (R172, R185) -/
  | busyReleased
  /-- any other enabled status or error flag (R173) -/
  | flags (nis eis : Word)
  /-- an error is detected (R175) -/
  | error (bits : Word) (acmd12 : Option Word)
  /-- the DMA engine receives these bytes of the card's stream (R176) -/
  | dmaIn (bytes : List Byte)
  /-- the DMA engine fetches up to `n` bytes for the card (R176) -/
  | dmaOut (n : Nat)
  /-- a block of a transfer without DMA has moved through the buffer port (R177) -/
  | portBlock
  /-- HW has sent the stop command of a multi-block transfer (R177) -/
  | autoStop
  /-- a block is ready at the buffer port (R178) -/
  | bufferReady
  /-- the boot acknowledge arrives (R179) -/
  | bootAck
  /-- the boot stream ends; `tc` says whether NIS_TC is set as well, which R179 leaves open -/
  | bootEnd (tc : Bool)
  /-- the data-timeout counter of the transfer in progress runs (R202) -/
  | dataTick (count : Word)
  /-- the data-timeout counter expires with these error flags (R202) -/
  | dataExpires (bits : Word)
  /-- the armed boot-timeout counter runs (R181) -/
  | bootTick (count : Word)
  /-- the armed boot-timeout counter expires with these error flags, or none (R181) -/
  | bootExpires (bits : Word)
  /-- the open oracle (R184) -/
  | oracle (d : OracleDraw)
  deriving DecidableEq, Repr

/-- The environment as data: what HW does before each of SEQ's next accesses (`script`), how many
microseconds pass before each of SEQ's next clock samples (`deltas`), how many accesses and samples
have been made, and the time in microseconds (R203). -/
structure Env where
  script  : List (List HwEvent)
  deltas  : List Nat
  steps   : Nat
  samples : Nat
  now     : Nat
  deriving DecidableEq, Repr

/-- One register access of SEQ (R105), with the value read or written. -/
inductive Access where
  | read (x : Reg) (v : Word)
  | write (x : Reg) (v : Word)
  deriving DecidableEq, Repr

/-- The six failure causes (R186). -/
inductive Cause where
  | resetTimeout | clockTimeout | cmdTimeout | hwError | bootNoAck | dataTimeout
  deriving DecidableEq, Repr

/-- One log event: the cause and the values recorded with it (R186, R207). -/
structure LogEvent where
  cause  : Cause
  values : List Word
  deriving DecidableEq, Repr

/-- The response buffer `c.resp[0..3]` of the caller's descriptor (R20). -/
structure RespBuf where
  w0 : Word
  w1 : Word
  w2 : Word
  w3 : Word
  deriving DecidableEq, Repr

/-- What the last operation handed back (R22): nothing yet or an operation without a result; OK or FAIL;
BOOT_WAIT's pair. -/
inductive Reply where
  | none
  | ok
  | fail
  | boot (terminal : Bool) (addr : Option Word)
  deriving DecidableEq, Repr

/-- The whole state. -/
structure State where
  /-- the configuration: fixed, an argument of the model (R8, R59) -/
  cfg     : Config
  h       : Handle
  seq     : SeqState
  /-- the descriptor of the outstanding command, kept only to know "the same c" (R25, R76) -/
  sent    : Option Descriptor
  rb      : Registers
  hid     : Hidden
  /-- system memory (R54 b): address and byte, addresses strictly rising -/
  mem     : List Host.Cell
  respBuf : RespBuf
  reply   : Reply
  log     : List LogEvent
  /-- SEQ's register accesses so far, oldest first (R72, R105) -/
  trace   : List Access
  /-- the caller's requests not yet taken, the next one first (R13, R24) -/
  port    : List (BitVec 128)
  env     : Env
  deriving DecidableEq, Repr

/-- The ways the machine stops where the spec says it must claim nothing. -/
inductive Fault where
  /-- raised by WAIT_CMD, non-data branch: the top-level wait ended on a flag that is neither the error
  flag nor command-complete (R155). Safe: the real block goes on with one of two unknown results. -/
  | waitNeitherErrorNorComplete
  deriving DecidableEq, Repr

/-- The requests and accesses the spec gives no meaning (`refuse`, R12, R187). -/
inductive Refusal where
  /-- an instruction that has no meaning in this model yet. Safe. -/
  | notModelled (mnemonic : String)
  /-- `refuse("sequence")`: raised by SEND_CMD, WAIT_CMD, BOOT_WAIT, SET_MODE when R25's precondition
  does not hold. Safe. -/
  | sequence
  /-- `refuse("opcode")`: raised by the step on op codes 6 and 7 (R88). Safe. -/
  | opcode
  /-- `refuse("index")`: raised by SEND_CMD and WAIT_CMD, and by the step, on an index above 63 (R94).
  Safe. -/
  | index
  /-- a bus width other than 1, 4, 8: raised by SET_MODE and by the step (R102). Safe. -/
  | width
  /-- a timing number wider than the UHS field: raised by SET_MODE and by the step (R102). Safe. -/
  | timing
  /-- `refuse("access")`: raised by the window primitives on an access that is no register at its own
  width, and by handle creation on a base that is not 4-byte aligned (R66). Safe. -/
  | access
  /-- a configuration that is not well-formed: raised by handle creation (R8, R214). Safe. -/
  | config
  deriving DecidableEq, Repr

/-- Registers all zero but the constant capability words (R47): the value this model gives every
register at handle creation, where the spec gives none (R58 "u"; log entry 2). -/
def Registers.zero (cfg : Config) : Registers where
  swreset     := 0
  pwrctl      := 0
  clkctl      := 0
  timeoutctl  := 0
  nis         := 0
  eis         := 0
  nie         := 0
  eie         := 0
  arg         := 0
  cmd         := 0
  blksize     := 0
  blkcnt      := 0
  xfermode    := 0
  dmaaddr     := 0
  resp0       := 0
  resp1       := 0
  resp2       := 0
  resp3       := 0
  cap0        := cfg.cap.cap0
  cap1        := cfg.cap.cap1
  hc          := 0
  hc2         := 0
  bgc         := 0
  boottimeout := 0
  acmd12stat  := 0

/-- `H.cap` as handle creation decodes it (R17, R112). -/
def discoveredCaps (cfg : Config) : Caps where
  baseKHz := cfg.cap.base.khz cfg.cap.cap0 cfg.cap.cap1
  v18     := cfg.cap.v18.supported cfg.cap.cap0 cfg.cap.cap1
  v30     := cfg.cap.v30.supported cfg.cap.cap0 cfg.cap.cap1
  v33     := cfg.cap.v33.supported cfg.cap.cap0 cfg.cap.cap1

/-- `CreateHandle(base, explicit_voltage)` (R112), with the state at the start of the model (R58, R210):
the two capability reads are the first accesses (R82). -/
def State.created (cfg : Config) (base : Addr) (explicit : Voltage) : State where
  cfg     := cfg
  h       := ⟨base, discoveredCaps cfg, explicit, false⟩
  seq     := .idle
  sent    := none
  rb      := Registers.zero cfg
  hid     := ⟨false, none, none, false, false, 0⟩
  mem     := []
  respBuf := ⟨0, 0, 0, 0⟩
  reply   := .none
  log     := []
  trace   := [.read .cap0 cfg.cap.cap0, .read .cap1 cfg.cap.cap1]
  port    := []
  env     := ⟨[], [], 0, 0, 0⟩

/-- The state right after reset, that is, at handle creation (R210): `CFG_REF`, base 0, no explicit
voltage. -/
def State.reset : State := State.created cfgRef 0 .none

end Sys2Proof.Machine
end

