-- ==== Sys2Proof/Machine/Storage.lean ====
section
/-! DEFINITION. Reading and writing the places of the state that hold data: system memory (R54 b, R61)
and the register file (R31). -/

namespace Sys2Proof.Machine

/-- The byte at a system address. An address nothing has been stored at holds no byte the spec gives:
`none` (log entry 5). -/
def Memory.read : List Host.Cell → Nat → Option Byte
  | [], _ => none
  | (k, b) :: r, a => if k = a then some b else Memory.read r a

/-- Store one byte, keeping the addresses strictly rising. -/
def Memory.write : List Host.Cell → Nat → Byte → List Host.Cell
  | [], a, b => [(a, b)]
  | (k, c) :: r, a, b =>
    if a < k then (a, b) :: (k, c) :: r
    else if a = k then (a, b) :: r
    else (k, c) :: Memory.write r a b

/-- Addresses strictly rising from `lo` on, all within the 32 bits of a DMA address (R61). -/
def Memory.risingFrom : Nat → List Host.Cell → Bool
  | _, [] => true
  | lo, (k, _) :: r => lo ≤ k && k < 2 ^ 32 && Memory.risingFrom (k + 1) r

/-- The canonical form of memory. -/
def Memory.wf (m : List Host.Cell) : Bool := Memory.risingFrom 0 m

/-- The stored content of a register word. -/
def Registers.get (r : Registers) : Reg → Word
  | .swreset => r.swreset
  | .pwrctl => r.pwrctl
  | .clkctl => r.clkctl
  | .timeoutctl => r.timeoutctl
  | .nis => r.nis
  | .eis => r.eis
  | .nie => r.nie
  | .eie => r.eie
  | .arg => r.arg
  | .cmd => r.cmd
  | .blksize => r.blksize
  | .blkcnt => r.blkcnt
  | .xfermode => r.xfermode
  | .dmaaddr => r.dmaaddr
  | .resp0 => r.resp0
  | .resp1 => r.resp1
  | .resp2 => r.resp2
  | .resp3 => r.resp3
  | .cap0 => r.cap0
  | .cap1 => r.cap1
  | .hc => r.hc
  | .hc2 => r.hc2
  | .bgc => r.bgc
  | .boottimeout => r.boottimeout
  | .acmd12stat => r.acmd12stat

/-- Replace the stored content of a register word. -/
def Registers.set (r : Registers) (x : Reg) (v : Word) : Registers :=
  match x with
  | .swreset => { r with swreset := v }
  | .pwrctl => { r with pwrctl := v }
  | .clkctl => { r with clkctl := v }
  | .timeoutctl => { r with timeoutctl := v }
  | .nis => { r with nis := v }
  | .eis => { r with eis := v }
  | .nie => { r with nie := v }
  | .eie => { r with eie := v }
  | .arg => { r with arg := v }
  | .cmd => { r with cmd := v }
  | .blksize => { r with blksize := v }
  | .blkcnt => { r with blkcnt := v }
  | .xfermode => { r with xfermode := v }
  | .dmaaddr => { r with dmaaddr := v }
  | .resp0 => { r with resp0 := v }
  | .resp1 => { r with resp1 := v }
  | .resp2 => { r with resp2 := v }
  | .resp3 => { r with resp3 := v }
  | .cap0 => { r with cap0 := v }
  | .cap1 => { r with cap1 := v }
  | .hc => { r with hc := v }
  | .hc2 => { r with hc2 := v }
  | .bgc => { r with bgc := v }
  | .boottimeout => { r with boottimeout := v }
  | .acmd12stat => { r with acmd12stat := v }

/-- Every register word through `f`. -/
def Registers.map (f : Reg → Word → Word) (r : Registers) : Registers where
  swreset := f .swreset r.swreset
  pwrctl := f .pwrctl r.pwrctl
  clkctl := f .clkctl r.clkctl
  timeoutctl := f .timeoutctl r.timeoutctl
  nis := f .nis r.nis
  eis := f .eis r.eis
  nie := f .nie r.nie
  eie := f .eie r.eie
  arg := f .arg r.arg
  cmd := f .cmd r.cmd
  blksize := f .blksize r.blksize
  blkcnt := f .blkcnt r.blkcnt
  xfermode := f .xfermode r.xfermode
  dmaaddr := f .dmaaddr r.dmaaddr
  resp0 := f .resp0 r.resp0
  resp1 := f .resp1 r.resp1
  resp2 := f .resp2 r.resp2
  resp3 := f .resp3 r.resp3
  cap0 := f .cap0 r.cap0
  cap1 := f .cap1 r.cap1
  hc := f .hc r.hc
  hc2 := f .hc2 r.hc2
  bgc := f .bgc r.bgc
  boottimeout := f .boottimeout r.boottimeout
  acmd12stat := f .acmd12stat r.acmd12stat

/-- Register contents cut to the registers' widths. -/
def Registers.trim (cfg : Config) (r : Registers) : Registers :=
  r.map fun x v => trunc (cfg.width x) v

/-- The one place a register's content changes. -/
def State.setReg (x : Reg) (v : Word) (s : State) : State := { s with rb := s.rb.set x v }

/-- A register takes a value from HW, cut to the register's width. -/
def State.loadReg (x : Reg) (v : Word) (s : State) : State :=
  s.setReg x (trunc (s.cfg.width x) v)

end Sys2Proof.Machine
end

