-- ==== Sys2Proof/Machine/Flags.lean ====
section
/-! DEFINITION. The flags: the bits of NIS and EIS (R26, R27). HW raises them, gated by the status
enables (R174); SEQ clears them by writing 1 (R68); no operation computes one (R28). -/

namespace Sys2Proof.Machine

/-- HW raises NIS flags whose enable bit is 1 (R173, R174). -/
def State.raiseNis (bits : Word) (s : State) : State :=
  s.setReg .nis (s.rb.nis ||| trunc (s.cfg.width .nis) (bits &&& s.rb.nie))

/-- HW raises EIS flags whose enable bit is 1 (R173, R174). -/
def State.raiseEis (bits : Word) (s : State) : State :=
  s.setReg .eis (s.rb.eis ||| trunc (s.cfg.width .eis) (bits &&& s.rb.eie))

/-- HW reports an error: EIS flags and, when one of them is recorded, the summary flag `NIS_ERR`
(R175). -/
def State.raiseError (bits : Word) (s : State) : State :=
  if trunc (s.cfg.width .eis) (bits &&& s.rb.eie) = 0 then s
  else (s.raiseEis bits).raiseNis s.cfg.irq.err

/-- What NIS reads as: its flags, with `NIS_ERR` standing for "EIS is not 0" under
`NIS_ERR_IS_SUMMARY` (R36). That the summary reads 1 even where its own bit of NIE is 0 is the model's
choice: R36 calls it a summary of EIS, R38 and R174 gate every flag, and no rule says which wins (log entry
24). -/
def State.nisValue (s : State) : Word :=
  if s.cfg.irq.errIsSummary then
    (s.rb.nis &&& ~~~s.cfg.irq.err) ||| (if s.rb.eis = 0 then 0 else s.cfg.irq.err)
  else s.rb.nis

/-- Write-1-to-clear of NIS (R68); a summary `NIS_ERR` needs no exception, since what it reads as is
computed from EIS. -/
def State.clearNis (v : Word) (s : State) : State := s.setReg .nis (s.rb.nis &&& ~~~v)

/-- Write-1-to-clear of EIS (R68). -/
def State.clearEis (v : Word) (s : State) : State := s.setReg .eis (s.rb.eis &&& ~~~v)

end Sys2Proof.Machine
end

