-- ==== Sys2Proof/Machine/Hw.lean ====
section
/-! DEFINITION. The other agent, HW (45_hw_engines): reset logic, clock generator, command engine, DMA
engine, boot engine, and the open oracle of R184. A HW step happens between two accesses of SEQ,
never during one (R166); what happens in it is read from the script in the state, or drawn when the
script has run out (log entry 3). -/

namespace Sys2Proof.Machine

/-! ### Reset logic (R167 to R169) -/

/-- The values registers take where a reset leaves them unspecified: drawn, or 0 under `RESET_ZERO`
(R30, R58). -/
def unspecified (cfg : Config) (after : Registers) : Registers :=
  if cfg.resetZero then Registers.zero cfg else after.trim cfg

/-- Effect of a completed full reset (R168): every writable register takes its unspecified reset
value, CAP keeps its constant, the command in flight and the DMA position are gone. Under `fullEndsDc` the
mask bits of SWRESET all read 0 (R58), so a data+command reset still running is over with it; without it such a
reset's bits read 1 until HW ends it (R184 a, V-INIT-8), log entry 38. That the SWRESET bits outside the three masks stay 0 and are not drawn with the rest
is the model's choice: R32 names none of them and R30 leaves them unspecified (log entry 30). -/
def fullResetEffect (after : Registers) (count : Word) (s : State) : State :=
  let u := unspecified s.cfg after
  { s with
    rb := { u with swreset := if s.cfg.fullEndsDc then 0 else s.rb.swreset, cap0 := s.rb.cap0, cap1 := s.rb.cap1 }
    hid := { trigger := false, cmd := none, dma := none, powered := hasBit u.pwrctl s.cfg.power.on,
             bootArmed := u.boottimeout != 0, bootCount := if s.cfg.resetZero then 0 else count } }

/-- The flags of NIS or EIS after a completed data+command reset, from those set before it, the drawn
value and the enables. Under `dcKeepsFlags` flags already set stay set (R169, R184 c) and drawn ones come up
with them; without it the value is the drawn one (R58). Either way a flag comes up only where enabled (R174);
log entry 14. -/
def flagsAfterDc (cfg : Config) (old drawn enable : Word) : Word :=
  if cfg.dcKeepsFlags then old ||| (drawn &&& enable) else drawn &&& (old ||| enable)

/-- Effect of a completed data+command reset (R169): the command and transfer registers are
unspecified, the flags are as `flagsAfterDc` says (R58, R169, log entry 14), the command in flight and the
DMA position are gone. Everything else is kept. -/
def dcResetEffect (after : Registers) (count : Word) (s : State) : State :=
  let u := unspecified s.cfg after
  { s with
    rb := { s.rb with
      nis := flagsAfterDc s.cfg s.rb.nis u.nis s.rb.nie
      eis := flagsAfterDc s.cfg s.rb.eis u.eis s.rb.eie
      arg := u.arg, cmd := u.cmd, blksize := u.blksize, blkcnt := u.blkcnt, xfermode := u.xfermode,
      dmaaddr := u.dmaaddr, resp0 := u.resp0, resp1 := u.resp1, resp2 := u.resp2, resp3 := u.resp3,
      acmd12stat := u.acmd12stat }
    hid := { s.hid with
      trigger := false, cmd := none, dma := none,
      bootCount := if s.cfg.resetZero then 0 else count } }

/-- HW ends the running resets named by `m`: their bits read 0 from now on (R167), and when the last
bit of a reset falls the reset's effect is complete. That `RST_ALL` still reads 1 when a data+command reset
completes beside a full reset is the model's choice: R32 says so, R58's cell has the mask bits 0 (log entry
38). -/
def endResets (m : Word) (after : Registers) (count : Word) (s : State) : State :=
  let old := s.rb.swreset
  let t := s.setReg .swreset (old &&& ~~~m)
  if hasBit old s.cfg.reset.all && !hasBit t.rb.swreset s.cfg.reset.all then
    fullResetEffect after count t
  else if hasBit old s.cfg.dcMask && !hasBit t.rb.swreset s.cfg.dcMask then
    dcResetEffect after count t
  else t

/-! ### Clock generator (R170) and power (R182) -/

/-- `CLK_STABLE` becomes what HW says; the other bits of CLKCTL stay (R170, R184 b). -/
def setStable (stable : Bool) (s : State) : State :=
  s.setReg .clkctl
    (if stable then s.rb.clkctl ||| s.cfg.clock.stable else s.rb.clkctl &&& ~~~s.cfg.clock.stable)

/-- The clock generator's report: stable only while the internal clock is enabled (R170). -/
def clockReports (stable : Bool) (s : State) : State :=
  if stable && !hasBit s.rb.clkctl s.cfg.clock.intEn then s else setStable stable s

/-- The card can answer: it is powered (R182) and the clock is driven to it (R170, R232). -/
def cardLive (s : State) : Bool := s.hid.powered && hasBit s.rb.clkctl s.cfg.clock.cardEn

/-! ### Command engine (R171, R172) -/

/-- The blocks a transfer moves: the latched block count for a counted multi-block transfer, else one
(R177). That a transfer with `TM_MULTI` or `TM_BCE` clear moves one block whatever BLKCNT holds is the
model's choice where BLKCNT holds more than 1 (log entry 32). -/
def xferBlocks (cfg : Config) (x : XferLatch) : Nat :=
  if hasBit x.xfermode cfg.xfer.multi && hasBit x.xfermode cfg.xfer.bce then x.blkcnt.toNat else 1

/-- The bytes a DMA transfer moves: its blocks times the block size (R177, R225). With a block count of 0
the spec defines no length (R225, U15), and with a block size of 0 it states none; there the length is the
free value `free` (log entry 32). -/
def xferLength (cfg : Config) (x : XferLatch) (free : Nat) : Nat :=
  let size := (x.blksize &&& cfg.blk.sizeMask).toNat
  if x.blkcnt = 0 || size = 0 then free else xferBlocks cfg x * size

/-- The blocks a transfer has to move through the buffer port: its blocks when `TM_DMA` is clear, the free
value `free` with a block count of 0 (R177, R225, log entries 32 and 36). -/
def portBlocks (cfg : Config) (x : XferLatch) (free : Nat) : Nat :=
  if hasBit x.xfermode cfg.xfer.dma then 0 else if x.blkcnt = 0 then free else xferBlocks cfg x

/-- The DMA boundary a BLKSIZE value names (R78, R107). -/
def dmaBoundary (cfg : Config) (blksize : Word) : Nat :=
  cfg.blk.bndUnit * 2 ^ ((blksize &&& cfg.blk.bndMask).toNat / 2 ^ cfg.blk.bndShift)

/-- The transfer registers latched with a command that has data or boot-enable (R55, R171). -/
def latchXfer (word : Word) (s : State) : Option XferLatch :=
  let boot := hasBit s.rb.bgc s.cfg.boot.bgcEn
  if hasBit word s.cfg.cmd.dataPresent || boot then
    some { blksize := s.rb.blksize, blkcnt := s.rb.blkcnt, xfermode := s.rb.xfermode,
           dmaaddr := s.rb.dmaaddr, boot := boot, bootAck := hasBit s.rb.bgc s.cfg.boot.bgcAck }
  else none

/-- The DMA engine a latched transfer starts, when `TM_DMA` is set (R176). Its direction is `TM_READ`'s
(R81). For a boot stream latched with `TM_READ` clear too, which is the model's choice: R179 speaks of the
card's data only (log entry 22). -/
def startDma (cfg : Config) (free : Nat) (x : XferLatch) : Option DmaEngine :=
  if hasBit x.xfermode cfg.xfer.dma then
    some { pos := x.dmaaddr, left := xferLength cfg x free, paused := false,
           toMem := hasBit x.xfermode cfg.xfer.read, fetched := [] }
  else none

/-- The command engine takes up a command word: it latches the word, ARG, TIMEOUTCTL (R69) and, where the
command has data or boot-enable, the transfer registers, and awaits the response the class calls for
(R171); the data-timeout counter starts at TIMEOUTCTL (log entry 35). The free values are the lengths of a
transfer with block count or block size 0 (log entry 32). A command still in flight is replaced, and its DMA engine with
it: R171 and U5 leave open what HW does then, so this is the model's choice (log entry 33); it is reachable
after the buffer-read-ready exit and after a recovery whose reset timed out. -/
def takeUpCommand (kind : RespKind) (index : BitVec 6) (word : Word) (s : State) : State :=
  let x := latchXfer word s
  { s with hid := { s.hid with
      trigger := false
      cmd := some { word := word, index := index, kind := kind, arg := s.rb.arg,
                    timeoutctl := s.rb.timeoutctl, xfer := x,
                    portLeft := match x with
                      | some x => portBlocks s.cfg x (Config.freeWord s.env.steps 15).toNat
                      | none => 0
                    dataCount := s.rb.timeoutctl,
                    respSeen := false, cmdDone := false, busy := false }
      dma := x.bind (startDma s.cfg (Config.freeWord s.env.steps 14).toNat) } }

/-- A command without a transfer leaves the engine when it is complete and the card is not busy (R185); one
with a transfer stays until its data is over (R55, `dataOver`). -/
def InFlight.settle (f : InFlight) : Option InFlight :=
  if f.cmdDone && f.xfer.isNone && !f.busy then none else some f

/-- Command completion: `NIS_CC` is set (R172). -/
def completeCommand (f : InFlight) (s : State) : State :=
  let t := s.raiseNis s.cfg.irq.cc
  { t with hid := { t.hid with cmd := InFlight.settle { f with respSeen := true, cmdDone := true } } }

/-- Class none: the command has been sent (R172). -/
def commandSent (s : State) : State :=
  match s.hid.cmd with
  | some f => if cardLive s && f.kind = .none && !f.cmdDone then completeCommand f s else s
  | none => s

/-- The response arrives: RESP is loaded first, then `NIS_CC` set; for class 48B only once the card
has released busy (R172). A class-48 command after which the card is still busy stays in flight (R185, log
entry 40). -/
def responseArrives (r0 r1 r2 r3 : Word) (busy : Bool) (s : State) : State :=
  match s.hid.cmd with
  | some f =>
    if cardLive s && !f.respSeen then
      match f.kind with
      | .r48 => completeCommand { f with busy := busy } (s.loadReg .resp0 r0)
      | .r136 =>
        completeCommand f
          ((((s.loadReg .resp0 r0).loadReg .resp1 r1).loadReg .resp2 r2).loadReg .resp3 r3)
      | .r48b =>
        let t := s.loadReg .resp0 r0
        { t with hid := { t.hid with cmd := some { f with respSeen := true } } }
      | .none => s
      | .reserved => s
    else s
  | none => s

/-- The card releases busy: a class-48B command is complete (R172), a class-48 command that was complete
leaves the engine (R185). -/
def busyReleased (s : State) : State :=
  match s.hid.cmd with
  | some f =>
    if cardLive s && f.kind = .r48b && f.respSeen && !f.cmdDone then completeCommand f s
    else if cardLive s && f.busy then
      { s with hid := { s.hid with cmd := InFlight.settle { f with busy := false } } }
    else s
  | none => s

/-- An error, with the details of an automatic stop command (R175). That the command stays in flight is the
model's choice: R55 has it leave with the last status bit it will produce, and no rule says whether an error is
that (log entry 41). -/
def errorDetected (bits : Word) (acmd12 : Option Word) (s : State) : State :=
  let t := s.raiseError bits
  match acmd12 with
  | some v => t.loadReg .acmd12stat v
  | none => t

/-! ### DMA engine (R176, R177) -/

/-- The data of the command in flight is over: these flags are set and the engines are free (R177, R179), so
nothing is in flight after `NIS_TC` (R185). Where `NIS_CC` has not been set by then, R55, R177 and R179 leave
open whether it still comes: the model's choice is that the command is gone all the same, so only a `flags`
or an oracle event can raise it (log entry 37). -/
def dataOver (flags : Word) (s : State) : State :=
  let t := s.raiseNis flags
  { t with hid := { t.hid with cmd := none, dma := none } }

/-- The transfer is over: `NIS_TC` is set (R177). -/
def transferDone (s : State) : State := dataOver s.cfg.irq.tc s

/-- Whether the transfer ends with an automatic stop command (R177). -/
def needsAutoStop (cfg : Config) (x : XferLatch) : Bool :=
  hasBit x.xfermode cfg.xfer.multi && hasBit x.xfermode cfg.xfer.acmd12

/-- Data can flow: the card is live, and boot mode on for a boot stream (R176, R179). Clearing
`BGC_BOOT_EN` ends boot mode; that a boot command still in flight goes on where it stopped when the bit is set
again, until the next command is taken up, is the model's choice (log entry 39). -/
def dataFlows (x : XferLatch) (s : State) : Bool :=
  cardLive s && (!x.boot || hasBit s.rb.bgc s.cfg.boot.bgcEn)

/-- The latched registers of the transfer and the engine, when the engine can move a byte: data can flow,
the engine is not paused and not finished (R176, R179). A boot stream too moves no byte past its block
count times its block size, which is the model's choice (log entry 22). -/
def movingDma (s : State) : Option (XferLatch × DmaEngine) :=
  match s.hid.cmd, s.hid.dma with
  | some f, some d =>
    match f.xfer with
    | some x =>
      if dataFlows x s && !d.paused && d.left != 0 then some (x, d) else none
    | none => none
  | _, _ => none

/-- After one byte: the end of the transfer (with auto-stop, `NIS_TC` waits for the stop command, R177), a
pause at a boundary with `NIS_DMA` and DMAADDR reading the address reached (R176), or on to the next byte.
For a boot stream what ends it is open (R179): the model's choice is that the engine stops where the block
count runs out, raises no `NIS_DMA` at a boundary there, and waits for the event `bootEnd` (log entry
22). -/
def byteMoved (x : XferLatch) (d : DmaEngine) (s : State) : State :=
  let d' := { d with pos := d.pos + 1, left := d.left - 1 }
  if d'.left = 0 then
    if x.boot || needsAutoStop s.cfg x then { s with hid := { s.hid with dma := some d' } }
    else transferDone s
  else if d'.pos.toNat % dmaBoundary s.cfg x.blksize = 0 then
    let t := (s.loadReg .dmaaddr d'.pos).raiseNis s.cfg.irq.dma
    { t with hid := { t.hid with dma := some { d' with paused := true } } }
  else { s with hid := { s.hid with dma := some d' } }

/-- A read transfer: each byte of the card's stream is stored at the engine's address, at ascending
addresses (R64, R81, R176). -/
def dmaStores : List Byte → State → State
  | [], s => s
  | b :: bs, s =>
    match movingDma s with
    | some (x, d) =>
      if d.toMem then
        dmaStores bs (byteMoved x d { s with mem := Memory.write s.mem d.pos.toNat b })
      else s
    | none => s

/-- A write transfer: the engine fetches bytes at ascending addresses for the card (R64, R81). -/
def dmaFetches : Nat → State → State
  | 0, s => s
  | n + 1, s =>
    match movingDma s with
    | some (x, d) =>
      if d.toMem then s
      else
        dmaFetches n
          (byteMoved x { d with fetched := d.fetched ++ [Memory.read s.mem d.pos.toNat] } s)
    | none => s

/-- A transfer that moves its data through the buffer port: `TM_DMA` clear (R177, R178). -/
def portTransfer (cfg : Config) (f : InFlight) : Option XferLatch :=
  match f.xfer with
  | some x => if hasBit x.xfermode cfg.xfer.dma then none else some x
  | none => none

/-- One block of a transfer without DMA has moved through the buffer port; the bytes themselves pass
outside the block (R6). With the last one the transfer is over, or waits for its automatic stop command
(R177) or, a boot stream, for the event `bootEnd` (R179) (log entry 36). -/
def portBlockMoved (s : State) : State :=
  match s.hid.cmd with
  | some f =>
    match portTransfer s.cfg f with
    | some x =>
      if dataFlows x s && f.portLeft != 0 then
        let f' := { f with portLeft := f.portLeft - 1 }
        if f'.portLeft = 0 && !x.boot && !needsAutoStop s.cfg x then transferDone s
        else { s with hid := { s.hid with cmd := some f' } }
      else s
    | none => s
  | none => s

/-- Whether every block has moved: the DMA engine has no byte left, or, without DMA, the buffer port no
block (R177). -/
def allMoved (cfg : Config) (f : InFlight) (dma : Option DmaEngine) : Bool :=
  match dma with
  | some d => d.left == 0
  | none => (portTransfer cfg f).isSome && f.portLeft == 0

/-- The stop command of a finished multi-block transfer has been sent (R177). -/
def autoStopSent (s : State) : State :=
  match s.hid.cmd with
  | some f =>
    match f.xfer with
    | some x =>
      if cardLive s && allMoved s.cfg f s.hid.dma && needsAutoStop s.cfg x && !x.boot then transferDone s
      else s
    | none => s
  | none => s

/-- A block of a read without DMA is ready at the buffer port (R178). -/
def bufferReady (s : State) : State :=
  match s.hid.cmd with
  | some f =>
    match portTransfer s.cfg f with
    | some x =>
      if dataFlows x s && hasBit x.xfermode s.cfg.xfer.read && f.portLeft != 0 then
        s.raiseNis s.cfg.irq.brr
      else s
    | none => s
  | none => s

/-! ### Data-timeout counter (R202) -/

/-- The command whose data the data-timeout counter watches (R202). -/
def watchedTransfer (s : State) : Option InFlight :=
  match s.hid.cmd with
  | some f => if f.xfer.isSome then some f else none
  | none => none

/-- The data-timeout counter takes another value: how it counts is open (R35, log entry 35). -/
def dataCounterRuns (count : Word) (s : State) : State :=
  match watchedTransfer s with
  | some f => { s with hid := { s.hid with cmd := some { f with dataCount := count } } }
  | none => s

/-- The data-timeout counter expires, which is one of the unnamed errors of EIS (R202): these flags, and
the summary flag (R175). -/
def dataCounterExpires (bits : Word) (s : State) : State :=
  match watchedTransfer s with
  | some _ => s.raiseError bits
  | none => s

/-- Writing DMAADDR moves the engine's position to the written address (R56), and a paused engine resumes
from there (R65, R176). That it goes on with the bytes it had left, where the address is not the one read or the
engine was running, is the model's choice: R176 leaves the first open and no rule speaks of the second (log
entry 42). -/
def resumeDma (v : Word) (s : State) : State :=
  match s.hid.dma with
  | some d => { s with hid := { s.hid with dma := some { d with pos := v, paused := false } } }
  | none => s

/-! ### Boot engine (R179, R181) -/

/-- The boot stream in progress: a boot command in flight and boot mode on (R179), also where boot mode was
off in between, which is the model's choice (log entry 39). -/
def bootStream (s : State) : Option XferLatch :=
  match s.hid.cmd with
  | some f =>
    match f.xfer with
    | some x => if cardLive s && x.boot && hasBit s.rb.bgc s.cfg.boot.bgcEn then some x else none
    | none => none
  | none => none

/-- The boot acknowledge arrives (R179). -/
def bootAckArrives (s : State) : State :=
  match bootStream s with
  | some x => if x.bootAck then s.raiseNis s.cfg.irq.bootAck else s
  | none => s

/-- The boot stream ends: `NIS_BOOT_TERM`, and `NIS_TC` too or not (R179), and the boot command is gone. That
its `NIS_CC`, where not yet set, does not follow is the model's choice (log entry 37). -/
def bootStreamEnds (tc : Bool) (s : State) : State :=
  match bootStream s with
  | some _ =>
    dataOver (if tc then s.cfg.irq.bootTerm ||| s.cfg.irq.tc else s.cfg.irq.bootTerm) s
  | none => s

/-- The armed boot-timeout counter takes another value (R181). -/
def bootCounterRuns (count : Word) (s : State) : State :=
  if s.hid.bootArmed then { s with hid := { s.hid with bootCount := count } } else s

/-- The armed boot-timeout counter expires: any error flags, or none (R181). -/
def bootCounterExpires (bits : Word) (s : State) : State :=
  if s.hid.bootArmed then s.raiseError bits else s

/-! ### The open oracle (R184) -/

/-- A volatile register takes the drawn value, if one is drawn. -/
def drawReg (x : Reg) (v : Option Word) (s : State) : State :=
  match v with
  | some w => s.loadReg x w
  | none => s

/-- The boot-timeout counter takes the drawn value, if one is drawn (R57). -/
def drawCount (v : Option Word) (s : State) : State :=
  match v with
  | some c => { s with hid := { s.hid with bootCount := c } }
  | none => s

/-- One drawn byte, stored at its distance from `pos` when it lies within the first `n` bytes from there. -/
def oracleByte (pos : Word) (n : Nat) (m : List Host.Cell) (kb : Nat × Byte) : List Host.Cell :=
  if kb.1 < n then Memory.write m ((pos.toNat + kb.1) % 2 ^ 32) kb.2 else m

/-- The DMA engine moves a drawn number of the bytes it has left (R56, R166, R225): a read transfer stores
drawn bytes among them, a write transfer fetches them; its position moves on past them, and it is paused or not
as drawn. It is not bound by boundaries, the pause, the card or boot mode (log entry 27). -/
def oracleMoves (moved : Nat) (paused : Option Bool) (stores : List (Nat × Byte)) (s : State) : State :=
  match s.hid.dma with
  | some d =>
    let n := min moved d.left
    let fetched := (List.range n).map fun k => Memory.read s.mem ((d.pos.toNat + k) % 2 ^ 32)
    { s with
      mem := if d.toMem then stores.foldl (oracleByte d.pos n) s.mem else s.mem
      hid := { s.hid with dma := some { d with
        pos := d.pos + BitVec.ofNat 32 n, left := d.left - n, paused := paused.getD d.paused
        fetched := if d.toMem then d.fetched else d.fetched ++ fetched } } }
  | none => s

/-- HW drops the command in flight. -/
def abandonCommand (gone : Bool) (s : State) : State :=
  if gone then { s with hid := { s.hid with cmd := none, dma := none } } else s

/-- One step of the open oracle. Laws of R184: (a) SWRESET bits only fall; (b) of CLKCTL only
`CLK_STABLE` changes; (c) flags are only set, and only where enabled (R38, R39, R174); (d) non-volatile
registers change only by a reset that ends; (e) CAP is constant. -/
def oracleStep (d : OracleDraw) (s : State) : State :=
  let s := endResets d.resetsEnd d.after (d.bootCount.getD s.hid.bootCount) s
  let s := setStable d.stable s
  let s := s.setReg .nis (s.rb.nis ||| trunc (s.cfg.width .nis) (d.nis &&& s.rb.nie))
  let s := s.setReg .eis (s.rb.eis ||| trunc (s.cfg.width .eis) (d.eis &&& s.rb.eie))
  let s := drawReg .blkcnt d.blkcnt s
  let s := drawReg .dmaaddr d.dmaaddr s
  let s := drawReg .resp0 d.resp0 s
  let s := drawReg .resp1 d.resp1 s
  let s := drawReg .resp2 d.resp2 s
  let s := drawReg .resp3 d.resp3 s
  let s := drawReg .acmd12stat d.acmd12 s
  let s := oracleMoves d.moved d.paused d.stores s
  let s := drawCount d.bootCount s
  abandonCommand d.abandon s

/-! ### The agent (R166) -/

/-- One event of HW. -/
def HwEvent.apply : HwEvent → State → State
  | .resetEnds m after count, s => endResets m after count s
  | .clock stable, s => clockReports stable s
  | .commandSent, s => Machine.commandSent s
  | .response r0 r1 r2 r3 busy, s => responseArrives r0 r1 r2 r3 busy s
  | .busyReleased, s => Machine.busyReleased s
  | .flags nis eis, s => (s.raiseError eis).raiseNis nis
  | .error bits acmd12, s => errorDetected bits acmd12 s
  | .dmaIn bytes, s => dmaStores bytes s
  | .dmaOut n, s => dmaFetches n s
  | .portBlock, s => portBlockMoved s
  | .autoStop, s => autoStopSent s
  | .bufferReady, s => Machine.bufferReady s
  | .bootAck, s => bootAckArrives s
  | .bootEnd tc, s => bootStreamEnds tc s
  | .dataTick count, s => dataCounterRuns count s
  | .dataExpires bits, s => dataCounterExpires bits s
  | .bootTick count, s => bootCounterRuns count s
  | .bootExpires bits, s => bootCounterExpires bits s
  | .oracle d, s => oracleStep d s

/-- The drawn registers of step `n` (log entry 3). -/
def freeRegisters (n : Nat) : Registers where
  swreset     := Config.freeWord n 20
  pwrctl      := Config.freeWord n 21
  clkctl      := Config.freeWord n 22
  timeoutctl  := Config.freeWord n 23
  nis         := Config.freeWord n 24
  eis         := Config.freeWord n 25
  nie         := Config.freeWord n 26
  eie         := Config.freeWord n 27
  arg         := Config.freeWord n 28
  cmd         := Config.freeWord n 29
  blksize     := Config.freeWord n 30
  blkcnt      := Config.freeWord n 31
  xfermode    := Config.freeWord n 32
  dmaaddr     := Config.freeWord n 33
  resp0       := Config.freeWord n 34
  resp1       := Config.freeWord n 35
  resp2       := Config.freeWord n 36
  resp3       := Config.freeWord n 37
  cap0        := Config.freeWord n 38
  cap1        := Config.freeWord n 39
  hc          := Config.freeWord n 40
  hc2         := Config.freeWord n 41
  bgc         := Config.freeWord n 42
  boottimeout := Config.freeWord n 43
  acmd12stat  := Config.freeWord n 44

/-- The open oracle's draw for HW's step `n`, when the script has run out (log entry 3). -/
def freeDraw (n : Nat) : OracleDraw where
  resetsEnd := Config.freeWord n 0
  stable    := Config.freeWord n 1 != 0
  nis       := Config.freeWord n 2
  eis       := Config.freeWord n 3
  blkcnt    := some (Config.freeWord n 4)
  dmaaddr   := some (Config.freeWord n 5)
  resp0     := some (Config.freeWord n 6)
  resp1     := some (Config.freeWord n 7)
  resp2     := some (Config.freeWord n 8)
  resp3     := some (Config.freeWord n 9)
  acmd12    := some (Config.freeWord n 10)
  bootCount := some (Config.freeWord n 11)
  abandon   := Config.freeWord n 12 != 0
  moved     := (Config.freeWord n 16).toNat
  paused    := some (Config.freeWord n 17 != 0)
  stores    := (List.range (Config.freeWord n 13).toNat).map fun k =>
                 ((Config.freeWord n (100 + 2 * k)).toNat,
                  (Config.freeWord n (101 + 2 * k)).setWidth 8)
  after     := freeRegisters n

/-- What HW does in its next step: the script's next entry, or a draw. -/
def nextEvents (s : State) : List HwEvent :=
  match s.env.script with
  | evs :: _ => evs
  | [] => [.oracle (freeDraw s.env.steps)]

/-- The script's next entry is used up. -/
def advanceScript (s : State) : State :=
  { s with env := { s.env with script := s.env.script.tail, steps := s.env.steps + 1 } }

/-- HW's step before an access of SEQ (R166, R73). -/
def hwStep (s : State) : State :=
  (nextEvents s).foldl (fun t e => e.apply t) (advanceScript s)

end Sys2Proof.Machine
end

