-- ==== Sys2Proof/Machine/Operands.lean ====
section
/-! DEFINITION. The words SEQ assembles from a request's operands (section 3 of 30_encoding), the
block's arithmetic (R115, R116), voltage selection (R113) and the response reassembly (R148). -/

namespace Sys2Proof.Machine

/-- `RespClass(c)` (R92); a length that is none of `RESP_LENS` gives class bits 0 (R101, log entry 43). -/
def respClass (cfg : Config) (c : Descriptor) : Word :=
  if !cfg.recognises c.respLen then 0
  else if c.respLen = 0 then cfg.cmd.respNone
  else if c.respLen = 128 then cfg.cmd.resp136
  else if c.respLen = 32 then (if c.busy then cfg.cmd.resp48b else cfg.cmd.resp48)
  else 0

/-- `CmdWord(c)` (R91), cut to `W_CMD` bits. -/
def cmdWord (cfg : Config) (c : Descriptor) : Word :=
  trunc cfg.regs.cmd.width
    (respClass cfg c ||| (c.direct.setWidth 32 &&& cfg.cmd.directMask)
      ||| (c.index.setWidth 32 <<< cfg.cmd.indexShift))

/-- `XferWord(c)` (R95). -/
def xferWord (cfg : Config) (c : Descriptor) : Word :=
  (if c.read then cfg.xfer.read else 0) ||| (if c.dma then cfg.xfer.dma else 0)
    ||| (if 1 < c.blkcnt.toNat then cfg.xfer.multi ||| cfg.xfer.bce ||| cfg.xfer.acmd12 else 0)

/-- `BlkSizeWord(c)` (R96): the index alone decides. -/
def blkSizeWord (cfg : Config) (c : Descriptor) : Word :=
  if c.index.toNat = cfg.blk.bootIndex then cfg.blk.bootBoundary ||| cfg.blk.bootSize
  else cfg.blk.defBoundary ||| cfg.blk.defSize

/-- `Meets(base, d, target)` (R116): exact, or after integer division under `DIV_FLOOR`. -/
def divisorMeets (cfg : Config) (base target d : Nat) : Bool :=
  if cfg.clock.divFloor then base / d ≤ target else base ≤ target * d

/-- The scan of R116 over even divisors, at most `fuel` steps. -/
def divisorScan (cfg : Config) (base target : Nat) : Nat → Nat → Nat
  | 0, d => d
  | fuel + 1, d =>
    if d < cfg.clock.maxDivisor && !divisorMeets cfg base target d then
      divisorScan cfg base target fuel (d + 2)
    else d

/-- `Divisor(base, target)` (R116). The scan stops at `MAX_DIVISOR`, so that many steps suffice. -/
def divisor (cfg : Config) (base target : Nat) : Nat :=
  if base ≤ target then 1 else divisorScan cfg base target cfg.clock.maxDivisor 2

/-- `ClkWord1(d)` (R97). -/
def clkWord1 (cfg : Config) (d : Nat) : Word :=
  cfg.clock.encodeDiv.encode (d / 2) ||| cfg.clock.intEn

/-- `PwrWord(v)` (R98); no word for `NONE`. -/
def pwrWord (cfg : Config) : Voltage → Option Word
  | .none => Option.none
  | .v18 => some (cfg.power.on ||| cfg.power.v18)
  | .v30 => some (cfg.power.on ||| cfg.power.v30)
  | .v33 => some (cfg.power.on ||| cfg.power.v33)

/-- The capability bit of a voltage (R17). -/
def Caps.supports (c : Caps) : Voltage → Bool
  | .none => false
  | .v18 => c.v18
  | .v30 => c.v30
  | .v33 => c.v33

/-- `SelectVoltage(H)` (R113): the explicit request, else the first supported voltage of
`VOLT_PREF`. -/
def selectVoltage (cfg : Config) (h : Handle) : Voltage :=
  if h.voltage = .none then (cfg.voltPref.find? h.cap.supports).getD .none else h.voltage

/-- SET_MODE's new HC2 (R99, R127). -/
def hc2Word (cfg : Config) (m : ModeRec) (h2 : Word) : Word :=
  (h2 &&& ~~~cfg.host.uhsMask) ||| ((m.timing <<< cfg.host.uhsShift) &&& cfg.host.uhsMask)

/-- SET_MODE's new HC (R99, R128). -/
def hcWord (cfg : Config) (m : ModeRec) (hc : Word) : Word :=
  let fast := cfg.host.hsThresholdKHz < m.freqKHz.toNat
  let hc := hc &&& ~~~(cfg.host.w4 ||| cfg.host.w8)
  let hc := if cfg.host.hsClearOnLow && !fast then hc &&& ~~~cfg.host.hs else hc
  let hc := if m.width = 4 then hc ||| cfg.host.w4 else hc
  let hc := if m.width = 8 then hc ||| cfg.host.w8 else hc
  if fast then hc ||| cfg.host.hs else hc

/-- SEND_CMD's new BGC for a boot command (R99, R136). -/
def bgcBootOn (cfg : Config) (g : Word) : Word := g ||| (cfg.boot.bgcEn ||| cfg.boot.bgcAck)

/-- BOOT_STOP's new BGC (R99, R162). -/
def bgcBootOff (cfg : Config) (g : Word) : Word := g &&& ~~~cfg.boot.bgcEn

/-- `Reassemble(r3, r2, r1, r0)` (R148). -/
def reassemble (r3 r2 r1 r0 : Word) : RespBuf where
  w0 := (r3 <<< 8) ||| (r2 >>> 24)
  w1 := (r2 <<< 8) ||| (r1 >>> 24)
  w2 := (r1 <<< 8) ||| (r0 >>> 24)
  w3 := r0 <<< 8

end Sys2Proof.Machine
end

