-- ==== Sys2Proof/Machine/Ops.lean ====
section
/-! DEFINITION. The shared operations: the register-access primitives (R10, R65 to R68), time and the
bounded poll (R11, R203, R204), the procedures Reset, SetClock, ClearAll, DmaAck, DecodeResponse (R106),
and, as the block's analogue of taking an exception and returning from it, the failing exit with
`Recover()` (R188, R195) and the successful exit (R142, R198). -/

namespace Sys2Proof.Machine

/-! ### Register accesses -/

/-- Note an access in the trace (R72: accesses stand in the order they are made). -/
def State.note (a : Access) (s : State) : State := { s with trace := s.trace ++ [a] }

/-- What a read of a register returns (R65). No read has a side effect (R70). -/
def State.view (s : State) (x : Reg) : Word :=
  match x with
  | .nis => s.nisValue
  | x => s.rb.get x

/-- Effect of writing `v`, already cut to the register's width, by the register's class (R65) with the
side effects of R69. That a write of BOOTTIMEOUT starts the boot-timeout counter at the written value (0
when it disarms it) is the model's choice, since the spec says neither what it counts nor from where (log
entry 31). -/
def writeEffect (x : Reg) (v : Word) (s : State) : State :=
  match x with
  | .swreset => s.setReg .swreset (s.rb.swreset ||| (v &&& s.cfg.resetMask))
  | .pwrctl =>
    let t := s.setReg .pwrctl v
    { t with hid := { t.hid with powered := hasBit v s.cfg.power.on } }
  | .clkctl =>
    s.setReg .clkctl ((v &&& ~~~s.cfg.clock.stable) ||| (s.rb.clkctl &&& s.cfg.clock.stable))
  | .timeoutctl => s.setReg .timeoutctl v
  | .nis => s.clearNis v
  | .eis => s.clearEis v
  | .nie => s.setReg .nie v
  | .eie => s.setReg .eie v
  | .arg => s.setReg .arg v
  | .cmd =>
    let t := s.setReg .cmd v
    { t with hid := { t.hid with trigger := true } }
  | .blksize => s.setReg .blksize v
  | .blkcnt => s.setReg .blkcnt v
  | .xfermode => s.setReg .xfermode v
  | .dmaaddr => resumeDma v (s.setReg .dmaaddr v)
  | .resp0 => s
  | .resp1 => s
  | .resp2 => s
  | .resp3 => s
  | .cap0 => s
  | .cap1 => s
  | .hc => s.setReg .hc v
  | .hc2 => s.setReg .hc2 v
  | .bgc => s.setReg .bgc v
  | .boottimeout =>
    let t := s.setReg .boottimeout v
    { t with hid := { t.hid with bootArmed := v != 0, bootCount := v } }
  | .acmd12stat => s

/-- `RegRead(X)` (R10): HW may step first, then the access is atomic (R73). -/
def regRead (x : Reg) (s : State) : Word × State :=
  let t := hwStep s
  (t.view x, t.note (.read x (t.view x)))

/-- `RegWrite(X, v)` (R10): HW may step first; `v` is cut to `W_X` bits. -/
def regWrite (x : Reg) (v : Word) (s : State) : State :=
  let t := hwStep s
  let w := trunc (t.cfg.width x) v
  (writeEffect x w t).note (.write x w)

/-- `RegRMW` with the new value computed by `f` (R10): two accesses. -/
def regRmw (x : Reg) (f : Word → Word) (s : State) : State :=
  let r := regRead x s
  regWrite x (f r.1) r.2

/-- The register that stands at a window address with the given access size in bytes, if any
(R63, R66). -/
def regAt (cfg : Config) (base addr : Addr) (n : Nat) : Option Reg :=
  cfg.words.find? fun x => base + BitVec.ofNat 64 (cfg.offset x) == addr && cfg.width x == 8 * n

/-- `MemRead(addr, n)` on the register window (R65, R66). -/
def windowRead (addr : Addr) (n : Nat) (s : State) : Except Refusal (Word × State) :=
  match regAt s.cfg s.h.base addr n with
  | some x => .ok (regRead x s)
  | none => .error .access

/-- `MemWrite(addr, n, v)` on the register window (R65, R66). -/
def windowWrite (addr : Addr) (n : Nat) (v : Word) (s : State) : Except Refusal State :=
  match regAt s.cfg s.h.base addr n with
  | some x => .ok (regWrite x v s)
  | none => .error .access

/-- Handle creation with its checks: a well-formed configuration (R8, R214) and a 4-byte aligned base
(R66). That the configuration is tested first, so that its refusal is the one given where both fail, is the
model's choice (log entry 20). -/
def createHandle (cfg : Config) (base : Addr) (explicit : Voltage) : Except Refusal State :=
  if !cfg.wf then .error .config
  else if base.toNat % 4 != 0 then .error .access
  else .ok (State.created cfg base explicit)

/-! ### Time and polling -/

/-- `Now()`: the clock moves by the script's next amount, or by a drawn one, and is sampled (R203). -/
def sampleClock (s : State) : State :=
  let dt := match s.env.deltas with
    | d :: _ => d
    | [] => Config.freeDelta s.env.samples
  { s with env := { s.env with
      deltas := s.env.deltas.tail, samples := s.env.samples + 1, now := s.env.now + dt } }

/-- A sample that shows the time `t` passed: the progress of R203, assumed where the environment's
script is used up and a wait has still not ended (log entry 6). -/
def sampleClockPast (t : Nat) (s : State) : State :=
  let u := sampleClock s
  { u with env := { u.env with now := max u.env.now (t + 1) } }

/-- The iterations of `Poll` (R11): the deadline is tested first, strictly; then one read. Every
iteration uses one entry of the script; when `fuel` runs out the script is used up, and the wait ends in
a timeout (R11: a poll is `OK(v)` or `TIMEOUT`, as the environment chooses; log entry 6). -/
def pollLoop (x : Reg) (cond : Word → Bool) (budget t0 : Nat) : Nat → State → Option Word × State
  | 0, s => (none, sampleClockPast (t0 + budget) s)
  | fuel + 1, s =>
    let s := sampleClock s
    if budget < s.env.now - t0 then (none, s)
    else
      let r := regRead x s
      if cond r.1 then (some r.1, r.2) else pollLoop x cond budget t0 fuel r.2

/-- Iterations enough to use up the script. -/
def waitFuel (s : State) : Nat := s.env.script.length + 1

/-- `Poll(X, cond, budget)` (R11): `some v` is `OK(v)`, `none` is `TIMEOUT`. -/
def poll (x : Reg) (cond : Word → Bool) (budget : Nat) (s : State) : Option Word × State :=
  let s := sampleClock s
  pollLoop x cond budget s.env.now (waitFuel s) s

/-! ### The log and the reply -/

/-- `Log(cause, values)` (R207). -/
def State.logged (cause : Cause) (values : List Word) (s : State) : State :=
  { s with log := s.log ++ [⟨cause, values⟩] }

/-- What the operation hands back to the caller (R22). -/
def State.replied (r : Reply) (s : State) : State := { s with reply := r }

/-- The sequencer comes to rest: `seq` and with it the descriptor of the outstanding command (R25). -/
def State.settled (q : SeqState) (s : State) : State := { s with seq := q, sent := none }

/-! ### Procedures -/

/-- `Reset(mask)` (R111): true when the written bits read 0 in time. -/
def resetProc (m : Word) (s : State) : Bool × State :=
  let s := regWrite .swreset m s
  let r := poll .swreset (fun v => v &&& m == 0) s.cfg.budgets.tReset s
  (r.1.isSome, if r.1.isSome then r.2 else r.2.logged .resetTimeout [m])

/-- `ClearAll()` (R120): NIS, then EIS. -/
def clearAll (s : State) : State :=
  let s := regWrite .nis s.cfg.irq.nisAll s
  regWrite .eis s.cfg.irq.eisAll s

/-- `SetClock(H, khz)` (R117): true when the clock became stable in time; a timeout is logged
(R186). -/
def setClock (khz : Nat) (s : State) : Bool × State :=
  let d := divisor s.cfg s.h.cap.baseKHz.toNat khz
  let s := regWrite .clkctl (clkWord1 s.cfg d) s
  let r := poll .clkctl (fun v => hasBit v s.cfg.clock.stable) s.cfg.budgets.tClk s
  (r.1.isSome,
    match r.1 with
    | some v => regWrite .clkctl (v ||| r.2.cfg.clock.cardEn) r.2
    | none => r.2.logged .clockTimeout [])

/-- `DmaAck()` (R152): the address read is written back, then `NIS_DMA` is cleared. -/
def dmaAck (s : State) : Word × State :=
  let r := regRead .dmaaddr s
  let s := regWrite .dmaaddr r.1 r.2
  (r.1, regWrite .nis s.cfg.irq.dma s)

/-- `DecodeResponse(c)` (R147 to R149); a length that is none of `RESP_LENS` decodes nothing (R101,
log entry 43). -/
def decodeResponse (c : Descriptor) (s : State) : State :=
  if !s.cfg.recognises c.respLen then s
  else if c.respLen = 128 then
    let r3 := regRead .resp3 s
    let r2 := regRead .resp2 r3.2
    let r1 := regRead .resp1 r2.2
    let r0 := regRead .resp0 r1.2
    { r0.2 with respBuf := reassemble r3.1 r2.1 r1.1 r0.1 }
  else if c.respLen = 32 then
    let r0 := regRead .resp0 s
    { r0.2 with respBuf := { r0.2.respBuf with w0 := r0.1 } }
  else s

/-! ### Failing and succeeding -/

/-- `Recover()` (R195): the data+command reset, its result ignored, then the status cleared. -/
def recover (s : State) : State :=
  clearAll (resetProc s.cfg.dcMask s).2

/-- The failing exit of WAIT_CMD (R142 `Fail()`, R188): log the cause, recover, `seq <- IDLE`, FAIL. -/
def failWith (cause : Cause) (values : List Word) (s : State) : State :=
  ((recover (s.logged cause values)).settled .idle).replied .fail

/-- The successful exit of WAIT_CMD (R142 `Succeed(next)`). -/
def succeed (q : SeqState) (s : State) : State := (s.settled q).replied .ok

end Sys2Proof.Machine
end

