-- ==== Sys2Proof/Machine/Boot.lean ====
section
/-! DEFINITION. The boot-stream helpers (BOOT_WAIT, BOOT_STOP, 44_boot). -/

namespace Sys2Proof.Machine

/-- The body of BOOT_WAIT (R158): NIS is read once; a pending DMA interrupt is acknowledged. -/
def runBootWait (s : State) : State :=
  let q := regRead .nis s
  let term := hasBit q.1 q.2.cfg.irq.bootTerm
  if hasBit q.1 q.2.cfg.irq.dma then
    let a := dmaAck q.2
    a.2.replied (.boot term (some a.1))
  else q.2.replied (.boot term none)

/-- BOOT_WAIT (R158), in STREAMING only (R25). -/
def execBootWait (s : State) : Host.Outcome State Fault Refusal :=
  if s.seq = .streaming then .next (runBootWait s) else .refused .sequence

/-- The body of BOOT_STOP (R162): boot-enable, then status, then the reset. -/
def runBootStop (s : State) : State :=
  let s := regRmw .bgc (bgcBootOff s.cfg) s
  let s := clearAll s
  let s := (resetProc s.cfg.dcMask s).2
  (s.settled .idle).replied .none

/-- BOOT_STOP (R162): accepted in every sequencer state. -/
def execBootStop (s : State) : Host.Outcome State Fault Refusal := .next (runBootStop s)

end Sys2Proof.Machine
end

