-- ==== Sys2Proof/Machine/Bringup.lean ====
section
/-! DEFINITION. Controller bring-up (INIT, 40_bringup) and mode configuration (SET_MODE, 41_mode). -/

namespace Sys2Proof.Machine

/-- Voltage selection and the power sequence (R113, R114): PWRCTL is written 0, then, when a voltage was
selected, its word. -/
def powerUp (s : State) : State :=
  let v := selectVoltage s.cfg s.h
  let s := regWrite .pwrctl 0 s
  let s := match pwrWord s.cfg v with
    | some w => regWrite .pwrctl w s
    | none => s
  { s with h := { s.h with voltage := v } }

/-- The end of a successful bring-up (R119 to R121): timeout control, status cleared, then the enables
set. -/
def finishInit (s : State) : State :=
  let s := regWrite .timeoutctl s.cfg.timeoutValue s
  let s := clearAll s
  let s := regWrite .nie s.cfg.irq.nieAll s
  let s := regWrite .eie s.cfg.irq.eieAll s
  { s with h := { s.h with ready := true } }

/-- INIT starts in any sequencer state and leaves IDLE (R25, R110). -/
def startInit (s : State) : State :=
  { s with h := { s.h with ready := false }, seq := .idle, sent := none }

/-- The body of INIT (R110). -/
def runInit (s : State) : State :=
  let r := resetProc s.cfg.reset.all (startInit s)
  if r.1 then
    let p := powerUp r.2
    let k := setClock p.cfg.clock.initTargetKHz p
    if k.1 then (finishInit k.2).replied .ok else k.2.replied .fail
  else r.2.replied .fail

/-- INIT (R110): always runs to its result. -/
def execInit (s : State) : Host.Outcome State Fault Refusal := .next (runInit s)

/-- The body of SET_MODE (R125): the clock, then HC2, then HC. -/
def runSetMode (m : ModeRec) (s : State) : State :=
  let k := setClock m.freqKHz.toNat s
  if k.1 then
    let s := regRmw .hc2 (hc2Word k.2.cfg m) k.2
    let s := regRmw .hc (hcWord s.cfg m) s
    s.replied .ok
  else k.2.replied .fail

/-- SET_MODE (R125): its operands are checked (R102), then `seq = IDLE` (R25). -/
def execSetMode (m : ModeRec) (s : State) : Host.Outcome State Fault Refusal :=
  if !m.widthOk then .refused .width
  else if !m.timingOk s.cfg then .refused .timing
  else if s.seq = .idle then .next (runSetMode m s)
  else .refused .sequence

end Sys2Proof.Machine
end

