-- ==== Sys2Proof/Machine/Command.lean ====
section
/-! DEFINITION. Command dispatch (SEND_CMD, 42_dispatch) and the completion wait (WAIT_CMD, 43_wait). -/

namespace Sys2Proof.Machine

/-- Boot arming (R136): the boot-timeout counter, then both boot bits of BGC. -/
def armBoot (s : State) : State :=
  let s := regWrite .boottimeout s.cfg.boot.timeoutValue s
  regRmw .bgc (bgcBootOn s.cfg) s

/-- The transfer block (R134 to R136): BLKCNT, DMAADDR, BLKSIZE, XFERMODE, in this order. -/
def programTransfer (c : Descriptor) (s : State) : State :=
  let s := regWrite .blkcnt (c.blkcnt.setWidth 32) s
  let s := regWrite .dmaaddr c.dmaAddr s
  let s := regWrite .blksize (blkSizeWord s.cfg c) s
  let s := regWrite .xfermode (xferWord s.cfg c) s
  if c.bootEn then armBoot s else s

/-- The body of SEND_CMD (R132): the command register is written last (R139). -/
def runSendCmd (c : Descriptor) (s : State) : State :=
  let s := regWrite .nis s.cfg.irq.nisAll s
  let s := if c.dataXfer || c.bootEn then programTransfer c s else s
  let s := regWrite .arg c.arg s
  let s := regWrite .cmd (cmdWord s.cfg c) s
  { s with seq := .issued, sent := some c, reply := .none }

/-- SEND_CMD (R132): the index is checked (R94), then `seq = IDLE` and `H.ready = 1` (R25). -/
def execSendCmd (c : Descriptor) (s : State) : Host.Outcome State Fault Refusal :=
  if !c.wf then .refused .index
  else if s.seq = .idle ∧ s.h.ready = true then .next (runSendCmd c s)
  else .refused .sequence

/-- The boot branch (R150). -/
def waitBoot (nis : Word) (s : State) : State :=
  if hasBit nis s.cfg.irq.bootAck then
    let s := regWrite .boottimeout 0 s
    let s := regWrite .nis s.cfg.irq.bootAck s
    succeed .streaming s
  else failWith .bootNoAck [nis] s

/-- The iterations of the data branch (R151): deadline, EIS, `NIS_DMA`, `NIS_BRR`, `NIS_TC`, in this
order. As in `pollLoop`, `fuel` iterations use up the script, and then the deadline passes. -/
def dataLoop (t0 : Nat) : Nat → State → State
  | 0, s => failWith .dataTimeout [] (sampleClockPast (t0 + s.cfg.budgets.tData) s)
  | fuel + 1, s =>
    let s := sampleClock s
    if s.cfg.budgets.tData < s.env.now - t0 then failWith .dataTimeout [] s
    else
      let e := regRead .eis s
      if e.1 != 0 then
        let a := regRead .acmd12stat e.2
        failWith .hwError [e.1, a.1] a.2
      else
        let q := regRead .nis e.2
        let s := if hasBit q.1 q.2.cfg.irq.dma then (dmaAck q.2).2 else q.2
        if hasBit q.1 s.cfg.irq.brr then succeed .idle (regWrite .nis s.cfg.irq.brr s)
        else if hasBit q.1 s.cfg.irq.tc then succeed .idle (regWrite .nis s.cfg.irq.tc s)
        else dataLoop t0 fuel s

/-- The data branch (R151): its budget starts when the branch starts. -/
def waitData (s : State) : State :=
  let s := sampleClock s
  dataLoop s.env.now (waitFuel s) s

/-- The non-data branch (R145): the error flag first, then command-complete; with neither the spec says
to fault (R155). -/
def waitNonData (c : Descriptor) (nis : Word) (s : State) : Host.Outcome State Fault Refusal :=
  if hasBit nis s.cfg.irq.err then .next (failWith .hwError [nis] s)
  else if hasBit nis s.cfg.irq.cc then
    let s := decodeResponse c s
    .next (succeed .idle (regWrite .nis s.cfg.irq.cc s))
  else .fault .waitNeitherErrorNorComplete

/-- The body of WAIT_CMD (R142, R143): the top-level wait, then the branch the descriptor selects. -/
def runWaitCmd (c : Descriptor) (s : State) : Host.Outcome State Fault Refusal :=
  let r := poll .nis (fun v => v != 0) s.cfg.budgets.tCmd s
  match r.1 with
  | none => .next (failWith .cmdTimeout [] r.2)
  | some nis =>
    if c.bootEn then .next (waitBoot nis r.2)
    else if c.dataXfer then .next (waitData r.2)
    else waitNonData c nis r.2

/-- WAIT_CMD (R142): the index is checked (R94), then `seq = ISSUED` with the descriptor that was sent
(R25, R76). -/
def execWaitCmd (c : Descriptor) (s : State) : Host.Outcome State Fault Refusal :=
  if !c.wf then .refused .index
  else if s.seq = .issued ∧ s.sent = some c then runWaitCmd c s
  else .refused .sequence

end Sys2Proof.Machine
end

