-- ==== Sys2Proof/Machine/Engine.lean ====
section
/-! DEFINITION. The command engine taking up a command word (group CMDW of the opcode table): what HW
does when CMD has been written (R104, R171), one response class each. The response itself arrives later,
as an event of HW (R172, `Machine/Hw.lean`). -/

namespace Sys2Proof.Machine

/-- Class none: no response is awaited (R104). -/
def execCmdwRespNone (index : BitVec 6) (direct : BitVec 16) (s : State) :
    Host.Outcome State Fault Refusal :=
  .next (takeUpCommand .none index (encodeCommand s.cfg s.cfg.cmd.respNone index direct) s)

/-- Class 136: a 136-bit response will be received into RESP[0..3] (R104). -/
def execCmdwResp136 (index : BitVec 6) (direct : BitVec 16) (s : State) :
    Host.Outcome State Fault Refusal :=
  .next (takeUpCommand .r136 index (encodeCommand s.cfg s.cfg.cmd.resp136 index direct) s)

/-- Class 48: a 48-bit response will be received into RESP[0] (R104). -/
def execCmdwResp48 (index : BitVec 6) (direct : BitVec 16) (s : State) :
    Host.Outcome State Fault Refusal :=
  .next (takeUpCommand .r48 index (encodeCommand s.cfg s.cfg.cmd.resp48 index direct) s)

/-- Class 48B: as class 48, but the command is complete only after the card releases busy (R104). -/
def execCmdwResp48b (index : BitVec 6) (direct : BitVec 16) (s : State) :
    Host.Outcome State Fault Refusal :=
  .next (takeUpCommand .r48b index (encodeCommand s.cfg s.cfg.cmd.resp48b index direct) s)

end Sys2Proof.Machine
end

