-- ==== Sys2Proof/Machine/Dispatch.lean ====
section
/-! DEFINITION. One arm per instruction. -/

namespace Sys2Proof.Machine

def exec (i : Instr) (s : State) : Host.Outcome State Fault Refusal :=
  match i with
  | .init => Sys2Proof.Machine.execInit s
  | .sendCmd c => Sys2Proof.Machine.execSendCmd c s
  | .waitCmd c => Sys2Proof.Machine.execWaitCmd c s
  | .bootWait => Sys2Proof.Machine.execBootWait s
  | .bootStop => Sys2Proof.Machine.execBootStop s
  | .setMode m => Sys2Proof.Machine.execSetMode m s
  | .cmdwRespNone index direct => Sys2Proof.Machine.execCmdwRespNone index direct s
  | .cmdwResp136 index direct => Sys2Proof.Machine.execCmdwResp136 index direct s
  | .cmdwResp48 index direct => Sys2Proof.Machine.execCmdwResp48 index direct s
  | .cmdwResp48b index direct => Sys2Proof.Machine.execCmdwResp48b index direct s

end Sys2Proof.Machine
end

