-- ==== Sys2Proof/Machine/Fetch.lean ====
section
/-! DEFINITION. Which agent moves next, and what it moves on: HW's command engine, when CMD has been
written and the command not yet taken up; else SEQ, on the caller's next request; else nothing but HW
(R13, R166, R208). The step only calls what is here. -/

namespace Sys2Proof.Machine

/-- A decoding error as the refusal the spec names (R88, R94, R102). A reserved response class never
reaches this: `commandUnknown` gives it its meaning. -/
def refusalOf : DecodeError → Refusal
  | .opcode => .opcode
  | .index => .index
  | .width => .width
  | .timing => .timing
  | .reservedClass => .opcode

/-- CMD holds a response class that is none of the four: what HW does with it is unspecified (R104, U4),
so the command is in flight with class `reserved`, and only the open oracle can end it. -/
def commandUnknown (s : State) : State :=
  takeUpCommand .reserved (commandIndex s.cfg s.rb.cmd) s.rb.cmd s

/-- The caller's next request is taken from the port. -/
def requestTaken (s : State) : State := { s with port := s.port.tail }

/-- Store a request word at the head of the caller's port, and make it SEQ's turn. -/
def placeRequest (w : BitVec 128) (s : State) : State :=
  { s with port := w :: s.port, hid := { s.hid with trigger := false } }

/-- Store a command word in CMD, written and not yet taken up. -/
def placeCommand (w : Word) (s : State) : State :=
  let t := s.loadReg .cmd w
  { t with hid := { t.hid with trigger := true } }

end Sys2Proof.Machine
end

