-- ==== Sys2Proof/Machine/Step.lean ====
section
/-! DEFINITION. One step of the machine, and how an instruction is placed where the next step takes it
from. -/

namespace Sys2Proof.Machine

/-- One step (R13, R24, R166): the command engine takes up a command SEQ has just written; else SEQ runs
the caller's next request to its result; else, with no request, HW steps alone (R208). -/
def step (s : State) : Host.Outcome State Fault Refusal :=
  if s.hid.trigger then
    match decodeCommand s.cfg s.rb.cmd with
    | .ok i => exec i s
    | .error _ => .next (commandUnknown s)
  else
    match s.port with
    | w :: _ =>
      match decodeRequest s.cfg w with
      | .ok i => exec i (requestTaken s)
      | .error e => .refused (refusalOf e)
    | [] => .next (hwStep s)

/-- `s` with an opcode-table word placed where the next step takes its instruction from: a request at
the head of the port, or a command word just written to CMD (log entry 7). -/
def State.withFetchWord (s : State) (nbits w : Nat) : State :=
  match codedOfTable nbits w with
  | .request r => placeRequest r s
  | .command c => placeCommand c s

end Sys2Proof.Machine
end

