-- ==== Sys2Proof/Safety.lean ====
section
/-! DEFINITION. What counts as a good state and a safe run: the invariant every step keeps, and the
named conditions the statements speak of. -/

namespace Sys2Proof

/-- Every bit of `a` is a bit of `b`. -/
def Below (a b : Word) : Prop := a &&& ~~~b = 0

end Sys2Proof

namespace Sys2Proof.Machine

/-- Every register holds a value of its own width (R7, R10). -/
def RegsFit (s : State) : Prop := ∀ x, fits (s.cfg.width x) (s.rb.get x) = true

/-- A DMA engine runs only for a command in flight that has a transfer (R56, R171, R177). -/
def DmaOwned (s : State) : Prop :=
  ∀ d, s.hid.dma = some d → ∃ f, s.hid.cmd = some f ∧ f.xfer.isSome = true

/-- No transfer in progress stores to system memory: no DMA engine, or one that only fetches. -/
def NoStore (s : State) : Prop := ∀ d, s.hid.dma = some d → d.toMem = false

/-- A system address that is none of the bytes a read transfer in progress has still to move. -/
def Outside (s : State) (a : Nat) : Prop :=
  ∀ d, s.hid.dma = some d → d.toMem = true → ∀ k, k < d.left → a ≠ (d.pos.toNat + k) % 2 ^ 32

/-- The instructions that never write DMAADDR, so never resume a paused DMA engine (R82): all but a
SEND_CMD with a transfer block, a data WAIT_CMD and BOOT_WAIT. -/
def neverResumes : Instr → Bool
  | .init => true
  | .sendCmd c => !c.dataXfer && !c.bootEn
  | .waitCmd c => c.bootEn || !c.dataXfer
  | .bootWait => false
  | .bootStop => true
  | .setMode _ => true
  | .cmdwRespNone _ _ => true
  | .cmdwResp136 _ _ => true
  | .cmdwResp48 _ _ => true
  | .cmdwResp48b _ _ => true

/-- No reset is in progress: every named bit of SWRESET reads 0 (R32). -/
def NoReset (s : State) : Prop := hasBit s.rb.swreset s.cfg.resetMask = false

/-- No full reset is in progress. -/
def NoFullReset (s : State) : Prop := hasBit s.rb.swreset s.cfg.reset.all = false

/-- HW clears no flag (R169, R173, R184 c): no reset is in progress, or only a data+command reset that the
configuration says leaves flags alone (log entry 14). -/
def KeepsFlags (s : State) : Prop := NoFullReset s ∧ (s.cfg.dcKeepsFlags = true ∨ NoReset s)

/-- The block is quiescent (R185): `seq = IDLE`, no reset in progress, no command in flight or about to
be taken up. -/
def Quiescent (s : State) : Prop :=
  s.seq = .idle ∧ NoReset s ∧ s.hid.cmd = none ∧ s.hid.trigger = false

/-- The registers HW never changes short of a full reset (R166, R169), CLKCTL apart. -/
def steadyRegs : List Reg := [.pwrctl, .timeoutctl, .nie, .eie, .hc, .hc2, .bgc, .boottimeout]

/-- The registers HW never changes short of a reset of either kind (R166, R169). -/
def latchedRegs : List Reg := [.arg, .cmd, .blksize, .xfermode]

/-- CLKCTL less the bit that is HW's own (R34). -/
def clkBits (s : State) : Word := s.rb.clkctl &&& ~~~s.cfg.clock.stable

/-- What a transfer adds to NIS when it is over: `NIS_TC`, where enabled (R174, R177). -/
def tcBit (s : State) : Word := trunc (s.cfg.width .nis) (s.cfg.irq.tc &&& s.rb.nie)

/-- A list of accesses that only reads register `x`: what a poll does (R11, R82). -/
def OnlyReads (x : Reg) (l : List Access) : Prop := ∀ a ∈ l, ∃ v, a = .read x v

/-- `RegWrite(X, v)` as it stands in the trace: the value is cut to the register's width (R10). -/
def wrote (cfg : Config) (x : Reg) (v : Word) : Access := .write x (trunc (cfg.width x) v)

/-- The accesses of `Reset(mask)`, with `l` the reads of its poll (R111). -/
def resetAccesses (cfg : Config) (m : Word) (l : List Access) : List Access := wrote cfg .swreset m :: l

/-- The accesses of `ClearAll()` (R120). -/
def clearAllAccesses (cfg : Config) : List Access :=
  [wrote cfg .nis cfg.irq.nisAll, wrote cfg .eis cfg.irq.eisAll]

/-- The accesses of `Recover()`, with `l` the reads of the reset's poll (R195). -/
def recoverAccesses (cfg : Config) (l : List Access) : List Access :=
  resetAccesses cfg cfg.dcMask l ++ clearAllAccesses cfg

/-- The accesses of `DmaAck()` that reads `a` (R152). -/
def dmaAckAccesses (cfg : Config) (a : Word) : List Access :=
  [.read .dmaaddr a, wrote cfg .dmaaddr a, wrote cfg .nis cfg.irq.dma]

/-- The writes of the power sequence for a selected voltage: 0 first, then, for a voltage, on and its
code (R98, R114). -/
def powerAccesses (cfg : Config) : Voltage → List Access
  | .none => [wrote cfg .pwrctl 0]
  | .v18 => [wrote cfg .pwrctl 0, wrote cfg .pwrctl (cfg.power.on ||| cfg.power.v18)]
  | .v30 => [wrote cfg .pwrctl 0, wrote cfg .pwrctl (cfg.power.on ||| cfg.power.v30)]
  | .v33 => [wrote cfg .pwrctl 0, wrote cfg .pwrctl (cfg.power.on ||| cfg.power.v33)]

/-- The accesses of one round of the data wait that finds no error, `q` what NIS read and `a` what
DMAADDR read if `NIS_DMA` was set (R151, R152). -/
def roundAccesses (cfg : Config) (q a : Word) : List Access :=
  [.read .eis 0, .read .nis q] ++ (if hasBit q cfg.irq.dma then dmaAckAccesses cfg a else [])

/-- Any number of rounds of the data wait that end it neither way (R151). -/
inductive QuietRounds (cfg : Config) : List Access → Prop
  | none : QuietRounds cfg []
  | more (q a : Word) (l : List Access) (hb : hasBit q cfg.irq.brr = false)
      (ht : hasBit q cfg.irq.tc = false) (hl : QuietRounds cfg l) :
      QuietRounds cfg (roundAccesses cfg q a ++ l)

/-- The log of an operation that contains one data+command reset: as it was, with one more event when
the reset timed out (R111, R186). -/
def resetLog (cfg : Config) (log log' : List LogEvent) : Prop :=
  log' = log ∨ log' = log ++ [⟨.resetTimeout, [cfg.dcMask]⟩]

/-- The writes of a list of accesses. -/
def writesOf : List Access → List (Reg × Word)
  | [] => []
  | .write x v :: l => (x, v) :: writesOf l
  | .read _ _ :: l => writesOf l

/-- The invariant of the machine. -/
structure Invariant (s : State) : Prop where
  /-- the configuration is well-formed (R8) -/
  cfgWf     : s.cfg.wf = true
  /-- the register window is 4-byte aligned (R66) -/
  baseOk    : s.h.base.toNat % 4 = 0
  /-- the handle holds what the capability registers say, and they are constant (R17, R47) -/
  caps      : s.h.cap = discoveredCaps s.cfg
  cap0      : s.rb.cap0 = s.cfg.cap.cap0
  cap1      : s.rb.cap1 = s.cfg.cap.cap1
  /-- registers hold values of their own width -/
  regsFit   : RegsFit s
  /-- only named bits of SWRESET ever read 1 (R32) -/
  resetBits : s.rb.swreset &&& ~~~s.cfg.resetMask = 0
  /-- system memory is in canonical form -/
  memWf     : Memory.wf s.mem = true
  /-- a DMA engine belongs to a command in flight -/
  dmaOwned  : DmaOwned s
  /-- a descriptor is outstanding exactly in ISSUED (R24, R25) -/
  sentIff   : s.seq = .issued ↔ s.sent.isSome = true
  /-- no command was dispatched before an INIT returned OK (R218, R222) -/
  readyOut  : s.seq ≠ .idle → s.h.ready = true

/-- A step that does not end in a fault. -/
def SafeStep (s : State) : Prop := ∀ f, step s ≠ .fault f

end Sys2Proof.Machine
end

