-- ==== Sys2Proof/Certificates/Slice0/Obligations.lean ====
section
/-! DEFINITION. The statements for the provers. -/

open Sys2Proof Sys2Proof.Machine

/-! ### Encoding and the step -/

/-- Every well-formed instruction is what its encoding decodes to, under every well-formed
configuration. The command words' layout is R89 and R91; the request words' layout is the model's own
(log entry 4). -/
def Obligations.DecodeInvertsEncode : Prop :=
  ∀ (cfg : Config) (i : Instr), cfg.wf = true → i.wf cfg = true → decode cfg (encode cfg i) = .ok i

/-- R91 to R94: the command word SEND_CMD writes carries the index, the direct bits inside `DIRECT_MASK`
and the one class code `RespClass` selects; a length that is none of `RESP_LENS`, or none of 0, 32, 128,
leaves the class bits 0 (R101; that a length of R92 which `RESP_LENS` lacks counts so is the model's choice, log
entry 43). -/
def Obligations.CommandWordCarriesItsParts : Prop :=
  ∀ (cfg : Config) (c : Descriptor), cfg.wf = true → c.wf = true →
    commandIndex cfg (cmdWord cfg c) = c.index.setWidth 6 ∧
    commandDirect cfg (cmdWord cfg c) = c.direct &&& cfg.cmd.directMask.setWidth 16 ∧
    (cfg.recognises c.respLen = true →
      (c.respLen = 0 → commandClass cfg (cmdWord cfg c) = cfg.cmd.respNone) ∧
      (c.respLen = 128 → commandClass cfg (cmdWord cfg c) = cfg.cmd.resp136) ∧
      (c.respLen = 32 → c.busy = true → commandClass cfg (cmdWord cfg c) = cfg.cmd.resp48b) ∧
      (c.respLen = 32 → c.busy = false → commandClass cfg (cmdWord cfg c) = cfg.cmd.resp48) ∧
      (c.respLen ≠ 0 → c.respLen ≠ 128 → c.respLen ≠ 32 → commandClass cfg (cmdWord cfg c) = 0)) ∧
    (cfg.recognises c.respLen = false → commandClass cfg (cmdWord cfg c) = 0)

/-- Words written out from R85, R89 and the vectors V-ENC decode to the instructions they stand for. The
operand bits of the two request words with operands are the model's (log entry 4). -/
def Obligations.TableWordsDecodeAsTheSpecSays : Prop :=
  decodeTableWord 8 0 = some .init ∧ decodeTableWord 8 3 = some .bootWait ∧
  decodeTableWord 8 4 = some .bootStop ∧ decodeTableWord 8 6 = none ∧ decodeTableWord 8 7 = none ∧
  decodeTableWord 8 5 = some (.setMode ⟨0, 0, 1⟩) ∧
  decodeTableWord 8 1 =
    some (.sendCmd ⟨0, 0, false, false, false, false, false, 0, 0, 0, 0⟩) ∧
  decodeTableWord 8 2 =
    some (.waitCmd ⟨0, 0, false, false, false, false, false, 0, 0, 0, 0⟩) ∧
  decodeTableWord 16 0x0500 = some (.cmdwRespNone 5 0) ∧
  decodeTableWord 16 0x0209 = some (.cmdwResp136 2 0x08) ∧
  decodeTableWord 16 0x0D1A = some (.cmdwResp48 13 0x18) ∧
  decodeTableWord 16 0x061B = some (.cmdwResp48b 6 0x18)

/-- A step runs the instruction decoded: the command word in CMD when one was just written, else the
caller's next request; a command word of a reserved class is taken up as such; with neither, HW moves. The
model's own: the port that requests wait on (log entry 7), the take-up as a step of its own (log entries 8, 9),
that a command of a reserved class is in flight as one (log entry 26), and a step of HW alone (log entry 25). -/
def Obligations.StepRunsTheDecodedInstruction : Prop :=
  ∀ s : State,
    (s.hid.trigger = true →
      (∀ i, decodeCommand s.cfg s.rb.cmd = .ok i → step s = exec i s) ∧
      (∀ e, decodeCommand s.cfg s.rb.cmd = .error e → step s = .next (commandUnknown s))) ∧
    (s.hid.trigger = false →
      (∀ w r, s.port = w :: r →
        (∀ i, decodeRequest s.cfg w = .ok i → step s = exec i { s with port := r }) ∧
        (∀ e, decodeRequest s.cfg w = .error e → step s = .refused (refusalOf e))) ∧
      (s.port = [] → step s = .next (hwStep s)))

/-- An instruction placed where the step takes it from is the one the next step runs. How a word comes
to be there is the model's choice (log entry 7). -/
def Obligations.PlacedInstructionRuns : Prop :=
  ∀ (s : State) (i : Instr), s.cfg.wf = true → i.wf s.cfg = true →
    (∀ w, encode s.cfg i = .request w →
      step (placeRequest w s) = exec i { s with hid := { s.hid with trigger := false } }) ∧
    (∀ w, encode s.cfg i = .command w → step (placeCommand w s) = exec i (placeCommand w s))

/-- R88: op codes 0b110 and 0b111 are refused, with no access made. -/
def Obligations.UnassignedOpcodesRefused : Prop :=
  ∀ (s : State) (w : BitVec 128) (r : List (BitVec 128)),
    s.hid.trigger = false → s.port = w :: r → (w.toNat % 8 = 6 ∨ w.toNat % 8 = 7) →
    step s = .refused .opcode

/-- R94, R102: an index above 63, a width that is none of 1, 4, 8 and a timing wider than the UHS field
are refused, in every state (that these come before the test of `seq` is the model's choice, log
entry 19). -/
def Obligations.OutOfRangeOperandsRefused : Prop :=
  ∀ s : State,
    (∀ c : Descriptor, 63 < c.index.toNat →
      exec (.sendCmd c) s = .refused .index ∧ exec (.waitCmd c) s = .refused .index) ∧
    (∀ m : ModeRec, m.width ≠ 1 → m.width ≠ 4 → m.width ≠ 8 →
      exec (.setMode m) s = .refused .width) ∧
    (∀ m : ModeRec, (m.width = 1 ∨ m.width = 4 ∨ m.width = 8) →
      s.cfg.host.uhsMask.toNat / 2 ^ s.cfg.host.uhsShift < m.timing.toNat →
      exec (.setMode m) s = .refused .timing)

/-- R8: what the well-formedness of a configuration buys the divisor field: different field values get
different words, and no word touches the three flags of CLKCTL. -/
def Obligations.DivisorEncodingIsInjective : Prop :=
  ∀ cfg : Config, cfg.wf = true →
    (∀ m n : Nat, m ≤ cfg.clock.maxDivisor / 2 → n ≤ cfg.clock.maxDivisor / 2 →
      cfg.clock.encodeDiv.encode m = cfg.clock.encodeDiv.encode n → m = n) ∧
    (∀ n : Nat, n ≤ cfg.clock.maxDivisor / 2 →
      cfg.clock.encodeDiv.encode n
        &&& (cfg.clock.intEn ||| cfg.clock.stable ||| cfg.clock.cardEn) = 0)

/-! ### Handle creation, reset, registers -/

/-- R112, R210: handle creation reads the capability words, decodes them, and leaves the handle not ready
and the sequencer IDLE, no reset in progress and no command in flight. A base that is not aligned is refused
(R66); that a configuration that is not well-formed (R8, R214) is refused, and by which name, is the model's
(log entries 20, 34). -/
def Obligations.HandleCreationLoadsCapabilities : Prop :=
  ∀ (cfg : Config) (base : Addr) (v : Voltage),
    (cfg.wf = true → base.toNat % 4 = 0 →
      ∃ s, createHandle cfg base v = .ok s ∧ s.cfg = cfg ∧ s.h.base = base ∧
        s.rb.cap0 = cfg.cap.cap0 ∧ s.rb.cap1 = cfg.cap.cap1 ∧
        s.h.cap.baseKHz = cfg.cap.base.khz s.rb.cap0 s.rb.cap1 ∧
        s.h.cap.v18 = cfg.cap.v18.supported s.rb.cap0 s.rb.cap1 ∧
        s.h.cap.v30 = cfg.cap.v30.supported s.rb.cap0 s.rb.cap1 ∧
        s.h.cap.v33 = cfg.cap.v33.supported s.rb.cap0 s.rb.cap1 ∧
        s.h.voltage = v ∧ s.h.ready = false ∧ s.seq = .idle ∧
        s.trace = [.read .cap0 s.rb.cap0, .read .cap1 s.rb.cap1] ∧
        NoReset s ∧ s.hid.cmd = none ∧ s.hid.dma = none) ∧
    (cfg.wf = true → base.toNat % 4 ≠ 0 → createHandle cfg base v = .error .access) ∧
    (cfg.wf = false → createHandle cfg base v = .error .config)

/-- The invariant holds right after reset. -/
def Obligations.ResetMeetsInvariant : Prop := Invariant State.reset

/-- Every step keeps the invariant: registers hold values of their width, CAP is constant, only named
bits of SWRESET read 1, memory is in canonical form, a DMA engine belongs to a command in flight, a
descriptor is outstanding exactly in ISSUED, and no command was dispatched before INIT returned OK. That the
unnamed bits of SWRESET read 0 also after a full reset is the model's choice (log entry 30). -/
def Obligations.StepKeepsInvariant : Prop :=
  ∀ s t : State, Invariant s → step s = .next t → Invariant t

/-- R56, R65, R69, R70: what a read returns and what a write does, by the register's class; every access leaves
every other register as HW's step left it. `hwStep s` is the state at the instant of the access (R73). The
model's own: bus power is `PWR_ON` of any value written (R182, log entry 12); the trigger bit (log entry 9);
a SWRESET bit outside the three masks is never stored (R32, log entry 30); the boot counter starts at the
value written (R181, log entry 31); an engine written DMAADDR goes on from there with the bytes it had left (log
entry 42). -/
def Obligations.RegisterAccessesActByClass : Prop :=
  ∀ (s : State) (x : Reg) (v : Word),
    let t := hwStep s
    let w := trunc (s.cfg.width x) v
    let u := regWrite x v s
    (regRead x s).1 = t.view x ∧ (regRead x s).2.rb = t.rb ∧ (regRead x s).2.hid = t.hid ∧
    (∀ y, y ≠ x → u.rb.get y = t.rb.get y) ∧
    (x ∈ [.pwrctl, .timeoutctl, .nie, .eie, .arg, .blksize, .blkcnt, .xfermode, .hc, .hc2, .bgc,
        .boottimeout, .cmd, .dmaaddr] → u.rb.get x = w) ∧
    (x = .clkctl → clkBits u = w &&& ~~~s.cfg.clock.stable ∧
      u.rb.clkctl &&& s.cfg.clock.stable = t.rb.clkctl &&& s.cfg.clock.stable) ∧
    (x = .nis → u.rb.nis = t.rb.nis &&& ~~~w) ∧
    (x = .eis → u.rb.eis = t.rb.eis &&& ~~~w) ∧
    (x = .swreset → u.rb.swreset = t.rb.swreset ||| (w &&& s.cfg.resetMask)) ∧
    (x ∈ [.resp0, .resp1, .resp2, .resp3, .cap0, .cap1, .acmd12stat] →
      u.rb = t.rb ∧ u.hid = t.hid) ∧
    u.hid.trigger = (if x = .cmd then true else t.hid.trigger) ∧
    u.hid.powered = (if x = .pwrctl then hasBit w s.cfg.power.on else t.hid.powered) ∧
    u.hid.bootArmed = (if x = .boottimeout then w != 0 else t.hid.bootArmed) ∧
    u.hid.bootCount = (if x = .boottimeout then w else t.hid.bootCount) ∧
    u.hid.cmd = t.hid.cmd ∧
    (x ≠ .dmaaddr ∨ t.hid.dma = none → u.hid.dma = t.hid.dma) ∧
    (x = .dmaaddr → ∀ d, t.hid.dma = some d →
      u.hid.dma = some { d with pos := w, paused := false }) ∧
    u.mem = t.mem

/-- R66: an access at a register's own address and width is an access of that register; any other
access is refused, and so is a base that is not 4-byte aligned. -/
def Obligations.WindowAccessIsRegisterAccess : Prop :=
  ∀ s : State, s.cfg.wf = true →
    (∀ (x : Reg) (v : Word),
      windowRead (s.h.base + BitVec.ofNat 64 (s.cfg.offset x)) (s.cfg.width x / 8) s =
        .ok (regRead x s) ∧
      windowWrite (s.h.base + BitVec.ofNat 64 (s.cfg.offset x)) (s.cfg.width x / 8) v s =
        .ok (regWrite x v s)) ∧
    (∀ (a : Addr) (n : Nat) (v : Word),
      (∀ x, a = s.h.base + BitVec.ofNat 64 (s.cfg.offset x) → n ≠ s.cfg.width x / 8) →
      windowRead a n s = .error .access ∧ windowWrite a n v s = .error .access) ∧
    (∀ (base : Addr) (v : Voltage), base.toNat % 4 ≠ 0 →
      createHandle s.cfg base v = .error .access)

/-- R68: write-1-to-clear, bit by bit, for NIS and EIS. -/
def Obligations.WriteOneClearsOnlyThatFlag : Prop :=
  ∀ (s : State) (v : Word) (i : Nat),
    (regWrite .nis v s).rb.nis.getLsbD i =
      ((hwStep s).rb.nis.getLsbD i && !(trunc (s.cfg.width .nis) v).getLsbD i) ∧
    (regWrite .eis v s).rb.eis.getLsbD i =
      ((hwStep s).rb.eis.getLsbD i && !(trunc (s.cfg.width .eis) v).getLsbD i)

/-- R36: what NIS reads as under each setting of `NIS_ERR_IS_SUMMARY`. That the summary bit is not gated by
its bit of NIE is the model's choice (log entry 24). -/
def Obligations.ErrorFlagReadsAsSummary : Prop :=
  ∀ (s : State) (i : Nat),
    (s.cfg.irq.errIsSummary = false → s.view .nis = s.rb.nis) ∧
    (s.cfg.irq.errIsSummary = true →
      (s.view .nis).getLsbD i =
        if s.cfg.irq.err.getLsbD i then s.rb.eis != 0 else s.rb.nis.getLsbD i)

/-! ### The block's arithmetic -/

/-- R116: the divisor is 1 when the base frequency meets the target, else the smallest even divisor that
meets it, or `MAX_DIVISOR` when none does; with the closed form of the exact reading. -/
def Obligations.DivisorIsSmallestMeetingTarget : Prop :=
  ∀ (cfg : Config) (base target : Nat), cfg.clock.maxDivisor % 2 = 0 → 2 ≤ cfg.clock.maxDivisor →
    let meets : Nat → Prop := fun d =>
      if cfg.clock.divFloor then base / d ≤ target else base ≤ target * d
    let d := divisor cfg base target
    (base ≤ target → d = 1) ∧
    (target < base →
      d % 2 = 0 ∧ 2 ≤ d ∧ d ≤ cfg.clock.maxDivisor ∧ (meets d ∨ d = cfg.clock.maxDivisor) ∧
      (∀ e, e % 2 = 0 → 2 ≤ e → e < d → ¬ meets e) ∧
      (cfg.clock.divFloor = false → 1 ≤ target →
        d = min cfg.clock.maxDivisor (2 * ((base + (2 * target - 1)) / (2 * target)))) ∧
      (cfg.clock.divFloor = false → target = 0 → d = cfg.clock.maxDivisor))

/-- R113: an explicit request is used as it is; else 1.8 V, then 3.0 V, then 3.3 V, then none. -/
def Obligations.VoltageIsChosenInPreferenceOrder : Prop :=
  ∀ (cfg : Config) (h : Handle), cfg.voltPref = [.v18, .v30, .v33] →
    selectVoltage cfg h =
      if h.voltage ≠ .none then h.voltage
      else if h.cap.v18 then .v18
      else if h.cap.v30 then .v30
      else if h.cap.v33 then .v33
      else .none

/-- R95: which bits of the transfer-mode word are set, and that no other is. -/
def Obligations.TransferModeWordHasTheBitsAskedFor : Prop :=
  ∀ (cfg : Config) (c : Descriptor), cfg.wf = true →
    let w := xferWord cfg c
    hasBit w cfg.xfer.read = c.read ∧ hasBit w cfg.xfer.dma = c.dma ∧
    hasBit w cfg.xfer.multi = decide (1 < c.blkcnt.toNat) ∧
    hasBit w cfg.xfer.bce = decide (1 < c.blkcnt.toNat) ∧
    hasBit w cfg.xfer.acmd12 = decide (1 < c.blkcnt.toNat) ∧
    Below w (cfg.xfer.read ||| cfg.xfer.dma ||| cfg.xfer.multi ||| cfg.xfer.bce ||| cfg.xfer.acmd12)

/-- R148: the reassembly shifts the 128-bit window left by one byte, and so restores a response laid out
one byte lower, its low byte cleared. -/
def Obligations.ResponseReassemblyRoundTrips : Prop :=
  (∀ r3 r2 r1 r0 : Word,
    let b := reassemble r3 r2 r1 r0
    b.w0 ++ b.w1 ++ b.w2 ++ b.w3 = (r3 ++ r2 ++ r1 ++ r0) <<< 8) ∧
  (∀ r : BitVec 128,
    let q := r >>> 8
    let b := reassemble (q.extractLsb' 96 32) (q.extractLsb' 64 32) (q.extractLsb' 32 32)
      (q.extractLsb' 0 32)
    b.w0 = r.extractLsb' 96 32 ∧ b.w1 = r.extractLsb' 64 32 ∧ b.w2 = r.extractLsb' 32 32 ∧
    b.w3 = r.extractLsb' 0 32 &&& 0xFFFFFF00)

/-- R99: the read-modify-write updates: the named bits take their new values, every other bit stays. -/
def Obligations.ModeUpdatesPreserveOtherBits : Prop :=
  ∀ (cfg : Config) (m : ModeRec) (v : Word), cfg.wf = true →
    let h := cfg.host
    let fast := decide (h.hsThresholdKHz < m.freqKHz.toNat)
    hasBit (hcWord cfg m v) h.w4 = decide (m.width = 4) ∧
    hasBit (hcWord cfg m v) h.w8 = decide (m.width = 8) ∧
    hasBit (hcWord cfg m v) h.hs = (fast || (hasBit v h.hs && !h.hsClearOnLow)) ∧
    hcWord cfg m v &&& ~~~(h.w4 ||| h.w8 ||| h.hs) = v &&& ~~~(h.w4 ||| h.w8 ||| h.hs) ∧
    hc2Word cfg m v &&& ~~~h.uhsMask = v &&& ~~~h.uhsMask ∧
    hc2Word cfg m v &&& h.uhsMask = (m.timing <<< h.uhsShift) &&& h.uhsMask ∧
    (let b := cfg.boot
     hasBit (bgcBootOn cfg v) b.bgcEn = true ∧ hasBit (bgcBootOn cfg v) b.bgcAck = true ∧
     bgcBootOn cfg v &&& ~~~(b.bgcEn ||| b.bgcAck) = v &&& ~~~(b.bgcEn ||| b.bgcAck) ∧
     hasBit (bgcBootOff cfg v) b.bgcEn = false ∧
     bgcBootOff cfg v &&& ~~~b.bgcEn = v &&& ~~~b.bgcEn)

/-! ### The hardware engines -/

/-- R166, R184: in one step HW changes no register that is software's: with no full reset in progress
PWRCTL, TIMEOUTCTL, NIE, EIE, HC, HC2, BGC, BOOTTIMEOUT and every bit of CLKCTL but `CLK_STABLE` stay;
with no reset in progress ARG, CMD, BLKSIZE, XFERMODE stay too; CAP always stays; bits of SWRESET only
fall; no request is originated and nothing of SEQ's is touched. -/
def Obligations.HardwareLeavesSoftwareRegistersAlone : Prop :=
  ∀ s : State,
    let t := hwStep s
    (NoFullReset s → (∀ x ∈ steadyRegs, t.rb.get x = s.rb.get x) ∧ clkBits t = clkBits s ∧
      t.hid.powered = s.hid.powered ∧ t.hid.bootArmed = s.hid.bootArmed) ∧
    (NoReset s → (∀ x ∈ latchedRegs, t.rb.get x = s.rb.get x) ∧ t.hid.trigger = s.hid.trigger) ∧
    t.rb.cap0 = s.rb.cap0 ∧ t.rb.cap1 = s.rb.cap1 ∧ Below t.rb.swreset s.rb.swreset ∧
    t.cfg = s.cfg ∧ t.h = s.h ∧ t.seq = s.seq ∧ t.sent = s.sent ∧ t.respBuf = s.respBuf ∧
    t.reply = s.reply ∧ t.log = s.log ∧ t.trace = s.trace ∧ t.port = s.port

/-- R173, R184 (c): HW never clears a flag while no reset is in progress, and, in a configuration that
reads R169 so, a data+command reset keeps flags too (`KeepsFlags`; the other reading is R58's, log entry
14). -/
def Obligations.FlagsStaySetUntilCleared : Prop :=
  ∀ s : State, KeepsFlags s →
    Below s.rb.nis (hwStep s).rb.nis ∧ Below s.rb.eis (hwStep s).rb.eis

/-- R174, R38, R39: HW sets a NIS flag only if its bit of NIE is 1, and an EIS flag only if its bit of EIE
is 1, whatever the event. (What a summary `NIS_ERR` reads as is no flag HW sets: log entry 24.) -/
def Obligations.DisabledFlagsAreNotRecorded : Prop :=
  ∀ (s : State) (e : HwEvent), NoFullReset s →
    Below ((e.apply s).rb.nis &&& ~~~s.rb.nis) s.rb.nie ∧
    Below ((e.apply s).rb.eis &&& ~~~s.rb.eis) s.rb.eie

/-- R175: an error that is recorded in EIS sets the summary flag in NIS (where enabled), and the details
of an automatic stop command are kept in ACMD12STAT. -/
def Obligations.ErrorsSetTheSummaryFlag : Prop :=
  ∀ (s : State) (bits v : Word),
    trunc (s.cfg.width .eis) bits &&& s.rb.eie ≠ 0 →
    let t := (HwEvent.error bits (some v)).apply s
    t.rb.eis = s.rb.eis ||| (trunc (s.cfg.width .eis) bits &&& s.rb.eie) ∧
    t.rb.nis = s.rb.nis ||| trunc (s.cfg.width .nis) (s.cfg.irq.err &&& s.rb.nie) ∧
    t.rb.acmd12stat = trunc (s.cfg.width .acmd12stat) v

/-- R182, R232: with no bus power, or with the card clock off, no command is answered and no data moves:
the engines' card-side events change nothing (that the model ties them to both is its reading, log
entry 12). -/
def Obligations.UnpoweredCardAnswersNothing : Prop :=
  ∀ (s : State) (e : HwEvent),
    (s.hid.powered = false ∨ hasBit s.rb.clkctl s.cfg.clock.cardEn = false) →
    (e = .commandSent ∨ (∃ a b c d u, e = .response a b c d u) ∨ e = .busyReleased ∨
      (∃ l, e = .dmaIn l) ∨ (∃ n, e = .dmaOut n) ∨ e = .portBlock ∨ e = .autoStop ∨ e = .bufferReady ∨
      e = .bootAck ∨ (∃ b, e = .bootEnd b)) →
    e.apply s = s

/-- R58, R168: a completed full reset discards the command in flight and the DMA position, keeps CAP, and
leaves every writable register at its reset value: 0 under `RESET_ZERO`, the drawn value otherwise. Its own bits
of SWRESET read 0; that a data+command reset still running is over too (R58), or goes on (R184 a, V-INIT-8), is
the model's configuration flag `fullEndsDc` (log entry 38). The model's own: the reset is complete when its bit
falls (log entry 15), and the unnamed bits of SWRESET are not drawn (log entry 30). -/
def Obligations.FullResetForgetsTheCommand : Prop :=
  ∀ (s : State) (m : Word) (after : Registers) (n : Word),
    hasBit s.rb.swreset s.cfg.reset.all = true → s.cfg.reset.all &&& ~~~m = 0 →
    let t := (HwEvent.resetEnds m after n).apply s
    t.rb.swreset = (if s.cfg.fullEndsDc then 0 else s.rb.swreset &&& ~~~m) ∧ NoFullReset t ∧
    t.hid.cmd = none ∧ t.hid.dma = none ∧ t.hid.trigger = false ∧
    t.rb.cap0 = s.rb.cap0 ∧ t.rb.cap1 = s.rb.cap1 ∧
    (∀ x, x ≠ .swreset → x ≠ .cap0 → x ≠ .cap1 →
      t.rb.get x = if s.cfg.resetZero then 0 else trunc (s.cfg.width x) (after.get x)) ∧
    t.seq = s.seq ∧ t.h = s.h ∧ t.mem = s.mem ∧ t.respBuf = s.respBuf

/-- R169: a completed data+command reset discards the command in flight and the DMA position, keeps
PWRCTL, CLKCTL, HC, HC2, TIMEOUTCTL, NIE, EIE, BGC, BOOTTIMEOUT and CAP, and leaves the command and
transfer registers unspecified (drawn). NIS and EIS are unspecified (R58), and, in a configuration that reads
R169 so, flags already set stay; either way a flag comes up only where enabled (log entry 14). -/
def Obligations.DataCommandResetPreservesClockAndVoltage : Prop :=
  ∀ (s : State) (m : Word) (after : Registers) (n : Word), NoFullReset s →
    hasBit s.rb.swreset s.cfg.dcMask = true → s.cfg.dcMask &&& ~~~m = 0 →
    let t := (HwEvent.resetEnds m after n).apply s
    hasBit t.rb.swreset s.cfg.dcMask = false ∧
    t.hid.cmd = none ∧ t.hid.dma = none ∧ t.hid.trigger = false ∧
    (∀ x ∈ [.pwrctl, .clkctl, .hc, .hc2, .timeoutctl, .nie, .eie, .bgc, .boottimeout, .cap0, .cap1],
      t.rb.get x = s.rb.get x) ∧
    (let n := if s.cfg.resetZero then 0 else trunc (s.cfg.width .nis) after.nis
     let e := if s.cfg.resetZero then 0 else trunc (s.cfg.width .eis) after.eis
     (s.cfg.dcKeepsFlags = true →
       t.rb.nis = s.rb.nis ||| (n &&& s.rb.nie) ∧ t.rb.eis = s.rb.eis ||| (e &&& s.rb.eie)) ∧
     (s.cfg.dcKeepsFlags = false →
       t.rb.nis = n &&& (s.rb.nis ||| s.rb.nie) ∧ t.rb.eis = e &&& (s.rb.eis ||| s.rb.eie))) ∧
    (∀ x ∈ [.arg, .cmd, .blksize, .blkcnt, .xfermode, .dmaaddr, .resp0, .resp1, .resp2, .resp3,
      .acmd12stat], t.rb.get x = if s.cfg.resetZero then 0 else trunc (s.cfg.width x) (after.get x)) ∧
    t.hid.powered = s.hid.powered ∧ t.hid.bootArmed = s.hid.bootArmed ∧ t.seq = s.seq ∧ t.h = s.h ∧
    t.mem = s.mem ∧ t.respBuf = s.respBuf

/-- R172: when the response arrives, RESP holds it (RESP[0] for 48 bits, RESP[0..3] for 136, nothing for
class none) and `NIS_CC` is set where enabled; for class 48B only once the card has released busy. A class-48
command without data leaves the engine then, or, where the card is still busy, once it has released busy
(R185; that it stands in flight meanwhile is log entry 40). The premises on power and card clock are the
model's (log entry 12). -/
def Obligations.ResponseLoadsBeforeCommandComplete : Prop :=
  ∀ (s : State) (f : InFlight) (r0 r1 r2 r3 : Word) (busy : Bool),
    s.hid.powered = true → hasBit s.rb.clkctl s.cfg.clock.cardEn = true → s.hid.cmd = some f →
    f.respSeen = false → f.cmdDone = false →
    let cc := trunc (s.cfg.width .nis) (s.cfg.irq.cc &&& s.rb.nie)
    let t := (HwEvent.response r0 r1 r2 r3 busy).apply s
    let b := HwEvent.busyReleased.apply t
    let z := HwEvent.commandSent.apply s
    (f.kind = .none → z.rb.nis = s.rb.nis ||| cc ∧ (∀ x, x ≠ .nis → z.rb.get x = s.rb.get x) ∧ t = s) ∧
    (f.kind = .r48 → t.rb.resp0 = trunc (s.cfg.width .resp0) r0 ∧ t.rb.nis = s.rb.nis ||| cc ∧
      (∀ x, x ≠ .nis → x ≠ .resp0 → t.rb.get x = s.rb.get x) ∧
      (f.xfer = none → (t.hid.cmd = none ↔ busy = false) ∧ b.hid.cmd = none ∧ b.rb = t.rb)) ∧
    (f.kind = .r136 → t.rb.resp0 = trunc (s.cfg.width .resp0) r0 ∧
      t.rb.resp1 = trunc (s.cfg.width .resp1) r1 ∧ t.rb.resp2 = trunc (s.cfg.width .resp2) r2 ∧
      t.rb.resp3 = trunc (s.cfg.width .resp3) r3 ∧ t.rb.nis = s.rb.nis ||| cc ∧
      (∀ x, x ∉ [.nis, .resp0, .resp1, .resp2, .resp3] → t.rb.get x = s.rb.get x)) ∧
    (f.kind = .r48b → t.rb.resp0 = trunc (s.cfg.width .resp0) r0 ∧ t.rb.nis = s.rb.nis ∧
      b.rb.resp0 = t.rb.resp0 ∧ b.rb.nis = s.rb.nis ||| cc ∧
      (∀ x, x ≠ .nis → x ≠ .resp0 → b.rb.get x = s.rb.get x))

/-- R170, R177, R178, R179, R181, R202: what each engine's own event does when its trigger holds, and that
it does nothing otherwise. The clock is reported stable only while the internal clock is enabled; a read
transfer without DMA announces a block by `NIS_BRR`, while it has one left; its last block ends it in
`NIS_TC`, after the automatic stop command where it has one, which does nothing before all has moved; the boot
acknowledge sets `NIS_BOOT_ACK` where it is awaited; the end of a boot stream sets `NIS_BOOT_TERM` (with
`NIS_TC` or not); an armed boot-timeout counter, and the data-timeout counter of a transfer, raise error flags
where they expire. With no transfer in flight the transfer's events do nothing. Power and card clock as
premises are the model's (log entry 12, within `dataFlows` and `cardLive`), and so are the counters' own
values, the blocks counted at the buffer port (log entries 31, 35, 36) and that nothing is in flight once the
data is over, seen `NIS_CC` or not (log entry 37), that a boot stream ends by its own event and has no
automatic stop (log entry 22), that it goes by the present `BGC_BOOT_EN` (log entry 39), and that an error leaves
the command in flight (log entry 41). -/
def Obligations.EngineEventsSetTheirFlags : Prop :=
  ∀ s : State,
    let raised := fun (f : Word) => s.rb.nis ||| trunc (s.cfg.width .nis) (f &&& s.rb.nie)
    let errors := fun (b : Word) => trunc (s.cfg.width .eis) (b &&& s.rb.eie)
    let others := fun (l : List Reg) (t : State) => ∀ y, y ∉ l → t.rb.get y = s.rb.get y
    let reports := fun (b : Word) (t : State) =>
      t.rb.eis = s.rb.eis ||| errors b ∧
      t.rb.nis = (if errors b = 0 then s.rb.nis else raised s.cfg.irq.err) ∧ others [.nis, .eis] t ∧
      t.hid = s.hid
    let ends := fun (f : Word) (t : State) =>
      t.rb.nis = raised f ∧ others [.nis] t ∧ t.hid.cmd = none ∧ t.hid.dma = none
    (hasBit s.rb.clkctl s.cfg.clock.intEn = true →
      ((HwEvent.clock true).apply s).rb.clkctl = s.rb.clkctl ||| s.cfg.clock.stable) ∧
    (hasBit s.rb.clkctl s.cfg.clock.intEn = false → (HwEvent.clock true).apply s = s) ∧
    ((HwEvent.clock false).apply s).rb.clkctl = s.rb.clkctl &&& ~~~s.cfg.clock.stable ∧
    (s.hid.bootArmed = true →
      (∀ c, ((HwEvent.bootTick c).apply s).hid.bootCount = c ∧ ((HwEvent.bootTick c).apply s).rb = s.rb) ∧
      ∀ b, reports b ((HwEvent.bootExpires b).apply s)) ∧
    (s.hid.bootArmed = false → ∀ c, (HwEvent.bootTick c).apply s = s ∧ (HwEvent.bootExpires c).apply s = s) ∧
    ((∀ f, s.hid.cmd = some f → f.xfer = none) →
      (∀ e ∈ [HwEvent.bootAck, .bootEnd false, .bootEnd true, .bufferReady, .portBlock, .autoStop],
        e.apply s = s) ∧
      ∀ c, (HwEvent.dataTick c).apply s = s ∧ (HwEvent.dataExpires c).apply s = s) ∧
    (∀ f x, s.hid.cmd = some f → f.xfer = some x →
      let port := hasBit x.xfermode s.cfg.xfer.dma = false
      let left := fun n => { s with hid := { s.hid with cmd := some { f with portLeft := n } } }
      (∀ c, (HwEvent.dataTick c).apply s =
        { s with hid := { s.hid with cmd := some { f with dataCount := c } } }) ∧
      (∀ b, reports b ((HwEvent.dataExpires b).apply s)) ∧
      (¬ port ∨ f.portLeft = 0 ∨ dataFlows x s = false →
        HwEvent.bufferReady.apply s = s ∧ HwEvent.portBlock.apply s = s) ∧
      (hasBit x.xfermode s.cfg.xfer.read = false → HwEvent.bufferReady.apply s = s) ∧
      (cardLive s = false ∨ x.boot = true ∨ needsAutoStop s.cfg x = false ∨
          (∃ d, s.hid.dma = some d ∧ 0 < d.left) ∨ (s.hid.dma = none ∧ (¬ port ∨ 0 < f.portLeft)) →
        HwEvent.autoStop.apply s = s) ∧
      (port → dataFlows x s = true →
        (hasBit x.xfermode s.cfg.xfer.read = true → 0 < f.portLeft →
          (HwEvent.bufferReady.apply s).rb.nis = raised s.cfg.irq.brr ∧
          others [.nis] (HwEvent.bufferReady.apply s) ∧ (HwEvent.bufferReady.apply s).hid = s.hid) ∧
        (1 < f.portLeft → HwEvent.portBlock.apply s = left (f.portLeft - 1)) ∧
        (f.portLeft = 1 → x.boot = true ∨ needsAutoStop s.cfg x = true → HwEvent.portBlock.apply s = left 0) ∧
        (f.portLeft = 1 → x.boot = false → needsAutoStop s.cfg x = false →
          ends s.cfg.irq.tc (HwEvent.portBlock.apply s)) ∧
        (f.portLeft = 1 → x.boot = false → needsAutoStop s.cfg x = true → s.hid.dma = none →
          ends s.cfg.irq.tc (HwEvent.autoStop.apply (HwEvent.portBlock.apply s)))) ∧
      (cardLive s = true → x.boot = true → hasBit s.rb.bgc s.cfg.boot.bgcEn = true →
        (x.bootAck = true → (HwEvent.bootAck.apply s).rb.nis = raised s.cfg.irq.bootAck ∧
          others [.nis] (HwEvent.bootAck.apply s) ∧ (HwEvent.bootAck.apply s).hid = s.hid) ∧
        (x.bootAck = false → HwEvent.bootAck.apply s = s) ∧
        ∀ tc, ends (if tc then s.cfg.irq.bootTerm ||| s.cfg.irq.tc else s.cfg.irq.bootTerm)
          ((HwEvent.bootEnd tc).apply s)) ∧
      (x.boot = false ∨ hasBit s.rb.bgc s.cfg.boot.bgcEn = false →
        HwEvent.bootAck.apply s = s ∧ ∀ tc, (HwEvent.bootEnd tc).apply s = s))

/-- R64, R78, R176, R177, R179: a read transfer, a boot stream among them, stores the next byte of the card's
stream at the engine's address and moves on by one; at a boundary short of the end it pauses, DMAADDR reads
the address reached and `NIS_DMA` is set; at the end of the transfer `NIS_TC` is set and the engine is gone,
after the automatic stop command where it has one, and nothing is in flight (R185). Every other byte of memory
stays. The boundary is a power of two where the configuration is well-formed. The model's own: how BLKSIZE names
the boundary (`dmaBoundary`, log entry 11); the premises on power and card clock (log entry 12); a boot stream's engine stops silently where its block count runs out, and the address
wraps (log entry 22); the command is gone at `NIS_TC` even where `NIS_CC` has not been set (log entry 37). -/
def Obligations.DmaStoresOneByteAndPausesAtBoundaries : Prop :=
  ∀ (s : State) (f : InFlight) (x : XferLatch) (d : DmaEngine) (b : Byte),
    s.hid.powered = true → hasBit s.rb.clkctl s.cfg.clock.cardEn = true →
    s.hid.cmd = some f → f.xfer = some x →
    (x.boot = true → hasBit s.rb.bgc s.cfg.boot.bgcEn = true) → s.hid.dma = some d →
    d.toMem = true → d.paused = false → 0 < d.left →
    let t := (HwEvent.dmaIn [b]).apply s
    let e := { d with pos := d.pos + 1, left := d.left - 1 }
    (s.cfg.wf = true → ∃ k, dmaBoundary s.cfg x.blksize = 2 ^ k) ∧
    Memory.read t.mem d.pos.toNat = some b ∧
    (∀ a, a ≠ d.pos.toNat → Memory.read t.mem a = Memory.read s.mem a) ∧
    (1 < d.left → (d.pos + 1).toNat % dmaBoundary s.cfg x.blksize ≠ 0 →
      t.rb = s.rb ∧ t.hid.dma = some e) ∧
    (1 < d.left → (d.pos + 1).toNat % dmaBoundary s.cfg x.blksize = 0 →
      t.rb.dmaaddr = trunc (s.cfg.width .dmaaddr) (d.pos + 1) ∧
      t.rb.nis = s.rb.nis ||| trunc (s.cfg.width .nis) (s.cfg.irq.dma &&& s.rb.nie) ∧
      t.hid.dma = some { e with paused := true }) ∧
    (d.left = 1 → x.boot = true → t.rb = s.rb ∧ t.hid.dma = some e) ∧
    (d.left = 1 → x.boot = false → needsAutoStop s.cfg x = false →
      t.hid.dma = none ∧ t.hid.cmd = none ∧ t.rb.nis = s.rb.nis ||| tcBit s) ∧
    (d.left = 1 → x.boot = false → needsAutoStop s.cfg x = true →
      t.rb = s.rb ∧ (HwEvent.autoStop.apply t).rb.nis = s.rb.nis ||| tcBit s ∧
      (HwEvent.autoStop.apply t).hid.dma = none ∧ (HwEvent.autoStop.apply t).hid.cmd = none)

/-- R56, R81, R176, R177: the engine's own events `dmaIn` and `dmaOut` move nothing while it is paused; a write of
DMAADDR moves the engine to the address written (R56), and a paused one goes on from there. A write transfer
fetches the byte at the engine's address, changes no memory, and moves on, pauses and ends as a read transfer
does; a boot stream latched with `TM_READ` clear does so too. The model's own: how BLKSIZE names the boundary
(log entry 11), the premises on power and card clock (log entry 12), the wrap of the address, that such a boot
stream fetches and that its engine stops silently where its block count runs out (log entry 22), an
open-oracle event is not bound by the pause (log entry 27), an engine written DMAADDR has the bytes it had left
still to move (log entry 42), and the command is gone at `NIS_TC` even where `NIS_CC` has not been set (log
entry 37). -/
def Obligations.PausedDmaWaitsForWriteBack : Prop :=
  (∀ (s : State) (d : DmaEngine), s.hid.dma = some d →
    (d.toMem = false → ∀ n, ((HwEvent.dmaOut n).apply s).mem = s.mem) ∧
    (d.paused = true →
      (∀ l, (HwEvent.dmaIn l).apply s = s) ∧ (∀ n, (HwEvent.dmaOut n).apply s = s)) ∧
    (∀ v, (writeEffect .dmaaddr v s).rb.dmaaddr = v ∧
      (writeEffect .dmaaddr v s).hid.dma =
        some { d with pos := v, paused := false })) ∧
  (∀ (s : State) (f : InFlight) (x : XferLatch) (d : DmaEngine),
    s.hid.powered = true → hasBit s.rb.clkctl s.cfg.clock.cardEn = true →
    s.hid.cmd = some f → f.xfer = some x →
    (x.boot = true → hasBit s.rb.bgc s.cfg.boot.bgcEn = true) → s.hid.dma = some d →
    d.toMem = false → d.paused = false → 0 < d.left →
    let t := (HwEvent.dmaOut 1).apply s
    let e := { d with pos := d.pos + 1, left := d.left - 1,
                      fetched := d.fetched ++ [Memory.read s.mem d.pos.toNat] }
    t.mem = s.mem ∧
    (1 < d.left → (d.pos + 1).toNat % dmaBoundary s.cfg x.blksize ≠ 0 →
      t.rb = s.rb ∧ t.hid.dma = some e) ∧
    (1 < d.left → (d.pos + 1).toNat % dmaBoundary s.cfg x.blksize = 0 →
      t.rb.dmaaddr = trunc (s.cfg.width .dmaaddr) (d.pos + 1) ∧
      t.rb.nis = s.rb.nis ||| trunc (s.cfg.width .nis) (s.cfg.irq.dma &&& s.rb.nie) ∧
      t.hid.dma = some { e with paused := true }) ∧
    (d.left = 1 → x.boot = true → t.rb = s.rb ∧ t.hid.dma = some e) ∧
    (d.left = 1 → x.boot = false → needsAutoStop s.cfg x = false →
      t.hid.dma = none ∧ t.hid.cmd = none ∧ t.rb.nis = s.rb.nis ||| tcBit s) ∧
    (d.left = 1 → x.boot = false → needsAutoStop s.cfg x = true →
      t.rb = s.rb ∧ t.hid.dma = some e ∧
      (HwEvent.autoStop.apply t).rb.nis = s.rb.nis ||| tcBit s ∧
      (HwEvent.autoStop.apply t).hid.dma = none ∧ (HwEvent.autoStop.apply t).hid.cmd = none))

/-- R61, R225: in one step of HW the DMA engine stores nothing outside the bytes it has still to move, and
nothing at all when it has no read transfer in progress. The model's choices: this bound inside the open
oracle (log entry 27); and that a boot stream stores nothing past its block count, that one with `TM_READ`
clear stores nothing, and the wrap of the address (log entry 22). -/
def Obligations.DmaStoresOnlyInsideTheTransfer : Prop :=
  ∀ (s : State) (a : Nat),
    (∀ d, s.hid.dma = some d → d.toMem = true → ∀ k, k < d.left → a ≠ (d.pos.toNat + k) % 2 ^ 32) →
    Memory.read (hwStep s).mem a = Memory.read s.mem a

/-- R104, R171: taking up a command word latches the word, its index and ARG, and, for a command with
data present or boot-enable set, the transfer registers and the boot bits of BGC, starts the DMA engine
when `TM_DMA` is set, and awaits the response its class calls for; with a block count and a block size other
than 0 the transfer has the block count's blocks where it is multi-block and counted, else one (R177, R225).
It changes no register and no memory, and always completes. A command word of a reserved class is taken up
the same way (R104, U4; that it is in flight as such is log entry 26). The model's own: data-present (log
entry 11), a command still in flight is replaced (log entry 33), the data-timeout counter starts at TIMEOUTCTL
(log entry 35), one block where `TM_MULTI` or `TM_BCE` is clear (log entry 32), a boot stream goes the way
`TM_READ` says (log entry 22). -/
def Obligations.CommandEngineLatchesTheCommand : Prop :=
  ∀ (s : State) (i : BitVec 6) (d : BitVec 16),
    let word := fun code => encodeCommand s.cfg code i d
    let blocks := if hasBit s.rb.xfermode s.cfg.xfer.multi = true ∧ hasBit s.rb.xfermode s.cfg.xfer.bce = true
      then s.rb.blkcnt.toNat else 1
    let latch := fun (kind : RespKind) (j : BitVec 6) (w : Word) (t : State) =>
      (∃ f, t.hid.cmd = some f ∧ f.word = w ∧ f.index = j ∧ f.kind = kind ∧ f.arg = s.rb.arg ∧
        f.timeoutctl = s.rb.timeoutctl ∧ f.dataCount = s.rb.timeoutctl ∧
        f.respSeen = false ∧ f.cmdDone = false ∧ f.busy = false ∧
        ((hasBit w s.cfg.cmd.dataPresent || hasBit s.rb.bgc s.cfg.boot.bgcEn) = false →
          f.xfer = none ∧ t.hid.dma = none) ∧
        ((hasBit w s.cfg.cmd.dataPresent || hasBit s.rb.bgc s.cfg.boot.bgcEn) = true →
          ∃ x, f.xfer = some x ∧ x.blksize = s.rb.blksize ∧ x.blkcnt = s.rb.blkcnt ∧
            x.xfermode = s.rb.xfermode ∧ x.dmaaddr = s.rb.dmaaddr ∧
            x.boot = hasBit s.rb.bgc s.cfg.boot.bgcEn ∧
            x.bootAck = hasBit s.rb.bgc s.cfg.boot.bgcAck ∧
            (hasBit s.rb.xfermode s.cfg.xfer.dma = false → t.hid.dma = none ∧
              (s.rb.blkcnt ≠ 0 → f.portLeft = blocks)) ∧
            (hasBit s.rb.xfermode s.cfg.xfer.dma = true →
              ∃ e, t.hid.dma = some e ∧ e.pos = s.rb.dmaaddr ∧ e.paused = false ∧
                e.toMem = hasBit s.rb.xfermode s.cfg.xfer.read ∧ e.fetched = [] ∧
                (s.rb.blkcnt ≠ 0 → s.rb.blksize &&& s.cfg.blk.sizeMask ≠ 0 →
                  e.left = blocks * (s.rb.blksize &&& s.cfg.blk.sizeMask).toNat)))) ∧
      t.hid.trigger = false ∧ t.hid.powered = s.hid.powered ∧ t.hid.bootArmed = s.hid.bootArmed ∧
      t.hid.bootCount = s.hid.bootCount ∧
      t = { s with hid := t.hid }
    (∃ t, exec (.cmdwRespNone i d) s = .next t ∧ latch .none i (word s.cfg.cmd.respNone) t) ∧
    (∃ t, exec (.cmdwResp136 i d) s = .next t ∧ latch .r136 i (word s.cfg.cmd.resp136) t) ∧
    (∃ t, exec (.cmdwResp48 i d) s = .next t ∧ latch .r48 i (word s.cfg.cmd.resp48) t) ∧
    (∃ t, exec (.cmdwResp48b i d) s = .next t ∧ latch .r48b i (word s.cfg.cmd.resp48b) t) ∧
    (s.hid.trigger = true → ∀ e, decodeCommand s.cfg s.rb.cmd = .error e →
      ∃ t, step s = .next t ∧ latch .reserved (commandIndex s.cfg s.rb.cmd) s.rb.cmd t)

/-! ### The sequencer -/

/-- R25, R209: which requests are accepted when, and what each leaves in `seq`. That INIT, BOOT_STOP and
SET_MODE complete where they are accepted is R209 given R203's progress (log entry 6). -/
def Obligations.RequestsFollowTheSequencer : Prop :=
  ∀ s : State,
    (∃ t, exec .init s = .next t ∧ t.seq = .idle) ∧
    (∃ t, exec .bootStop s = .next t ∧ t.seq = .idle) ∧
    (∀ m : ModeRec, m.widthOk = true → m.timingOk s.cfg = true →
      (s.seq = .idle → ∃ t, exec (.setMode m) s = .next t ∧ t.seq = .idle) ∧
      (s.seq ≠ .idle → exec (.setMode m) s = .refused .sequence)) ∧
    (∀ c : Descriptor, c.wf = true →
      (s.seq = .idle → s.h.ready = true → ∃ t, exec (.sendCmd c) s = .next t ∧ t.seq = .issued) ∧
      (¬ (s.seq = .idle ∧ s.h.ready = true) → exec (.sendCmd c) s = .refused .sequence)) ∧
    (∀ c : Descriptor, c.wf = true →
      (s.seq = .issued → s.sent = some c →
        (∀ r, exec (.waitCmd c) s ≠ .refused r) ∧
        (∀ t, exec (.waitCmd c) s = .next t →
          t.seq = if c.bootEn = true ∧ t.reply = .ok then .streaming else .idle)) ∧
      (¬ (s.seq = .issued ∧ s.sent = some c) → exec (.waitCmd c) s = .refused .sequence)) ∧
    (s.seq = .streaming → ∃ t, exec .bootWait s = .next t ∧ t.seq = .streaming) ∧
    (s.seq ≠ .streaming → exec .bootWait s = .refused .sequence)

/-- R110, R186, R209: INIT completes in one of three ways, each where its cause stands: the poll of the reset
timed out and nothing else was touched; it ended and, after the power sequence, the poll of the clock timed
out; or both ended and everything was programmed in order. That the polls end at all is R209 given R203's
progress (log entry 6); that a clock timeout is logged, and with no values, is log entry 21. `p` and `k` are
the two polls (what makes a poll end which way is NoSuccessAfterTheDeadline). -/
def Obligations.InitEndsInOneOfThreeWays : Prop :=
  ∀ s : State,
    let v := selectVoltage s.cfg s.h
    let w := clkWord1 s.cfg (divisor s.cfg s.h.cap.baseKHz.toNat s.cfg.clock.initTargetKHz)
    let rst := poll .swreset (fun x => x &&& s.cfg.reset.all == 0) s.cfg.budgets.tReset
      (regWrite .swreset s.cfg.reset.all (startInit s))
    let clk := poll .clkctl (fun x => hasBit x s.cfg.clock.stable) s.cfg.budgets.tClk
      (regWrite .clkctl w (powerUp rst.2))
    ∃ t l, exec .init s = .next t ∧ t.seq = .idle ∧ OnlyReads .swreset l ∧
      ((rst.1 = none ∧ t.reply = .fail ∧ t.h.ready = false ∧ t.h.voltage = s.h.voltage ∧
          t.trace = s.trace ++ resetAccesses s.cfg s.cfg.reset.all l ∧
          t.log = s.log ++ [⟨.resetTimeout, [s.cfg.reset.all]⟩]) ∨
       (∃ y k p, rst.1 = some y ∧ l.getLast? = some (.read .swreset y) ∧ y &&& s.cfg.reset.all = 0 ∧
          OnlyReads .clkctl k ∧ t.h.voltage = v ∧
          p = s.trace ++ resetAccesses s.cfg s.cfg.reset.all l ++ powerAccesses s.cfg v ++
            wrote s.cfg .clkctl w :: k ∧
          ((clk.1 = none ∧ t.reply = .fail ∧ t.h.ready = false ∧ t.trace = p ∧
              t.log = s.log ++ [⟨.clockTimeout, []⟩]) ∨
           (t.reply = .ok ∧ t.h.ready = true ∧ t.log = s.log ∧
              ∃ x, clk.1 = some x ∧ k.getLast? = some (.read .clkctl x) ∧ hasBit x s.cfg.clock.stable = true ∧
                t.trace = p ++
                  [wrote s.cfg .clkctl (x ||| s.cfg.clock.cardEn),
                   wrote s.cfg .timeoutctl s.cfg.timeoutValue] ++ clearAllAccesses s.cfg ++
                  [wrote s.cfg .nie s.cfg.irq.nieAll, wrote s.cfg .eie s.cfg.irq.eieAll]))))

/-- R216: what an INIT that returned OK leaves in the registers HW does not change: power, timeout
control, the enables, the clock with its card enable, and no full reset in progress. It leaves the base,
the capabilities, CAP, the response buffer and the rest of the port alone (the handle, R213). That the bus is
powered for every voltage but none, supported or not, is log entry 12. -/
def Obligations.InitEstablishesPowerClockAndEnables : Prop :=
  ∀ s t : State, exec .init s = .next t →
    (t.h.base = s.h.base ∧ t.h.cap = s.h.cap ∧ t.rb.cap0 = s.rb.cap0 ∧ t.rb.cap1 = s.rb.cap1 ∧
      t.respBuf = s.respBuf ∧ t.port = s.port ∧ t.cfg = s.cfg ∧ t.sent = none) ∧
    (s.cfg.wf = true → t.reply = .ok →
      let v := selectVoltage s.cfg s.h
      let w := clkWord1 s.cfg (divisor s.cfg s.h.cap.baseKHz.toNat s.cfg.clock.initTargetKHz)
      NoFullReset t ∧ t.h.ready = true ∧ t.h.voltage = v ∧
      t.rb.pwrctl = trunc (s.cfg.width .pwrctl)
        (match v with
          | .none => 0
          | .v18 => s.cfg.power.on ||| s.cfg.power.v18
          | .v30 => s.cfg.power.on ||| s.cfg.power.v30
          | .v33 => s.cfg.power.on ||| s.cfg.power.v33) ∧
      t.hid.powered = (v != .none) ∧
      clkBits t = trunc (s.cfg.width .clkctl) (w ||| s.cfg.clock.cardEn) &&& ~~~s.cfg.clock.stable ∧
      t.rb.timeoutctl = trunc (s.cfg.width .timeoutctl) s.cfg.timeoutValue ∧
      t.rb.nie = trunc (s.cfg.width .nie) s.cfg.irq.nieAll ∧
      t.rb.eie = trunc (s.cfg.width .eie) s.cfg.irq.eieAll)

/-- R125, R186, R209: SET_MODE in IDLE completes, by what the poll of the clock gave: it timed out, and HC2
and HC were not touched, or it ended and was followed by one read and one write each of HC2 and HC. That the
poll ends at all is R209 given R203's progress (log entry 6); that its timeout is logged, and with no values,
is log entry 21. -/
def Obligations.SetModeProgramsClockTimingWidth : Prop :=
  ∀ (s : State) (m : ModeRec), m.widthOk = true → m.timingOk s.cfg = true → s.seq = .idle →
    let w := clkWord1 s.cfg (divisor s.cfg s.h.cap.baseKHz.toNat m.freqKHz.toNat)
    let clk := poll .clkctl (fun x => hasBit x s.cfg.clock.stable) s.cfg.budgets.tClk
      (regWrite .clkctl w s)
    ∃ t k, exec (.setMode m) s = .next t ∧ t.seq = .idle ∧ OnlyReads .clkctl k ∧
      ((clk.1 = none ∧ t.reply = .fail ∧ t.trace = s.trace ++ wrote s.cfg .clkctl w :: k ∧
          t.log = s.log ++ [⟨.clockTimeout, []⟩]) ∨
       (t.reply = .ok ∧ t.log = s.log ∧
          ∃ x h2 hc, clk.1 = some x ∧ k.getLast? = some (.read .clkctl x) ∧ hasBit x s.cfg.clock.stable = true ∧
            t.trace = s.trace ++ wrote s.cfg .clkctl w :: k ++
              [wrote s.cfg .clkctl (x ||| s.cfg.clock.cardEn),
               .read .hc2 h2, wrote s.cfg .hc2 (hc2Word s.cfg m h2),
               .read .hc hc, wrote s.cfg .hc (hcWord s.cfg m hc)]))

/-- R125, R127, R128: the values SET_MODE leaves in HC2, HC and CLKCTL, with no full reset in progress,
and its frame: no other register that is software's changes, and no flag is cleared (unless a reset still
running from an earlier operation clears it, log entry 14). -/
def Obligations.SetModeChangesOnlyItsRegisters : Prop :=
  ∀ (s t : State) (m : ModeRec), exec (.setMode m) s = .next t → NoFullReset s →
    let w := clkWord1 s.cfg (divisor s.cfg s.h.cap.baseKHz.toNat m.freqKHz.toNat)
    (t.reply = .ok →
      t.rb.hc2 = trunc (s.cfg.width .hc2) (hc2Word s.cfg m s.rb.hc2) ∧
      t.rb.hc = trunc (s.cfg.width .hc) (hcWord s.cfg m s.rb.hc) ∧
      clkBits t = trunc (s.cfg.width .clkctl) (w ||| s.cfg.clock.cardEn) &&& ~~~s.cfg.clock.stable) ∧
    (t.reply ≠ .ok → t.rb.hc2 = s.rb.hc2 ∧ t.rb.hc = s.rb.hc ∧
      clkBits t = trunc (s.cfg.width .clkctl) w &&& ~~~s.cfg.clock.stable) ∧
    (∀ x ∈ steadyRegs, x ≠ .hc2 → x ≠ .hc → t.rb.get x = s.rb.get x) ∧
    (KeepsFlags s → Below s.rb.nis t.rb.nis ∧ Below s.rb.eis t.rb.eis) ∧
    t.hid.powered = s.hid.powered ∧ t.hid.bootArmed = s.hid.bootArmed ∧
    (NoReset s → (∀ x ∈ latchedRegs, t.rb.get x = s.rb.get x) ∧ t.hid.trigger = s.hid.trigger) ∧
    t.h = s.h ∧ t.sent = s.sent ∧ t.respBuf = s.respBuf ∧ t.port = s.port

/-- R132, R139: SEND_CMD in IDLE with the handle ready completes, with exactly these accesses in this
order, the CMD write last; `g` is what BGC read. -/
def Obligations.SendCmdWritesTheCommandLast : Prop :=
  ∀ (s : State) (c : Descriptor), c.wf = true → s.seq = .idle → s.h.ready = true →
    ∃ t g, exec (.sendCmd c) s = .next t ∧ t.seq = .issued ∧ t.reply = .none ∧ t.log = s.log ∧
      t.trace = s.trace ++ [wrote s.cfg .nis s.cfg.irq.nisAll] ++
        (if c.dataXfer = true ∨ c.bootEn = true then
          [wrote s.cfg .blkcnt (c.blkcnt.setWidth 32), wrote s.cfg .dmaaddr c.dmaAddr,
           wrote s.cfg .blksize
             (if c.index.toNat = s.cfg.blk.bootIndex then s.cfg.blk.bootBoundary ||| s.cfg.blk.bootSize
              else s.cfg.blk.defBoundary ||| s.cfg.blk.defSize),
           wrote s.cfg .xfermode (xferWord s.cfg c)] ++
          (if c.bootEn = true then
            [wrote s.cfg .boottimeout s.cfg.boot.timeoutValue, .read .bgc g,
             wrote s.cfg .bgc (g ||| (s.cfg.boot.bgcEn ||| s.cfg.boot.bgcAck))]
           else [])
         else []) ++
        [wrote s.cfg .arg c.arg, wrote s.cfg .cmd (cmdWord s.cfg c)]

/-- R132 to R137, R226: the values SEND_CMD leaves, with no reset in progress, and its frame: a command
with neither data nor boot-enable leaves the transfer registers, BGC and BOOTTIMEOUT alone; EIS is not
cleared; the command waits to be taken up. -/
def Obligations.SendCmdChangesOnlyItsRegisters : Prop :=
  ∀ (s t : State) (c : Descriptor), exec (.sendCmd c) s = .next t → NoReset s →
    t.rb.arg = trunc (s.cfg.width .arg) c.arg ∧ t.rb.cmd = cmdWord s.cfg c ∧ t.hid.trigger = true ∧
    ((c.dataXfer = true ∨ c.bootEn = true) →
      t.rb.blksize = trunc (s.cfg.width .blksize) (blkSizeWord s.cfg c) ∧
      t.rb.xfermode = trunc (s.cfg.width .xfermode) (xferWord s.cfg c)) ∧
    (c.dataXfer = false → c.bootEn = false →
      t.rb.blksize = s.rb.blksize ∧ t.rb.xfermode = s.rb.xfermode) ∧
    (c.bootEn = true →
      t.rb.boottimeout = trunc (s.cfg.width .boottimeout) s.cfg.boot.timeoutValue ∧
      t.hid.bootArmed = (trunc (s.cfg.width .boottimeout) s.cfg.boot.timeoutValue != 0) ∧
      t.rb.bgc = trunc (s.cfg.width .bgc) (s.rb.bgc ||| (s.cfg.boot.bgcEn ||| s.cfg.boot.bgcAck))) ∧
    (c.bootEn = false → t.rb.boottimeout = s.rb.boottimeout ∧ t.hid.bootArmed = s.hid.bootArmed ∧
      t.rb.bgc = s.rb.bgc) ∧
    (∀ x ∈ [.pwrctl, .timeoutctl, .nie, .eie, .hc, .hc2], t.rb.get x = s.rb.get x) ∧
    clkBits t = clkBits s ∧ t.hid.powered = s.hid.powered ∧ Below s.rb.eis t.rb.eis ∧ NoReset t ∧
    t.h = s.h ∧ t.sent = some c ∧ t.respBuf = s.respBuf ∧ t.port = s.port

/-- R139, R171: the step after a SEND_CMD takes the command up, as it was written: its word, index and
argument, its response class, a transfer where the word has data present or the command is a boot command,
and for a data or boot command the block size and transfer mode just programmed. Which bit of the word is
data-present is the model's own configuration field (log entry 11). The model's choices: a command still in
flight is replaced (log entry 33), and data-present without `data_xfer` makes a transfer of the registers as they
stand (log entry 28), a length `RESP_LENS` lacks counts as unrecognised (log entry 43). -/
def Obligations.DispatchedCommandReachesTheEngine : Prop :=
  ∀ (s t : State) (c : Descriptor), s.cfg.wf = true → NoReset s → exec (.sendCmd c) s = .next t →
    ∃ u f, step t = .next u ∧ u.hid.cmd = some f ∧ u.hid.trigger = false ∧ u.rb = t.rb ∧
      u.seq = .issued ∧ f.word = cmdWord s.cfg c ∧ f.index = c.index.setWidth 6 ∧
      f.arg = trunc (s.cfg.width .arg) c.arg ∧
      (s.cfg.recognises c.respLen = true →
        (c.respLen = 0 → f.kind = .none) ∧ (c.respLen = 128 → f.kind = .r136) ∧
        (c.respLen = 32 → f.kind = if c.busy then .r48b else .r48)) ∧
      (s.cfg.recognises c.respLen = false ∨ (c.respLen ≠ 0 ∧ c.respLen ≠ 128 ∧ c.respLen ≠ 32) →
        s.cfg.cmd.respNone = 0 → f.kind = .none) ∧
      (hasBit (cmdWord s.cfg c) s.cfg.cmd.dataPresent = true → f.xfer.isSome = true) ∧
      (∀ x, f.xfer = some x → (c.dataXfer = true ∨ c.bootEn = true) →
        x.blksize = trunc (s.cfg.width .blksize) (blkSizeWord s.cfg c) ∧
        x.xfermode = trunc (s.cfg.width .xfermode) (xferWord s.cfg c)) ∧
      (c.bootEn = true → f.xfer.isSome = true)

/-- R144 to R149, R155, R195, R209: every ending of a non-data WAIT_CMD: no flag in time; the error flag;
command complete, with the reads and the response buffer its length calls for (where `RESP_LENS` has it, which
is the model's choice, log entry 43) and only `NIS_CC` cleared; neither of the two, where the model stops in a
fault, as the spec says it must. That its wait and the reset of a recovery end at all is R209 given R203's progress (log entry 6). -/
def Obligations.NonDataWaitEndings : Prop :=
  ∀ (s : State) (c : Descriptor), c.wf = true → s.seq = .issued → s.sent = some c →
    c.bootEn = false → c.dataXfer = false →
    ∃ l, OnlyReads .nis l ∧
      ((∃ t r, exec (.waitCmd c) s = .next t ∧ t.reply = .fail ∧ t.seq = .idle ∧ OnlyReads .swreset r ∧
          t.trace = s.trace ++ l ++ recoverAccesses s.cfg r ∧
          resetLog s.cfg (s.log ++ [⟨.cmdTimeout, []⟩]) t.log ∧ t.respBuf = s.respBuf) ∨
       (∃ n, l.getLast? = some (.read .nis n) ∧ n ≠ 0 ∧
         ((hasBit n s.cfg.irq.err = true ∧
            ∃ t r, exec (.waitCmd c) s = .next t ∧ t.reply = .fail ∧ t.seq = .idle ∧
              OnlyReads .swreset r ∧ t.trace = s.trace ++ l ++ recoverAccesses s.cfg r ∧
              resetLog s.cfg (s.log ++ [⟨.hwError, [n]⟩]) t.log ∧ t.respBuf = s.respBuf) ∨
          (hasBit n s.cfg.irq.err = false ∧ hasBit n s.cfg.irq.cc = true ∧
            ∃ t q, exec (.waitCmd c) s = .next t ∧ t.reply = .ok ∧ t.seq = .idle ∧ t.log = s.log ∧
              t.trace = s.trace ++ l ++ q ++ [wrote s.cfg .nis s.cfg.irq.cc] ∧
              (c.respLen = 128 → s.cfg.recognises c.respLen = true → ∃ r3 r2 r1 r0,
                q = [.read .resp3 r3, .read .resp2 r2, .read .resp1 r1, .read .resp0 r0] ∧
                t.respBuf = ⟨(r3 <<< 8) ||| (r2 >>> 24), (r2 <<< 8) ||| (r1 >>> 24),
                  (r1 <<< 8) ||| (r0 >>> 24), r0 <<< 8⟩) ∧
              (c.respLen = 32 → s.cfg.recognises c.respLen = true → ∃ r0, q = [.read .resp0 r0] ∧
                t.respBuf = { s.respBuf with w0 := r0 }) ∧
              (s.cfg.recognises c.respLen = false ∨ (c.respLen ≠ 128 ∧ c.respLen ≠ 32) →
                q = [] ∧ t.respBuf = s.respBuf)) ∨
          (hasBit n s.cfg.irq.err = false ∧ hasBit n s.cfg.irq.cc = false ∧
            exec (.waitCmd c) s = .fault .waitNeitherErrorNorComplete))))

/-- R144, R145, R155, R209: the outcome of a non-data WAIT_CMD whose first read of NIS, made within the budget,
shows a flag. `n` is what that read returns. That the recovery of a FAIL ends at all is R209 given R203's
progress (log entry 6). -/
def Obligations.NonDataWaitCompletesOnFirstFlag : Prop :=
  ∀ (s : State) (c : Descriptor), c.wf = true → s.seq = .issued → s.sent = some c →
    c.bootEn = false → c.dataXfer = false →
    let u := sampleClock (sampleClock s)
    let n := (hwStep u).view .nis
    u.env.now - (sampleClock s).env.now ≤ s.cfg.budgets.tCmd →
    (hasBit n s.cfg.irq.err = false → hasBit n s.cfg.irq.cc = true →
      ∃ t, exec (.waitCmd c) s = .next t ∧ t.reply = .ok ∧ t.seq = .idle ∧ t.log = s.log) ∧
    (hasBit n s.cfg.irq.err = true →
      ∃ t, exec (.waitCmd c) s = .next t ∧ t.reply = .fail ∧ t.seq = .idle) ∧
    (n ≠ 0 → hasBit n s.cfg.irq.err = false → hasBit n s.cfg.irq.cc = false →
      exec (.waitCmd c) s = .fault .waitNeitherErrorNorComplete)

/-- R144, R150, R153, R154: a boot-enable WAIT_CMD whose first read of NIS, made within the budget, shows
`NIS_BOOT_ACK` returns OK and leaves STREAMING; with another flag only it FAILs. A data WAIT_CMD whose first
read shows a flag, and whose first round, made within T_DATA of its start, reads EIS 0 and NIS with
buffer-read-ready or transfer-complete, returns OK with one last write that clears that flag alone; with EIS
not 0 it FAILs. `n` and `q` are what NIS reads, `e` what EIS reads. That the recovery of a FAIL ends at all is
R209 given R203's progress (log entry 6). -/
def Obligations.BootAndDataWaitsCompleteOnFirstFlag : Prop :=
  ∀ (s : State) (c : Descriptor), c.wf = true → s.seq = .issued → s.sent = some c →
    (c.bootEn = true ∨ c.dataXfer = true) →
    let u := sampleClock (sampleClock s)
    let n := (hwStep u).view .nis
    u.env.now - (sampleClock s).env.now ≤ s.cfg.budgets.tCmd → n ≠ 0 →
    (c.bootEn = true →
      (hasBit n s.cfg.irq.bootAck = true →
        ∃ t, exec (.waitCmd c) s = .next t ∧ t.reply = .ok ∧ t.seq = .streaming ∧ t.log = s.log) ∧
      (hasBit n s.cfg.irq.bootAck = false →
        ∃ t, exec (.waitCmd c) s = .next t ∧ t.reply = .fail ∧ t.seq = .idle)) ∧
    (c.bootEn = false →
      let a := (regRead .nis u).2
      let d := sampleClock (sampleClock a)
      let e := (hwStep d).view .eis
      let q := (hwStep (regRead .eis d).2).view .nis
      d.env.now - (sampleClock a).env.now ≤ s.cfg.budgets.tData →
      (e ≠ 0 → ∃ t, exec (.waitCmd c) s = .next t ∧ t.reply = .fail ∧ t.seq = .idle) ∧
      (e = 0 → hasBit q s.cfg.irq.brr = true →
        ∃ t, exec (.waitCmd c) s = .next t ∧ t.reply = .ok ∧ t.seq = .idle ∧ t.log = s.log ∧
          t.trace.getLast? = some (wrote s.cfg .nis s.cfg.irq.brr)) ∧
      (e = 0 → hasBit q s.cfg.irq.brr = false → hasBit q s.cfg.irq.tc = true →
        ∃ t, exec (.waitCmd c) s = .next t ∧ t.reply = .ok ∧ t.seq = .idle ∧ t.log = s.log ∧
          t.trace.getLast? = some (wrote s.cfg .nis s.cfg.irq.tc)))

/-- R150, R209: every ending of a boot-enable WAIT_CMD; it never reads the response. That its wait and the
reset of a recovery end at all is R209 given R203's progress (log entry 6). -/
def Obligations.BootWaitCommandEndings : Prop :=
  ∀ (s : State) (c : Descriptor), c.wf = true → s.seq = .issued → s.sent = some c → c.bootEn = true →
    ∃ t l, exec (.waitCmd c) s = .next t ∧ OnlyReads .nis l ∧ t.respBuf = s.respBuf ∧
      ((t.reply = .fail ∧ t.seq = .idle ∧ ∃ r, OnlyReads .swreset r ∧
          t.trace = s.trace ++ l ++ recoverAccesses s.cfg r ∧
          resetLog s.cfg (s.log ++ [⟨.cmdTimeout, []⟩]) t.log) ∨
       (∃ n, l.getLast? = some (.read .nis n) ∧ n ≠ 0 ∧
         ((hasBit n s.cfg.irq.bootAck = false ∧ t.reply = .fail ∧ t.seq = .idle ∧
            ∃ r, OnlyReads .swreset r ∧ t.trace = s.trace ++ l ++ recoverAccesses s.cfg r ∧
              resetLog s.cfg (s.log ++ [⟨.bootNoAck, [n]⟩]) t.log) ∨
          (hasBit n s.cfg.irq.bootAck = true ∧ t.reply = .ok ∧ t.seq = .streaming ∧ t.log = s.log ∧
            t.trace = s.trace ++ l ++ [wrote s.cfg .boottimeout 0, wrote s.cfg .nis s.cfg.irq.bootAck]))))

/-- R144, R151 to R154, R193, R209: every ending of a data WAIT_CMD. That the waits end at all is R209 given
R203's progress (log entry 6). Each round reads EIS before
NIS; an error ends the wait in recovery whatever NIS holds; a DMA interrupt is acknowledged and the wait
goes on; buffer-read-ready is tested before transfer-complete. -/
def Obligations.DataWaitEndings : Prop :=
  ∀ (s : State) (c : Descriptor), c.wf = true → s.seq = .issued → s.sent = some c →
    c.bootEn = false → c.dataXfer = true →
    ∃ t l, exec (.waitCmd c) s = .next t ∧ t.seq = .idle ∧ OnlyReads .nis l ∧ t.respBuf = s.respBuf ∧
      ((t.reply = .fail ∧ ∃ r, OnlyReads .swreset r ∧
          t.trace = s.trace ++ l ++ recoverAccesses s.cfg r ∧
          resetLog s.cfg (s.log ++ [⟨.cmdTimeout, []⟩]) t.log) ∨
       (∃ n m, l.getLast? = some (.read .nis n) ∧ n ≠ 0 ∧ QuietRounds s.cfg m ∧
         ((t.reply = .fail ∧ ∃ r, OnlyReads .swreset r ∧
            t.trace = s.trace ++ l ++ m ++ recoverAccesses s.cfg r ∧
            resetLog s.cfg (s.log ++ [⟨.dataTimeout, []⟩]) t.log) ∨
          (t.reply = .fail ∧ ∃ r e a, OnlyReads .swreset r ∧ e ≠ 0 ∧
            t.trace = s.trace ++ l ++ m ++ [.read .eis e, .read .acmd12stat a] ++
              recoverAccesses s.cfg r ∧
            resetLog s.cfg (s.log ++ [⟨.hwError, [e, a]⟩]) t.log) ∨
          (t.reply = .ok ∧ t.log = s.log ∧ ∃ q a, hasBit q s.cfg.irq.brr = true ∧
            t.trace = s.trace ++ l ++ m ++ roundAccesses s.cfg q a ++
              [wrote s.cfg .nis s.cfg.irq.brr]) ∨
          (t.reply = .ok ∧ t.log = s.log ∧ ∃ q a, hasBit q s.cfg.irq.brr = false ∧
            hasBit q s.cfg.irq.tc = true ∧
            t.trace = s.trace ++ l ++ m ++ roundAccesses s.cfg q a ++
              [wrote s.cfg .nis s.cfg.irq.tc]))))

/-- R11, R193, R204: a wait returns OK only within its budget, and a timeout only after it. A poll whose
first read, made within the budget, meets the condition returns that value; one that times out never read a
value that does. A data wait logs DATA_TIMEOUT, and WAIT_CMD logs CMD_TIMEOUT, only after its budget; neither
succeeds after it. `(sampleClock s).env.now` is the time the wait samples at its start. -/
def Obligations.NoSuccessAfterTheDeadline : Prop :=
  (∀ (x : Reg) (cond : Word → Bool) (b : Nat) (s : State),
    let u := sampleClock (sampleClock s)
    (∀ v, (poll x cond b s).1 = some v →
      cond v = true ∧ (poll x cond b s).2.env.now ≤ (sampleClock s).env.now + b) ∧
    ((poll x cond b s).1 = none → (sampleClock s).env.now + b < (poll x cond b s).2.env.now ∧
      ∃ l, (poll x cond b s).2.trace = s.trace ++ l ∧ ∀ a ∈ l, ∃ v, a = .read x v ∧ cond v = false) ∧
    (u.env.now - (sampleClock s).env.now ≤ b → cond ((hwStep u).view x) = true →
      (poll x cond b s).1 = some ((hwStep u).view x))) ∧
  (∀ s : State, ((waitData s).reply = .ok →
      (waitData s).env.now ≤ (sampleClock s).env.now + s.cfg.budgets.tData) ∧
    (⟨.dataTimeout, []⟩ ∈ (waitData s).log.drop s.log.length →
      (sampleClock s).env.now + s.cfg.budgets.tData < (waitData s).env.now)) ∧
  (∀ (s t : State) (c : Descriptor), exec (.waitCmd c) s = .next t →
    ((c.bootEn = true ∨ c.dataXfer = false) → t.reply = .ok →
      t.env.now ≤ (sampleClock s).env.now + s.cfg.budgets.tCmd) ∧
    (⟨.cmdTimeout, []⟩ ∈ t.log.drop s.log.length →
      (sampleClock s).env.now + s.cfg.budgets.tCmd < t.env.now))

/-- R195, R111: recovery is the data+command reset, whose result is ignored but for the log, then the
status clearing; EIS and NIS flags in the clear-all masks read 0 when their write has been made. -/
def Obligations.RecoveryResetsThenClears : Prop :=
  ∀ s : State, ∃ l, OnlyReads .swreset l ∧
    (recover s).trace = s.trace ++ recoverAccesses s.cfg l ∧
    resetLog s.cfg s.log (recover s).log ∧
    (recover s).rb.eis &&& trunc (s.cfg.width .eis) s.cfg.irq.eisAll = 0 ∧
    (regWrite .nis s.cfg.irq.nisAll s).rb.nis &&& trunc (s.cfg.width .nis) s.cfg.irq.nisAll = 0 ∧
    (recover s).seq = s.seq ∧ (recover s).h = s.h ∧ (recover s).respBuf = s.respBuf

/-- R196, R230: the frame of WAIT_CMD, with no full reset in progress: PWRCTL, CLKCTL, TIMEOUTCTL, NIE,
EIE, HC, HC2, BGC and the handle are kept however it ends; BOOTTIMEOUT changes only where the boot
acknowledge was seen; a success clears no flag but its own (unless a reset still running from an earlier
operation clears one, log entry 14). -/
def Obligations.WaitCmdPreservesProgramming : Prop :=
  ∀ (s t : State) (c : Descriptor), s.cfg.wf = true → NoFullReset s →
    exec (.waitCmd c) s = .next t →
    (∀ x ∈ steadyRegs, x ≠ .boottimeout → t.rb.get x = s.rb.get x) ∧
    ((c.bootEn = false ∨ t.reply = .fail) →
      t.rb.boottimeout = s.rb.boottimeout ∧ t.hid.bootArmed = s.hid.bootArmed) ∧
    (c.bootEn = true → t.reply = .ok → t.rb.boottimeout = 0 ∧ t.hid.bootArmed = false) ∧
    clkBits t = clkBits s ∧ t.hid.powered = s.hid.powered ∧ NoFullReset t ∧ t.h = s.h ∧
    t.port = s.port ∧ t.sent = none ∧
    (t.reply = .ok → KeepsFlags s → Below s.rb.eis t.rb.eis ∧
      Below (s.rb.nis &&& ~~~(if c.bootEn then s.cfg.irq.bootAck
        else if c.dataXfer then s.cfg.irq.dma ||| s.cfg.irq.brr ||| s.cfg.irq.tc
        else s.cfg.irq.cc)) t.rb.nis) ∧
    (t.reply = .ok → NoReset s →
      (∀ x ∈ latchedRegs, t.rb.get x = s.rb.get x) ∧ t.hid.trigger = s.hid.trigger)

/-- R152: the DMA acknowledge writes the address read straight back, then clears `NIS_DMA`; the flag
reads 0 when its write has been made. -/
def Obligations.DmaAcknowledgeWritesBackThenClears : Prop :=
  ∀ s : State, s.cfg.wf = true → RegsFit s →
    let a := (regRead .dmaaddr s).1
    (dmaAck s).1 = a ∧
    (dmaAck s).2.trace = s.trace ++
      [.read .dmaaddr a, .write .dmaaddr a, .write .nis s.cfg.irq.dma] ∧
    hasBit (dmaAck s).2.rb.nis s.cfg.irq.dma = false

/-- R158: BOOT_WAIT in STREAMING completes with one read of NIS, acknowledges a pending DMA interrupt,
and returns the terminal bit and the address reached, or none. -/
def Obligations.BootWaitReportsAndAcknowledges : Prop :=
  ∀ s : State, s.seq = .streaming →
    ∃ t q a, exec .bootWait s = .next t ∧ t.seq = .streaming ∧ t.log = s.log ∧
      q = (hwStep s).view .nis ∧
      t.reply = .boot (hasBit q s.cfg.irq.bootTerm)
        (if hasBit q s.cfg.irq.dma then some a else none) ∧
      t.trace = s.trace ++ .read .nis q ::
        (if hasBit q s.cfg.irq.dma then dmaAckAccesses s.cfg a else [])

/-- R158, R162: the frames of BOOT_WAIT and BOOT_STOP, with no full reset in progress. BOOT_WAIT changes
no register that is software's and clears no flag but `NIS_DMA` (unless a reset still running from an earlier
operation clears one, log entry 14); BOOT_STOP clears boot-enable in BGC,
keeps its other bits, and leaves BOOTTIMEOUT and the rest alone. -/
def Obligations.BootHelpersPreserveTheRest : Prop :=
  ∀ s t : State, s.cfg.wf = true → NoFullReset s →
    (exec .bootWait s = .next t →
      (∀ x ∈ steadyRegs, t.rb.get x = s.rb.get x) ∧ clkBits t = clkBits s ∧
      t.hid.powered = s.hid.powered ∧ t.hid.bootArmed = s.hid.bootArmed ∧
      (KeepsFlags s → Below s.rb.eis t.rb.eis ∧ Below (s.rb.nis &&& ~~~s.cfg.irq.dma) t.rb.nis) ∧
      (NoReset s → (∀ x ∈ latchedRegs, t.rb.get x = s.rb.get x) ∧ t.hid.trigger = s.hid.trigger) ∧
      t.h = s.h ∧ t.sent = s.sent ∧ t.respBuf = s.respBuf ∧ t.port = s.port) ∧
    (exec .bootStop s = .next t →
      t.rb.bgc = trunc (s.cfg.width .bgc) (s.rb.bgc &&& ~~~s.cfg.boot.bgcEn) ∧
      (∀ x ∈ steadyRegs, x ≠ .bgc → t.rb.get x = s.rb.get x) ∧ clkBits t = clkBits s ∧
      t.hid.powered = s.hid.powered ∧ t.hid.bootArmed = s.hid.bootArmed ∧ NoFullReset t ∧
      t.h = s.h ∧ t.sent = none ∧ t.respBuf = s.respBuf ∧ t.port = s.port)

/-- R162, R209: BOOT_STOP completes: boot-enable cleared, status cleared, then the data+command reset, whose
timeout is logged and nothing else. That the reset's poll ends at all is R209 given R203's progress (log
entry 6). `g` is what BGC read. -/
def Obligations.BootStopEndsTheStream : Prop :=
  ∀ s : State, ∃ t g l, exec .bootStop s = .next t ∧ t.seq = .idle ∧ t.reply = .none ∧
    OnlyReads .swreset l ∧ resetLog s.cfg s.log t.log ∧
    t.trace = s.trace ++ [.read .bgc g, wrote s.cfg .bgc (g &&& ~~~s.cfg.boot.bgcEn)] ++
      clearAllAccesses s.cfg ++ resetAccesses s.cfg s.cfg.dcMask l

/-- R163: invoked twice in a row, BOOT_STOP makes the same register writes and leaves the same boot-enable
bits both times. -/
def Obligations.BootStopIsIdempotent : Prop :=
  ∀ s t u : State, s.cfg.wf = true → NoFullReset s →
    exec .bootStop s = .next t → exec .bootStop t = .next u →
    ∃ a b, t.trace = s.trace ++ a ∧ u.trace = t.trace ++ b ∧ writesOf a = writesOf b ∧
      u.rb.bgc = t.rb.bgc ∧ hasBit t.rb.bgc s.cfg.boot.bgcEn = false ∧ u.seq = t.seq

/-! ### The whole machine -/

/-- R61, R82, R225: while no transfer that stores to memory is in progress, no instruction changes any byte
of system memory. Beside a read transfer, any instruction changes only bytes that transfer had still to move,
counted from the address it had reached or from an address the instruction writes to DMAADDR; an instruction
that never writes DMAADDR, and a BOOT_WAIT that reads `NIS_DMA` clear, only those counted from the address
reached. (The model's choices: this bound inside the open oracle, log entry 27; that an engine written DMAADDR goes
on there with the bytes it had left, log entry 42; and that a boot stream stores
nothing past its block count, that one with `TM_READ` clear stores nothing, and the wrap of the address, log
entry 22.) -/
def Obligations.MemoryChangesOnlyByDma : Prop :=
  ∀ (i : Instr) (s t : State), exec i s = .next t →
    (NoStore s → ∀ a, Memory.read t.mem a = Memory.read s.mem a) ∧
    (∀ l, t.trace = s.trace ++ l → ∀ a, Outside s a →
      (∀ v, (.dmaaddr, v) ∈ writesOf l → ∀ d, s.hid.dma = some d → d.toMem = true →
        ∀ k, k < d.left → a ≠ (v.toNat + k) % 2 ^ 32) →
      Memory.read t.mem a = Memory.read s.mem a) ∧
    (neverResumes i = true ∨
        (i = .bootWait ∧ hasBit ((hwStep s).view .nis) s.cfg.irq.dma = false) →
      ∀ a, Outside s a → Memory.read t.mem a = Memory.read s.mem a)

/-- R20, R80: the response buffer is written only by a successful WAIT_CMD of a non-data command, and
only its first word for a 32-bit response. -/
def Obligations.ResponseBufferOnlyOnNonDataSuccess : Prop :=
  ∀ (i : Instr) (s t : State), exec i s = .next t → t.respBuf ≠ s.respBuf →
    ∃ c, i = .waitCmd c ∧ c.bootEn = false ∧ c.dataXfer = false ∧ t.reply = .ok ∧
      (c.respLen = 128 ∨ (c.respLen = 32 ∧ t.respBuf = { s.respBuf with w0 := t.respBuf.w0 }))

/-- R155: only a non-data WAIT_CMD stops in a fault, and there is one fault. -/
def Obligations.OnlyNonDataWaitFaults : Prop :=
  ∀ (i : Instr) (s : State) (f : Fault), exec i s = .fault f →
    ∃ c, i = .waitCmd c ∧ c.bootEn = false ∧ c.dataXfer = false ∧ s.seq = .issued ∧ s.sent = some c

/-- R82: which registers each operation may write; no operation writes RESP, CAP or ACMD12STAT, and the
command engine writes none. -/
def Obligations.OperationsWriteOnlyTheirRegisters : Prop :=
  ∀ (i : Instr) (s t : State), exec i s = .next t →
    ∃ l, t.trace = s.trace ++ l ∧
      ∀ p ∈ writesOf l, p.1 ∈
        (match i with
          | .init => [.swreset, .pwrctl, .clkctl, .timeoutctl, .nis, .eis, .nie, .eie]
          | .setMode _ => [.clkctl, .hc2, .hc]
          | .sendCmd c =>
            if c.bootEn then
              [.nis, .blkcnt, .dmaaddr, .blksize, .xfermode, .boottimeout, .bgc, .arg, .cmd]
            else if c.dataXfer then [.nis, .blkcnt, .dmaaddr, .blksize, .xfermode, .arg, .cmd]
            else [.nis, .arg, .cmd]
          | .waitCmd c =>
            if c.bootEn then [.boottimeout, .nis, .swreset, .eis]
            else if c.dataXfer then [.dmaaddr, .nis, .swreset, .eis]
            else [.nis, .swreset, .eis]
          | .bootWait => [.dmaaddr, .nis]
          | .bootStop => [.bgc, .nis, .eis, .swreset]
          | .cmdwRespNone _ _ => []
          | .cmdwResp136 _ _ => []
          | .cmdwResp48 _ _ => []
          | .cmdwResp48b _ _ => [] : List Reg)

/-- R16, R17, R47, R203, R207: no step changes the configuration, the base, the capabilities or CAP; time
never goes back; the log and the trace only grow. -/
def Obligations.ConstantsStayAndTimeIsMonotone : Prop :=
  ∀ s t : State, step s = .next t →
    t.cfg = s.cfg ∧ t.h.base = s.h.base ∧ t.h.cap = s.h.cap ∧ t.rb.cap0 = s.rb.cap0 ∧
    t.rb.cap1 = s.rb.cap1 ∧ s.env.now ≤ t.env.now ∧ s.log <+: t.log ∧ s.trace <+: t.trace

/-- R18, R218, R222: the handle is ready only while INIT's last run returned OK: no instruction but INIT
changes `H.ready` or `H.voltage`. -/
def Obligations.OnlyInitChangesReadiness : Prop :=
  ∀ (i : Instr) (s t : State), exec i s = .next t → (t.h ≠ s.h → i = .init) ∧
    (i = .init → (t.h.ready = true ↔ t.reply = .ok))
end

