-- ==== Sys2Proof/Laws/Bits.lean ====
section
/-! SUPPORT. Bit-level facts: truncation, masks, monotone flags. -/

namespace Sys2Proof

theorem hasBit_false (v m : Word) : hasBit v m = false ↔ v &&& m = 0 := by
  simp [hasBit]

theorem hasBit_true (v m : Word) : hasBit v m = true ↔ v &&& m ≠ 0 := by
  simp [hasBit]

theorem fits_iff (w : Nat) (v : Word) : fits w v = true ↔ v &&& mask w = v := by
  simp [fits, trunc]

theorem and_and_self (v m : Word) : v &&& m &&& m = v &&& m := by
  rw [BitVec.and_assoc, BitVec.and_self]

theorem fits_trunc (w : Nat) (v : Word) : fits w (trunc w v) = true := by
  rw [fits_iff, trunc, and_and_self]

theorem trunc_of_fits {w : Nat} {v : Word} (h : fits w v = true) : trunc w v = v := by
  simpa [trunc] using (fits_iff w v).1 h

theorem fits_zero (w : Nat) : fits w 0 = true := by simp [fits_iff]

theorem fits_or {w : Nat} {a b : Word} (ha : fits w a = true) (hb : fits w b = true) :
    fits w (a ||| b) = true := by
  rw [fits_iff] at *
  rw [BitVec.and_comm, BitVec.and_or_distrib_left, BitVec.and_comm, ha, BitVec.and_comm, hb]

theorem fits_and_left {w : Nat} {a : Word} (b : Word) (ha : fits w a = true) :
    fits w (a &&& b) = true := by
  rw [fits_iff] at *
  rw [BitVec.and_assoc, BitVec.and_comm b, ← BitVec.and_assoc, ha]

theorem below_iff (a b : Word) : Below a b ↔ ∀ i, a.getLsbD i = true → b.getLsbD i = true := by
  unfold Below
  constructor
  · intro h i hi
    have := congrArg (·.getLsbD i) h
    have hlt : i < 32 := BitVec.lt_of_getLsbD hi
    simpa [hi, hlt] using this
  · intro h
    apply BitVec.eq_of_getLsbD_eq
    intro i hlt
    have := h i
    cases ha : a.getLsbD i <;> simp_all

theorem Below.refl (a : Word) : Below a a := (below_iff a a).2 fun _ h => h

theorem Below.trans {a b c : Word} (h : Below a b) (k : Below b c) : Below a c :=
  (below_iff a c).2 fun i hi => (below_iff b c).1 k i ((below_iff a b).1 h i hi)

theorem below_zero (a : Word) : Below 0 a := BitVec.zero_and

theorem below_or_left (a b : Word) : Below a (a ||| b) :=
  (below_iff _ _).2 fun i hi => by simp [hi]

theorem below_and_left (a b : Word) : Below (a &&& b) a :=
  (below_iff _ _).2 fun i hi => by simpa using (by simpa using hi : _ ∧ _).1

theorem Below.no_bit {a b m : Word} (h : Below a b) (hb : hasBit b m = false) :
    hasBit a m = false := by
  rw [hasBit_false] at *
  apply BitVec.eq_of_getLsbD_eq
  intro i hlt
  have hm : (b.getLsbD i && m.getLsbD i) = false := by
    simpa using congrArg (·.getLsbD i) hb
  have hab := (below_iff a b).1 h i
  have goal : (a.getLsbD i && m.getLsbD i) = false := by
    cases ha : a.getLsbD i <;> simp_all
  simpa using goal

theorem no_bit_or {v a b : Word} (h : hasBit v (a ||| b) = false) :
    hasBit v a = false ∧ hasBit v b = false := by
  simp only [hasBit_false, BitVec.and_or_distrib_left] at *
  exact BitVec.or_eq_zero_iff.1 h

end Sys2Proof
end

