-- ==== Sys2Proof/Laws/Memory.lean ====
section
/-! SUPPORT. System memory: reading after writing, and that writing keeps the canonical form. -/

namespace Sys2Proof.Machine

theorem Memory.read_below : ∀ (m : List Host.Cell) {lo a : Nat},
    Memory.risingFrom lo m = true → a < lo → Memory.read m a = none
  | [], _, _, _, _ => rfl
  | (k, b) :: r, lo, a, h, ha => by
    simp only [Memory.risingFrom, Bool.and_eq_true, decide_eq_true_eq] at h
    have : k ≠ a := by omega
    simp only [Memory.read, this, if_false]
    exact Memory.read_below r h.2 (by omega)

theorem Memory.read_write_same : ∀ (m : List Host.Cell) (a : Nat) (b : Byte),
    Memory.read (Memory.write m a b) a = some b
  | [], a, b => by simp [Memory.write, Memory.read]
  | (k, c) :: r, a, b => by
    simp only [Memory.write]
    split
    · simp [Memory.read]
    · split
      · simp [Memory.read]
      · next h1 h2 =>
        simp only [Memory.read, Ne.symm h2, if_false]
        exact Memory.read_write_same r a b

theorem Memory.read_write_other : ∀ (m : List Host.Cell) {a a' : Nat} (b : Byte), a' ≠ a →
    Memory.read (Memory.write m a b) a' = Memory.read m a'
  | [], a, a', b, h => by simp [Memory.write, Memory.read, Ne.symm h]
  | (k, c) :: r, a, a', b, h => by
    simp only [Memory.write]
    split
    · simp [Memory.read, Ne.symm h]
    · split
      · next h2 => subst h2; simp [Memory.read, Ne.symm h]
      · simp only [Memory.read]
        rw [Memory.read_write_other r b h]

theorem Memory.rising_write : ∀ (m : List Host.Cell) {lo a : Nat} (b : Byte),
    Memory.risingFrom lo m = true → lo ≤ a → a < 2 ^ 32 →
    Memory.risingFrom lo (Memory.write m a b) = true
  | [], lo, a, b, _, hl, ha => by
    simp only [Memory.write, Memory.risingFrom, Bool.and_true, Bool.and_eq_true, decide_eq_true_eq]
    omega
  | (k, c) :: r, lo, a, b, h, hl, ha => by
    simp only [Memory.risingFrom, Bool.and_eq_true, decide_eq_true_eq] at h
    simp only [Memory.write]
    split
    · simp only [Memory.risingFrom, Bool.and_eq_true, decide_eq_true_eq]
      exact ⟨⟨hl, ha⟩, ⟨⟨by omega, h.1.2⟩, h.2⟩⟩
    · split
      · next h2 =>
        subst h2
        simp only [Memory.risingFrom, Bool.and_eq_true, decide_eq_true_eq]
        exact h
      · simp only [Memory.risingFrom, Bool.and_eq_true, decide_eq_true_eq]
        exact ⟨h.1, Memory.rising_write r b h.2 (by omega) ha⟩

theorem Memory.wf_write {m : List Host.Cell} {a : Nat} (b : Byte) (h : Memory.wf m = true)
    (ha : a < 2 ^ 32) : Memory.wf (Memory.write m a b) = true :=
  Memory.rising_write m b h (Nat.zero_le a) ha

theorem oracleByte_wf (pos : Word) (n : Nat) {m : List Host.Cell} (kb : Nat × Byte)
    (h : Memory.wf m = true) : Memory.wf (oracleByte pos n m kb) = true := by
  unfold oracleByte
  split
  · exact Memory.wf_write _ h (Nat.mod_lt _ (by norm_num))
  · exact h

theorem oracleBytes_wf (pos : Word) (n : Nat) : ∀ (l : List (Nat × Byte)) {m : List Host.Cell},
    Memory.wf m = true → Memory.wf (l.foldl (oracleByte pos n) m) = true
  | [], _, h => h
  | kb :: l, _, h => oracleBytes_wf pos n l (oracleByte_wf pos n kb h)

theorem oracleByte_other {pos : Word} {n a : Nat} (m : List Host.Cell) (kb : Nat × Byte)
    (h : ∀ k, k < n → a ≠ (pos.toNat + k) % 2 ^ 32) :
    Memory.read (oracleByte pos n m kb) a = Memory.read m a := by
  unfold oracleByte
  split
  · next hk => exact Memory.read_write_other m kb.2 (h kb.1 hk)
  · rfl

/-- What an oracle step stores lies among the bytes it moves (R225, log entry 27). -/
theorem oracleBytes_other {pos : Word} {n a : Nat} (h : ∀ k, k < n → a ≠ (pos.toNat + k) % 2 ^ 32) :
    ∀ (l : List (Nat × Byte)) (m : List Host.Cell),
      Memory.read (l.foldl (oracleByte pos n) m) a = Memory.read m a
  | [], _ => rfl
  | kb :: l, m => (oracleBytes_other h l _).trans (oracleByte_other m kb h)

end Sys2Proof.Machine
end

