-- ==== Sys2Proof/Laws/State.lean ====
section
/-! SUPPORT. The small lemmas of the state's updates: what each primitive update leaves in each field,
true by `rfl`, so that later proofs never unfold a record update. -/

namespace Sys2Proof.Machine

@[simp] theorem Registers.get_set_same (r : Registers) (x : Reg) (v : Word) :
    (r.set x v).get x = v := by cases x <;> rfl

theorem Registers.get_set_other (r : Registers) {x y : Reg} (v : Word) (h : y ≠ x) :
    (r.set x v).get y = r.get y := by
  cases x <;> cases y <;> first | rfl | exact absurd rfl h

@[simp] theorem Registers.set_swreset (r : Registers) (v : Word) : (r.set .swreset v).swreset = v := rfl
@[simp] theorem Registers.set_pwrctl (r : Registers) (v : Word) : (r.set .pwrctl v).pwrctl = v := rfl
@[simp] theorem Registers.set_clkctl (r : Registers) (v : Word) : (r.set .clkctl v).clkctl = v := rfl
@[simp] theorem Registers.set_timeoutctl (r : Registers) (v : Word) : (r.set .timeoutctl v).timeoutctl = v := rfl
@[simp] theorem Registers.set_nis (r : Registers) (v : Word) : (r.set .nis v).nis = v := rfl
@[simp] theorem Registers.set_eis (r : Registers) (v : Word) : (r.set .eis v).eis = v := rfl
@[simp] theorem Registers.set_nie (r : Registers) (v : Word) : (r.set .nie v).nie = v := rfl
@[simp] theorem Registers.set_eie (r : Registers) (v : Word) : (r.set .eie v).eie = v := rfl
@[simp] theorem Registers.set_arg (r : Registers) (v : Word) : (r.set .arg v).arg = v := rfl
@[simp] theorem Registers.set_cmd (r : Registers) (v : Word) : (r.set .cmd v).cmd = v := rfl
@[simp] theorem Registers.set_blksize (r : Registers) (v : Word) : (r.set .blksize v).blksize = v := rfl
@[simp] theorem Registers.set_blkcnt (r : Registers) (v : Word) : (r.set .blkcnt v).blkcnt = v := rfl
@[simp] theorem Registers.set_xfermode (r : Registers) (v : Word) : (r.set .xfermode v).xfermode = v := rfl
@[simp] theorem Registers.set_dmaaddr (r : Registers) (v : Word) : (r.set .dmaaddr v).dmaaddr = v := rfl
@[simp] theorem Registers.set_resp0 (r : Registers) (v : Word) : (r.set .resp0 v).resp0 = v := rfl
@[simp] theorem Registers.set_resp1 (r : Registers) (v : Word) : (r.set .resp1 v).resp1 = v := rfl
@[simp] theorem Registers.set_resp2 (r : Registers) (v : Word) : (r.set .resp2 v).resp2 = v := rfl
@[simp] theorem Registers.set_resp3 (r : Registers) (v : Word) : (r.set .resp3 v).resp3 = v := rfl
@[simp] theorem Registers.set_cap0 (r : Registers) (v : Word) : (r.set .cap0 v).cap0 = v := rfl
@[simp] theorem Registers.set_cap1 (r : Registers) (v : Word) : (r.set .cap1 v).cap1 = v := rfl
@[simp] theorem Registers.set_hc (r : Registers) (v : Word) : (r.set .hc v).hc = v := rfl
@[simp] theorem Registers.set_hc2 (r : Registers) (v : Word) : (r.set .hc2 v).hc2 = v := rfl
@[simp] theorem Registers.set_bgc (r : Registers) (v : Word) : (r.set .bgc v).bgc = v := rfl
@[simp] theorem Registers.set_boottimeout (r : Registers) (v : Word) : (r.set .boottimeout v).boottimeout = v := rfl
@[simp] theorem Registers.set_acmd12stat (r : Registers) (v : Word) : (r.set .acmd12stat v).acmd12stat = v := rfl

@[simp] theorem State.setReg_cfg (x : Reg) (v : Word) (s : State) : (s.setReg x v).cfg = s.cfg := rfl
@[simp] theorem State.setReg_h (x : Reg) (v : Word) (s : State) : (s.setReg x v).h = s.h := rfl
@[simp] theorem State.setReg_seq (x : Reg) (v : Word) (s : State) : (s.setReg x v).seq = s.seq := rfl
@[simp] theorem State.setReg_sent (x : Reg) (v : Word) (s : State) : (s.setReg x v).sent = s.sent := rfl
@[simp] theorem State.setReg_rb (x : Reg) (v : Word) (s : State) : (s.setReg x v).rb = s.rb.set x v := rfl
@[simp] theorem State.setReg_hid (x : Reg) (v : Word) (s : State) : (s.setReg x v).hid = s.hid := rfl
@[simp] theorem State.setReg_mem (x : Reg) (v : Word) (s : State) : (s.setReg x v).mem = s.mem := rfl
@[simp] theorem State.setReg_respBuf (x : Reg) (v : Word) (s : State) : (s.setReg x v).respBuf = s.respBuf := rfl
@[simp] theorem State.setReg_reply (x : Reg) (v : Word) (s : State) : (s.setReg x v).reply = s.reply := rfl
@[simp] theorem State.setReg_log (x : Reg) (v : Word) (s : State) : (s.setReg x v).log = s.log := rfl
@[simp] theorem State.setReg_trace (x : Reg) (v : Word) (s : State) : (s.setReg x v).trace = s.trace := rfl
@[simp] theorem State.setReg_port (x : Reg) (v : Word) (s : State) : (s.setReg x v).port = s.port := rfl
@[simp] theorem State.setReg_env (x : Reg) (v : Word) (s : State) : (s.setReg x v).env = s.env := rfl

@[simp] theorem State.loadReg_cfg (x : Reg) (v : Word) (s : State) : (s.loadReg x v).cfg = s.cfg := rfl
@[simp] theorem State.loadReg_h (x : Reg) (v : Word) (s : State) : (s.loadReg x v).h = s.h := rfl
@[simp] theorem State.loadReg_seq (x : Reg) (v : Word) (s : State) : (s.loadReg x v).seq = s.seq := rfl
@[simp] theorem State.loadReg_sent (x : Reg) (v : Word) (s : State) : (s.loadReg x v).sent = s.sent := rfl
@[simp] theorem State.loadReg_rb (x : Reg) (v : Word) (s : State) : (s.loadReg x v).rb = s.rb.set x (trunc (s.cfg.width x) v) := rfl
@[simp] theorem State.loadReg_hid (x : Reg) (v : Word) (s : State) : (s.loadReg x v).hid = s.hid := rfl
@[simp] theorem State.loadReg_mem (x : Reg) (v : Word) (s : State) : (s.loadReg x v).mem = s.mem := rfl
@[simp] theorem State.loadReg_respBuf (x : Reg) (v : Word) (s : State) : (s.loadReg x v).respBuf = s.respBuf := rfl
@[simp] theorem State.loadReg_reply (x : Reg) (v : Word) (s : State) : (s.loadReg x v).reply = s.reply := rfl
@[simp] theorem State.loadReg_log (x : Reg) (v : Word) (s : State) : (s.loadReg x v).log = s.log := rfl
@[simp] theorem State.loadReg_trace (x : Reg) (v : Word) (s : State) : (s.loadReg x v).trace = s.trace := rfl
@[simp] theorem State.loadReg_port (x : Reg) (v : Word) (s : State) : (s.loadReg x v).port = s.port := rfl
@[simp] theorem State.loadReg_env (x : Reg) (v : Word) (s : State) : (s.loadReg x v).env = s.env := rfl

@[simp] theorem State.note_cfg (a : Access) (s : State) : (s.note a).cfg = s.cfg := rfl
@[simp] theorem State.note_h (a : Access) (s : State) : (s.note a).h = s.h := rfl
@[simp] theorem State.note_seq (a : Access) (s : State) : (s.note a).seq = s.seq := rfl
@[simp] theorem State.note_sent (a : Access) (s : State) : (s.note a).sent = s.sent := rfl
@[simp] theorem State.note_rb (a : Access) (s : State) : (s.note a).rb = s.rb := rfl
@[simp] theorem State.note_hid (a : Access) (s : State) : (s.note a).hid = s.hid := rfl
@[simp] theorem State.note_mem (a : Access) (s : State) : (s.note a).mem = s.mem := rfl
@[simp] theorem State.note_respBuf (a : Access) (s : State) : (s.note a).respBuf = s.respBuf := rfl
@[simp] theorem State.note_reply (a : Access) (s : State) : (s.note a).reply = s.reply := rfl
@[simp] theorem State.note_log (a : Access) (s : State) : (s.note a).log = s.log := rfl
@[simp] theorem State.note_trace (a : Access) (s : State) : (s.note a).trace = s.trace ++ [a] := rfl
@[simp] theorem State.note_port (a : Access) (s : State) : (s.note a).port = s.port := rfl
@[simp] theorem State.note_env (a : Access) (s : State) : (s.note a).env = s.env := rfl

@[simp] theorem State.logged_cfg (c : Cause) (vs : List Word) (s : State) : (s.logged c vs).cfg = s.cfg := rfl
@[simp] theorem State.logged_h (c : Cause) (vs : List Word) (s : State) : (s.logged c vs).h = s.h := rfl
@[simp] theorem State.logged_seq (c : Cause) (vs : List Word) (s : State) : (s.logged c vs).seq = s.seq := rfl
@[simp] theorem State.logged_sent (c : Cause) (vs : List Word) (s : State) : (s.logged c vs).sent = s.sent := rfl
@[simp] theorem State.logged_rb (c : Cause) (vs : List Word) (s : State) : (s.logged c vs).rb = s.rb := rfl
@[simp] theorem State.logged_hid (c : Cause) (vs : List Word) (s : State) : (s.logged c vs).hid = s.hid := rfl
@[simp] theorem State.logged_mem (c : Cause) (vs : List Word) (s : State) : (s.logged c vs).mem = s.mem := rfl
@[simp] theorem State.logged_respBuf (c : Cause) (vs : List Word) (s : State) : (s.logged c vs).respBuf = s.respBuf := rfl
@[simp] theorem State.logged_reply (c : Cause) (vs : List Word) (s : State) : (s.logged c vs).reply = s.reply := rfl
@[simp] theorem State.logged_log (c : Cause) (vs : List Word) (s : State) : (s.logged c vs).log = s.log ++ [⟨c, vs⟩] := rfl
@[simp] theorem State.logged_trace (c : Cause) (vs : List Word) (s : State) : (s.logged c vs).trace = s.trace := rfl
@[simp] theorem State.logged_port (c : Cause) (vs : List Word) (s : State) : (s.logged c vs).port = s.port := rfl
@[simp] theorem State.logged_env (c : Cause) (vs : List Word) (s : State) : (s.logged c vs).env = s.env := rfl

@[simp] theorem State.replied_cfg (r : Reply) (s : State) : (s.replied r).cfg = s.cfg := rfl
@[simp] theorem State.replied_h (r : Reply) (s : State) : (s.replied r).h = s.h := rfl
@[simp] theorem State.replied_seq (r : Reply) (s : State) : (s.replied r).seq = s.seq := rfl
@[simp] theorem State.replied_sent (r : Reply) (s : State) : (s.replied r).sent = s.sent := rfl
@[simp] theorem State.replied_rb (r : Reply) (s : State) : (s.replied r).rb = s.rb := rfl
@[simp] theorem State.replied_hid (r : Reply) (s : State) : (s.replied r).hid = s.hid := rfl
@[simp] theorem State.replied_mem (r : Reply) (s : State) : (s.replied r).mem = s.mem := rfl
@[simp] theorem State.replied_respBuf (r : Reply) (s : State) : (s.replied r).respBuf = s.respBuf := rfl
@[simp] theorem State.replied_reply (r : Reply) (s : State) : (s.replied r).reply = r := rfl
@[simp] theorem State.replied_log (r : Reply) (s : State) : (s.replied r).log = s.log := rfl
@[simp] theorem State.replied_trace (r : Reply) (s : State) : (s.replied r).trace = s.trace := rfl
@[simp] theorem State.replied_port (r : Reply) (s : State) : (s.replied r).port = s.port := rfl
@[simp] theorem State.replied_env (r : Reply) (s : State) : (s.replied r).env = s.env := rfl

@[simp] theorem State.settled_cfg (q : SeqState) (s : State) : (s.settled q).cfg = s.cfg := rfl
@[simp] theorem State.settled_h (q : SeqState) (s : State) : (s.settled q).h = s.h := rfl
@[simp] theorem State.settled_seq (q : SeqState) (s : State) : (s.settled q).seq = q := rfl
@[simp] theorem State.settled_sent (q : SeqState) (s : State) : (s.settled q).sent = none := rfl
@[simp] theorem State.settled_rb (q : SeqState) (s : State) : (s.settled q).rb = s.rb := rfl
@[simp] theorem State.settled_hid (q : SeqState) (s : State) : (s.settled q).hid = s.hid := rfl
@[simp] theorem State.settled_mem (q : SeqState) (s : State) : (s.settled q).mem = s.mem := rfl
@[simp] theorem State.settled_respBuf (q : SeqState) (s : State) : (s.settled q).respBuf = s.respBuf := rfl
@[simp] theorem State.settled_reply (q : SeqState) (s : State) : (s.settled q).reply = s.reply := rfl
@[simp] theorem State.settled_log (q : SeqState) (s : State) : (s.settled q).log = s.log := rfl
@[simp] theorem State.settled_trace (q : SeqState) (s : State) : (s.settled q).trace = s.trace := rfl
@[simp] theorem State.settled_port (q : SeqState) (s : State) : (s.settled q).port = s.port := rfl
@[simp] theorem State.settled_env (q : SeqState) (s : State) : (s.settled q).env = s.env := rfl

@[simp] theorem sampleClock_cfg (s : State) : (sampleClock s).cfg = s.cfg := rfl
@[simp] theorem sampleClock_h (s : State) : (sampleClock s).h = s.h := rfl
@[simp] theorem sampleClock_seq (s : State) : (sampleClock s).seq = s.seq := rfl
@[simp] theorem sampleClock_sent (s : State) : (sampleClock s).sent = s.sent := rfl
@[simp] theorem sampleClock_rb (s : State) : (sampleClock s).rb = s.rb := rfl
@[simp] theorem sampleClock_hid (s : State) : (sampleClock s).hid = s.hid := rfl
@[simp] theorem sampleClock_mem (s : State) : (sampleClock s).mem = s.mem := rfl
@[simp] theorem sampleClock_respBuf (s : State) : (sampleClock s).respBuf = s.respBuf := rfl
@[simp] theorem sampleClock_reply (s : State) : (sampleClock s).reply = s.reply := rfl
@[simp] theorem sampleClock_log (s : State) : (sampleClock s).log = s.log := rfl
@[simp] theorem sampleClock_trace (s : State) : (sampleClock s).trace = s.trace := rfl
@[simp] theorem sampleClock_port (s : State) : (sampleClock s).port = s.port := rfl

@[simp] theorem advanceScript_cfg (s : State) : (advanceScript s).cfg = s.cfg := rfl
@[simp] theorem advanceScript_h (s : State) : (advanceScript s).h = s.h := rfl
@[simp] theorem advanceScript_seq (s : State) : (advanceScript s).seq = s.seq := rfl
@[simp] theorem advanceScript_sent (s : State) : (advanceScript s).sent = s.sent := rfl
@[simp] theorem advanceScript_rb (s : State) : (advanceScript s).rb = s.rb := rfl
@[simp] theorem advanceScript_hid (s : State) : (advanceScript s).hid = s.hid := rfl
@[simp] theorem advanceScript_mem (s : State) : (advanceScript s).mem = s.mem := rfl
@[simp] theorem advanceScript_respBuf (s : State) : (advanceScript s).respBuf = s.respBuf := rfl
@[simp] theorem advanceScript_reply (s : State) : (advanceScript s).reply = s.reply := rfl
@[simp] theorem advanceScript_log (s : State) : (advanceScript s).log = s.log := rfl
@[simp] theorem advanceScript_trace (s : State) : (advanceScript s).trace = s.trace := rfl
@[simp] theorem advanceScript_port (s : State) : (advanceScript s).port = s.port := rfl

@[simp] theorem requestTaken_cfg (s : State) : (requestTaken s).cfg = s.cfg := rfl
@[simp] theorem requestTaken_h (s : State) : (requestTaken s).h = s.h := rfl
@[simp] theorem requestTaken_seq (s : State) : (requestTaken s).seq = s.seq := rfl
@[simp] theorem requestTaken_sent (s : State) : (requestTaken s).sent = s.sent := rfl
@[simp] theorem requestTaken_rb (s : State) : (requestTaken s).rb = s.rb := rfl
@[simp] theorem requestTaken_hid (s : State) : (requestTaken s).hid = s.hid := rfl
@[simp] theorem requestTaken_mem (s : State) : (requestTaken s).mem = s.mem := rfl
@[simp] theorem requestTaken_respBuf (s : State) : (requestTaken s).respBuf = s.respBuf := rfl
@[simp] theorem requestTaken_reply (s : State) : (requestTaken s).reply = s.reply := rfl
@[simp] theorem requestTaken_log (s : State) : (requestTaken s).log = s.log := rfl
@[simp] theorem requestTaken_trace (s : State) : (requestTaken s).trace = s.trace := rfl
@[simp] theorem requestTaken_port (s : State) : (requestTaken s).port = s.port.tail := rfl
@[simp] theorem requestTaken_env (s : State) : (requestTaken s).env = s.env := rfl

@[simp] theorem sampleClockPast_cfg (t : Nat) (s : State) : (sampleClockPast t s).cfg = s.cfg := rfl
@[simp] theorem sampleClockPast_h (t : Nat) (s : State) : (sampleClockPast t s).h = s.h := rfl
@[simp] theorem sampleClockPast_seq (t : Nat) (s : State) : (sampleClockPast t s).seq = s.seq := rfl
@[simp] theorem sampleClockPast_sent (t : Nat) (s : State) : (sampleClockPast t s).sent = s.sent := rfl
@[simp] theorem sampleClockPast_rb (t : Nat) (s : State) : (sampleClockPast t s).rb = s.rb := rfl
@[simp] theorem sampleClockPast_hid (t : Nat) (s : State) : (sampleClockPast t s).hid = s.hid := rfl
@[simp] theorem sampleClockPast_mem (t : Nat) (s : State) : (sampleClockPast t s).mem = s.mem := rfl
@[simp] theorem sampleClockPast_respBuf (t : Nat) (s : State) : (sampleClockPast t s).respBuf = s.respBuf := rfl
@[simp] theorem sampleClockPast_reply (t : Nat) (s : State) : (sampleClockPast t s).reply = s.reply := rfl
@[simp] theorem sampleClockPast_log (t : Nat) (s : State) : (sampleClockPast t s).log = s.log := rfl
@[simp] theorem sampleClockPast_trace (t : Nat) (s : State) : (sampleClockPast t s).trace = s.trace := rfl
@[simp] theorem sampleClockPast_port (t : Nat) (s : State) : (sampleClockPast t s).port = s.port := rfl

@[simp] theorem sampleClock_script (s : State) : (sampleClock s).env.script = s.env.script := rfl
@[simp] theorem sampleClock_steps (s : State) : (sampleClock s).env.steps = s.env.steps := rfl
@[simp] theorem sampleClockPast_script (t : Nat) (s : State) :
    (sampleClockPast t s).env.script = s.env.script := rfl

theorem sampleClock_monotone (s : State) : s.env.now ≤ (sampleClock s).env.now :=
  Nat.le_add_right _ _

theorem sampleClockPast_monotone (t : Nat) (s : State) :
    s.env.now ≤ (sampleClockPast t s).env.now :=
  Nat.le_trans (sampleClock_monotone s) (Nat.le_max_left _ _)

theorem sampleClockPast_past (t : Nat) (s : State) : t < (sampleClockPast t s).env.now :=
  Nat.lt_of_lt_of_le (Nat.lt_succ_self t) (Nat.le_max_right _ _)

@[simp] theorem advanceScript_now (s : State) : (advanceScript s).env.now = s.env.now := rfl
@[simp] theorem advanceScript_deltas (s : State) : (advanceScript s).env.deltas = s.env.deltas := rfl

end Sys2Proof.Machine
end

