-- ==== Sys2Proof/Laws/Hw.lean ====
section
/-! SUPPORT. What one HW step can do, said once: `HwLaw s t`. Every later fact about HW is read off it;
the engines' definitions are unfolded here only. -/

namespace Sys2Proof.Machine

/-- What HW leaves alone while no full reset is in progress (R166, R169, R184): the registers it never
changes, the CLKCTL bits other than `CLK_STABLE`, power and arming, and, where no reset clears them, flags once set. -/
structure Kept (s t : State) : Prop where
  pwrctl      : t.rb.pwrctl = s.rb.pwrctl
  clkctl      : t.rb.clkctl &&& ~~~s.cfg.clock.stable = s.rb.clkctl &&& ~~~s.cfg.clock.stable
  timeoutctl  : t.rb.timeoutctl = s.rb.timeoutctl
  nie         : t.rb.nie = s.rb.nie
  eie         : t.rb.eie = s.rb.eie
  hc          : t.rb.hc = s.rb.hc
  hc2         : t.rb.hc2 = s.rb.hc2
  bgc         : t.rb.bgc = s.rb.bgc
  boottimeout : t.rb.boottimeout = s.rb.boottimeout
  nis         : s.cfg.dcKeepsFlags = true ∨ NoReset s → Below s.rb.nis t.rb.nis
  eis         : s.cfg.dcKeepsFlags = true ∨ NoReset s → Below s.rb.eis t.rb.eis
  powered     : t.hid.powered = s.hid.powered
  bootArmed   : t.hid.bootArmed = s.hid.bootArmed

/-- What HW leaves alone while no reset at all is in progress. -/
structure Still (s t : State) : Prop where
  arg      : t.rb.arg = s.rb.arg
  cmd      : t.rb.cmd = s.rb.cmd
  blksize  : t.rb.blksize = s.rb.blksize
  xfermode : t.rb.xfermode = s.rb.xfermode
  trigger  : t.hid.trigger = s.hid.trigger

/-- What HW can do (R166, R184). -/
structure HwLaw (s t : State) : Prop where
  cfg     : t.cfg = s.cfg
  h       : t.h = s.h
  seq     : t.seq = s.seq
  sent    : t.sent = s.sent
  respBuf : t.respBuf = s.respBuf
  reply   : t.reply = s.reply
  log     : t.log = s.log
  trace   : t.trace = s.trace
  port    : t.port = s.port
  env     : t.env = s.env
  cap0    : t.rb.cap0 = s.rb.cap0
  cap1    : t.rb.cap1 = s.rb.cap1
  resets  : Below t.rb.swreset s.rb.swreset
  dma     : NoStore s → NoStore t
  mem     : NoStore s → t.mem = s.mem
  memWf   : Memory.wf s.mem = true → Memory.wf t.mem = true
  fit     : s.cfg.wf = true → RegsFit s → RegsFit t
  owned   : DmaOwned s → DmaOwned t
  kept    : NoFullReset s → Kept s t
  still   : NoReset s → Still s t

theorem Kept.refl (s : State) : Kept s s :=
  ⟨rfl, rfl, rfl, rfl, rfl, rfl, rfl, rfl, rfl, fun _ => .refl _, fun _ => .refl _, rfl, rfl⟩

theorem Kept.trans {s t u : State} (hc : t.cfg = s.cfg) (hr : NoReset s → NoReset t) (a : Kept s t)
    (b : Kept t u) : Kept s u where
  pwrctl := b.pwrctl.trans a.pwrctl
  clkctl := by rw [← a.clkctl, ← hc]; exact b.clkctl
  timeoutctl := b.timeoutctl.trans a.timeoutctl
  nie := b.nie.trans a.nie
  eie := b.eie.trans a.eie
  hc := b.hc.trans a.hc
  hc2 := b.hc2.trans a.hc2
  bgc := b.bgc.trans a.bgc
  boottimeout := b.boottimeout.trans a.boottimeout
  nis h := (a.nis h).trans (b.nis (h.imp (hc ▸ ·) hr))
  eis h := (a.eis h).trans (b.eis (h.imp (hc ▸ ·) hr))
  powered := b.powered.trans a.powered
  bootArmed := b.bootArmed.trans a.bootArmed

theorem Still.refl (s : State) : Still s s := ⟨rfl, rfl, rfl, rfl, rfl⟩

theorem Still.trans {s t u : State} (a : Still s t) (b : Still t u) : Still s u :=
  ⟨b.arg.trans a.arg, b.cmd.trans a.cmd, b.blksize.trans a.blksize, b.xfermode.trans a.xfermode,
   b.trigger.trans a.trigger⟩

theorem NoReset.full {s : State} (h : NoReset s) : NoFullReset s :=
  (no_bit_or (no_bit_or h).1).1

theorem NoFullReset.mono {s t : State} (hc : t.cfg = s.cfg) (b : Below t.rb.swreset s.rb.swreset)
    (h : NoFullReset s) : NoFullReset t := by
  unfold NoFullReset; rw [hc]; exact b.no_bit h

theorem NoReset.mono {s t : State} (hc : t.cfg = s.cfg) (b : Below t.rb.swreset s.rb.swreset)
    (h : NoReset s) : NoReset t := by
  unfold NoReset; rw [hc]; exact b.no_bit h

theorem HwLaw.refl (s : State) : HwLaw s s where
  cfg := rfl
  h := rfl
  seq := rfl
  sent := rfl
  respBuf := rfl
  reply := rfl
  log := rfl
  trace := rfl
  port := rfl
  env := rfl
  cap0 := rfl
  cap1 := rfl
  resets := .refl _
  dma := id
  mem _ := rfl
  memWf := id
  fit _ := id
  owned := id
  kept _ := .refl s
  still _ := .refl s

theorem HwLaw.trans {s t u : State} (a : HwLaw s t) (b : HwLaw t u) : HwLaw s u where
  cfg := b.cfg.trans a.cfg
  h := b.h.trans a.h
  seq := b.seq.trans a.seq
  sent := b.sent.trans a.sent
  respBuf := b.respBuf.trans a.respBuf
  reply := b.reply.trans a.reply
  log := b.log.trans a.log
  trace := b.trace.trans a.trace
  port := b.port.trans a.port
  env := b.env.trans a.env
  cap0 := b.cap0.trans a.cap0
  cap1 := b.cap1.trans a.cap1
  resets := b.resets.trans a.resets
  dma h := b.dma (a.dma h)
  mem h := (b.mem (a.dma h)).trans (a.mem h)
  memWf h := b.memWf (a.memWf h)
  fit c h := b.fit (by rw [a.cfg]; exact c) (a.fit c h)
  owned h := b.owned (a.owned h)
  kept h := (a.kept h).trans a.cfg (NoReset.mono a.cfg a.resets) (b.kept (h.mono a.cfg a.resets))
  still h := (a.still h).trans (b.still (h.mono a.cfg a.resets))

/-! ### Primitive updates of HW -/

/-- The volatile registers other than the flags and SWRESET (R166). -/
def isLoaded : Reg → Bool
  | .blkcnt | .dmaaddr | .resp0 | .resp1 | .resp2 | .resp3 | .acmd12stat => true
  | _ => false

theorem regsFit_set {s : State} {x : Reg} {v : Word} (hf : RegsFit s)
    (hv : fits (s.cfg.width x) v = true) : RegsFit (s.setReg x v) := by
  intro y
  by_cases h : y = x
  · subst h; simpa using hv
  · simpa [Registers.get_set_other _ _ h] using hf y

theorem HwLaw.load {x : Reg} (hx : isLoaded x = true) (v : Word) (s : State) :
    HwLaw s (s.loadReg x v) := by
  have hfit : RegsFit s → RegsFit (s.loadReg x v) := fun h => regsFit_set h (fits_trunc _ _)
  cases x <;>
    first
    | exact absurd hx (by decide)
    | exact ⟨rfl, rfl, rfl, rfl, rfl, rfl, rfl, rfl, rfl, rfl, rfl, rfl, .refl _, id, fun _ => rfl, id,
        fun _ => hfit, id, fun _ => ⟨rfl, rfl, rfl, rfl, rfl, rfl, rfl, rfl, rfl, fun _ => .refl _,
        fun _ => .refl _, rfl, rfl⟩, fun _ => ⟨rfl, rfl, rfl, rfl, rfl⟩⟩

theorem HwLaw.setNis (b : Word) (s : State) :
    HwLaw s (s.setReg .nis (s.rb.nis ||| trunc (s.cfg.width .nis) b)) :=
  ⟨rfl, rfl, rfl, rfl, rfl, rfl, rfl, rfl, rfl, rfl, rfl, rfl, .refl _, id, fun _ => rfl, id,
    fun _ h => regsFit_set h (fits_or (h .nis) (fits_trunc _ _)), id,
    fun _ => ⟨rfl, rfl, rfl, rfl, rfl, rfl, rfl, rfl, rfl, fun _ => below_or_left _ _, fun _ => .refl _, rfl,
      rfl⟩,
    fun _ => ⟨rfl, rfl, rfl, rfl, rfl⟩⟩

theorem HwLaw.setEis (b : Word) (s : State) :
    HwLaw s (s.setReg .eis (s.rb.eis ||| trunc (s.cfg.width .eis) b)) :=
  ⟨rfl, rfl, rfl, rfl, rfl, rfl, rfl, rfl, rfl, rfl, rfl, rfl, .refl _, id, fun _ => rfl, id,
    fun _ h => regsFit_set h (fits_or (h .eis) (fits_trunc _ _)), id,
    fun _ => ⟨rfl, rfl, rfl, rfl, rfl, rfl, rfl, rfl, rfl, fun _ => .refl _, fun _ => below_or_left _ _, rfl,
      rfl⟩,
    fun _ => ⟨rfl, rfl, rfl, rfl, rfl⟩⟩

theorem HwLaw.raiseNis (b : Word) (s : State) : HwLaw s (s.raiseNis b) := .setNis _ s

theorem HwLaw.raiseError (b : Word) (s : State) : HwLaw s (s.raiseError b) := by
  unfold State.raiseError
  split
  · exact .refl s
  · exact (HwLaw.setEis _ s).trans (.raiseNis _ _)

theorem stable_fits {cfg : Config} (h : cfg.wf = true) :
    fits (cfg.width .clkctl) cfg.clock.stable = true := by
  simp only [Config.wf, Config.clockOk, Bool.and_eq_true, List.all_cons] at h
  exact h.1.1.1.2.2.2.1

theorem HwLaw.setStable (b : Bool) (s : State) : HwLaw s (setStable b s) := by
  refine ⟨rfl, rfl, rfl, rfl, rfl, rfl, rfl, rfl, rfl, rfl, rfl, rfl, .refl _, id, fun _ => rfl, id,
    fun c h => regsFit_set h ?_, id,
    fun _ => ⟨rfl, ?_, rfl, rfl, rfl, rfl, rfl, rfl, rfl, fun _ => .refl _, fun _ => .refl _, rfl, rfl⟩,
    fun _ => ⟨rfl, rfl, rfl, rfl, rfl⟩⟩
  · cases b
    · exact fits_and_left _ (h .clkctl)
    · exact fits_or (h .clkctl) (stable_fits c)
  · simp only [Machine.setStable, State.setReg, Registers.set]
    apply BitVec.eq_of_getLsbD_eq
    intro i hi
    cases b
    · simp
    · simp; cases s.cfg.clock.stable.getLsbD i <;> simp

/-- A change of the hidden state that leaves power, arming and the trigger alone, and brings in no new
store. -/
theorem HwLaw.hidden {s : State} (hid : Hidden)
    (hd : NoStore s → ∀ d, hid.dma = some d → d.toMem = false)
    (ho : DmaOwned s → ∀ d, hid.dma = some d →
      ∃ f, hid.cmd = some f ∧ f.xfer.isSome = true)
    (hp : hid.powered = s.hid.powered) (ha : hid.bootArmed = s.hid.bootArmed)
    (ht : hid.trigger = s.hid.trigger) : HwLaw s { s with hid := hid } :=
  ⟨rfl, rfl, rfl, rfl, rfl, rfl, rfl, rfl, rfl, rfl, rfl, rfl, .refl _, hd, fun _ => rfl, id, fun _ => id,
    ho, fun _ => ⟨rfl, rfl, rfl, rfl, rfl, rfl, rfl, rfl, rfl, fun _ => .refl _, fun _ => .refl _, hp, ha⟩,
    fun _ => ⟨rfl, rfl, rfl, rfl, ht⟩⟩

/-- A store to system memory by a read transfer. -/
theorem HwLaw.store {s : State} (m : List Host.Cell) (hs : ¬ NoStore s)
    (hw : Memory.wf s.mem = true → Memory.wf m = true) : HwLaw s { s with mem := m } :=
  ⟨rfl, rfl, rfl, rfl, rfl, rfl, rfl, rfl, rfl, rfl, rfl, rfl, .refl _, id, fun h => absurd h hs, hw,
    fun _ => id, id,
    fun _ => ⟨rfl, rfl, rfl, rfl, rfl, rfl, rfl, rfl, rfl, fun _ => .refl _, fun _ => .refl _, rfl, rfl⟩,
    fun _ => ⟨rfl, rfl, rfl, rfl, rfl⟩⟩

/-! ### The engines -/

/-- In a well-formed configuration every boundary code names a power of two (R78). -/
theorem dmaBoundary_pow {cfg : Config} (h : cfg.wf = true) (b : Word) : ∃ k, dmaBoundary cfg b = 2 ^ k := by
  simp only [Config.wf, Config.fieldsOk, Bool.and_eq_true, beq_iff_eq] at h
  exact ⟨_, by unfold dmaBoundary; rw [h.2.2, ← pow_add]⟩

theorem unspecified_fits (cfg : Config) (after : Registers) (x : Reg)
    (hx : x ≠ .cap0 ∧ x ≠ .cap1) : fits (cfg.width x) ((unspecified cfg after).get x) = true := by
  unfold unspecified
  split
  · cases x <;> first | exact fits_zero _ | simp at hx
  · cases x <;> exact fits_trunc _ _

/-- Where the configuration says so, a data+command reset clears no flag (R169, log entry 14). -/
theorem below_flagsAfterDc {cfg : Config} (h : cfg.dcKeepsFlags = true) (old drawn enable : Word) :
    Below old (flagsAfterDc cfg old drawn enable) := by
  unfold flagsAfterDc; rw [if_pos h]; exact below_or_left _ _

theorem flagsAfterDc_fits {cfg : Config} {w : Nat} {old drawn : Word} (enable : Word)
    (ho : fits w old = true) (hd : fits w drawn = true) :
    fits w (flagsAfterDc cfg old drawn enable) = true := by
  unfold flagsAfterDc
  split
  · exact fits_or ho (fits_and_left _ hd)
  · exact fits_and_left _ hd

theorem HwLaw.endResets (m : Word) (after : Registers) (count : Word) (s : State) :
    HwLaw s (endResets m after count s) := by
  have first : HwLaw s (s.setReg .swreset (s.rb.swreset &&& ~~~m)) :=
    ⟨rfl, rfl, rfl, rfl, rfl, rfl, rfl, rfl, rfl, rfl, rfl, rfl, below_and_left _ _, id, fun _ => rfl, id,
      fun _ h => regsFit_set h (fits_and_left _ (h .swreset)), id,
      fun _ => ⟨rfl, rfl, rfl, rfl, rfl, rfl, rfl, rfl, rfl, fun _ => .refl _, fun _ => .refl _, rfl, rfl⟩,
      fun _ => ⟨rfl, rfl, rfl, rfl, rfl⟩⟩
  unfold Machine.endResets
  dsimp only
  split
  · next h =>
    simp only [Bool.and_eq_true] at h
    have hfull : ¬ NoFullReset s := by unfold NoFullReset; simp [h.1]
    refine ⟨rfl, rfl, rfl, rfl, rfl, rfl, rfl, rfl, rfl, rfl, rfl, rfl, ?_, ?_,
      fun _ => rfl, id, ?_, ?_, fun k => absurd k hfull, fun k => absurd k.full hfull⟩
    · simp only [fullResetEffect]
      split
      · exact below_zero _
      · exact below_and_left _ _
    · intro _ d hd; simp [fullResetEffect] at hd
    · intro _ hf x
      have hu := unspecified_fits s.cfg after x
      have hsw : fits (s.cfg.width .swreset)
          (if s.cfg.fullEndsDc then 0 else s.rb.swreset &&& ~~~m) = true := by
        split
        · exact fits_zero _
        · exact fits_and_left _ (hf .swreset)
      have h0 := hf .cap0
      have h1 := hf .cap1
      cases x <;> first | exact hu (by decide) | exact hsw | exact h0 | exact h1
    · intro _ d hd; simp [fullResetEffect] at hd
  · split
    · next h =>
      simp only [Bool.and_eq_true] at h
      have hdc : ¬ NoReset s := by
        intro k
        have := no_bit_or (show hasBit s.rb.swreset (s.cfg.resetMask) = false from k)
        have h2 := no_bit_or this.1
        have h3 : hasBit s.rb.swreset s.cfg.dcMask = false := by
          unfold Config.dcMask
          rw [hasBit_false, BitVec.and_or_distrib_left, (hasBit_false _ _).1 h2.2,
            (hasBit_false _ _).1 this.2]
          rfl
        simp [h3] at h
      refine ⟨rfl, rfl, rfl, rfl, rfl, rfl, rfl, rfl, rfl, rfl, rfl, rfl, below_and_left _ _, ?_,
        fun _ => rfl, id, ?_, ?_,
        fun _ => ⟨rfl, rfl, rfl, rfl, rfl, rfl, rfl, rfl, rfl,
          fun h => below_flagsAfterDc (h.resolve_right hdc) _ _ _,
          fun h => below_flagsAfterDc (h.resolve_right hdc) _ _ _, rfl, rfl⟩,
        fun k => absurd k hdc⟩
      · intro _ d hd; simp [dcResetEffect] at hd
      · intro _ hf x
        have hu := unspecified_fits s.cfg after x
        have hsw := fits_and_left (~~~m) (hf .swreset)
        have hn := flagsAfterDc_fits (cfg := s.cfg) s.rb.nie (hf .nis) (unspecified_fits s.cfg after .nis (by decide))
        have he := flagsAfterDc_fits (cfg := s.cfg) s.rb.eie (hf .eis) (unspecified_fits s.cfg after .eis (by decide))
        have hx := hf x
        cases x <;> first | exact hu (by decide) | exact hsw | exact hn | exact he | exact hx
      · intro _ d hd; simp [dcResetEffect] at hd
    · exact first

theorem HwLaw.clockReports (b : Bool) (s : State) : HwLaw s (clockReports b s) := by
  unfold Machine.clockReports
  split
  · exact .refl s
  · exact .setStable b s

/-- A command with a transfer stays with the engine until its data is over (R55). -/
theorem settle_some {f : InFlight} (hx : f.xfer.isSome = true) : InFlight.settle f = some f := by
  unfold InFlight.settle
  cases h : f.xfer <;> simp_all

theorem HwLaw.completeCommand {s : State} {f k : InFlight} (hf : s.hid.cmd = some f)
    (hk : k.xfer = f.xfer) : HwLaw s (completeCommand k s) := by
  refine (HwLaw.raiseNis s.cfg.irq.cc s).trans (HwLaw.hidden _ id ?_ rfl rfl rfl)
  intro ho d hd
  obtain ⟨g, hg, hx⟩ := ho d hd
  have : g = f := by
    have : (s.raiseNis s.cfg.irq.cc).hid.cmd = some f := hf
    rw [this] at hg; exact (Option.some.inj hg).symm
  subst this
  exact ⟨{ k with respSeen := true, cmdDone := true }, settle_some (hk ▸ hx), hk ▸ hx⟩

theorem HwLaw.commandSent (s : State) : HwLaw s (commandSent s) := by
  unfold Machine.commandSent
  split
  · next f hf => split
                 · exact .completeCommand hf rfl
                 · exact .refl s
  · exact .refl s

theorem HwLaw.responseArrives (r0 r1 r2 r3 : Word) (busy : Bool) (s : State) :
    HwLaw s (responseArrives r0 r1 r2 r3 busy s) := by
  unfold Machine.responseArrives
  split
  · next f hf =>
    split
    · split
      · exact (HwLaw.load rfl r0 s).trans (.completeCommand hf rfl)
      · exact ((((HwLaw.load rfl r0 s).trans (.load rfl r1 _)).trans (.load rfl r2 _)).trans
          (.load rfl r3 _)).trans (.completeCommand hf rfl)
      · refine (HwLaw.load rfl r0 s).trans (HwLaw.hidden _ id ?_ rfl rfl rfl)
        intro ho d hd
        obtain ⟨g, hg, hx⟩ := ho d hd
        have : g = f := (Option.some.inj ((show _ = some f from hf).symm.trans hg)).symm
        subst this
        exact ⟨_, rfl, hx⟩
      · exact .refl s
      · exact .refl s
    · exact .refl s
  · exact .refl s

theorem HwLaw.busyReleased (s : State) : HwLaw s (busyReleased s) := by
  unfold Machine.busyReleased
  split
  · next f hf =>
    split
    · exact .completeCommand hf rfl
    · split
      · refine HwLaw.hidden _ id (fun ho d k => ?_) rfl rfl rfl
        obtain ⟨g, hg, hx⟩ := ho d k
        obtain rfl : f = g := Option.some.inj (hf.symm.trans hg)
        exact ⟨_, settle_some hx, hx⟩
      · exact .refl s
  · exact .refl s

theorem HwLaw.errorDetected (b : Word) (a : Option Word) (s : State) :
    HwLaw s (errorDetected b a s) := by
  unfold Machine.errorDetected
  cases a with
  | none => exact .raiseError b s
  | some v => exact (HwLaw.raiseError b s).trans (.load rfl v _)

theorem HwLaw.dataOver (b : Word) (s : State) : HwLaw s (dataOver b s) :=
  (HwLaw.raiseNis b s).trans
    (HwLaw.hidden _ (fun _ d hd => by simp at hd) (fun _ d hd => by simp at hd) rfl rfl rfl)

/-- What the end of the data leaves in flight and in the registers (R177, R185). -/
theorem dataOver_spec (b : Word) (s : State) :
    (dataOver b s).hid = { s.hid with cmd := none, dma := none } ∧
    (dataOver b s).rb = { s.rb with nis := s.rb.nis ||| trunc (s.cfg.width .nis) (b &&& s.rb.nie) } ∧
    (dataOver b s).mem = s.mem := ⟨rfl, rfl, rfl⟩

/-- What `movingDma` says of the state. -/
theorem movingDma_some {s : State} {x : XferLatch} {d : DmaEngine} (h : movingDma s = some (x, d)) :
    s.hid.dma = some d ∧ ∃ f, s.hid.cmd = some f ∧ f.xfer = some x := by
  unfold movingDma at h
  split at h
  · next f' d' hf hd =>
    split at h
    · next x' hx =>
      split at h
      · simp only [Option.some.injEq, Prod.mk.injEq] at h
        obtain ⟨rfl, rfl⟩ := h
        exact ⟨hd, f', hf, hx⟩
      · cases h
    · cases h
  · cases h

/-- One byte moved by an engine that keeps the direction of the one in the state. -/
theorem HwLaw.byteMoved {s : State} {x : XferLatch} {d e : DmaEngine}
    (hd : s.hid.dma = some e) (he : d.toMem = e.toMem) : HwLaw s (byteMoved x d s) := by
  have key : ∀ (u : State) (g : DmaEngine), u.hid = s.hid → g.toMem = d.toMem →
      HwLaw u { u with hid := { u.hid with dma := some g } } := by
    intro u g hu hg
    refine HwLaw.hidden _ ?_ ?_ rfl rfl rfl
    · intro hn d' hd'
      simp only [Option.some.injEq] at hd'
      subst hd'
      rw [hg, he]
      exact hn e (by rw [hu]; exact hd)
    · intro ho d' _
      exact ho e (by rw [hu]; exact hd)
  unfold Machine.byteMoved
  dsimp only
  split
  · split
    · exact key s _ rfl rfl
    · exact .dataOver _ s
  · split
    · exact ((HwLaw.load rfl _ s).trans (.raiseNis _ _)).trans (key _ _ rfl rfl)
    · exact key s _ rfl rfl

theorem HwLaw.dmaStores : ∀ (bs : List Byte) (s : State), HwLaw s (dmaStores bs s)
  | [], s => .refl s
  | b :: bs, s => by
    unfold Machine.dmaStores
    split
    · next x d h =>
      obtain ⟨hd, -⟩ := movingDma_some h
      split
      · next ht =>
        refine ((HwLaw.store _ ?_ ?_).trans (HwLaw.byteMoved (e := d) ?_ rfl)).trans
          (HwLaw.dmaStores bs _)
        · intro hn; have := hn d hd; simp [ht] at this
        · intro hw; exact Memory.wf_write b hw d.pos.isLt
        · exact hd
      · exact .refl s
    · exact .refl s

theorem HwLaw.dmaFetches : ∀ (n : Nat) (s : State), HwLaw s (dmaFetches n s)
  | 0, s => .refl s
  | n + 1, s => by
    unfold Machine.dmaFetches
    split
    · next x d h =>
      obtain ⟨hd, -⟩ := movingDma_some h
      split
      · exact .refl s
      · refine (HwLaw.byteMoved (e := d) ?_ ?_).trans (HwLaw.dmaFetches n _)
        · exact hd
        · rfl
    · exact .refl s

/-- A change of the command in flight that keeps its transfer. -/
theorem HwLaw.inFlight {s : State} {f g : InFlight} (hf : s.hid.cmd = some f) (hx : g.xfer = f.xfer) : HwLaw s { s with hid := { s.hid with cmd := some g } } := by
  refine HwLaw.hidden _ id (fun ho d k => ?_) rfl rfl rfl
  obtain ⟨f', hf', h1⟩ := ho d k
  obtain rfl : f = f' := Option.some.inj (hf.symm.trans hf')
  exact ⟨g, rfl, hx ▸ h1⟩

theorem HwLaw.portBlockMoved (s : State) : HwLaw s (portBlockMoved s) := by
  unfold Machine.portBlockMoved
  split
  · next f hf =>
    split
    · split
      · dsimp only
        split
        · exact .dataOver _ s
        · exact .inFlight hf rfl
      · exact .refl s
    · exact .refl s
  · exact .refl s

theorem HwLaw.autoStopSent (s : State) : HwLaw s (autoStopSent s) := by
  unfold Machine.autoStopSent
  split
  · split
    · split
      · exact .dataOver _ s
      · exact .refl s
    · exact .refl s
  · exact .refl s

theorem watchedTransfer_some {s : State} {f : InFlight} (h : watchedTransfer s = some f) :
    s.hid.cmd = some f ∧ f.xfer.isSome = true := by
  unfold watchedTransfer at h
  split at h
  · next g hg =>
    split at h
    · next hc =>
      obtain rfl := Option.some.inj h
      exact ⟨hg, hc⟩
    · cases h
  · cases h

theorem HwLaw.dataCounterRuns (c : Word) (s : State) : HwLaw s (dataCounterRuns c s) := by
  unfold Machine.dataCounterRuns
  split
  · next f hf => exact .inFlight (watchedTransfer_some hf).1 rfl
  · exact .refl s

theorem HwLaw.dataCounterExpires (b : Word) (s : State) : HwLaw s (dataCounterExpires b s) := by
  unfold Machine.dataCounterExpires
  split
  · exact .raiseError b s
  · exact .refl s

theorem HwLaw.bufferReady (s : State) : HwLaw s (bufferReady s) := by
  unfold Machine.bufferReady
  split
  · split
    · split
      · exact .raiseNis _ s
      · exact .refl s
    · exact .refl s
  · exact .refl s

theorem HwLaw.bootAckArrives (s : State) : HwLaw s (bootAckArrives s) := by
  unfold Machine.bootAckArrives
  split
  · split
    · exact .raiseNis _ s
    · exact .refl s
  · exact .refl s

theorem HwLaw.bootStreamEnds (tc : Bool) (s : State) : HwLaw s (bootStreamEnds tc s) := by
  unfold Machine.bootStreamEnds
  split
  · exact .dataOver _ s
  · exact .refl s

theorem HwLaw.count (c : Word) (s : State) :
    HwLaw s { s with hid := { s.hid with bootCount := c } } :=
  HwLaw.hidden _ id id rfl rfl rfl

theorem HwLaw.bootCounterRuns (c : Word) (s : State) : HwLaw s (bootCounterRuns c s) := by
  unfold Machine.bootCounterRuns
  split
  · exact .count c s
  · exact .refl s

theorem HwLaw.bootCounterExpires (b : Word) (s : State) : HwLaw s (bootCounterExpires b s) := by
  unfold Machine.bootCounterExpires
  split
  · exact .raiseError b s
  · exact .refl s

theorem HwLaw.drawReg {x : Reg} (hx : isLoaded x = true) (v : Option Word) (s : State) :
    HwLaw s (drawReg x v s) := by
  cases v with
  | none => exact .refl s
  | some w => exact .load hx w s

theorem HwLaw.drawCount (v : Option Word) (s : State) : HwLaw s (drawCount v s) := by
  cases v with
  | none => exact .refl s
  | some c => exact .count c s

theorem HwLaw.oracleMoves (n : Nat) (p : Option Bool) (l : List (Nat × Byte)) (s : State) :
    HwLaw s (oracleMoves n p l s) := by
  unfold Machine.oracleMoves
  split
  · next d hd =>
    have key : ∀ (m : List Host.Cell) (g : DmaEngine), g.toMem = d.toMem →
        HwLaw { s with mem := m } { s with mem := m, hid := { s.hid with dma := some g } } := by
      intro m g hg
      refine HwLaw.hidden _ ?_ ?_ rfl rfl rfl
      · intro hn e he
        rw [← Option.some.inj he, hg]
        exact hn d hd
      · intro ho e _
        exact ho d hd
    dsimp only
    by_cases ht : d.toMem = true
    · rw [if_pos ht, if_pos ht]
      exact (HwLaw.store _ (fun hn => by have := hn d hd; simp [ht] at this)
        (fun hw => oracleBytes_wf d.pos _ l hw)).trans (key _ _ rfl)
    · rw [if_neg ht, if_neg ht]
      exact key s.mem _ rfl
  · exact .refl s

theorem HwLaw.abandonCommand (b : Bool) (s : State) : HwLaw s (abandonCommand b s) := by
  unfold Machine.abandonCommand
  split
  · exact HwLaw.hidden _ (fun _ d hd => by simp at hd) (fun _ d hd => by simp at hd) rfl rfl rfl
  · exact .refl s

theorem HwLaw.oracleStep (d : OracleDraw) (s : State) : HwLaw s (oracleStep d s) :=
  (((((((((((((HwLaw.endResets _ _ _ s).trans (.setStable _ _)).trans (.setNis _ _)).trans
    (.setEis _ _)).trans (.drawReg rfl _ _)).trans (.drawReg rfl _ _)).trans (.drawReg rfl _ _)).trans
    (.drawReg rfl _ _)).trans (.drawReg rfl _ _)).trans (.drawReg rfl _ _)).trans
    (.drawReg rfl _ _)).trans (.oracleMoves _ _ _ _)).trans (.drawCount _ _)).trans (.abandonCommand _ _)

/-- Every event of HW keeps the laws. -/
theorem HwLaw.event (e : HwEvent) (s : State) : HwLaw s (e.apply s) := by
  cases e with
  | resetEnds m a c => exact .endResets m a c s
  | clock b => exact .clockReports b s
  | commandSent => exact .commandSent s
  | response r0 r1 r2 r3 busy => exact .responseArrives r0 r1 r2 r3 busy s
  | busyReleased => exact .busyReleased s
  | flags n e => exact (HwLaw.raiseError e s).trans (.raiseNis n _)
  | error b a => exact .errorDetected b a s
  | dmaIn bs => exact .dmaStores bs s
  | dmaOut n => exact .dmaFetches n s
  | portBlock => exact .portBlockMoved s
  | autoStop => exact .autoStopSent s
  | bufferReady => exact .bufferReady s
  | bootAck => exact .bootAckArrives s
  | bootEnd tc => exact .bootStreamEnds tc s
  | dataTick c => exact .dataCounterRuns c s
  | dataExpires b => exact .dataCounterExpires b s
  | bootTick c => exact .bootCounterRuns c s
  | bootExpires b => exact .bootCounterExpires b s
  | oracle d => exact .oracleStep d s

theorem HwLaw.events : ∀ (l : List HwEvent) (s : State), HwLaw s (l.foldl (fun t e => e.apply t) s)
  | [], s => .refl s
  | e :: l, s => (HwLaw.event e s).trans (HwLaw.events l _)

/-- A HW step is a HW transition from the state whose script entry is used up. -/
theorem hwStep_law (s : State) : HwLaw (advanceScript s) (hwStep s) := .events _ _

end Sys2Proof.Machine
end

