-- ==== Sys2Proof/Laws/Ops.lean ====
section
/-! SUPPORT. The shared operations, one lemma each for what they can do: `Runs` (what no sequence of
register accesses changes, and what it keeps), `Steady` and `Latched` (which registers a sequence leaves
alone), the trace each leaves, and what a poll's two outcomes mean. -/

namespace Sys2Proof.Machine

/-- What any sequence of register accesses, clock samples and log entries keeps. -/
structure Runs (s t : State) : Prop where
  cfg     : t.cfg = s.cfg
  h       : t.h = s.h
  seq     : t.seq = s.seq
  sent    : t.sent = s.sent
  respBuf : t.respBuf = s.respBuf
  reply   : t.reply = s.reply
  port    : t.port = s.port
  cap0    : t.rb.cap0 = s.rb.cap0
  cap1    : t.rb.cap1 = s.rb.cap1
  trace   : s.trace <+: t.trace
  log     : s.log <+: t.log
  now     : s.env.now ≤ t.env.now
  store   : NoStore s → NoStore t
  mem     : NoStore s → t.mem = s.mem
  memWf   : Memory.wf s.mem = true → Memory.wf t.mem = true
  fit     : s.cfg.wf = true → RegsFit s → RegsFit t
  owned   : DmaOwned s → DmaOwned t
  resets  : Below s.rb.swreset s.cfg.resetMask → Below t.rb.swreset s.cfg.resetMask

theorem Runs.refl (s : State) : Runs s s :=
  ⟨rfl, rfl, rfl, rfl, rfl, rfl, rfl, rfl, rfl, List.prefix_refl _, List.prefix_refl _, le_refl _, id,
   fun _ => rfl, id, fun _ => id, id, id⟩

theorem Runs.trans {s t u : State} (a : Runs s t) (b : Runs t u) : Runs s u where
  cfg := b.cfg.trans a.cfg
  h := b.h.trans a.h
  seq := b.seq.trans a.seq
  sent := b.sent.trans a.sent
  respBuf := b.respBuf.trans a.respBuf
  reply := b.reply.trans a.reply
  port := b.port.trans a.port
  cap0 := b.cap0.trans a.cap0
  cap1 := b.cap1.trans a.cap1
  trace := a.trace.trans b.trace
  log := a.log.trans b.log
  now := a.now.trans b.now
  store h := b.store (a.store h)
  mem h := (b.mem (a.store h)).trans (a.mem h)
  memWf h := b.memWf (a.memWf h)
  fit c h := b.fit (by rw [a.cfg]; exact c) (a.fit c h)
  owned h := b.owned (a.owned h)
  resets h := by rw [← a.cfg]; exact b.resets (by rw [a.cfg]; exact a.resets h)

theorem Runs.sampleClock (s : State) : Runs s (sampleClock s) :=
  ⟨rfl, rfl, rfl, rfl, rfl, rfl, rfl, rfl, rfl, List.prefix_refl _, List.prefix_refl _,
   sampleClock_monotone s, id, fun _ => rfl, id, fun _ => id, id, id⟩

theorem Runs.sampleClockPast (d : Nat) (s : State) : Runs s (sampleClockPast d s) :=
  ⟨rfl, rfl, rfl, rfl, rfl, rfl, rfl, rfl, rfl, List.prefix_refl _, List.prefix_refl _,
   sampleClockPast_monotone d s, id, fun _ => rfl, id, fun _ => id, id, id⟩

theorem Runs.note (a : Access) (s : State) : Runs s (s.note a) :=
  ⟨rfl, rfl, rfl, rfl, rfl, rfl, rfl, rfl, rfl, List.prefix_append _ _, List.prefix_refl _, le_refl _, id,
   fun _ => rfl, id, fun _ => id, id, id⟩

theorem Runs.logged (c : Cause) (vs : List Word) (s : State) : Runs s (s.logged c vs) :=
  ⟨rfl, rfl, rfl, rfl, rfl, rfl, rfl, rfl, rfl, List.prefix_refl _, List.prefix_append _ _, le_refl _, id,
   fun _ => rfl, id, fun _ => id, id, id⟩

theorem Runs.hwStep (s : State) : Runs s (hwStep s) := by
  have l := hwStep_law s
  exact ⟨l.cfg, l.h, l.seq, l.sent, l.respBuf, l.reply, l.port, l.cap0, l.cap1,
    by rw [l.trace]; exact List.prefix_refl _, by rw [l.log]; exact List.prefix_refl _,
    by rw [l.env]; exact le_refl _, l.dma, l.mem, l.memWf, l.fit, l.owned, fun h => l.resets.trans h⟩

@[simp] theorem hwStep_cfg (s : State) : (hwStep s).cfg = s.cfg := (hwStep_law s).cfg
@[simp] theorem hwStep_trace (s : State) : (hwStep s).trace = s.trace := (hwStep_law s).trace
@[simp] theorem hwStep_log (s : State) : (hwStep s).log = s.log := (hwStep_law s).log
@[simp] theorem hwStep_now (s : State) : (hwStep s).env.now = s.env.now :=
  (congrArg Env.now (hwStep_law s).env).trans rfl
@[simp] theorem hwStep_script (s : State) : (hwStep s).env.script = s.env.script.tail :=
  (congrArg Env.script (hwStep_law s).env).trans rfl

/-! ### The effect of a write -/

theorem below_or {a b c : Word} (ha : Below a c) (hb : Below b c) : Below (a ||| b) c :=
  (below_iff _ _).2 fun i hi => by
    rw [BitVec.getLsbD_or, Bool.or_eq_true] at hi
    exact hi.elim ((below_iff a c).1 ha i) ((below_iff b c).1 hb i)

theorem below_and_right (a b : Word) : Below (a &&& b) b := by
  rw [BitVec.and_comm]; exact below_and_left b a

/-- Writing DMAADDR changes only the engine's address and whether it is paused. -/
theorem resumeDma_dma (v : Word) (s : State) :
    ∀ d, (resumeDma v s).hid.dma = some d → ∃ e, s.hid.dma = some e ∧ d.toMem = e.toMem := by
  intro d hd
  unfold resumeDma at hd
  split at hd
  · next e he => exact ⟨e, he, by rw [← Option.some.inj hd]⟩
  · exact ⟨d, hd, rfl⟩

@[simp] theorem resumeDma_rb (v : Word) (s : State) : (resumeDma v s).rb = s.rb := by
  unfold resumeDma; split <;> rfl

theorem resumeDma_other (v : Word) (s : State) : ∃ dma,
    resumeDma v s = { s with hid := { s.hid with dma := dma } } := by
  unfold resumeDma
  split
  · exact ⟨_, rfl⟩
  · exact ⟨s.hid.dma, rfl⟩

/-- A write leaves every other register alone (R65). -/
theorem writeEffect_other (x : Reg) (v : Word) (s : State) {y : Reg} (h : y ≠ x) :
    (writeEffect x v s).rb.get y = s.rb.get y := by
  cases x <;> simp [writeEffect, State.clearNis, State.clearEis, Registers.get_set_other _ _ h]

/-- A register write, with a hidden state that keeps the command and the DMA engine's direction. -/
theorem Runs.store_reg {s : State} (x : Reg) (w : Word) (hid : Hidden) (h0 : x ≠ .cap0) (h1 : x ≠ .cap1)
    (hw : s.cfg.wf = true → RegsFit s → fits (s.cfg.width x) w = true)
    (hs : x = .swreset → Below s.rb.swreset s.cfg.resetMask → Below w s.cfg.resetMask)
    (hc : hid.cmd = s.hid.cmd)
    (hd : ∀ d, hid.dma = some d → ∃ e, s.hid.dma = some e ∧ d.toMem = e.toMem) :
    Runs s { s with rb := s.rb.set x w, hid := hid } := by
  refine ⟨rfl, rfl, rfl, rfl, rfl, rfl, rfl, Registers.get_set_other s.rb w h0.symm,
    Registers.get_set_other s.rb w h1.symm, List.prefix_refl _, List.prefix_refl _, le_refl _, ?_,
    fun _ => rfl, id, fun c h => regsFit_set h (hw c h), ?_, ?_⟩
  · intro hn d k
    obtain ⟨e, he, hde⟩ := hd d k
    rw [hde]; exact hn e he
  · intro ho d k
    obtain ⟨e, he, -⟩ := hd d k
    obtain ⟨f, hf, hx⟩ := ho e he
    exact ⟨f, hc.trans hf, hx⟩
  · intro hb
    by_cases hx : x = .swreset
    · subst hx; exact hs rfl hb
    · have : (s.rb.set x w).swreset = s.rb.swreset := Registers.get_set_other s.rb w (Ne.symm hx)
      exact (congrArg (Below · s.cfg.resetMask) this).mpr hb

theorem Runs.writeEffect (x : Reg) (v : Word) (s : State) (hv : fits (s.cfg.width x) v = true) :
    Runs s (writeEffect x v s) := by
  have same : ∀ d, s.hid.dma = some d → ∃ e, s.hid.dma = some e ∧ d.toMem = e.toMem :=
    fun d h => ⟨d, h, rfl⟩
  cases x <;> try exact Runs.refl s
  case swreset =>
    exact .store_reg .swreset _ s.hid (by decide) (by decide)
      (fun _ h => fits_or (h .swreset) (fits_and_left _ hv))
      (fun _ h => below_or h (below_and_right _ _)) rfl same
  case clkctl =>
    exact .store_reg .clkctl _ s.hid (by decide) (by decide)
      (fun _ h => fits_or (fits_and_left _ hv) (fits_and_left _ (h .clkctl))) (by simp) rfl same
  case nis =>
    exact .store_reg .nis _ s.hid (by decide) (by decide) (fun _ h => fits_and_left _ (h .nis))
      (by simp) rfl same
  case eis =>
    exact .store_reg .eis _ s.hid (by decide) (by decide) (fun _ h => fits_and_left _ (h .eis))
      (by simp) rfl same
  case dmaaddr =>
    obtain ⟨dma, hdma⟩ := resumeDma_other v (s.setReg .dmaaddr v)
    have hd := resumeDma_dma v (s.setReg .dmaaddr v)
    simp only [Machine.writeEffect]
    rw [hdma] at hd ⊢
    exact .store_reg .dmaaddr v { s.hid with dma := dma } (by decide) (by decide) (fun _ _ => hv)
      (by simp) rfl hd
  all_goals
    exact .store_reg _ v _ (by decide) (by decide) (fun _ _ => hv) (by simp) rfl same

theorem Runs.regWrite (x : Reg) (v : Word) (s : State) : Runs s (regWrite x v s) := by
  unfold Machine.regWrite
  exact ((Runs.hwStep s).trans (.writeEffect x _ _ (fits_trunc _ _))).trans (.note _ _)

theorem Runs.regRead (x : Reg) (s : State) : Runs s (regRead x s).2 :=
  (Runs.hwStep s).trans (.note _ _)

theorem Runs.regRmw (x : Reg) (f : Word → Word) (s : State) : Runs s (regRmw x f s) :=
  (Runs.regRead x s).trans (.regWrite x _ _)

@[simp] theorem writeEffect_trace (x : Reg) (v : Word) (s : State)  :
    (writeEffect x v s).trace = s.trace := by
  cases x <;> first | rfl | (obtain ⟨d, h⟩ := resumeDma_other v (s.setReg .dmaaddr v); simp [writeEffect, h])

@[simp] theorem writeEffect_env (x : Reg) (v : Word) (s : State)  :
    (writeEffect x v s).env = s.env := by
  cases x <;> first | rfl | (obtain ⟨d, h⟩ := resumeDma_other v (s.setReg .dmaaddr v); simp [writeEffect, h])

@[simp] theorem writeEffect_log (x : Reg) (v : Word) (s : State)  :
    (writeEffect x v s).log = s.log := by
  cases x <;> first | rfl | (obtain ⟨d, h⟩ := resumeDma_other v (s.setReg .dmaaddr v); simp [writeEffect, h])

/-! ### Traces -/

@[simp] theorem regRead_trace (x : Reg) (s : State) :
    (regRead x s).2.trace = s.trace ++ [.read x (regRead x s).1] := by
  simp [regRead]

@[simp] theorem regWrite_trace (x : Reg) (v : Word) (s : State) :
    (regWrite x v s).trace = s.trace ++ [.write x (trunc (s.cfg.width x) v)] := by
  simp [regWrite]

@[simp] theorem regRead_log (x : Reg) (s : State) : (regRead x s).2.log = s.log := by simp [regRead]
@[simp] theorem regWrite_log (x : Reg) (v : Word) (s : State) : (regWrite x v s).log = s.log := by
  simp [regWrite]
@[simp] theorem regRead_now (x : Reg) (s : State) : (regRead x s).2.env.now = s.env.now := by
  simp [regRead]
@[simp] theorem regWrite_now (x : Reg) (v : Word) (s : State) :
    (regWrite x v s).env.now = s.env.now := by
  simp [regWrite]
@[simp] theorem regRead_cfg (x : Reg) (s : State) : (regRead x s).2.cfg = s.cfg :=
  (Runs.regRead x s).cfg
@[simp] theorem regWrite_cfg (x : Reg) (v : Word) (s : State) : (regWrite x v s).cfg = s.cfg :=
  (Runs.regWrite x v s).cfg

/-! ### Polls -/

theorem Runs.pollLoop (x : Reg) (cond : Word → Bool) (b t0 : Nat) :
    ∀ (n : Nat) (s : State), Runs s (pollLoop x cond b t0 n s).2
  | 0, s => .sampleClockPast _ s
  | n + 1, s => by
    unfold Machine.pollLoop
    dsimp only
    split
    · exact .sampleClock s
    · split
      · exact (Runs.sampleClock s).trans (.regRead x _)
      · exact ((Runs.sampleClock s).trans (.regRead x _)).trans (Runs.pollLoop x cond b t0 n _)

theorem Runs.poll (x : Reg) (cond : Word → Bool) (b : Nat) (s : State) :
    Runs s (poll x cond b s).2 :=
  (Runs.sampleClock s).trans (.pollLoop x cond b _ _ _)

/-- What a poll's outcome means (R11): on `OK(v)`, the last access read `v`, which meets the condition,
and the deadline had not passed; on `TIMEOUT` it has. Either way the poll only reads `x`. -/
theorem pollLoop_spec (x : Reg) (cond : Word → Bool) (b t0 : Nat) :
    ∀ (n : Nat) (s : State),
      (∃ l, OnlyReads x l ∧ (pollLoop x cond b t0 n s).2.trace = s.trace ++ l ∧
        ∀ v, (pollLoop x cond b t0 n s).1 = some v → l.getLast? = some (.read x v)) ∧
      (pollLoop x cond b t0 n s).2.log = s.log ∧
      (∀ v, (pollLoop x cond b t0 n s).1 = some v →
        cond v = true ∧ (pollLoop x cond b t0 n s).2.env.now - t0 ≤ b ∧
        ∃ u, Runs s u ∧ (pollLoop x cond b t0 n s).2 = (regRead x u).2 ∧ v = (regRead x u).1) ∧
      ((pollLoop x cond b t0 n s).1 = none → t0 + b < (pollLoop x cond b t0 n s).2.env.now)
  | 0, s => by
    refine ⟨⟨[], by simp [OnlyReads], by simp [pollLoop], by simp [pollLoop]⟩, rfl, ?_, ?_⟩
    · intro v hv; simp [pollLoop] at hv
    · intro _; exact sampleClockPast_past _ _
  | n + 1, s => by
    unfold pollLoop
    dsimp only
    split
    · next hlt =>
      refine ⟨⟨[], by simp [OnlyReads], by simp, nofun⟩, rfl, nofun, ?_⟩
      intro _; show t0 + b < (sampleClock s).env.now; omega
    · next hle =>
      split
      · next hc =>
        refine ⟨⟨[_], ?_, regRead_trace _ _, fun v hv => by rw [← Option.some.inj hv]; rfl⟩, by simp, ?_, ?_⟩
        · intro a ha; exact ⟨_, by simpa using ha⟩
        · intro v hv
          simp only [Option.some.injEq] at hv
          subst hv
          exact ⟨hc, by simp only [regRead_now]; omega, _, Runs.sampleClock s, rfl, rfl⟩
        · intro hv; simp at hv
      · obtain ⟨⟨l, hl, ht, hlast⟩, hg, hs, hn⟩ :=
          pollLoop_spec x cond b t0 n (regRead x (sampleClock s)).2
        refine ⟨⟨.read x (regRead x (sampleClock s)).1 :: l, ?_, ?_, ?_⟩, ?_, ?_, hn⟩
        · intro a ha
          rcases List.mem_cons.1 ha with rfl | ha
          · exact ⟨_, rfl⟩
          · exact hl a ha
        · rw [ht]; simp
        · intro v hv; rw [List.getLast?_cons, hlast v hv]; rfl
        · rw [hg]; simp
        · intro v hv
          obtain ⟨h1, h2, u, h3, h4⟩ := hs v hv
          exact ⟨h1, h2, u, ((Runs.sampleClock s).trans (.regRead x _)).trans h3, h4⟩

theorem poll_reads (x : Reg) (cond : Word → Bool) (b : Nat) (s : State) :
    ∃ l, OnlyReads x l ∧ (poll x cond b s).2.trace = s.trace ++ l ∧
      ∀ v, (poll x cond b s).1 = some v → l.getLast? = some (.read x v) := by
  simpa [poll] using (pollLoop_spec x cond b _ _ (sampleClock s)).1

@[simp] theorem poll_log (x : Reg) (cond : Word → Bool) (b : Nat) (s : State) :
    (poll x cond b s).2.log = s.log := by
  simpa [poll] using (pollLoop_spec x cond b _ _ (sampleClock s)).2.1

theorem poll_ok {x : Reg} {cond : Word → Bool} {b : Nat} {s : State} {v : Word}
    (h : (poll x cond b s).1 = some v) :
    cond v = true ∧ (poll x cond b s).2.env.now - (sampleClock s).env.now ≤ b ∧
    ∃ u, Runs s u ∧ (poll x cond b s).2 = (regRead x u).2 ∧ v = (regRead x u).1 := by
  obtain ⟨h1, h2, u, h3, h4⟩ := (pollLoop_spec x cond b _ _ (sampleClock s)).2.2.1 v h
  exact ⟨h1, h2, u, (Runs.sampleClock s).trans h3, h4⟩

theorem poll_timeout {x : Reg} {cond : Word → Bool} {b : Nat} {s : State}
    (h : (poll x cond b s).1 = none) :
    (sampleClock s).env.now + b < (poll x cond b s).2.env.now :=
  (pollLoop_spec x cond b _ _ (sampleClock s)).2.2.2 h

@[simp] theorem poll_cfg (x : Reg) (cond : Word → Bool) (b : Nat) (s : State) :
    (poll x cond b s).2.cfg = s.cfg := (Runs.poll x cond b s).cfg

/-! ### Procedures -/

theorem Runs.resetProc (m : Word) (s : State) : Runs s (resetProc m s).2 := by
  unfold Machine.resetProc
  dsimp only
  split
  · exact (Runs.regWrite _ _ s).trans (.poll _ _ _ _)
  · exact ((Runs.regWrite _ _ s).trans (.poll _ _ _ _)).trans (.logged _ _ _)

theorem Runs.clearAll (s : State) : Runs s (clearAll s) :=
  (Runs.regWrite _ _ s).trans (.regWrite _ _ _)

theorem Runs.setClock (k : Nat) (s : State) : Runs s (setClock k s).2 := by
  unfold Machine.setClock
  dsimp only
  split
  · exact ((Runs.regWrite _ _ s).trans (.poll _ _ _ _)).trans (.regWrite _ _ _)
  · exact ((Runs.regWrite _ _ s).trans (.poll _ _ _ _)).trans (.logged _ _ _)

theorem Runs.dmaAck (s : State) : Runs s (dmaAck s).2 :=
  ((Runs.regRead _ s).trans (.regWrite _ _ _)).trans (.regWrite _ _ _)

theorem Runs.recover (s : State) : Runs s (recover s) := (Runs.resetProc _ s).trans (.clearAll _)

/-- What a reset leaves in the trace and the log (R111). -/
theorem resetProc_spec (m : Word) (s : State) :
    (∃ l, OnlyReads .swreset l ∧ (resetProc m s).2.trace =
      s.trace ++ .write .swreset (trunc (s.cfg.width .swreset) m) :: l) ∧
    (resetProc m s).2.log =
      s.log ++ (if (resetProc m s).1 then [] else [⟨.resetTimeout, [m]⟩]) := by
  obtain ⟨l, hl, ht, -⟩ := poll_reads .swreset (fun v => v &&& m == 0)
    (regWrite .swreset m s).cfg.budgets.tReset (regWrite .swreset m s)
  rw [regWrite_trace, List.append_assoc] at ht
  unfold resetProc
  dsimp only
  refine ⟨⟨l, hl, ?_⟩, ?_⟩
  · split
    · exact ht
    · exact ht
  · split <;> simp

/-- A reset's result and state, by its poll (R111). -/
theorem resetProc_poll (m : Word) (s : State) :
    let p := poll .swreset (fun v => v &&& m == 0) s.cfg.budgets.tReset (regWrite .swreset m s)
    (resetProc m s).1 = p.1.isSome ∧ ((resetProc m s).1 = true → (resetProc m s).2 = p.2) := by
  unfold resetProc
  dsimp only
  rw [regWrite_cfg]
  exact ⟨rfl, fun h => if_pos h⟩

/-- What clock programming leaves in the trace and the log, by what its poll gave (R117). -/
theorem setClock_spec (k : Nat) (s : State) :
    let w := trunc (s.cfg.width .clkctl) (clkWord1 s.cfg (divisor s.cfg s.h.cap.baseKHz.toNat k))
    let p := poll .clkctl (fun v => hasBit v s.cfg.clock.stable) s.cfg.budgets.tClk
      (regWrite .clkctl (clkWord1 s.cfg (divisor s.cfg s.h.cap.baseKHz.toNat k)) s)
    ∃ l, OnlyReads .clkctl l ∧
      ((p.1 = none ∧ (setClock k s).1 = false ∧ (setClock k s).2.trace = s.trace ++ .write .clkctl w :: l ∧
          (setClock k s).2.log = s.log ++ [⟨.clockTimeout, []⟩]) ∨
       ((setClock k s).1 = true ∧ (setClock k s).2.log = s.log ∧
          ∃ v, p.1 = some v ∧ hasBit v s.cfg.clock.stable = true ∧ l.getLast? = some (.read .clkctl v) ∧
            (setClock k s).2.trace = s.trace ++ .write .clkctl w :: l ++
              [.write .clkctl (trunc (s.cfg.width .clkctl) (v ||| s.cfg.clock.cardEn))])) := by
  obtain ⟨l, hl, ht, hlast⟩ := poll_reads .clkctl (fun v => hasBit v s.cfg.clock.stable)
    s.cfg.budgets.tClk (regWrite .clkctl (clkWord1 s.cfg (divisor s.cfg s.h.cap.baseKHz.toNat k)) s)
  rw [regWrite_trace, List.append_assoc] at ht
  refine ⟨l, hl, ?_⟩
  unfold setClock
  dsimp only
  simp only [regWrite_cfg]
  cases hp : (poll .clkctl (fun v => hasBit v s.cfg.clock.stable) s.cfg.budgets.tClk
    (regWrite .clkctl (clkWord1 s.cfg (divisor s.cfg s.h.cap.baseKHz.toNat k)) s)).1 with
  | none => exact .inl ⟨rfl, rfl, ht, by simp⟩
  | some v =>
    refine .inr ⟨rfl, by simp, v, rfl, (poll_ok hp).1, hlast v hp, ?_⟩
    simp only [regWrite_trace, poll_cfg, regWrite_cfg]
    rw [ht]; rfl

@[simp] theorem clearAll_trace (s : State) : (clearAll s).trace = s.trace ++
    [.write .nis (trunc (s.cfg.width .nis) s.cfg.irq.nisAll),
     .write .eis (trunc (s.cfg.width .eis) s.cfg.irq.eisAll)] := by
  simp [clearAll]

@[simp] theorem clearAll_log (s : State) : (clearAll s).log = s.log := by simp [clearAll]

end Sys2Proof.Machine
end

