-- ==== Sys2Proof/Laws/Frame.lean ====
section
/-! SUPPORT. Which registers a sequence of accesses leaves alone: `Frame ws s t`, where `ws` lists the
registers the sequence may write. One lemma per shared operation; the frame of an operation follows by
`Frame.trans`. -/

namespace Sys2Proof.Machine

/-- What a sequence of accesses that writes at most the registers `ws` keeps, while no full reset is in
progress (`full` to `armed`), while HW clears no flag (`nis`, `eis`), and while no reset at all is in progress
(`none` to `trigger`). -/
structure Frame (ws : List Reg) (s t : State) : Prop where
  cfg     : t.cfg = s.cfg
  full    : NoFullReset s → NoFullReset t
  steady  : NoFullReset s → ∀ x ∈ steadyRegs, x ∉ ws → t.rb.get x = s.rb.get x
  clock   : NoFullReset s → .clkctl ∉ ws → clkBits t = clkBits s
  powered : NoFullReset s → .pwrctl ∉ ws → t.hid.powered = s.hid.powered
  armed   : NoFullReset s → .boottimeout ∉ ws → t.hid.bootArmed = s.hid.bootArmed
  nis     : KeepsFlags s → .swreset ∉ ws → .nis ∉ ws → Below s.rb.nis t.rb.nis
  eis     : KeepsFlags s → .swreset ∉ ws → .eis ∉ ws → Below s.rb.eis t.rb.eis
  none    : .swreset ∉ ws → NoReset s → NoReset t
  latched : .swreset ∉ ws → NoReset s → ∀ x ∈ latchedRegs, x ∉ ws → t.rb.get x = s.rb.get x
  trigger : .swreset ∉ ws → NoReset s → .cmd ∉ ws → t.hid.trigger = s.hid.trigger

theorem Frame.refl (ws : List Reg) (s : State) : Frame ws s s :=
  ⟨rfl, id, fun _ _ _ _ => rfl, fun _ _ => rfl, fun _ _ => rfl, fun _ _ => rfl, fun _ _ _ => .refl _,
   fun _ _ _ => .refl _, fun _ => id, fun _ _ _ _ _ => rfl, fun _ _ _ => rfl⟩

/-- What clears no flag goes on clearing none while no reset is started. -/
theorem Frame.keepsFlags {ws : List Reg} {s t : State} (a : Frame ws s t) (hw : .swreset ∉ ws)
    (h : KeepsFlags s) : KeepsFlags t :=
  ⟨a.full h.1, h.2.imp (a.cfg ▸ ·) (a.none hw)⟩

theorem Frame.trans {ws : List Reg} {s t u : State} (a : Frame ws s t) (b : Frame ws t u) :
    Frame ws s u where
  cfg := b.cfg.trans a.cfg
  full h := b.full (a.full h)
  steady h x hx hn := (b.steady (a.full h) x hx hn).trans (a.steady h x hx hn)
  clock h hn := (b.clock (a.full h) hn).trans (a.clock h hn)
  powered h hn := (b.powered (a.full h) hn).trans (a.powered h hn)
  armed h hn := (b.armed (a.full h) hn).trans (a.armed h hn)
  nis h hw hn := (a.nis h hw hn).trans (b.nis (a.keepsFlags hw h) hw hn)
  eis h hw hn := (a.eis h hw hn).trans (b.eis (a.keepsFlags hw h) hw hn)
  none hn h := b.none hn (a.none hn h)
  latched hn h x hx hw := (b.latched hn (a.none hn h) x hx hw).trans (a.latched hn h x hx hw)
  trigger hn h hc := (b.trigger hn (a.none hn h) hc).trans (a.trigger hn h hc)

theorem Frame.mono {ws ws' : List Reg} {s t : State} (a : Frame ws s t) (h : ∀ x ∈ ws, x ∈ ws') :
    Frame ws' s t where
  cfg := a.cfg
  full := a.full
  steady k x hx hn := a.steady k x hx fun m => hn (h x m)
  clock k hn := a.clock k fun m => hn (h _ m)
  powered k hn := a.powered k fun m => hn (h _ m)
  armed k hn := a.armed k fun m => hn (h _ m)
  nis k hw hn := a.nis k (fun m => hw (h _ m)) fun m => hn (h _ m)
  eis k hw hn := a.eis k (fun m => hw (h _ m)) fun m => hn (h _ m)
  none hn := a.none fun m => hn (h _ m)
  latched hn k x hx hw := a.latched (fun m => hn (h _ m)) k x hx fun m => hw (h x m)
  trigger hn k hc := a.trigger (fun m => hn (h _ m)) k fun m => hc (h _ m)

/-- A change of the state that leaves registers, hidden state and configuration alone. -/
theorem Frame.same {ws : List Reg} {s t : State} (hc : t.cfg = s.cfg) (hr : t.rb = s.rb)
    (hh : t.hid = s.hid) : Frame ws s t := by
  refine ⟨hc, fun h => ?_, fun _ x _ _ => by rw [hr], fun _ _ => by rw [clkBits, clkBits, hr, hc],
    fun _ _ => by rw [hh], fun _ _ => by rw [hh], fun _ _ _ => by rw [hr]; exact .refl _,
    fun _ _ _ => by rw [hr]; exact .refl _, fun _ h => ?_, fun _ _ x _ _ => by rw [hr],
    fun _ _ _ => by rw [hh]⟩
  · unfold NoFullReset at *; rw [hr, hc]; exact h
  · unfold NoReset at *; rw [hr, hc]; exact h

theorem Frame.hwStep (ws : List Reg) (s : State) : Frame ws s (hwStep s) := by
  have l := hwStep_law s
  have kept : NoFullReset s → Kept (advanceScript s) (Machine.hwStep s) := l.kept
  have still : NoReset s → Still (advanceScript s) (Machine.hwStep s) := l.still
  refine ⟨l.cfg, fun h => NoFullReset.mono l.cfg l.resets h, ?_, ?_, fun h _ => (kept h).powered,
    fun h _ => (kept h).bootArmed, fun h _ _ => (kept h.1).nis h.2,
    fun h _ _ => (kept h.1).eis h.2,
    fun _ h => NoReset.mono l.cfg l.resets h, ?_, fun _ h _ => (still h).trigger⟩
  · intro h x hx _
    have k := kept h
    simp only [steadyRegs, List.mem_cons, List.not_mem_nil, or_false] at hx
    rcases hx with rfl | rfl | rfl | rfl | rfl | rfl | rfl | rfl
    exacts [k.pwrctl, k.timeoutctl, k.nie, k.eie, k.hc, k.hc2, k.bgc, k.boottimeout]
  · intro h _
    have := (kept h).clkctl
    unfold clkBits; rw [hwStep_cfg]; exact this
  · intro _ h x hx _
    have k := still h
    simp only [latchedRegs, List.mem_cons, List.not_mem_nil, or_false] at hx
    rcases hx with rfl | rfl | rfl | rfl
    exacts [k.arg, k.cmd, k.blksize, k.xfermode]

@[simp] theorem writeEffect_cfg (x : Reg) (v : Word) (s : State) : (writeEffect x v s).cfg = s.cfg := by
  cases x <;> first | rfl | (obtain ⟨d, h⟩ := resumeDma_other v (s.setReg .dmaaddr v); simp [writeEffect, h])

/-- A write leaves power alone unless it is a write of PWRCTL, and so on. -/
theorem writeEffect_hidden (x : Reg) (v : Word) (s : State) :
    (x ≠ .pwrctl → (writeEffect x v s).hid.powered = s.hid.powered) ∧
    (x ≠ .boottimeout → (writeEffect x v s).hid.bootArmed = s.hid.bootArmed) ∧
    (x ≠ .cmd → (writeEffect x v s).hid.trigger = s.hid.trigger) := by
  obtain ⟨d, h⟩ := resumeDma_other v (s.setReg .dmaaddr v)
  cases x <;> simp [writeEffect, h, State.clearNis, State.clearEis]

theorem Frame.writeEffect {ws : List Reg} {x : Reg} (hx : x ∈ ws) (hs : x ≠ .swreset) (v : Word)
    (s : State) : Frame ws s (writeEffect x v s) := by
  have other : ∀ y, y ≠ x → (Machine.writeEffect x v s).rb.get y = s.rb.get y :=
    fun y h => writeEffect_other x v s h
  have ne : ∀ y, y ∉ ws → y ≠ x := fun y hy h => hy (h ▸ hx)
  have hsw : (Machine.writeEffect x v s).rb.swreset = s.rb.swreset := other .swreset hs.symm
  obtain ⟨hp, ha, ht⟩ := writeEffect_hidden x v s
  refine ⟨writeEffect_cfg x v s, fun h => ?_, fun _ y _ hn => other y (ne y hn), fun _ hn => ?_,
    fun _ hn => hp (ne _ hn).symm, fun _ hn => ha (ne _ hn).symm, fun _ _ hn => ?_, fun _ _ hn => ?_,
    fun _ h => ?_, fun _ _ y _ hn => other y (ne y hn), fun _ _ hn => ht (ne _ hn).symm⟩
  · unfold NoFullReset at *; rw [hsw, writeEffect_cfg]; exact h
  · have := other .clkctl (ne _ hn)
    unfold clkBits; rw [writeEffect_cfg]; exact congrArg (· &&& _) this
  · have := other .nis (ne _ hn)
    exact (show _ = s.rb.nis from this) ▸ .refl _
  · have := other .eis (ne _ hn)
    exact (show _ = s.rb.eis from this) ▸ .refl _
  · unfold NoReset at *; rw [hsw, writeEffect_cfg]; exact h

theorem Frame.regWrite {ws : List Reg} {x : Reg} (hx : x ∈ ws) (hs : x ≠ .swreset) (v : Word)
    (s : State) : Frame ws s (regWrite x v s) :=
  ((Frame.hwStep ws s).trans (.writeEffect hx hs _ _)).trans (.same rfl rfl rfl)

theorem Frame.regRead (ws : List Reg) (x : Reg) (s : State) : Frame ws s (regRead x s).2 :=
  (Frame.hwStep ws s).trans (.same rfl rfl rfl)

theorem Frame.regRmw {ws : List Reg} {x : Reg} (hx : x ∈ ws) (hs : x ≠ .swreset) (f : Word → Word)
    (s : State) : Frame ws s (regRmw x f s) :=
  (Frame.regRead ws x s).trans (.regWrite hx hs _ _)

theorem and_eq_zero_of_fits {a m : Word} (w : Nat) (h : a &&& m = 0) : trunc w a &&& m = 0 := by
  unfold trunc
  rw [BitVec.and_assoc, BitVec.and_comm (mask w), ← BitVec.and_assoc, h]; simp

/-- The combined reset touches no bit of the full reset (R8, R32). -/
theorem dcMask_apart {cfg : Config} (h : cfg.wf = true) : cfg.dcMask &&& cfg.reset.all = 0 := by
  simp only [Config.wf, Config.resetOk, disjointMasks, Bool.and_eq_true, List.all_cons] at h
  obtain ⟨⟨⟨⟨⟨⟨-, hr⟩, -⟩, -⟩, -⟩, -⟩, -⟩ := h
  obtain ⟨⟨-, ⟨h1, h2, -⟩, -⟩, -⟩ := hr
  simp only [beq_iff_eq] at h1 h2
  unfold Config.dcMask
  rw [BitVec.and_comm, BitVec.and_or_distrib_left, h1, h2]; rfl

theorem Frame.startDcReset {ws : List Reg} (hw : .swreset ∈ ws) (s : State) (hc : s.cfg.wf = true) :
    Frame ws s (Machine.regWrite .swreset s.cfg.dcMask s) := by
  have key : ∀ t : State, t.cfg = s.cfg →
      Frame ws t ((Machine.writeEffect .swreset (trunc (t.cfg.width .swreset) s.cfg.dcMask) t)) := by
    intro t ht
    have other : ∀ y, y ≠ .swreset → (Machine.writeEffect .swreset
        (trunc (t.cfg.width .swreset) s.cfg.dcMask) t).rb.get y = t.rb.get y :=
      fun y h => writeEffect_other _ _ t h
    have ne : ∀ y, y ∉ ws → y ≠ Reg.swreset := fun y hy h => hy (h ▸ hw)
    refine ⟨rfl, fun h => ?_, fun _ y _ hn => other y (ne y hn), fun _ _ => rfl, fun _ _ => rfl,
      fun _ _ => rfl, fun _ hn => absurd hw hn, fun _ hn => absurd hw hn, fun hn => absurd hw hn,
      fun hn => absurd hw hn, fun hn => absurd hw hn⟩
    unfold NoFullReset at *
    rw [hasBit_false] at *
    have hz : trunc (t.cfg.width .swreset) s.cfg.dcMask &&& t.cfg.resetMask &&& t.cfg.reset.all = 0 := by
      rw [BitVec.and_assoc, BitVec.and_comm t.cfg.resetMask, ← BitVec.and_assoc,
        and_eq_zero_of_fits _ (by rw [ht]; exact dcMask_apart hc)]
      simp
    show (t.rb.swreset ||| (_ &&& t.cfg.resetMask)) &&& t.cfg.reset.all = 0
    rw [BitVec.and_comm, BitVec.and_or_distrib_left, BitVec.and_comm, h, BitVec.and_comm, hz]; rfl
  exact ((Frame.hwStep ws s).trans (key _ (hwStep_cfg s))).trans (.same rfl rfl rfl)

theorem Frame.sampleClock (ws : List Reg) (s : State) : Frame ws s (sampleClock s) := .same rfl rfl rfl

theorem Frame.pollLoop (ws : List Reg) (x : Reg) (cond : Word → Bool) (b t0 : Nat) :
    ∀ (n : Nat) (s : State), Frame ws s (pollLoop x cond b t0 n s).2
  | 0, _ => .same rfl rfl rfl
  | n + 1, s => by
    unfold Machine.pollLoop
    dsimp only
    split
    · exact .sampleClock ws s
    · split
      · exact (Frame.sampleClock ws s).trans (.regRead ws x _)
      · exact ((Frame.sampleClock ws s).trans (.regRead ws x _)).trans (Frame.pollLoop ws x cond b t0 n _)

theorem Frame.poll (ws : List Reg) (x : Reg) (cond : Word → Bool) (b : Nat) (s : State) :
    Frame ws s (poll x cond b s).2 :=
  (Frame.sampleClock ws s).trans (.pollLoop ws x cond b _ _ _)

theorem Frame.dcReset {ws : List Reg} (hw : .swreset ∈ ws) (s : State) (hc : s.cfg.wf = true) :
    Frame ws s (resetProc s.cfg.dcMask s).2 := by
  unfold Machine.resetProc
  dsimp only
  split
  · exact (Frame.startDcReset hw s hc).trans (.poll ws _ _ _ _)
  · exact ((Frame.startDcReset hw s hc).trans (.poll ws _ _ _ _)).trans (.same rfl rfl rfl)

theorem Frame.clearAll {ws : List Reg} (hn : .nis ∈ ws) (he : .eis ∈ ws) (s : State) :
    Frame ws s (clearAll s) :=
  (Frame.regWrite hn (by decide) _ s).trans (.regWrite he (by decide) _ _)

theorem Frame.setClock {ws : List Reg} (h : .clkctl ∈ ws) (k : Nat) (s : State) :
    Frame ws s (setClock k s).2 := by
  unfold Machine.setClock
  dsimp only
  split
  · exact ((Frame.regWrite h (by decide) _ s).trans (.poll ws _ _ _ _)).trans
      (.regWrite h (by decide) _ _)
  · exact ((Frame.regWrite h (by decide) _ s).trans (.poll ws _ _ _ _)).trans (.same rfl rfl rfl)

theorem Frame.dmaAck {ws : List Reg} (hn : .nis ∈ ws) (hd : .dmaaddr ∈ ws) (s : State) :
    Frame ws s (dmaAck s).2 :=
  ((Frame.regRead ws _ s).trans (.regWrite hd (by decide) _ _)).trans (.regWrite hn (by decide) _ _)

theorem Frame.recover {ws : List Reg} (hw : .swreset ∈ ws) (hn : .nis ∈ ws) (he : .eis ∈ ws)
    (s : State) (hc : s.cfg.wf = true) : Frame ws s (recover s) :=
  (Frame.dcReset hw s hc).trans (.clearAll hn he _)

theorem Frame.failWith {ws : List Reg} (hw : .swreset ∈ ws) (hn : .nis ∈ ws) (he : .eis ∈ ws)
    (c : Cause) (vs : List Word) (s : State) (hc : s.cfg.wf = true) : Frame ws s (failWith c vs s) :=
  ((Frame.same rfl rfl rfl : Frame ws s (s.logged c vs)).trans
    (.recover hw hn he (s.logged c vs) hc)).trans (.same rfl rfl rfl)

theorem Frame.decodeResponse (ws : List Reg) (c : Descriptor) (s : State) :
    Frame ws s (decodeResponse c s) := by
  unfold Machine.decodeResponse
  split
  · exact .refl ws s
  · split
    · exact ((((Frame.regRead ws .resp3 s).trans (.regRead ws .resp2 _)).trans (.regRead ws .resp1 _)).trans
        (.regRead ws .resp0 _)).trans (.same rfl rfl rfl)
    · split
      · exact (Frame.regRead ws .resp0 s).trans (.same rfl rfl rfl)
      · exact .refl ws s

/-! ### The value a write leaves -/

/-- The registers a write simply replaces (R65, classes plain and trigger, and DMAADDR). -/
def isPlain : Reg → Bool
  | .pwrctl | .timeoutctl | .nie | .eie | .arg | .cmd | .blksize | .blkcnt | .xfermode | .dmaaddr
  | .hc | .hc2 | .bgc | .boottimeout => true
  | _ => false

theorem regWrite_value {x : Reg} (h : isPlain x = true) (v : Word) (s : State) :
    (regWrite x v s).rb.get x = trunc (s.cfg.width x) v := by
  unfold regWrite
  dsimp only
  rw [hwStep_cfg]
  cases x <;> first
    | exact absurd h (by decide)
    | rfl
    | (show (resumeDma _ _).rb.get .dmaaddr = _; rw [resumeDma_rb]; rfl)

theorem regWrite_clkBits (v : Word) (s : State) :
    clkBits (regWrite .clkctl v s) = trunc (s.cfg.width .clkctl) v &&& ~~~s.cfg.clock.stable := by
  unfold regWrite clkBits
  dsimp only
  rw [hwStep_cfg]
  show (((trunc _ v &&& ~~~(hwStep s).cfg.clock.stable) ||| ((hwStep s).rb.clkctl &&&
    (hwStep s).cfg.clock.stable)) &&& ~~~(hwStep s).cfg.clock.stable) = _
  rw [hwStep_cfg]
  apply BitVec.eq_of_getLsbD_eq
  intro i hi
  simp
  cases s.cfg.clock.stable.getLsbD i <;> simp

/-- Clearing flags clears them: the write is the last thing that happens (R68). -/
theorem regWrite_nis_cleared (v : Word) (s : State) :
    (regWrite .nis v s).rb.nis &&& trunc (s.cfg.width .nis) v = 0 := by
  unfold regWrite
  dsimp only
  rw [hwStep_cfg]
  show ((hwStep s).rb.nis &&& ~~~_) &&& _ = 0
  rw [BitVec.and_assoc]
  simp

theorem regWrite_eis_cleared (v : Word) (s : State) :
    (regWrite .eis v s).rb.eis &&& trunc (s.cfg.width .eis) v = 0 := by
  unfold regWrite
  dsimp only
  rw [hwStep_cfg]
  show ((hwStep s).rb.eis &&& ~~~_) &&& _ = 0
  rw [BitVec.and_assoc]
  simp

/-- A read of a register HW never changes short of a full reset returns what stood there. -/
theorem regRead_steady {x : Reg} (hx : x ∈ steadyRegs) (s : State) (h : NoFullReset s) :
    (regRead x s).1 = s.rb.get x := by
  have := (Frame.hwStep [] s).steady h x hx (by simp)
  rw [← this]
  simp only [steadyRegs, List.mem_cons, List.not_mem_nil, or_false] at hx
  rcases hx with rfl | rfl | rfl | rfl | rfl | rfl | rfl | rfl <;> rfl

end Sys2Proof.Machine
end

