-- ==== Sys2Proof/Laws/Seq.lean ====
section
/-! SUPPORT. The parts the operations are built from, one lemma each for what they change, keep and leave
in the trace: the power sequence, the end of INIT, the transfer block, the response decoder, recovery and
the two exits of WAIT_CMD. -/

namespace Sys2Proof.Machine

/-- What every operation keeps, the handle's voltage and readiness and the sequencer's own fields
apart. -/
structure Keeps (s t : State) : Prop where
  cfg    : t.cfg = s.cfg
  base   : t.h.base = s.h.base
  cap    : t.h.cap = s.h.cap
  port   : t.port = s.port
  cap0   : t.rb.cap0 = s.rb.cap0
  cap1   : t.rb.cap1 = s.rb.cap1
  trace  : s.trace <+: t.trace
  log    : s.log <+: t.log
  now    : s.env.now ≤ t.env.now
  store  : NoStore s → NoStore t
  mem    : NoStore s → t.mem = s.mem
  memWf  : Memory.wf s.mem = true → Memory.wf t.mem = true
  fit    : s.cfg.wf = true → RegsFit s → RegsFit t
  owned  : DmaOwned s → DmaOwned t
  resets : Below s.rb.swreset s.cfg.resetMask → Below t.rb.swreset s.cfg.resetMask

theorem Keeps.ofRuns {s t : State} (r : Runs s t) : Keeps s t :=
  ⟨r.cfg, by rw [r.h], by rw [r.h], r.port, r.cap0, r.cap1, r.trace, r.log, r.now, r.store, r.mem, r.memWf,
   r.fit, r.owned, r.resets⟩

theorem Keeps.trans {s t u : State} (a : Keeps s t) (b : Keeps t u) : Keeps s u where
  cfg := b.cfg.trans a.cfg
  base := b.base.trans a.base
  cap := b.cap.trans a.cap
  port := b.port.trans a.port
  cap0 := b.cap0.trans a.cap0
  cap1 := b.cap1.trans a.cap1
  trace := a.trace.trans b.trace
  log := a.log.trans b.log
  now := a.now.trans b.now
  store h := b.store (a.store h)
  mem h := (b.mem (a.store h)).trans (a.mem h)
  memWf h := b.memWf (a.memWf h)
  fit c h := b.fit (by rw [a.cfg]; exact c) (a.fit c h)
  owned h := b.owned (a.owned h)
  resets h := by rw [← a.cfg]; exact b.resets (by rw [a.cfg]; exact a.resets h)

/-- A change of the handle's voltage or readiness, of `seq`, `sent`, the response buffer or the reply. -/
theorem Keeps.seqFields (s : State) (v : Voltage) (r : Bool) (q : SeqState) (c : Option Descriptor)
    (b : RespBuf) (y : Reply) :
    Keeps s { s with h := { s.h with voltage := v, ready := r }, seq := q, sent := c, respBuf := b,
                     reply := y } :=
  ⟨rfl, rfl, rfl, rfl, rfl, rfl, List.prefix_refl _, List.prefix_refl _, le_refl _, id, fun _ => rfl, id,
   fun _ => id, id, id⟩

/-! ### INIT's parts -/

theorem powerUp_spec (s : State) : ∃ w, Runs s w ∧
    powerUp s = { w with h := { w.h with voltage := selectVoltage s.cfg s.h } } ∧
    w.trace = s.trace ++ powerAccesses s.cfg (selectVoltage s.cfg s.h) ∧ w.log = s.log ∧
    Frame [.pwrctl] s w := by
  unfold powerUp
  dsimp only
  cases selectVoltage s.cfg s.h with
  | none =>
    simp only [pwrWord]
    exact ⟨_, .regWrite _ _ s, rfl, by simp [powerAccesses, wrote], by simp,
      .regWrite (by decide) (by decide) _ s⟩
  | v18 =>
    simp only [pwrWord]
    exact ⟨_, (Runs.regWrite _ _ s).trans (.regWrite _ _ _), rfl, by simp [powerAccesses, wrote],
      by simp, (Frame.regWrite (by decide) (by decide) _ s).trans (.regWrite (by decide) (by decide) _ _)⟩
  | v30 =>
    simp only [pwrWord]
    exact ⟨_, (Runs.regWrite _ _ s).trans (.regWrite _ _ _), rfl, by simp [powerAccesses, wrote],
      by simp, (Frame.regWrite (by decide) (by decide) _ s).trans (.regWrite (by decide) (by decide) _ _)⟩
  | v33 =>
    simp only [pwrWord]
    exact ⟨_, (Runs.regWrite _ _ s).trans (.regWrite _ _ _), rfl, by simp [powerAccesses, wrote],
      by simp, (Frame.regWrite (by decide) (by decide) _ s).trans (.regWrite (by decide) (by decide) _ _)⟩

theorem finishInit_spec (s : State) : ∃ w, Runs s w ∧
    finishInit s = { w with h := { w.h with ready := true } } ∧
    w.trace = s.trace ++ ([wrote s.cfg .timeoutctl s.cfg.timeoutValue] ++ clearAllAccesses s.cfg ++
      [wrote s.cfg .nie s.cfg.irq.nieAll, wrote s.cfg .eie s.cfg.irq.eieAll]) ∧ w.log = s.log ∧
    Frame [.timeoutctl, .nis, .eis, .nie, .eie] s w := by
  have hc : ∀ u : State, (clearAll u).cfg = u.cfg := fun u => (Runs.clearAll u).cfg
  refine ⟨_, (((Runs.regWrite .timeoutctl s.cfg.timeoutValue s).trans (.clearAll _)).trans
    (.regWrite .nie s.cfg.irq.nieAll _)).trans (.regWrite .eie s.cfg.irq.eieAll _), ?_, ?_, ?_, ?_⟩
  · unfold finishInit; dsimp only; simp only [regWrite_cfg, hc]
  · simp [clearAllAccesses, wrote, hc]
  · simp
  · exact (((Frame.regWrite (by decide) (by decide) _ s).trans
      (.clearAll (by decide) (by decide) _)).trans (.regWrite (by decide) (by decide) _ _)).trans
      (.regWrite (by decide) (by decide) _ _)

/-! ### SEND_CMD's transfer block -/

theorem regRmw_spec (x : Reg) (f : Word → Word) (s : State) :
    (regRmw x f s).trace =
      s.trace ++ [.read x (regRead x s).1, wrote s.cfg x (f (regRead x s).1)] ∧
    (regRmw x f s).log = s.log ∧ (regRmw x f s).cfg = s.cfg := by
  refine ⟨?_, ?_, ?_⟩ <;> simp [regRmw, wrote]

/-- The transfer block of a command without boot-enable. -/
theorem programTransfer_data (c : Descriptor) (s : State) (hb : c.bootEn = false) :
    Runs s (programTransfer c s) ∧
    (programTransfer c s).trace = s.trace ++
      [wrote s.cfg .blkcnt (c.blkcnt.setWidth 32), wrote s.cfg .dmaaddr c.dmaAddr,
       wrote s.cfg .blksize (blkSizeWord s.cfg c), wrote s.cfg .xfermode (xferWord s.cfg c)] ∧
    (programTransfer c s).log = s.log ∧
    Frame [.blkcnt, .dmaaddr, .blksize, .xfermode] s (programTransfer c s) := by
  have e : programTransfer c s = regWrite .xfermode (xferWord s.cfg c) (regWrite .blksize
      (blkSizeWord s.cfg c) (regWrite .dmaaddr c.dmaAddr (regWrite .blkcnt (c.blkcnt.setWidth 32) s))) := by
    unfold programTransfer; simp [hb]
  rw [e]
  refine ⟨(((Runs.regWrite _ _ s).trans (.regWrite _ _ _)).trans (.regWrite _ _ _)).trans
    (.regWrite _ _ _), by simp [wrote], by simp, ?_⟩
  exact (((Frame.regWrite (by decide) (by decide) _ s).trans (.regWrite (by decide) (by decide) _ _)).trans
    (.regWrite (by decide) (by decide) _ _)).trans (.regWrite (by decide) (by decide) _ _)

/-- The transfer block of a boot command: the same, then boot arming. -/
theorem programTransfer_boot (c : Descriptor) (s : State) (hb : c.bootEn = true) :
    programTransfer c s = armBoot (programTransfer { c with bootEn := false } s) := by
  unfold programTransfer
  simp [hb, blkSizeWord, xferWord]

theorem armBoot_spec (s : State) : Runs s (armBoot s) ∧
    (∃ g, (armBoot s).trace = s.trace ++ [wrote s.cfg .boottimeout s.cfg.boot.timeoutValue,
      .read .bgc g, wrote s.cfg .bgc (g ||| (s.cfg.boot.bgcEn ||| s.cfg.boot.bgcAck))]) ∧
    (armBoot s).log = s.log ∧ Frame [.boottimeout, .bgc] s (armBoot s) := by
  obtain ⟨h1, h2, h3⟩ := regRmw_spec .bgc (bgcBootOn s.cfg)
    (regWrite .boottimeout s.cfg.boot.timeoutValue s)
  have e : armBoot s = regRmw .bgc (bgcBootOn s.cfg) (regWrite .boottimeout s.cfg.boot.timeoutValue s) := by
    unfold armBoot; simp
  rw [e]
  refine ⟨(Runs.regWrite _ _ s).trans (.regRmw _ _ _),
    ⟨(regRead .bgc (regWrite .boottimeout s.cfg.boot.timeoutValue s)).1, ?_⟩, by rw [h2]; simp,
    (Frame.regWrite (by decide) (by decide) _ s).trans (.regRmw (by decide) (by decide) _ _)⟩
  rw [h1]
  simp [wrote, bgcBootOn]

/-! ### WAIT_CMD's parts -/

theorem decodeResponse_spec (c : Descriptor) (s : State) : ∃ w q b, Runs s w ∧
    decodeResponse c s = { w with respBuf := b } ∧ w.trace = s.trace ++ q ∧ w.log = s.log ∧
    w.env.now = s.env.now ∧ Frame [] s w ∧
    (c.respLen = 128 → s.cfg.recognises c.respLen = true → ∃ r3 r2 r1 r0,
      q = [.read .resp3 r3, .read .resp2 r2, .read .resp1 r1, .read .resp0 r0] ∧
      b = reassemble r3 r2 r1 r0) ∧
    (c.respLen = 32 → s.cfg.recognises c.respLen = true → ∃ r0, q = [.read .resp0 r0] ∧
      b = { s.respBuf with w0 := r0 }) ∧
    (s.cfg.recognises c.respLen = false ∨ (c.respLen ≠ 128 ∧ c.respLen ≠ 32) →
      q = [] ∧ b = s.respBuf) := by
  unfold decodeResponse
  split
  · next h0 =>
    rw [Bool.not_eq_true'] at h0
    exact ⟨s, [], s.respBuf, .refl s, rfl, by simp, rfl, rfl, .refl _ s, fun _ k => by simp [h0] at k,
      fun _ k => by simp [h0] at k, fun _ => ⟨rfl, rfl⟩⟩
  · next h0 =>
    rw [Bool.not_eq_true', Bool.not_eq_false] at h0
    split
    · next h =>
      refine ⟨_, _, _, (((Runs.regRead .resp3 s).trans (.regRead .resp2 _)).trans
        (.regRead .resp1 _)).trans (.regRead .resp0 _), rfl,
        by simp only [regRead_trace, List.append_assoc]; rfl, by simp, by simp,
        (((Frame.regRead _ .resp3 s).trans (.regRead _ .resp2 _)).trans (.regRead _ .resp1 _)).trans
          (.regRead _ .resp0 _), fun _ _ => ⟨_, _, _, _, rfl, rfl⟩, fun k => ?_, fun k => ?_⟩
      · rw [h] at k; exact absurd k (by decide)
      · rcases k with k | k
        · simp [h0] at k
        · exact absurd h k.1
    · next h1 =>
      split
      · next h =>
        refine ⟨_, _, _, Runs.regRead .resp0 s, rfl, regRead_trace _ s, by simp, by simp,
          .regRead _ .resp0 s, fun k => absurd k h1,
          fun _ _ => ⟨_, rfl, by rw [(Runs.regRead .resp0 s).respBuf]⟩, fun k => ?_⟩
        rcases k with k | k
        · simp [h0] at k
        · exact absurd h k.2
      · next h2 =>
        exact ⟨s, [], s.respBuf, .refl s, rfl, by simp, rfl, rfl, .refl _ s, fun k => absurd k h1,
          fun k => absurd k h2, fun _ => ⟨rfl, rfl⟩⟩

theorem recover_spec (s : State) : ∃ l, OnlyReads .swreset l ∧
    (recover s).trace = s.trace ++ recoverAccesses s.cfg l ∧ resetLog s.cfg s.log (recover s).log := by
  obtain ⟨⟨l, hl, ht⟩, hg⟩ := resetProc_spec s.cfg.dcMask s
  refine ⟨l, hl, ?_, ?_⟩
  · unfold recover
    rw [clearAll_trace, ht, (Runs.resetProc s.cfg.dcMask s).cfg]
    simp [recoverAccesses, resetAccesses, clearAllAccesses, wrote]
  · unfold recover resetLog
    rw [clearAll_log, hg]
    cases (resetProc s.cfg.dcMask s).1
    · exact .inr rfl
    · exact .inl (List.append_nil _)

/-- The failing exit: a log entry, recovery, rest, FAIL. -/
theorem failWith_spec (c : Cause) (vs : List Word) (s : State) : ∃ w l, Runs s w ∧
    failWith c vs s = { w with seq := .idle, sent := none, reply := .fail } ∧
    OnlyReads .swreset l ∧ w.trace = s.trace ++ recoverAccesses s.cfg l ∧
    resetLog s.cfg (s.log ++ [⟨c, vs⟩]) w.log := by
  obtain ⟨l, hl, ht, hg⟩ := recover_spec (s.logged c vs)
  exact ⟨_, l, (Runs.logged c vs s).trans (.recover _), rfl, hl, ht, hg⟩

theorem succeed_eq (q : SeqState) (s : State) :
    succeed q s = { s with seq := q, sent := none, reply := .ok } := rfl

theorem dmaAck_spec (s : State) :
    (dmaAck s).2.trace = s.trace ++ dmaAckAccesses s.cfg (dmaAck s).1 ∧ (dmaAck s).2.log = s.log ∧
    (dmaAck s).2.env.now = s.env.now := by
  refine ⟨?_, ?_, ?_⟩ <;> simp [dmaAck, dmaAckAccesses, wrote]

/-- Clearing some flags of NIS keeps every other one (R68, R230). -/
theorem regWrite_nis_keeps (m : Word) (s : State) (h : KeepsFlags s) :
    Below (s.rb.nis &&& ~~~m) (regWrite .nis m s).rb.nis := by
  have k := (Frame.hwStep [] s).nis h (by simp) (by simp)
  have e : (regWrite .nis m s).rb.nis = (hwStep s).rb.nis &&& ~~~trunc (s.cfg.width .nis) m := by
    unfold regWrite; dsimp only; rw [hwStep_cfg]; rfl
  rw [e]
  refine (below_iff _ _).2 fun i hi => ?_
  rw [BitVec.getLsbD_and, BitVec.getLsbD_not, Bool.and_eq_true, Bool.and_eq_true] at hi
  rw [BitVec.getLsbD_and, BitVec.getLsbD_not, Bool.and_eq_true, Bool.and_eq_true]
  refine ⟨(below_iff _ _).1 k i hi.1, hi.2.1, ?_⟩
  have := hi.2.2
  unfold trunc
  rw [BitVec.getLsbD_and]
  simp_all

end Sys2Proof.Machine
end

