-- ==== Sys2Proof/Laws/Exec.lean ====
section
/-! SUPPORT. Each operation taken apart once, with its intermediate states named, so that a proof about an
operation cites the laws of its parts and never unfolds it; and when `exec` answers a next state at all. -/

namespace Sys2Proof.Machine

/-! ### Parts -/

theorem resetProc_ok {m : Word} {s : State} (h : (resetProc m s).1 = true) :
    ∃ l y, OnlyReads .swreset l ∧ (resetProc m s).2.trace = s.trace ++ resetAccesses s.cfg m l ∧
      (poll .swreset (fun v => v &&& m == 0) s.cfg.budgets.tReset (regWrite .swreset m s)).1 = some y ∧
      l.getLast? = some (.read .swreset y) ∧ y &&& m = 0 ∧ (resetProc m s).2.rb.swreset = y ∧
      (resetProc m s).2.log = s.log := by
  have hl := (resetProc_spec m s).2
  rw [h] at hl
  unfold resetProc at h hl ⊢
  dsimp only at h hl ⊢
  obtain ⟨v, hv⟩ := Option.isSome_iff_exists.1 h
  obtain ⟨l, h1, h2, h3⟩ := poll_reads .swreset (fun v => v &&& m == 0)
    (regWrite .swreset m s).cfg.budgets.tReset (regWrite .swreset m s)
  obtain ⟨k1, k2, u, k3, k4, k5⟩ := poll_ok hv
  rw [if_pos h] at hl ⊢
  refine ⟨l, v, h1, by rw [h2]; simp [resetAccesses, wrote], by rw [← hv, regWrite_cfg], h3 v hv,
    by simpa using k1, ?_, by rw [hl]; simp⟩
  rw [k4, k5]; rfl

/-- What a read-modify-write of a register HW leaves alone leaves in it (R10, R229). -/
theorem regRmw_value {x : Reg} (hx : x ∈ steadyRegs) (hp : isPlain x = true) (f : Word → Word) (s : State)
    (h : NoFullReset s) : (regRmw x f s).rb.get x = trunc (s.cfg.width x) (f (s.rb.get x)) := by
  unfold regRmw
  rw [regWrite_value hp, regRead_steady hx s h]
  simp

theorem clkBits_second :
    ∀ v w e m : Bool, ∀ c : Bool, (v && !c) = (w && m && !c) → ((v || e) && m && !c) = ((w || e) && m && !c) := by
  decide

/-- What clock programming leaves in CLKCTL, `CLK_STABLE` apart (R117). -/
theorem setClock_bits (k : Nat) (s : State) (hn : NoFullReset s) :
    let w := clkWord1 s.cfg (divisor s.cfg s.h.cap.baseKHz.toNat k)
    ((setClock k s).1 = true → clkBits (setClock k s).2 =
      trunc (s.cfg.width .clkctl) (w ||| s.cfg.clock.cardEn) &&& ~~~s.cfg.clock.stable) ∧
    ((setClock k s).1 = false → clkBits (setClock k s).2 =
      trunc (s.cfg.width .clkctl) w &&& ~~~s.cfg.clock.stable) := by
  have h0 := regWrite_clkBits (clkWord1 s.cfg (divisor s.cfg s.h.cap.baseKHz.toNat k)) s
  have fr : Frame [.clkctl] s (regWrite .clkctl (clkWord1 s.cfg (divisor s.cfg s.h.cap.baseKHz.toNat k)) s) :=
    .regWrite (by decide) (by decide) _ _
  unfold setClock
  dsimp only
  simp only [regWrite_cfg]
  have hc : (regWrite .clkctl (clkWord1 s.cfg (divisor s.cfg s.h.cap.baseKHz.toNat k)) s).cfg = s.cfg := by simp
  generalize regWrite .clkctl (clkWord1 s.cfg (divisor s.cfg s.h.cap.baseKHz.toNat k)) s = u at *
  have hpoll := (Frame.poll [] .clkctl (fun v => hasBit v s.cfg.clock.stable) s.cfg.budgets.tClk u).clock
    (fr.full hn) (by simp)
  rw [h0] at hpoll
  cases hp : (poll .clkctl (fun v => hasBit v s.cfg.clock.stable) s.cfg.budgets.tClk u).1 with
  | none => exact ⟨nofun, fun _ => hpoll⟩
  | some v =>
    refine ⟨fun _ => ?_, nofun⟩
    obtain ⟨-, -, q, -, k4, k5⟩ := poll_ok hp
    have hv : (poll .clkctl (fun v => hasBit v s.cfg.clock.stable) s.cfg.budgets.tClk u).2.rb.clkctl = v := by
      rw [k4, k5]; rfl
    dsimp only
    rw [regWrite_clkBits]
    simp only [poll_cfg, hc]
    unfold clkBits at hpoll
    rw [hv, poll_cfg, hc] at hpoll
    unfold trunc at *
    apply BitVec.eq_of_getLsbD_eq
    intro i hi
    have := congrArg (fun b => BitVec.getLsbD b i) hpoll
    simp [hi] at this ⊢
    exact clkBits_second _ _ _ _ _ this

/-! ### The operations -/

/-- INIT: after the reset, the power sequence, the clock, and the rest (R110). -/
theorem runInit_cases (s : State) : ∃ a, a = (resetProc s.cfg.reset.all (startInit s)).2 ∧
    (((resetProc s.cfg.reset.all (startInit s)).1 = false ∧ runInit s = { a with reply := .fail }) ∨
     ((resetProc s.cfg.reset.all (startInit s)).1 = true ∧ ∃ p b, p = powerUp a ∧
        b = (setClock s.cfg.clock.initTargetKHz p).2 ∧
        (((setClock s.cfg.clock.initTargetKHz p).1 = false ∧ runInit s = { b with reply := .fail }) ∨
         ((setClock s.cfg.clock.initTargetKHz p).1 = true ∧
            runInit s = { finishInit b with reply := .ok })))) := by
  refine ⟨_, rfl, ?_⟩
  have hp : (powerUp (resetProc s.cfg.reset.all (startInit s)).2).cfg = s.cfg := by
    obtain ⟨w, r, e, -⟩ := powerUp_spec (resetProc s.cfg.reset.all (startInit s)).2
    rw [e]
    exact r.cfg.trans (Runs.resetProc s.cfg.reset.all (startInit s)).cfg
  cases h : (resetProc s.cfg.reset.all (startInit s)).1
  · exact .inl ⟨rfl, by unfold runInit; simp only [h]; rfl⟩
  · refine .inr ⟨rfl, _, _, rfl, rfl, ?_⟩
    cases k : (setClock s.cfg.clock.initTargetKHz (powerUp (resetProc s.cfg.reset.all (startInit s)).2)).1
    · exact .inl ⟨rfl, by unfold runInit; simp only [h, hp, k]; rfl⟩
    · exact .inr ⟨rfl, by unfold runInit; simp only [h, hp, k]; rfl⟩

/-- SET_MODE: the clock, then HC2, then HC (R125). -/
theorem runSetMode_cases (m : ModeRec) (s : State) : ∃ a, a = (setClock m.freqKHz.toNat s).2 ∧
    (((setClock m.freqKHz.toNat s).1 = false ∧ runSetMode m s = { a with reply := .fail }) ∨
     ((setClock m.freqKHz.toNat s).1 = true ∧ ∃ b c, b = regRmw .hc2 (hc2Word s.cfg m) a ∧
        c = regRmw .hc (hcWord s.cfg m) b ∧ runSetMode m s = { c with reply := .ok })) := by
  refine ⟨_, rfl, ?_⟩
  have hc := (Runs.setClock m.freqKHz.toNat s).cfg
  have hr : (regRmw .hc2 (hc2Word s.cfg m) (setClock m.freqKHz.toNat s).2).cfg = s.cfg :=
    (Runs.regRmw _ _ _).cfg.trans hc
  cases h : (setClock m.freqKHz.toNat s).1
  · exact .inl ⟨rfl, by unfold runSetMode; simp only [h]; rfl⟩
  · exact .inr ⟨rfl, _, _, rfl, rfl, by unfold runSetMode; simp only [h, hc, hr]; rfl⟩

/-- SEND_CMD: the status clearing, the transfer block where the command has one, ARG, CMD (R132). -/
theorem runSendCmd_eq (c : Descriptor) (s : State) : ∃ a b d e,
    a = regWrite .nis s.cfg.irq.nisAll s ∧
    b = (if c.dataXfer || c.bootEn then programTransfer c a else a) ∧
    d = regWrite .arg c.arg b ∧ e = regWrite .cmd (cmdWord s.cfg c) d ∧ b.cfg = s.cfg ∧
    runSendCmd c s = { e with seq := .issued, sent := some c, reply := .none } := by
  have key : ∀ b : State, b.cfg = s.cfg →
      regWrite .cmd (cmdWord (regWrite .arg c.arg b).cfg c) (regWrite .arg c.arg b) =
        regWrite .cmd (cmdWord s.cfg c) (regWrite .arg c.arg b) := by
    intro b hb; rw [regWrite_cfg, hb]
  have hb : (if c.dataXfer || c.bootEn then programTransfer c (regWrite .nis s.cfg.irq.nisAll s)
      else regWrite .nis s.cfg.irq.nisAll s).cfg = s.cfg := by
    split
    · cases h : c.bootEn
      · exact (programTransfer_data c _ h).1.cfg.trans (regWrite_cfg _ _ _)
      · rw [programTransfer_boot c _ h]
        exact (armBoot_spec _).1.cfg.trans ((programTransfer_data { c with bootEn := false } _ rfl).1.cfg.trans
          (regWrite_cfg _ _ _))
    · exact regWrite_cfg _ _ _
  refine ⟨_, _, _, _, rfl, rfl, rfl, rfl, hb, ?_⟩
  unfold runSendCmd
  dsimp only
  rw [key _ hb]

/-- BOOT_STOP: boot-enable, status, reset (R162). -/
theorem runBootStop_eq (s : State) : ∃ a b d, a = regRmw .bgc (bgcBootOff s.cfg) s ∧ b = clearAll a ∧
    d = (resetProc s.cfg.dcMask b).2 ∧
    runBootStop s = { d with seq := .idle, sent := none, reply := .none } := by
  refine ⟨_, _, _, rfl, rfl, rfl, ?_⟩
  have h : (clearAll (regRmw .bgc (bgcBootOff s.cfg) s)).cfg = s.cfg :=
    (Runs.clearAll _).cfg.trans (Runs.regRmw _ _ _).cfg
  unfold runBootStop
  dsimp only
  rw [h]
  rfl

/-- BOOT_WAIT: one read of NIS and, where `NIS_DMA` shows, the acknowledge (R158). -/
theorem runBootWait_cases (s : State) : ∃ q a, q = (regRead .nis s).1 ∧ a = (regRead .nis s).2 ∧
    ((hasBit q s.cfg.irq.dma = false ∧
        runBootWait s = { a with reply := .boot (hasBit q s.cfg.irq.bootTerm) none }) ∨
     (hasBit q s.cfg.irq.dma = true ∧ ∃ b, b = (dmaAck a).2 ∧
        runBootWait s = { b with reply := .boot (hasBit q s.cfg.irq.bootTerm) (some (dmaAck a).1) })) := by
  refine ⟨_, _, rfl, rfl, ?_⟩
  have hc := regRead_cfg .nis s
  cases h : hasBit (regRead .nis s).1 s.cfg.irq.dma
  · refine .inl ⟨rfl, ?_⟩
    conv_lhs => unfold runBootWait; dsimp only; simp only [hc, h, Bool.false_eq_true, if_false]
    rfl
  · exact .inr ⟨rfl, _, rfl, by unfold runBootWait; dsimp only; simp only [hc, h]; rfl⟩

/-- The boot branch of WAIT_CMD (R150). -/
theorem waitBoot_cases (n : Word) (s : State) :
    (hasBit n s.cfg.irq.bootAck = false ∧ waitBoot n s = failWith .bootNoAck [n] s) ∨
    (hasBit n s.cfg.irq.bootAck = true ∧ ∃ a b, a = regWrite .boottimeout 0 s ∧
      b = regWrite .nis s.cfg.irq.bootAck a ∧
      waitBoot n s = { b with seq := .streaming, sent := none, reply := .ok }) := by
  cases h : hasBit n s.cfg.irq.bootAck
  · exact .inl ⟨rfl, by unfold waitBoot; simp only [h]; rfl⟩
  · refine .inr ⟨rfl, _, _, rfl, rfl, ?_⟩
    conv_lhs => unfold waitBoot; simp only [h, if_pos, regWrite_cfg]
    rfl

/-- The non-data branch of WAIT_CMD (R145). -/
theorem waitNonData_cases (c : Descriptor) (n : Word) (s : State) :
    (hasBit n s.cfg.irq.err = true ∧ waitNonData c n s = .next (failWith .hwError [n] s)) ∨
    (hasBit n s.cfg.irq.err = false ∧ hasBit n s.cfg.irq.cc = true ∧ ∃ a b, a = decodeResponse c s ∧
      b = regWrite .nis s.cfg.irq.cc a ∧
      waitNonData c n s = .next { b with seq := .idle, sent := none, reply := .ok }) ∨
    (hasBit n s.cfg.irq.err = false ∧ hasBit n s.cfg.irq.cc = false ∧
      waitNonData c n s = .fault .waitNeitherErrorNorComplete) := by
  have hd : (decodeResponse c s).cfg = s.cfg := by
    obtain ⟨w, q, b, r, e, -⟩ := decodeResponse_spec c s
    rw [e]; exact r.cfg
  cases h : hasBit n s.cfg.irq.err
  · cases k : hasBit n s.cfg.irq.cc
    · exact .inr (.inr ⟨rfl, rfl, by unfold waitNonData; simp only [h, k]; rfl⟩)
    · exact .inr (.inl ⟨rfl, rfl, _, _, rfl, rfl, by unfold waitNonData; simp only [h, k, hd]; rfl⟩)
  · exact .inl ⟨rfl, by unfold waitNonData; simp only [h]; rfl⟩

/-- One round of the data wait that does not end it by its deadline (R151): the error exit, or, with `q`
what NIS read and `b` the state after a DMA acknowledge if one was due, one of the two success exits or the
next round. -/
theorem dataLoop_cases (t0 n : Nat) (s : State) : ∃ a, a = sampleClock s ∧
    ((s.cfg.budgets.tData < a.env.now - t0 ∧ dataLoop t0 (n + 1) s = failWith .dataTimeout [] a) ∨
     (a.env.now - t0 ≤ s.cfg.budgets.tData ∧ ∃ e d, e = (regRead .eis a).1 ∧ d = (regRead .eis a).2 ∧
      ((e ≠ 0 ∧ ∃ f, f = (regRead .acmd12stat d).2 ∧
          dataLoop t0 (n + 1) s = failWith .hwError [e, (regRead .acmd12stat d).1] f) ∨
       (e = 0 ∧ ∃ q g b, q = (regRead .nis d).1 ∧ g = (regRead .nis d).2 ∧
          b = (if hasBit q s.cfg.irq.dma then (dmaAck g).2 else g) ∧
          ((hasBit q s.cfg.irq.brr = true ∧ ∃ z, z = regWrite .nis s.cfg.irq.brr b ∧
              dataLoop t0 (n + 1) s = { z with seq := .idle, sent := none, reply := .ok }) ∨
           (hasBit q s.cfg.irq.brr = false ∧ hasBit q s.cfg.irq.tc = true ∧ ∃ z, z = regWrite .nis s.cfg.irq.tc b ∧
              dataLoop t0 (n + 1) s = { z with seq := .idle, sent := none, reply := .ok }) ∨
           (hasBit q s.cfg.irq.brr = false ∧ hasBit q s.cfg.irq.tc = false ∧
              dataLoop t0 (n + 1) s = dataLoop t0 n b)))))) := by
  refine ⟨_, rfl, ?_⟩
  have ha : (sampleClock s).cfg = s.cfg := rfl
  generalize hA : sampleClock s = a at *
  by_cases ht : s.cfg.budgets.tData < a.env.now - t0
  · refine .inl ⟨ht, ?_⟩
    unfold dataLoop
    simp only [hA, ha, if_pos ht]
  · refine .inr ⟨Nat.le_of_not_lt ht, _, _, rfl, rfl, ?_⟩
    have hd : (regRead .eis a).2.cfg = s.cfg := (regRead_cfg _ _).trans ha
    by_cases he : (regRead .eis a).1 = 0
    · refine .inr ⟨he, _, _, _, rfl, rfl, rfl, ?_⟩
      have hg : (regRead .nis (regRead .eis a).2).2.cfg = s.cfg := (regRead_cfg _ _).trans hd
      have hb : (if hasBit (regRead .nis (regRead .eis a).2).1 s.cfg.irq.dma then
          (dmaAck (regRead .nis (regRead .eis a).2).2).2 else (regRead .nis (regRead .eis a).2).2).cfg = s.cfg := by
        split
        · exact (Runs.dmaAck _).cfg.trans hg
        · exact hg
      have hl : dataLoop t0 (n + 1) s =
          (if hasBit (regRead .nis (regRead .eis a).2).1 s.cfg.irq.brr then
            succeed .idle (regWrite .nis s.cfg.irq.brr (if hasBit (regRead .nis (regRead .eis a).2).1 s.cfg.irq.dma then
              (dmaAck (regRead .nis (regRead .eis a).2).2).2 else (regRead .nis (regRead .eis a).2).2))
          else if hasBit (regRead .nis (regRead .eis a).2).1 s.cfg.irq.tc then
            succeed .idle (regWrite .nis s.cfg.irq.tc (if hasBit (regRead .nis (regRead .eis a).2).1 s.cfg.irq.dma then
              (dmaAck (regRead .nis (regRead .eis a).2).2).2 else (regRead .nis (regRead .eis a).2).2))
          else dataLoop t0 n (if hasBit (regRead .nis (regRead .eis a).2).1 s.cfg.irq.dma then
              (dmaAck (regRead .nis (regRead .eis a).2).2).2 else (regRead .nis (regRead .eis a).2).2)) := by
        conv_lhs => unfold dataLoop
        simp only [hA, ha, if_neg ht, he, bne_self_eq_false, Bool.false_eq_true, if_false, hg]
        rw [hb]
      rw [hl]
      cases k : hasBit (regRead .nis (regRead .eis a).2).1 s.cfg.irq.brr
      · cases j : hasBit (regRead .nis (regRead .eis a).2).1 s.cfg.irq.tc
        · exact .inr (.inr ⟨rfl, rfl, rfl⟩)
        · exact .inr (.inl ⟨rfl, rfl, _, rfl, rfl⟩)
      · exact .inl ⟨rfl, _, rfl, rfl⟩
    · refine .inl ⟨he, _, rfl, ?_⟩
      unfold dataLoop
      simp only [hA, ha, if_neg ht, bne_iff_ne, ne_eq, he, not_false_eq_true, if_true]

/-- WAIT_CMD: the top-level wait, then the branch the descriptor selects (R142, R143). -/
theorem runWaitCmd_cases (c : Descriptor) (s : State) :
    ∃ a, a = (poll .nis (fun v => v != 0) s.cfg.budgets.tCmd s).2 ∧
    (((poll .nis (fun v => v != 0) s.cfg.budgets.tCmd s).1 = none ∧
        runWaitCmd c s = .next (failWith .cmdTimeout [] a)) ∨
     (∃ n, (poll .nis (fun v => v != 0) s.cfg.budgets.tCmd s).1 = some n ∧
        ((c.bootEn = true ∧ runWaitCmd c s = .next (waitBoot n a)) ∨
         (c.bootEn = false ∧ c.dataXfer = true ∧ runWaitCmd c s = .next (waitData a)) ∨
         (c.bootEn = false ∧ c.dataXfer = false ∧ runWaitCmd c s = waitNonData c n a)))) := by
  refine ⟨_, rfl, ?_⟩
  unfold runWaitCmd
  dsimp only
  generalize poll .nis (fun v => v != 0) s.cfg.budgets.tCmd s = r
  obtain ⟨o, a⟩ := r
  cases o with
  | none => exact .inl ⟨rfl, rfl⟩
  | some n =>
    refine .inr ⟨n, rfl, ?_⟩
    cases hb : c.bootEn
    · cases hd : c.dataXfer
      · exact .inr (.inr ⟨rfl, rfl, rfl⟩)
      · exact .inr (.inl ⟨rfl, rfl, rfl⟩)
    · exact .inl ⟨rfl, rfl⟩

/-! ### When `exec` answers a next state -/

theorem exec_init_next {s t : State} (h : exec .init s = .next t) : t = runInit s :=
  (Host.Outcome.next.inj h).symm

theorem exec_bootStop_next {s t : State} (h : exec .bootStop s = .next t) : t = runBootStop s :=
  (Host.Outcome.next.inj h).symm

theorem exec_bootWait_next {s t : State} (h : exec .bootWait s = .next t) :
    t = runBootWait s ∧ s.seq = .streaming := by
  simp only [exec, execBootWait] at h
  split at h
  · exact ⟨(Host.Outcome.next.inj h).symm, ‹_›⟩
  · cases h

theorem exec_setMode_next {m : ModeRec} {s t : State} (h : exec (.setMode m) s = .next t) :
    t = runSetMode m s ∧ s.seq = .idle ∧ m.widthOk = true ∧ m.timingOk s.cfg = true := by
  simp only [exec, execSetMode] at h
  split at h
  · cases h
  · split at h
    · cases h
    · split at h
      · exact ⟨(Host.Outcome.next.inj h).symm, ‹_›, by simp_all, by simp_all⟩
      · cases h

theorem exec_sendCmd_next {c : Descriptor} {s t : State} (h : exec (.sendCmd c) s = .next t) :
    t = runSendCmd c s ∧ s.seq = .idle ∧ s.h.ready = true ∧ c.wf = true := by
  simp only [exec, execSendCmd] at h
  split at h
  · cases h
  · split at h
    · next hq => exact ⟨(Host.Outcome.next.inj h).symm, hq.1, hq.2, by simp_all⟩
    · cases h

theorem exec_waitCmd_run {c : Descriptor} {s : State} (hc : c.wf = true) (hq : s.seq = .issued)
    (hs : s.sent = some c) : exec (.waitCmd c) s = runWaitCmd c s := by
  simp [exec, execWaitCmd, hc, hq, hs]

theorem exec_waitCmd_next {c : Descriptor} {s t : State} (h : exec (.waitCmd c) s = .next t) :
    runWaitCmd c s = .next t ∧ s.seq = .issued ∧ s.sent = some c ∧ c.wf = true := by
  simp only [exec, execWaitCmd] at h
  split at h
  · cases h
  · split at h
    · next hq => exact ⟨h, hq.1, hq.2, by simp_all⟩
    · cases h

end Sys2Proof.Machine
end

