-- ==== Sys2Proof/Laws/PerInstr.lean ====
section
/-! SUPPORT. Statements made per instruction. `OpcodeRow`: the encoding of every well-formed instruction
agrees with its row of the opcode table (R85, R108). -/

namespace Sys2Proof.Laws.OpcodeRow

/-- The op code of a request's row (R85), or the match value of a command word's row (R108). -/
def rowMatch : Instr → Nat
  | .init => 0
  | .sendCmd _ => 1
  | .waitCmd _ => 2
  | .bootWait => 3
  | .bootStop => 4
  | .setMode _ => 5
  | .cmdwRespNone _ _ => 0
  | .cmdwResp136 _ _ => 1
  | .cmdwResp48 _ _ => 2
  | .cmdwResp48b _ _ => 3

/-- A request word's three low bits are its op code; a command word under mask 0xC007 is its row's match
value. -/
def Statement (i : Instr) : Prop :=
  i.wf cfgRef = true →
    match encode cfgRef i with
    | .request w => w.toNat % 8 = rowMatch i
    | .command w => w &&& 0xC007 = BitVec.ofNat 32 (rowMatch i)

theorem low3 (k n : Nat) (hk : k < 8) (hn : n % 8 = 0) : (BitVec.ofNat 128 (k + n)).toNat % 8 = k := by
  simp only [BitVec.toNat_ofNat]
  omega

theorem descriptor_low (c : Descriptor) : encodeDescriptor c % 8 = 0 := by
  unfold encodeDescriptor
  omega

theorem mode_low (m : ModeRec) : encodeMode m % 8 = 0 := by
  unfold encodeMode
  omega

theorem init : Statement .init := fun _ => rfl
theorem sendCmd (c : Descriptor) : Statement (.sendCmd c) := fun _ =>
  low3 1 _ (by decide) (descriptor_low c)
theorem waitCmd (c : Descriptor) : Statement (.waitCmd c) := fun _ =>
  low3 2 _ (by decide) (descriptor_low c)
theorem bootWait : Statement .bootWait := fun _ => rfl
theorem bootStop : Statement .bootStop := fun _ => rfl
theorem setMode (m : ModeRec) : Statement (.setMode m) := fun _ => low3 5 _ (by decide) (mode_low m)

theorem command_row (code : Word) (hc : code &&& 0xC007 = code)
    (i : BitVec 6) (d : BitVec 16) (hd : directOk cfgRef d = true) :
    encodeCommand cfgRef code i d &&& 0xC007 = code := by
  simp only [directOk, beq_iff_eq] at hd
  have hdir : d.setWidth 32 &&& 0xC007 = 0 := by
    rw [← hd, BitVec.and_assoc]
    show _ &&& ((0x00F8 : Word) &&& 0xC007) = 0
    simp
  have hidx : (i.setWidth 32 <<< (8 : Nat) : Word) &&& 0xC007 = 0 := by
    revert i; decide
  have hm : (mask 16 : Word) = 0xFFFF := by decide
  unfold encodeCommand trunc
  show (code ||| d.setWidth 32 ||| (i.setWidth 32 <<< (8 : Nat))) &&& mask 16 &&& 0xC007 = code
  rw [hm, BitVec.and_assoc]
  show _ &&& ((0xFFFF : Word) &&& 0xC007) = code
  rw [show (0xFFFF : Word) &&& 0xC007 = 0xC007 by decide, BitVec.and_comm, BitVec.and_or_distrib_left,
    BitVec.and_or_distrib_left, BitVec.and_comm, hc, BitVec.and_comm, hdir, BitVec.and_comm, hidx]
  simp

theorem cmdwRespNone (i : BitVec 6) (d : BitVec 16) : Statement (.cmdwRespNone i d) :=
  command_row 0 (by decide) i d
theorem cmdwResp136 (i : BitVec 6) (d : BitVec 16) : Statement (.cmdwResp136 i d) :=
  command_row 1 (by decide) i d
theorem cmdwResp48 (i : BitVec 6) (d : BitVec 16) : Statement (.cmdwResp48 i d) :=
  command_row 2 (by decide) i d
theorem cmdwResp48b (i : BitVec 6) (d : BitVec 16) : Statement (.cmdwResp48b i d) :=
  command_row 3 (by decide) i d

end Sys2Proof.Laws.OpcodeRow
end

