-- ==== Sys2Proof/Tests/Slice0.lean ====
section
/-! SUPPORT. The model's own tests: the well-formedness smoke tests, words written out from the spec's
encodings, vectors of `spec/95_test_vectors.md` (named in each docstring), and for every statement with
hypotheses a state and operands that meet them. -/

set_option maxRecDepth 20000

namespace Sys2Proof.Tests

open Sys2Proof Sys2Proof.Machine

/-! ### Small states -/

/-- A step that answers a next state with property `p`. -/
def nextHas (o : Host.Outcome State Fault Refusal) (p : State → Bool) : Bool :=
  match o with
  | .next t => p t
  | .fault _ => false
  | .refused _ => false

theorem exists_next {o : Host.Outcome State Fault Refusal} {p : State → Prop} [DecidablePred p]
    (h : nextHas o (fun t => decide (p t)) = true) : ∃ t, o = .next t ∧ p t := by
  cases o with
  | next t => exact ⟨t, rfl, by simpa [nextHas] using h⟩
  | fault f => simp [nextHas] at h
  | refused r => simp [nextHas] at h

/-- What HW does before each of the next accesses, nothing from then on for a while; one microsecond
passes at each sample. -/
def scripted (evs : List (List HwEvent)) (s : State) : State :=
  { s with env := ⟨evs ++ List.replicate 30 [], List.replicate 40 1, 0, 0, 0⟩ }

/-- As `scripted`, but more time than any budget passes before the `n`-th sample. -/
def late (n : Nat) (s : State) : State :=
  { scripted [] s with
    env := ⟨List.replicate 30 [], List.replicate n 1 ++ [5000000] ++ List.replicate 10 1, 0, 0, 0⟩ }

/-- The first wait ends late, and the reset of the recovery ends at its first read. -/
def lateReset (s : State) : State :=
  { s with env := ⟨[[], [.resetEnds 6 (Registers.zero cfgRef) 0], [], [], []], [0, 5000000, 1, 1, 1, 1], 0, 0, 0⟩ }

/-- The handle just created, its trace emptied. -/
def fresh : State := { State.reset with trace := [] }

/-- The end state of program P1, as far as the tests need it. -/
def ready : State :=
  { fresh with
    h := { fresh.h with ready := true, voltage := .v18 }
    rb := { fresh.rb with pwrctl := 0x0B, clkctl := 0xFA07, timeoutctl := 0x0E, nie := 0xFFFF, eie := 0xFFFF }
    hid := { fresh.hid with powered := true } }

/-- A command outstanding. -/
def waiting (c : Descriptor) : State := { ready with seq := .issued, sent := some c }

def streaming : State := { ready with seq := .streaming }

/-- The descriptor of V-SEND-1, with a response length. -/
def plain (len : BitVec 8) : Descriptor :=
  ⟨13, 0x00010000, false, false, false, false, false, len, 0x18, 0, 0⟩

/-- The descriptor of V-SEND-2. -/
def dataRead : Descriptor := ⟨18, 0x00002000, true, true, true, false, false, 32, 0x38, 4, 0x10000000⟩

/-- The descriptor of V-SEND-4. -/
def bootRead : Descriptor := ⟨0, 0xFFFFFFFA, false, true, true, true, false, 0, 0x20, 16, 0x20000000⟩

/-- A transfer in flight with its command complete: what has been latched, the blocks left for the buffer
port, the engine. -/
def carrying (x : XferLatch) (port : Nat) (d : Option DmaEngine) (s : State) : State :=
  { s with hid := { s.hid with
      cmd := some ⟨0x123A, 18, .r48, 0, 0x0E, some x, port, 0x0E, true, true, false⟩
      dma := d } }

/-- A DMA transfer in flight: block size register, transfer mode, engine. -/
def moving (blksize xfermode : Word) (d : DmaEngine) (s : State) : State :=
  carrying ⟨blksize, 4, xfermode, d.pos, false, false⟩ 0 (some d) s

/-- A boot stream of one 512-byte block, boot mode on: V-SEND-4's registers. -/
def bootMoving (d : DmaEngine) (s : State) : State :=
  carrying ⟨0x0200, 1, 0x11, d.pos, true, true⟩ 0 (some d) { s with rb := { s.rb with bgc := 0xA0 } }

/-! ### Well-formedness: an ill-formed term for each check -/

theorem test_wf_reference : cfgRef.wf = true := by decide

theorem test_wf_layout_overlap :
    Config.layoutOk { cfgRef with regs := { cfgRefRegs with blkcnt := ⟨0x04, 16⟩ } } = false := by decide

theorem test_wf_layout_misaligned :
    Config.layoutOk { cfgRef with regs := { cfgRefRegs with boottimeout := ⟨0x72, 32⟩ } } = false := by decide

theorem test_wf_layout_width :
    Config.layoutOk { cfgRef with regs := { cfgRefRegs with pwrctl := ⟨0x29, 4⟩ } } = false := by decide

/-- The access widths and counts of R7. -/
theorem test_wf_shape :
    Config.shapeOk { cfgRef with shape := { cfgRef.shape with accessWidths := [8, 16, 64] } } = false ∧
    Config.shapeOk { cfgRef with shape := { cfgRef.shape with nResp := 3 } } = false ∧
    Config.shapeOk { cfgRef with shape := { cfgRef.shape with nOps := 5 } } = false ∧
    Config.layoutOk { cfgRef with shape := { cfgRef.shape with accessWidths := [16, 32] } } = false := by decide

/-- Two voltage bits on one bit; a mask of two bits; a mask inside the base-clock field, and the same mask
in the other capability word. -/
theorem test_wf_capabilities :
    Config.capOk { cfgRef with cap := { cfgRef.cap with v30 := ⟨false, 0x04000000⟩ } } = false ∧
    Config.capOk { cfgRef with cap := { cfgRef.cap with v30 := ⟨false, 0x03000000⟩ } } = false ∧
    Config.capOk { cfgRef with cap := { cfgRef.cap with v30 := ⟨false, 0x00000100⟩ } } = false ∧
    Config.capOk { cfgRef with cap := { cfgRef.cap with v30 := ⟨true, 0x00000100⟩ } } = true := by decide

theorem test_wf_reset_masks :
    Config.resetOk { cfgRef with reset := ⟨1, 2, 2⟩ } = false ∧
    Config.resetOk { cfgRef with reset := ⟨1, 0, 4⟩ } = false := by decide

theorem test_wf_power : Config.powerOk { cfgRef with power := ⟨0x02, 0x0A, 0x0C, 0x0E⟩ } = false := by decide

theorem test_wf_clock_flags :
    Config.clockOk { cfgRef with clock := { cfgRef.clock with stable := 1 } } = false ∧
    Config.clockOk { cfgRef with clock := { cfgRef.clock with maxDivisor := 2045 } } = false := by decide

theorem test_wf_divisor_not_injective :
    Config.clockOk { cfgRef with clock := { cfgRef.clock with encodeDiv := .table [0, 0x100, 0x100], maxDivisor := 4 } }
      = false ∧
    Config.clockOk { cfgRef with clock := { cfgRef.clock with encodeDiv := .fields [⟨0, 8, 8⟩] } } = false := by
  decide

theorem test_wf_divisor_over_flags :
    Config.clockOk { cfgRef with clock := { cfgRef.clock with encodeDiv := .fields [⟨0, 8, 8⟩, ⟨8, 2, 1⟩] } }
      = false := by decide

theorem test_wf_interrupt_flags :
    Config.irqOk { cfgRef with irq := { cfgRef.irq with tc := 1 } } = false ∧
    Config.irqOk { cfgRef with irq := { cfgRef.irq with tc := 6 } } = false := by decide

theorem test_wf_command_classes :
    Config.cmdOk { cfgRef with cmd := { cfgRef.cmd with resp48b := 2 } } = false ∧
    Config.cmdOk { cfgRef with cmd := { cfgRef.cmd with directMask := 0x01F8 } } = false ∧
    Config.cmdOk { cfgRef with cmd := { cfgRef.cmd with directMask := 0x00F9 } } = false := by decide

theorem test_wf_fields :
    Config.fieldsOk { cfgRef with host := { cfgRef.host with w8 := 2 } } = false ∧
    Config.fieldsOk { cfgRef with host := { cfgRef.host with uhsMask := 5 } } = false ∧
    Config.fieldsOk { cfgRef with xfer := { cfgRef.xfer with dma := 0x10 } } = false ∧
    Config.fieldsOk { cfgRef with boot := { cfgRef.boot with bgcAck := 0x20 } } = false ∧
    Config.fieldsOk { cfgRef with blk := { cfgRef.blk with bndUnit := 0 } } = false ∧
    Config.fieldsOk { cfgRef with blk := { cfgRef.blk with bndUnit := 12288 } } = false := by decide

/-- V-ENC-12, V-MODE-6, V-MODE-7, and direct bits outside `DIRECT_MASK`. -/
theorem test_wf_operands :
    Instr.wf cfgRef (.sendCmd { plain 32 with index := 64 }) = false ∧
    Instr.wf cfgRef (.waitCmd { plain 32 with index := 64 }) = false ∧
    Instr.wf cfgRef (.setMode ⟨52000, 1, 2⟩) = false ∧
    Instr.wf cfgRef (.setMode ⟨52000, 9, 8⟩) = false ∧
    Instr.wf cfgRef (.cmdwRespNone 0 1) = false ∧ Instr.wf cfgRef (.cmdwResp136 0 4) = false ∧
    Instr.wf cfgRef (.cmdwResp48 0 0x100) = false ∧ Instr.wf cfgRef (.cmdwResp48b 0 2) = false := by decide

/-! ### Decoding -/

/-- R85: op codes in the table's order. -/
theorem test_decode_requests :
    decodeTableWord 8 0b000 = some .init ∧ decodeTableWord 8 0b011 = some .bootWait ∧
    decodeTableWord 8 0b100 = some .bootStop ∧ decodeTableWord 8 0b110 = none ∧
    decodeTableWord 8 0b111 = none := by decide

/-- The operands of V-SEND-2 in the model's request layout (log entry 4), low bits last. -/
theorem test_decode_send :
    decodeRequest cfgRef
      (0x10000000#32 ++ 4#16 ++ 0x38#16 ++ 32#8 ++ 0b00000111#8 ++ 0x2000#32 ++ 18#8 ++ 0b00000001#8)
      = .ok (.sendCmd dataRead) := by decide

/-- The operands of V-SEND-4; busy is bit 52, boot-enable bit 51. -/
theorem test_decode_wait :
    decodeRequest cfgRef
      (0x20000000#32 ++ 16#16 ++ 0x20#16 ++ 0#8 ++ 0b00001110#8 ++ 0xFFFFFFFA#32 ++ 0#8 ++ 0b00000010#8)
      = .ok (.waitCmd bootRead) := by decide

/-- The operands of V-MODE-1. -/
theorem test_decode_set_mode :
    decodeRequest cfgRef (0#48 ++ 7#8 ++ 1#32 ++ 52000#32 ++ 0b00000101#8) =
      .ok (.setMode ⟨52000, 1, 8⟩) := by decide

/-- V-ENC-12, V-MODE-6, V-MODE-7 as request words. -/
theorem test_decode_refused :
    decodeRequest cfgRef (0#112 ++ 64#8 ++ 0b00000001#8) = .error .index ∧
    decodeRequest cfgRef (0#48 ++ 7#8 ++ 9#32 ++ 52000#32 ++ 0b00000101#8) = .error .timing ∧
    decodeRequest cfgRef (0#48 ++ 1#8 ++ 1#32 ++ 52000#32 ++ 0b00000101#8) = .error .width := by decide

/-- Format CMDW of R89, `00 iiiiii tt d x c 0 rr`: V-ENC-9, V-ENC-11, V-ENC-5, V-ENC-10. -/
theorem test_decode_command_words :
    decodeCommand cfgRef 0b0000010100000000 = .ok (.cmdwRespNone 5 0) ∧
    decodeCommand cfgRef 0b0011111111111001 = .ok (.cmdwResp136 63 0xF8) ∧
    decodeCommand cfgRef 0b0001001000111010 = .ok (.cmdwResp48 18 0x38) ∧
    decodeCommand cfgRef 0b0000110011011011 = .ok (.cmdwResp48b 12 0xD8) := by decide

/-- The table's mask 0xC007: bits 15, 14 and 2 set make none of the four classes. -/
theorem test_decode_reserved_class :
    decodeCommand cfgRef 0x8000 = .error .reservedClass ∧ decodeCommand cfgRef 0x4001 = .error .reservedClass ∧
    decodeCommand cfgRef 0x0004 = .error .reservedClass := by decide

/-! ### The words SEQ assembles -/

/-- V-ENC-1 to V-ENC-8. -/
theorem test_command_words :
    cmdWord cfgRef ⟨0, 0, false, false, false, false, false, 0, 0, 0, 0⟩ = 0x0000 ∧
    cmdWord cfgRef ⟨2, 0, false, false, false, false, false, 128, 0x08, 0, 0⟩ = 0x0209 ∧
    cmdWord cfgRef (plain 32) = 0x0D1A ∧
    cmdWord cfgRef ⟨6, 0, false, false, false, false, true, 32, 0x18, 0, 0⟩ = 0x061B ∧
    cmdWord cfgRef dataRead = 0x123A ∧
    cmdWord cfgRef ⟨8, 0, false, false, false, false, false, 48, 0x18, 0, 0⟩ = 0x0818 ∧
    cmdWord cfgRef ⟨8, 0, false, false, false, false, true, 48, 0x1F, 0, 0⟩ = 0x0818 ∧
    cmdWord cfgRef ⟨1, 0, false, false, false, false, false, 64, 0, 0, 0⟩ = 0x0100 := by decide

/-- V-ENC-9 to V-ENC-11. -/
theorem test_command_words_corners :
    cmdWord cfgRef ⟨5, 0, false, false, false, false, true, 0, 0, 0, 0⟩ = 0x0500 ∧
    cmdWord cfgRef ⟨12, 0, false, false, false, false, true, 32, 0xD8, 0, 0⟩ = 0x0CDB ∧
    cmdWord cfgRef ⟨63, 0, false, false, false, false, false, 128, 0xFFFF, 0, 0⟩ = 0x3FF9 := by decide

/-- V-TM-1 to V-TM-8, by read, dma and block count. -/
theorem test_transfer_mode_words :
    let tm := fun r d n => xferWord cfgRef ⟨18, 0, true, r, d, false, false, 32, 0, n, 0⟩
    tm true true 4 = 0x37 ∧ tm true true 1 = 0x11 ∧ tm false true 4 = 0x27 ∧ tm false false 1 = 0 ∧
    tm true false 1 = 0x10 ∧ tm true true 0 = 0x11 ∧ tm true true 2 = 0x37 ∧ tm false false 65535 = 0x26 := by
  decide

/-- V-BS-1, V-BS-2, V-PWR-1 to V-PWR-4. -/
theorem test_block_size_and_power_words :
    blkSizeWord cfgRef dataRead = 0x7200 ∧ blkSizeWord cfgRef bootRead = 0x0200 ∧
    pwrWord cfgRef .v18 = some 0x0B ∧ pwrWord cfgRef .v30 = some 0x0D ∧ pwrWord cfgRef .v33 = some 0x0F ∧
    pwrWord cfgRef .none = none := by decide

/-- V-DIV-2, 3, 6 to 9, 13. -/
theorem test_divisors :
    divisor cfgRef 200000 25000 = 8 ∧ divisor cfgRef 200000 26000 = 8 ∧ divisor cfgRef 200000 100000 = 2 ∧
    divisor cfgRef 200000 200000 = 1 ∧ divisor cfgRef 200000 300000 = 1 ∧ divisor cfgRef 200000 199999 = 2 ∧
    divisor cfgRef 101 50 = 4 ∧
    divisor { cfgRef with clock := { cfgRef.clock with divFloor := true } } 101 50 = 2 := by decide

/-- V-DIV-1, V-DIV-11, V-DIV-14, V-DIV-15: long scans. -/
theorem test_divisors_long :
    divisor cfgRef 200000 400 = 500 ∧ divisor cfgRef 200000 97 = 2046 ∧ divisor cfgRef 50000 400 = 126 ∧
    divisor cfgRef 255000 400 = 638 ∧
    divisor { cfgRef with clock := { cfgRef.clock with divFloor := true } } 255000 400 = 636 := by decide

/-- V-DIV-1, 10, 12, 14, 15: the first clock write. -/
theorem test_clock_words :
    clkWord1 cfgRef 500 = 0xFA01 ∧ clkWord1 cfgRef 2000 = 0xE8C1 ∧ clkWord1 cfgRef 2042 = 0xFDC1 ∧
    clkWord1 cfgRef 126 = 0x3F01 ∧ clkWord1 cfgRef 638 = 0x3F41 ∧ clkWord1 cfgRef 1 = 0x0001 := by decide

/-- V-MODE-1 to V-MODE-4: HC2 and HC, and V-MODE-2 under `HS_CLEAR_ON_LOW`. -/
theorem test_mode_words :
    hc2Word cfgRef ⟨52000, 1, 8⟩ 0x0008 = 0x0009 ∧ hcWord cfgRef ⟨52000, 1, 8⟩ 0x00 = 0x24 ∧
    hc2Word cfgRef ⟨25000, 0, 4⟩ 0x0009 = 0x0008 ∧ hcWord cfgRef ⟨25000, 0, 4⟩ 0x24 = 0x06 ∧
    hcWord cfgRef ⟨25001, 0, 1⟩ 0x02 = 0x04 ∧
    hc2Word cfgRef ⟨400, 3, 1⟩ 0xFFFF = 0xFFFB ∧ hcWord cfgRef ⟨400, 3, 1⟩ 0xFF = 0xDD ∧
    hcWord { cfgRef with host := { cfgRef.host with hsClearOnLow := true } } ⟨25000, 0, 4⟩ 0x24 = 0x02 := by
  decide

/-- V-INIT-2 to V-INIT-5: the voltage by capability word. -/
theorem test_voltage :
    let pick := fun w => selectVoltage cfgRef
      { fresh.h with cap := discoveredCaps { cfgRef with cap := { cfgRef.cap with cap0 := w } } }
    pick 0x0700C800 = .v18 ∧ pick 0x0300C800 = .v30 ∧ pick 0x0100C800 = .v33 ∧ pick 0x0500C800 = .v18 ∧
    pick 0x0000C800 = .none ∧ selectVoltage cfgRef { fresh.h with voltage := .v33 } = .v33 := by decide

/-- V-RSP-2, V-RSP-3, V-RSP-5, V-RSP-6. -/
theorem test_reassembly :
    reassemble 0xFF000000 0 0 0 = ⟨0, 0, 0, 0⟩ ∧ reassemble 0 0 0 0x000000FF = ⟨0, 0, 0, 0x0000FF00⟩ ∧
    reassemble 0x12345678 0x9ABCDEF0 0x0FEDCBA9 0x87654321 =
      ⟨0x3456789A, 0xBCDEF00F, 0xEDCBA987, 0x65432100⟩ ∧
    reassemble 0x00012345 0x6789ABCD 0xEFFEDCBA 0x98765432 =
      ⟨0x01234567, 0x89ABCDEF, 0xFEDCBA98, 0x76543200⟩ := by decide

/-- V-W1C-1. -/
theorem test_write_one_to_clear :
    let s := { fresh with rb := { fresh.rb with nis := 0x8003 } }
    (s.clearNis 0x0001).rb.nis = 0x8002 ∧ (s.clearNis 0).rb.nis = 0x8003 ∧ (s.clearNis 0xFFFF).rb.nis = 0 := by
  decide

/-- V-POLL-1, V-POLL-2, V-POLL-3: at the budget the register is read; past it, it is not. -/
theorem test_poll_boundary :
    let s := fun dt => { fresh with
      rb := { fresh.rb with nis := 1 }, env := ⟨List.replicate 5 [], [1000, dt, 1], 0, 0, 0⟩ }
    (poll .nis (fun v => v != 0) 100000 (s 100000)).1 = some 1 ∧
    (poll .nis (fun v => v != 0) 100000 (s 100000)).2.trace = [.read .nis 1] ∧
    (poll .nis (fun v => v != 0) 100000 (s 100001)).1 = none ∧
    (poll .nis (fun v => v != 0) 100000 (s 100001)).2.trace = [] := by decide

/-! ### One step of each instruction -/

/-- Program P1: trace and end state. -/
theorem test_init_bring_up :
    nextHas (exec .init (scripted
      [[], [], [], [.resetEnds 1 (Registers.zero cfgRef) 0], [], [], [], [], [.clock true]] fresh))
      (fun t => t.trace =
        [.write .swreset 0x01, .read .swreset 0x01, .read .swreset 0x01, .read .swreset 0x00] ++
        [.write .pwrctl 0x00, .write .pwrctl 0x0B, .write .clkctl 0xFA01, .read .clkctl 0xFA01,
         .read .clkctl 0xFA03, .write .clkctl 0xFA07, .write .timeoutctl 0x0E] ++
        [.write .nis 0xFFFF, .write .eis 0xFFFF, .write .nie 0xFFFF, .write .eie 0xFFFF] ∧
        t.reply = .ok ∧ t.h.voltage = .v18 ∧ t.h.ready = true ∧ t.seq = .idle ∧ t.rb.pwrctl = 0x0B ∧
        t.rb.clkctl = 0xFA07 ∧ t.rb.nie = 0xFFFF) = true := by decide

/-- V-INIT-6: the reset never ends. -/
theorem test_init_reset_timeout :
    nextHas (exec .init (late 3 fresh))
      (fun t => t.trace = [.write .swreset 0x01, .read .swreset 0x01, .read .swreset 0x01] ∧ t.reply = .fail ∧
        t.log = [⟨.resetTimeout, [1]⟩] ∧ t.h.ready = false ∧ t.h.voltage = .none) = true := by decide

/-- V-MODE-1. -/
theorem test_set_mode :
    nextHas (exec (.setMode ⟨52000, 1, 8⟩)
      (scripted [[], [.clock true]] { ready with rb := { ready.rb with hc2 := 0x0008 } }))
      (fun t => t.trace =
        [.write .clkctl 0x0201, .read .clkctl 0x0203, .write .clkctl 0x0207, .read .hc2 0x0008,
         .write .hc2 0x0009, .read .hc 0x00, .write .hc 0x24] ∧ t.reply = .ok) = true := by decide

/-- V-MODE-5: the clock never becomes stable. -/
theorem test_set_mode_clock_timeout :
    nextHas (exec (.setMode ⟨52000, 1, 8⟩) (late 1 { ready with rb := { ready.rb with clkctl := 0xFA05 } }))
      (fun t => t.trace = [.write .clkctl 0x0201] ∧ t.reply = .fail ∧ t.rb.clkctl = 0x0201 ∧
        t.log = [⟨.clockTimeout, []⟩]) = true := by decide

/-- V-SEND-2. -/
theorem test_send_data :
    nextHas (exec (.sendCmd dataRead) (scripted [] ready))
      (fun t => t.trace =
        [.write .nis 0xFFFF, .write .blkcnt 4, .write .dmaaddr 0x10000000, .write .blksize 0x7200,
         .write .xfermode 0x37, .write .arg 0x2000, .write .cmd 0x123A] ∧ t.seq = .issued) = true := by decide

/-- V-SEND-4. -/
theorem test_send_boot :
    nextHas (exec (.sendCmd bootRead) (scripted [] ready))
      (fun t => t.trace =
        [.write .nis 0xFFFF, .write .blkcnt 16, .write .dmaaddr 0x20000000, .write .blksize 0x0200,
         .write .xfermode 0x37, .write .boottimeout 0xFFFFFFFF, .read .bgc 0, .write .bgc 0xA0,
         .write .arg 0xFFFFFFFA, .write .cmd 0x0020] ∧ t.hid.bootArmed = true) = true := by decide

/-- V-WAIT-2: a 136-bit response. -/
theorem test_wait_long_response :
    nextHas (exec (.waitCmd (plain 128)) (scripted [[.flags 0x0001 0]] { waiting (plain 128) with
      rb := { ready.rb with resp3 := 0x00001122, resp2 := 0x33445566, resp1 := 0x778899AA, resp0 := 0xBBCCDDEE } }))
      (fun t => t.trace =
        [.read .nis 1, .read .resp3 0x00001122, .read .resp2 0x33445566, .read .resp1 0x778899AA,
         .read .resp0 0xBBCCDDEE, .write .nis 1] ∧
        t.respBuf = ⟨0x00112233, 0x44556677, 0x8899AABB, 0xCCDDEE00⟩ ∧ t.reply = .ok ∧ t.seq = .idle) = true := by
  decide

/-- V-WAIT-14, V-WAIT-18: a DMA acknowledge, then buffer-read-ready before transfer-complete. -/
theorem test_wait_data :
    nextHas (exec (.waitCmd dataRead) (scripted [[.flags 0x0001 0], [], [.flags 0x0008 0], [], [], [], [],
        [.flags 0x0022 0]] { waiting dataRead with rb := { ready.rb with dmaaddr := 0x10080000 } }))
      (fun t => t.trace =
        [.read .nis 0x0001, .read .eis 0, .read .nis 0x0009, .read .dmaaddr 0x10080000,
         .write .dmaaddr 0x10080000, .write .nis 0x0008, .read .eis 0, .read .nis 0x0023, .write .nis 0x0020] ∧
        t.reply = .ok ∧ t.rb.nis = 0x0003) = true := by decide

/-- V-BOOT-4: both flags in one read. -/
theorem test_boot_wait_both :
    nextHas (exec .bootWait (scripted [] { streaming with
      rb := { ready.rb with nis := 0x4008, dmaaddr := 0x20002000 } }))
      (fun t => t.trace =
        [.read .nis 0x4008, .read .dmaaddr 0x20002000, .write .dmaaddr 0x20002000, .write .nis 0x0008] ∧
        t.reply = .boot true (some 0x20002000) ∧ t.rb.nis = 0x4000) = true := by decide

/-- V-BOOT-1 and V-BOOT-7. -/
theorem test_boot_wait_neither :
    nextHas (exec .bootWait (scripted [] streaming))
      (fun t => t.trace = [.read .nis 0] ∧ t.reply = .boot false none) = true ∧
    (match exec .bootWait ready with | .refused .sequence => true | _ => false) = true := by decide

/-- V-BOOT-5, first run. -/
theorem test_boot_stop :
    nextHas (exec .bootStop (scripted [[], [], [], [], [], [.resetEnds 6 (Registers.zero cfgRef) 0]]
      { streaming with rb := { ready.rb with bgc := 0xA0, nis := 0x4000 } }))
      (fun t => t.trace =
        [.read .bgc 0xA0, .write .bgc 0x80, .write .nis 0xFFFF, .write .eis 0xFFFF, .write .swreset 0x06,
         .read .swreset 0] ∧ t.seq = .idle ∧ t.rb.nis = 0 ∧ t.rb.bgc = 0x80) = true := by decide

/-- V-BOOT-6: the reset never ends. -/
theorem test_boot_stop_reset_timeout :
    nextHas (exec .bootStop (late 1 streaming))
      (fun t => t.log = [⟨.resetTimeout, [6]⟩] ∧ t.seq = .idle ∧ t.reply = .none) = true := by decide

/-- R171: class none with the data-present bit clear latches no transfer. -/
theorem test_engine_none :
    nextHas (exec (.cmdwRespNone 5 0) { ready with rb := { ready.rb with arg := 7, cmd := 0x0500 } })
      (fun t => t.hid.cmd = some ⟨0x0500, 5, .none, 7, 0x0E, none, 0, 0x0E, false, false, false⟩ ∧ t.hid.dma = none) = true := by
  decide

/-- R171: class 136. -/
theorem test_engine_136 :
    nextHas (exec (.cmdwResp136 2 0x08) ready)
      (fun t => t.hid.cmd = some ⟨0x0209, 2, .r136, 0, 0x0E, none, 0, 0x0E, false, false, false⟩) = true := by decide

/-- R171, R176, R177: V-SEND-2's command, four blocks of 512 bytes. -/
theorem test_engine_48_data :
    nextHas (exec (.cmdwResp48 18 0x38) { ready with
      rb := { ready.rb with blksize := 0x7200, blkcnt := 4, xfermode := 0x37, dmaaddr := 0x10000000 } })
      (fun t => t.hid.cmd = some ⟨0x123A, 18, .r48, 0, 0x0E,
          some ⟨0x7200, 4, 0x37, 0x10000000, false, false⟩, 0, 0x0E, false, false, false⟩ ∧
        t.hid.dma = some ⟨0x10000000, 2048, false, true, []⟩) = true := by decide

/-- R171: class 48B. -/
theorem test_engine_48b :
    nextHas (exec (.cmdwResp48b 6 0x18) ready)
      (fun t => t.hid.cmd = some ⟨0x061B, 6, .r48b, 0, 0x0E, none, 0, 0x0E, false, false, false⟩) = true := by decide

/-- V-SEQ-2, V-SEQ-3. -/
theorem test_refusals :
    (match exec (.sendCmd (plain 32)) fresh with | .refused .sequence => true | _ => false) = true ∧
    (match exec (.sendCmd (plain 32)) streaming with | .refused .sequence => true | _ => false) = true ∧
    (match exec (.waitCmd (plain 32)) ready with | .refused .sequence => true | _ => false) = true ∧
    (match exec (.setMode ⟨400, 0, 1⟩) streaming with | .refused .sequence => true | _ => false) = true ∧
    (match step (fresh.withFetchWord 8 6) with | .refused .opcode => true | _ => false) = true := by decide

/-! ### Witnesses: for every statement with hypotheses, a state and operands that meet them -/

theorem witness_DecodeInvertsEncode :
    cfgRef.wf = true ∧ Instr.wf cfgRef (.sendCmd { bootRead with index := 63 }) = true ∧
    Instr.wf cfgRef (.waitCmd dataRead) = true ∧ Instr.wf cfgRef (.setMode ⟨0xFFFFFFFF, 7, 8⟩) = true ∧
    Instr.wf cfgRef (.setMode ⟨0, 0, 1⟩) = true ∧ Instr.wf cfgRef (.cmdwRespNone 63 0xF8) = true ∧
    Instr.wf cfgRef (.cmdwResp136 0 0) = true ∧ Instr.wf cfgRef (.cmdwResp48 63 0x08) = true ∧
    Instr.wf cfgRef (.cmdwResp48b 0 0x80) = true := by decide

/-- Every response length of R92, at the largest index; recognised and not. -/
theorem witness_CommandWordCarriesItsParts :
    cfgRef.wf = true ∧ cfgRef.recognises 0 = true ∧ cfgRef.recognises 128 = true ∧
    cfgRef.recognises 32 = true ∧ cfgRef.recognises 48 = false ∧
    Config.wf { cfgRef with shape := { cfgRef.shape with respLens := [0, 32, 64] } } = true ∧
    Config.recognises { cfgRef with shape := { cfgRef.shape with respLens := [0, 32, 64] } } 64 = true ∧
    Config.recognises { cfgRef with shape := { cfgRef.shape with respLens := [0, 32, 64] } } 128 = false ∧ ∀ len ∈ [(0 : BitVec 8), 128, 32, 31, 33, 127, 129, 255],
      ({ plain len with index := 63 }).wf = true ∧ ({ plain len with busy := true }).wf = true := by decide

/-- A command written, of a known class and of a reserved one; a request waiting, good and unassigned;
nothing waiting. -/
theorem witness_StepRunsTheDecodedInstruction :
    (fresh.withFetchWord 16 0x0D1A).hid.trigger = true ∧
    decodeCommand cfgRef (fresh.withFetchWord 16 0x0D1A).rb.cmd = .ok (.cmdwResp48 13 0x18) ∧
    (fresh.withFetchWord 16 0x8000).hid.trigger = true ∧
    decodeCommand cfgRef (fresh.withFetchWord 16 0x8000).rb.cmd = .error .reservedClass ∧
    (fresh.withFetchWord 8 5).hid.trigger = false ∧ (fresh.withFetchWord 8 5).port = [5] ∧
    decodeRequest cfgRef 5 = .ok (.setMode ⟨0, 0, 1⟩) ∧ (fresh.withFetchWord 8 7).port = [7] ∧
    decodeRequest cfgRef 7 = .error .opcode ∧ fresh.hid.trigger = false ∧ fresh.port = [] := by decide

theorem witness_PlacedInstructionRuns :
    fresh.cfg.wf = true ∧ Instr.wf fresh.cfg .bootStop = true ∧
    encode fresh.cfg .bootStop = .request 4 ∧ Instr.wf fresh.cfg (.cmdwResp48 13 0x18) = true ∧
    encode fresh.cfg (.cmdwResp48 13 0x18) = .command 0x0D1A := by decide

/-- Both op codes, and one with other bits of the request word set. -/
theorem witness_UnassignedOpcodesRefused :
    (placeRequest 6 fresh).hid.trigger = false ∧ (placeRequest 6 fresh).port = 6 :: [] ∧
    (6 : BitVec 128).toNat % 8 = 6 ∧ (placeRequest 0xFFFF fresh).port = 0xFFFF :: [] ∧
    (0xFFFF : BitVec 128).toNat % 8 = 7 := ⟨rfl, rfl, rfl, rfl, rfl⟩

/-- The first values out of range: index 64, widths 0, 2, 9, timing 8. -/
theorem witness_OutOfRangeOperandsRefused :
    63 < ({ plain 32 with index := 64 } : Descriptor).index.toNat ∧
    (∀ w ∈ [(0 : BitVec 8), 2, 3, 5, 7, 9], w ≠ 1 ∧ w ≠ 4 ∧ w ≠ 8) ∧
    fresh.cfg.host.uhsMask.toNat / 2 ^ fresh.cfg.host.uhsShift < (8 : BitVec 32).toNat := by decide

theorem witness_DivisorEncodingIsInjective :
    cfgRef.wf = true ∧ 1023 ≤ cfgRef.clock.maxDivisor / 2 ∧ 0 ≤ cfgRef.clock.maxDivisor / 2 ∧
    cfgRef.clock.encodeDiv.encode 1023 = cfgRef.clock.encodeDiv.encode 1023 := by decide

theorem witness_HandleCreationLoadsCapabilities :
    cfgRef.wf = true ∧ (0xFFFFFFFC : Addr).toNat % 4 = 0 ∧ (0x1001 : Addr).toNat % 4 ≠ 0 ∧
    Config.wf { cfgRef with reset := ⟨1, 2, 2⟩ } = false := by decide

theorem ready_invariant (s : State) (hb : s.h = ready.h) (hc : s.cfg = cfgRef) (hr : s.rb = ready.rb)
    (hd : s.hid = ready.hid) (hm : s.mem = []) (hq : s.seq = .streaming) (hs : s.sent = none) :
    Invariant s where
  cfgWf := by rw [hc]; decide
  baseOk := by rw [hb]; decide
  caps := by rw [hb, hc]; decide
  cap0 := by rw [hr, hc]; decide
  cap1 := by rw [hr, hc]; decide
  regsFit := by intro x; rw [hr, hc]; cases x <;> decide
  resetBits := by rw [hr, hc]; decide
  memWf := by rw [hm]; decide
  dmaOwned := by
    intro d hd'
    rw [hd] at hd'
    simp [ready, fresh, State.reset, State.created] at hd'
  sentIff := by rw [hq, hs]; decide
  readyOut := by rw [hb]; intro _; decide

/-- A stream being stopped, a request on the port. -/
theorem witness_StepKeepsInvariant :
    Invariant { scripted [] streaming with port := [4] } ∧
    ∃ t, step { scripted [] streaming with port := [4] } = .next t ∧ t.seq = .idle :=
  ⟨ready_invariant _ rfl rfl rfl rfl rfl rfl rfl, exists_next (by decide)⟩

/-- A paused and a running engine at the instant of the access. -/
theorem witness_RegisterAccessesActByClass :
    (hwStep (scripted [] (moving 0x7200 0x37 ⟨0x10080000, 1024, true, true, []⟩ ready))).hid.dma =
      some ⟨0x10080000, 1024, true, true, []⟩ ∧
    (hwStep (scripted [] (moving 0x7200 0x37 ⟨0x10000000, 2048, false, true, []⟩ ready))).hid.dma =
      some ⟨0x10000000, 2048, false, true, []⟩ := by decide

/-- A register's address at another width; an address between registers; a base not aligned. -/
theorem witness_WindowAccessIsRegisterAccess :
    ready.cfg.wf = true ∧
    (∀ x ∈ Reg.all, (0x30 : Addr) = ready.h.base + BitVec.ofNat 64 (ready.cfg.offset x) →
      4 ≠ ready.cfg.width x / 8) ∧
    (∀ x ∈ Reg.all, (0x31 : Addr) ≠ ready.h.base + BitVec.ofNat 64 (ready.cfg.offset x)) ∧
    (2 : Addr).toNat % 4 ≠ 0 := by decide

theorem witness_ErrorFlagReadsAsSummary :
    ready.cfg.irq.errIsSummary = false ∧
    ({ ready with cfg := { cfgRef with irq := { cfgRef.irq with errIsSummary := true } } } : State).cfg.irq.errIsSummary
      = true := by decide

/-- Base equal to the target, one above it; the exact reading with target 1 and 0; both readings. -/
theorem witness_DivisorIsSmallestMeetingTarget :
    cfgRef.clock.maxDivisor % 2 = 0 ∧ 2 ≤ cfgRef.clock.maxDivisor ∧ (400 : Nat) ≤ 400 ∧ (400 : Nat) < 401 ∧
    (1 : Nat) < 200000 ∧ 1 ≤ (1 : Nat) ∧ (0 : Nat) < 1 ∧ cfgRef.clock.divFloor = false ∧
    ({ cfgRef.clock with divFloor := true, maxDivisor := 2 } : ClockCfg).maxDivisor % 2 = 0 := by decide

theorem witness_VoltageIsChosenInPreferenceOrder : cfgRef.voltPref = [.v18, .v30, .v33] := by decide

theorem witness_TransferModeWordHasTheBitsAskedFor : cfgRef.wf = true ∧ (1 < dataRead.blkcnt.toNat) := by decide

theorem witness_ModeUpdatesPreserveOtherBits : cfgRef.wf = true := by decide

theorem witness_HardwareLeavesSoftwareRegistersAlone :
    NoFullReset ready ∧ NoReset ready ∧
    NoFullReset { ready with rb := { ready.rb with swreset := 0x06 } } := by
  unfold NoFullReset NoReset; decide

/-- The configuration that leaves R58's cell as it stands: flags are unspecified after a data+command reset. -/
def drawnFlags (s : State) : State := { s with cfg := { cfgRef with dcKeepsFlags := false } }

/-- A data+command reset that keeps flags running; no reset running where it would not keep them. -/
theorem witness_FlagsStaySetUntilCleared :
    KeepsFlags { ready with rb := { ready.rb with nis := 0xFFFF, eis := 0xFFFF, swreset := 0x06 } } ∧
    KeepsFlags (drawnFlags { ready with rb := { ready.rb with nis := 0xFFFF, eis := 0xFFFF } }) := by
  unfold KeepsFlags NoFullReset NoReset; decide

/-- R169 and R58: a data+command reset that draws NIS as 2 adds it to the flags set, or replaces them. -/
theorem test_dc_reset_flags :
    let s : State := { ready with rb := { ready.rb with nis := 0x8001, swreset := 0x06 } }
    let e := HwEvent.resetEnds 6 { Registers.zero cfgRef with nis := 2 } 0
    (e.apply s).rb.nis = 0x8003 ∧ (e.apply (drawnFlags s)).rb.nis = 0x0002 := by decide

/-- Flags raised by an engine's event and by the open oracle, some of them disabled. -/
theorem witness_DisabledFlagsAreNotRecorded :
    NoFullReset { ready with rb := { ready.rb with nie := 0x0003 } } ∧
    ((HwEvent.flags 0x0005 0).apply { ready with rb := { ready.rb with nie := 0x0003 } }).rb.nis = 0x0001 ∧
    ((HwEvent.oracle ⟨0, true, 0x0006, 0, none, none, none, none, none, none, none, none, false, 0, none, [],
        Registers.zero cfgRef⟩).apply { ready with rb := { ready.rb with nie := 0x0003 } }).rb.nis = 0x0002 := by
  refine ⟨?_, by decide, by decide⟩
  unfold NoFullReset; decide

theorem witness_ErrorsSetTheSummaryFlag :
    trunc (ready.cfg.width .eis) 0x0010 &&& ready.rb.eie ≠ 0 := by decide

/-- Unpowered; powered with the card clock off. -/
theorem witness_UnpoweredCardAnswersNothing :
    fresh.hid.powered = false ∧
    ({ ready with rb := { ready.rb with clkctl := 0xFA03 } } : State).hid.powered = true ∧
    hasBit ({ ready with rb := { ready.rb with clkctl := 0xFA03 } } : State).rb.clkctl cfgRef.clock.cardEn = false := by
  decide

/-- The full reset running, alone and with the others; the mask ends it. -/
theorem witness_FullResetForgetsTheCommand :
    hasBit ({ ready with rb := { ready.rb with swreset := 0x01 } } : State).rb.swreset cfgRef.reset.all = true ∧
    hasBit ({ ready with rb := { ready.rb with swreset := 0x07 } } : State).rb.swreset cfgRef.reset.all = true ∧
    cfgRef.reset.all &&& ~~~(1 : Word) = 0 := by decide

/-- R58, R184 (a): after a full reset a data+command reset that was running goes on, or is over too. -/
theorem test_full_reset_swreset :
    let s : State := { ready with rb := { ready.rb with swreset := 0x07 } }
    let e := HwEvent.resetEnds 1 (Registers.zero cfgRef) 0
    (e.apply s).rb.swreset = 0x06 ∧
    (e.apply { s with cfg := { cfgRef with fullEndsDc := true } }).rb.swreset = 0 := by decide

/-- V-INIT-8: SWRESET reads 0x06 on the first read, and the poll ends at once. -/
theorem test_init_other_resets :
    nextHas (exec .init (scripted [[], [.resetEnds 1 (Registers.zero cfgRef) 0], [], [], [], [.clock true]]
        { fresh with rb := { fresh.rb with swreset := 0x06 } }))
      (fun t => t.reply = .ok ∧ t.trace.take 3 = [.write .swreset 1, .read .swreset 6, .write .pwrctl 0])
      = true := by decide

/-- R185: a class-48 command after which the card is busy stays in flight until it releases busy. -/
theorem test_class48_busy :
    let s : State := { ready with hid := { ready.hid with
      cmd := some ⟨0x0D1A, 13, .r48, 0, 0, none, 0, 0, false, false, false⟩ } }
    let t := (HwEvent.response 0x900 0 0 0 true).apply s
    t.rb.nis = 0x0001 ∧ t.hid.cmd.isSome = true ∧ (HwEvent.busyReleased.apply t).hid.cmd = none ∧
    ((HwEvent.response 0x900 0 0 0).apply s).hid.cmd = none := by decide

theorem witness_DataCommandResetPreservesClockAndVoltage :
    NoFullReset { ready with rb := { ready.rb with swreset := 0x06 } } ∧
    hasBit ({ ready with rb := { ready.rb with swreset := 0x06 } } : State).rb.swreset cfgRef.dcMask = true ∧
    cfgRef.dcMask &&& ~~~(6 : Word) = 0 ∧ ready.cfg.dcKeepsFlags = true ∧
    NoFullReset (drawnFlags { ready with rb := { ready.rb with swreset := 0x06 } }) ∧
    (drawnFlags ready).cfg.dcKeepsFlags = false := by
  unfold NoFullReset; decide

/-- A command in flight of each class. -/
theorem witness_ResponseLoadsBeforeCommandComplete :
    ∀ k ∈ [RespKind.none, .r48, .r136, .r48b],
      ready.hid.powered = true ∧ hasBit ready.rb.clkctl ready.cfg.clock.cardEn = true ∧
      ∃ f : InFlight, ({ ready with hid := { ready.hid with
          cmd := some ⟨0, 0, k, 0, 0, none, 0, 0, false, false, false⟩ } } : State).hid.cmd = some f ∧
        f.kind = k ∧ f.respSeen = false ∧ f.cmdDone = false := by
  intro k _
  exact ⟨by decide, by decide, _, rfl, rfl, rfl, rfl⟩

/-- A read and a write without DMA, no block left, one and two, with and without automatic stop; a DMA engine
with a byte left; no transfer in flight; a boot stream, its acknowledge awaited; both counters, running and
not. -/
theorem witness_EngineEventsSetTheirFlags :
    let s := fun m n => carrying ⟨0x7200, 4, m, 0, false, false⟩ n none ready
    let b := bootMoving ⟨0x20000000, 512, false, true, []⟩ ready
    cardLive (s 0x10 1) = true ∧ (s 0x10 1).hid.dma = none ∧ ready.hid.cmd = none ∧
    dataFlows ⟨0x7200, 4, 0x10, 0, false, false⟩ (s 0x10 2) = true ∧
    HwEvent.autoStop.apply (s 0x36 1) = s 0x36 1 ∧ HwEvent.portBlock.apply (s 0x10 0) = s 0x10 0 ∧
    needsAutoStop cfgRef ⟨0x7200, 4, 0x10, 0, false, false⟩ = false ∧
    needsAutoStop cfgRef ⟨0x7200, 4, 0x36, 0, false, false⟩ = true ∧
    hasBit (0x36 : Word) cfgRef.xfer.dma = false ∧ hasBit (0x36 : Word) cfgRef.xfer.read = true ∧
    hasBit (0x26 : Word) cfgRef.xfer.read = false ∧ hasBit (0x11 : Word) cfgRef.xfer.dma = true ∧
    cardLive b = true ∧ hasBit b.rb.bgc cfgRef.boot.bgcEn = true ∧ hasBit ready.rb.bgc cfgRef.boot.bgcEn = false ∧
    hasBit ready.rb.clkctl cfgRef.clock.intEn = true ∧ hasBit fresh.rb.clkctl cfgRef.clock.intEn = false ∧
    ready.hid.bootArmed = false ∧ (writeEffect .boottimeout 1 ready).hid.bootArmed = true := by decide

/-- R177: the last of two blocks through the buffer port ends the transfer, and nothing is left in flight. -/
theorem test_port_transfer_ends :
    let s := carrying ⟨0x7200, 1, 0x10, 0, false, false⟩ 2 none ready
    let t := HwEvent.portBlock.apply (HwEvent.portBlock.apply s)
    (HwEvent.portBlock.apply s).rb.nis = 0 ∧ t.rb.nis = 0x0002 ∧ t.hid.cmd = none := by decide

/-- R177: a write transfer fetches a byte and ends in `NIS_TC`; one with automatic stop waits for it. -/
theorem test_write_transfer_ends :
    let d : DmaEngine := ⟨0x10000000, 1, false, false, []⟩
    (HwEvent.dmaOut 1 |>.apply (moving 0x7200 0x01 d ready)).rb.nis = 0x0002 ∧
    (HwEvent.dmaOut 1 |>.apply (moving 0x7200 0x27 d ready)).rb.nis = 0 ∧
    (HwEvent.autoStop.apply (HwEvent.dmaOut 1 |>.apply (moving 0x7200 0x27 d ready))).rb.nis = 0x0002 := by decide

/-- One byte left, with and without an automatic stop, and of a boot stream; two left, short of a boundary and
at one; and the last address of memory, whose successor wraps. -/
theorem witness_DmaStoresOneByteAndPausesAtBoundaries :
    ready.cfg.wf = true ∧ ready.hid.powered = true ∧ hasBit ready.rb.clkctl ready.cfg.clock.cardEn = true ∧
    (moving 0x7200 0x11 ⟨0x10000000, 1, false, true, []⟩ ready).hid.dma = some ⟨0x10000000, 1, false, true, []⟩ ∧
    (bootMoving ⟨0x20000000, 1, false, true, []⟩ ready).hid.dma = some ⟨0x20000000, 1, false, true, []⟩ ∧
    hasBit (bootMoving ⟨0x20000000, 1, false, true, []⟩ ready).rb.bgc cfgRef.boot.bgcEn = true ∧
    needsAutoStop cfgRef ⟨0x7200, 1, 0x11, 0x10000000, false, false⟩ = false ∧
    needsAutoStop cfgRef ⟨0x7200, 4, 0x37, 0x10000000, false, false⟩ = true ∧
    ((0x10000000 : Word) + 1).toNat % dmaBoundary cfgRef 0x7200 ≠ 0 ∧
    ((0x1007FFFF : Word) + 1).toNat % dmaBoundary cfgRef 0x7200 = 0 ∧
    ((0xFFFFFFFF : Word) + 1).toNat % dmaBoundary cfgRef 0x7200 = 0 := by decide

/-- Paused; running with one byte left, and with two at a boundary and short of one; a boot stream that
fetches. -/
theorem witness_PausedDmaWaitsForWriteBack :
    (bootMoving ⟨0x20000000, 1, false, false, []⟩ ready).hid.dma = some ⟨0x20000000, 1, false, false, []⟩ ∧
    hasBit (bootMoving ⟨0x20000000, 1, false, false, []⟩ ready).rb.bgc cfgRef.boot.bgcEn = true ∧
    (moving 0x7200 0x27 ⟨0x10080000, 1024, true, false, []⟩ ready).hid.dma =
      some ⟨0x10080000, 1024, true, false, []⟩ ∧
    ready.hid.powered = true ∧ hasBit ready.rb.clkctl ready.cfg.clock.cardEn = true ∧
    (moving 0x7200 0x27 ⟨0x10000000, 1, false, false, []⟩ ready).hid.dma =
      some ⟨0x10000000, 1, false, false, []⟩ ∧
    needsAutoStop cfgRef ⟨0x7200, 4, 0x27, 0x10000000, false, false⟩ = true ∧
    needsAutoStop cfgRef ⟨0x7200, 1, 0x01, 0x10000000, false, false⟩ = false ∧
    ((0x1007FFFF : Word) + 1).toNat % dmaBoundary cfgRef 0x7200 = 0 ∧
    ((0x10000000 : Word) + 1).toNat % dmaBoundary cfgRef 0x7200 ≠ 0 := by decide

/-- R56: an oracle step that moves two of four bytes stores among them and moves the position on; a write of
DMAADDR moves it, running or paused. -/
theorem test_position_moves :
    let d : DmaEngine := ⟨0xFFFFFFFF, 4, false, true, []⟩
    let s := moving 0x7200 0x11 d ready
    let t := oracleMoves 2 none [(1, 9), (2, 7)] s
    t.hid.dma = some ⟨1, 2, false, true, []⟩ ∧ Memory.read t.mem 0 = some 9 ∧ Memory.read t.mem 1 = none ∧
    (writeEffect .dmaaddr 0x20000000 s).hid.dma = some { d with pos := 0x20000000 } ∧
    (writeEffect .dmaaddr 0x20000000 (moving 0x7200 0x11 { d with paused := true } ready)).hid.dma =
      some { d with pos := 0x20000000 } := by decide

/-- The address just below the transfer and the one just past it; a state with no engine. -/
theorem witness_DmaStoresOnlyInsideTheTransfer :
    (∀ k, k < 4 → (0x0FFFFFFF : Nat) ≠ ((0x10000000 : Word).toNat + k) % 2 ^ 32) ∧
    (∀ k, k < 4 → (0x10000004 : Nat) ≠ ((0x10000000 : Word).toNat + k) % 2 ^ 32) ∧ ready.hid.dma = none := by
  decide

/-- With data present, DMA on and off; boot-enable left set; multi-block and counted, and not; a word of a
reserved class just written. -/
theorem witness_CommandEngineLatchesTheCommand :
    hasBit (encodeCommand cfgRef 2 18 0x38) cfgRef.cmd.dataPresent = true ∧
    hasBit (encodeCommand cfgRef 2 13 0x18) cfgRef.cmd.dataPresent = false ∧
    hasBit (0xA0 : Word) cfgRef.boot.bgcEn = true ∧ hasBit (0x37 : Word) cfgRef.xfer.dma = true ∧
    hasBit (0x26 : Word) cfgRef.xfer.dma = false ∧ hasBit (0x26 : Word) cfgRef.xfer.multi = true ∧
    hasBit (0x26 : Word) cfgRef.xfer.bce = true ∧ hasBit (0x11 : Word) cfgRef.xfer.multi = false ∧
    (1 : Word) ≠ 0 ∧ (0x7200 : Word) &&& cfgRef.blk.sizeMask ≠ 0 ∧
    (fresh.withFetchWord 16 0x8000).hid.trigger = true ∧
    decodeCommand cfgRef (fresh.withFetchWord 16 0x8000).rb.cmd = .error .reservedClass := by decide

/-- Each value of `seq` with the operands its clauses ask for. -/
theorem witness_RequestsFollowTheSequencer :
    ModeRec.widthOk ⟨0, 7, 8⟩ = true ∧ ModeRec.timingOk cfgRef ⟨0, 7, 8⟩ = true ∧ ready.seq = .idle ∧
    ready.h.ready = true ∧ streaming.seq ≠ .idle ∧ fresh.h.ready = false ∧
    ({ plain 32 with index := 63 } : Descriptor).wf = true ∧ (waiting dataRead).seq = .issued ∧
    (waiting dataRead).sent = some dataRead ∧ (waiting dataRead).sent ≠ some (plain 32) ∧
    streaming.seq = .streaming := by decide

/-- An INIT that returns OK and one that does not. -/
theorem witness_InitEstablishesPowerClockAndEnables :
    fresh.cfg.wf = true ∧
    (∃ t, exec .init (scripted [[], [.resetEnds 1 (Registers.zero cfgRef) 0], [], [], [], [.clock true]] fresh)
      = .next t ∧ t.reply = .ok) ∧
    ∃ t, exec .init (late 1 fresh) = .next t ∧ t.reply = .fail :=
  ⟨by decide, exists_next (by decide), exists_next (by decide)⟩

theorem witness_SetModeProgramsClockTimingWidth :
    ModeRec.widthOk ⟨52000, 1, 8⟩ = true ∧ ModeRec.timingOk ready.cfg ⟨52000, 1, 8⟩ = true ∧
    ready.seq = .idle := by decide

/-- A SET_MODE that returns OK and one that does not. -/
theorem witness_SetModeChangesOnlyItsRegisters :
    NoReset ready ∧ KeepsFlags ready ∧
    (∃ t, exec (.setMode ⟨52000, 1, 8⟩) (scripted [[], [.clock true]] ready) = .next t ∧ t.reply = .ok) ∧
    ∃ t, exec (.setMode ⟨52000, 1, 8⟩) (late 1 ready) = .next t ∧ t.reply ≠ .ok :=
  ⟨by unfold NoReset; decide, by unfold KeepsFlags NoFullReset NoReset; decide, exists_next (by decide),
    exists_next (by decide)⟩

/-- No data and no boot; data; boot. -/
theorem witness_SendCmdWritesTheCommandLast :
    ∀ c ∈ [plain 32, dataRead, bootRead], c.wf = true ∧ ready.seq = .idle ∧ ready.h.ready = true := by decide

theorem witness_SendCmdChangesOnlyItsRegisters :
    NoReset (scripted [] ready) ∧
    (∃ t, exec (.sendCmd (plain 32)) (scripted [] ready) = .next t ∧ t.rb.cmd = 0x0D1A) ∧
    (∃ t, exec (.sendCmd dataRead) (scripted [] ready) = .next t ∧ t.rb.cmd = 0x123A) ∧
    ∃ t, exec (.sendCmd bootRead) (scripted [] ready) = .next t ∧ t.rb.cmd = 0x0020 :=
  ⟨by unfold NoReset; decide, exists_next (by decide), exists_next (by decide), exists_next (by decide)⟩

/-- Every response length of R92, data and boot. -/
theorem witness_DispatchedCommandReachesTheEngine :
    cfgRef.wf = true ∧ cfgRef.cmd.respNone = 0 ∧ NoReset (scripted [] ready) ∧
    (cfgRef.recognises 32 = true ∧ cfgRef.recognises 48 = false) ∧
    hasBit (cmdWord cfgRef dataRead) cfgRef.cmd.dataPresent = true ∧
    (∀ c ∈ [plain 0, plain 32, plain 128, plain 48, { plain 32 with busy := true }, dataRead, bootRead],
      nextHas (exec (.sendCmd c) (scripted [] ready)) (fun t => t.seq = .issued) = true) :=
  ⟨by decide, by decide, by unfold NoReset; decide, by decide, by decide, by decide⟩

/-- A non-data command of each response length outstanding. -/
theorem witness_NonDataWaitEndings :
    ∀ c ∈ [plain 0, plain 32, plain 128, plain 48], c.wf = true ∧ (waiting c).seq = .issued ∧
      (waiting c).sent = some c ∧ c.bootEn = false ∧ c.dataXfer = false := by decide

/-- A non-data command outstanding, the first read made at the last microsecond of the budget. -/
def atDeadline (n : Word) : State :=
  { waiting (plain 32) with rb := { ready.rb with nis := n }, env := ⟨[[], [], []], [7, 100000], 0, 0, 0⟩ }

/-- Command-complete, error, both, neither. -/
theorem witness_NonDataWaitCompletesOnFirstFlag :
    (plain 32).wf = true ∧ (plain 32).bootEn = false ∧ (plain 32).dataXfer = false ∧
    (sampleClock (sampleClock (atDeadline 1))).env.now - (sampleClock (atDeadline 1)).env.now = 100000 ∧
    (hwStep (sampleClock (sampleClock (atDeadline 0x0001)))).view .nis = 0x0001 ∧
    (hwStep (sampleClock (sampleClock (atDeadline 0x8000)))).view .nis = 0x8000 ∧
    (hwStep (sampleClock (sampleClock (atDeadline 0x8001)))).view .nis = 0x8001 ∧
    (hwStep (sampleClock (sampleClock (atDeadline 0x0002)))).view .nis = 0x0002 ∧
    (atDeadline 2).sent = some (plain 32) := by decide

/-- A boot or data command outstanding, the top-level wait's first read made at the last microsecond of its
budget, and the data wait's at the last of its own. -/
def atDeadlines (c : Descriptor) (n e : Word) : State :=
  { waiting c with
    rb := { ready.rb with nis := n, eis := e }, env := ⟨List.replicate 9 [], [7, 100000, 3, 4000000], 0, 0, 0⟩ }

/-- Boot: acknowledge, another flag. Data: buffer-read-ready with transfer-complete, transfer-complete alone,
an error. -/
theorem witness_BootAndDataWaitsCompleteOnFirstFlag :
    let u := fun c n e => sampleClock (sampleClock (atDeadlines c n e))
    let d := fun n e => sampleClock (sampleClock (regRead .nis (u dataRead n e)).2)
    bootRead.wf = true ∧ dataRead.wf = true ∧ bootRead.bootEn = true ∧ dataRead.bootEn = false ∧
    dataRead.dataXfer = true ∧ (atDeadlines bootRead 1 0).sent = some bootRead ∧
    (u bootRead 1 0).env.now - (sampleClock (atDeadlines bootRead 1 0)).env.now = 100000 ∧
    (hwStep (u bootRead 0x2000 0)).view .nis = 0x2000 ∧ (hwStep (u bootRead 1 0)).view .nis = 1 ∧
    (d 2 0).env.now - (sampleClock (regRead .nis (u dataRead 2 0)).2).env.now = 4000000 ∧
    (hwStep (d 2 0)).view .eis = 0 ∧ (hwStep (d 2 1)).view .eis = 1 ∧
    (hwStep (regRead .eis (d 2 0)).2).view .nis = 0x0002 ∧
    (hwStep (regRead .eis (d 0x22 0)).2).view .nis = 0x0022 := by decide

/-- V-WAIT-8: the acknowledge; V-WAIT-10: another flag first. -/
theorem witness_BootWaitCommandEndings :
    bootRead.wf = true ∧ (waiting bootRead).seq = .issued ∧ (waiting bootRead).sent = some bootRead ∧
    bootRead.bootEn = true := by decide

theorem witness_DataWaitEndings :
    dataRead.wf = true ∧ (waiting dataRead).seq = .issued ∧ (waiting dataRead).sent = some dataRead ∧
    dataRead.bootEn = false ∧ dataRead.dataXfer = true := by decide

/-- V-POLL-1's boundary in the data wait, a success of each other branch, a poll that ends on its first read
and one that times out, and both timeouts in the log. -/
theorem witness_NoSuccessAfterTheDeadline :
    (waitData { waiting dataRead with
      rb := { ready.rb with nis := 2 }, env := ⟨[[], [], [], []], [0, 4000000], 0, 0, 0⟩ }).reply = .ok ∧
    (∃ t, exec (.waitCmd (plain 0)) (scripted [[.flags 1 0]] (waiting (plain 0))) = .next t ∧ t.reply = .ok) ∧
    (∃ t, exec (.waitCmd bootRead) (scripted [[.flags 0x2000 0]] (waiting bootRead)) = .next t ∧ t.reply = .ok) ∧
    (sampleClock (sampleClock (atDeadline 1))).env.now - (sampleClock (atDeadline 1)).env.now ≤ 100000 ∧
    (poll .nis (fun v => v != 0) 100000 (lateReset ready)).1 = none ∧
    ⟨.dataTimeout, []⟩ ∈ (waitData (lateReset (waiting dataRead))).log.drop (waiting dataRead).log.length ∧
    ∃ t, exec (.waitCmd (plain 0)) (lateReset (waiting (plain 0))) = .next t ∧
      ⟨.cmdTimeout, []⟩ ∈ t.log.drop (waiting (plain 0)).log.length :=
  ⟨by decide, exists_next (by decide), exists_next (by decide), by decide, by decide, by decide,
    exists_next (by decide)⟩

/-- A success of each branch, and a failure: V-WAIT-8, V-WAIT-11, V-WAIT-3, V-WAIT-10. -/
theorem witness_WaitCmdPreservesProgramming :
    cfgRef.wf = true ∧ KeepsFlags (waiting bootRead) ∧ NoReset (waiting bootRead) ∧
    (∃ t, exec (.waitCmd bootRead) (scripted [[.flags 0x2000 0]] (waiting bootRead)) = .next t ∧ t.reply = .ok) ∧
    (∃ t, exec (.waitCmd dataRead) (scripted [[.flags 2 0]] (waiting dataRead)) = .next t ∧ t.reply = .ok) ∧
    (∃ t, exec (.waitCmd (plain 48)) (scripted [[.flags 1 0]] (waiting (plain 48))) = .next t ∧ t.reply = .ok) ∧
    ∃ t, exec (.waitCmd bootRead) (scripted [[.flags 1 0], [], [.resetEnds 6 (Registers.zero cfgRef) 0]]
      (waiting bootRead)) = .next t ∧ t.reply = .fail ∧ t.log = [⟨.bootNoAck, [1]⟩] :=
  ⟨by decide, by unfold KeepsFlags NoFullReset NoReset; decide, by unfold NoReset; decide, exists_next (by decide),
    exists_next (by decide), exists_next (by decide), exists_next (by decide)⟩

theorem witness_DmaAcknowledgeWritesBackThenClears : ready.cfg.wf = true ∧ RegsFit ready :=
  ⟨by decide, fun x => by cases x <;> decide⟩

theorem witness_BootWaitReportsAndAcknowledges : streaming.seq = .streaming := by decide

theorem witness_BootHelpersPreserveTheRest :
    cfgRef.wf = true ∧ KeepsFlags (scripted [] streaming) ∧ NoReset (scripted [] streaming) ∧
    (∃ t, exec .bootWait (scripted [] streaming) = .next t ∧ t.seq = .streaming) ∧
    ∃ t, exec .bootStop (scripted [] streaming) = .next t ∧ t.seq = .idle :=
  ⟨by decide, by unfold KeepsFlags NoFullReset NoReset; decide, by unfold NoReset; decide, exists_next (by decide),
    exists_next (by decide)⟩

/-- V-BOOT-5: two runs, one after the other. -/
theorem witness_BootStopIsIdempotent :
    NoFullReset (scripted [] streaming) ∧
    ∃ t, exec .bootStop (scripted
        [[], [], [], [], [], [.resetEnds 6 (Registers.zero cfgRef) 0], [], [], [], [], [],
         [.resetEnds 6 (Registers.zero cfgRef) 0]]
        { streaming with rb := { ready.rb with bgc := 0xA0 } }) = .next t ∧
      t.rb.bgc = 0x80 ∧ nextHas (exec .bootStop t) (fun u => u.rb.bgc = 0x80) = true :=
  ⟨by unfold NoFullReset; decide, exists_next (by decide)⟩

/-- A boot stream with four bytes to move, paused or not, and SEQ in STREAMING. -/
def streamingMoving (paused : Bool) : State := bootMoving ⟨0x10000000, 4, paused, true, []⟩ streaming

/-- No engine; BOOT_STOP beside a read transfer of four bytes, the address just past it; BOOT_WAIT beside a boot
stream, once with `NIS_DMA` clear, once resuming the paused engine. -/
theorem witness_MemoryChangesOnlyByDma :
    NoStore (scripted [] ready) ∧
    (∃ t, exec (.sendCmd dataRead) (scripted [] ready) = .next t ∧ t.seq = .issued) ∧
    neverResumes .bootStop = true ∧
    Outside (scripted [] (moving 0x7200 0x11 ⟨0x10000000, 4, false, true, []⟩ ready)) 0x10000004 ∧
    (∃ t, exec .bootStop (scripted [[.dmaIn [1]], [], [], [], [], [.resetEnds 6 (Registers.zero cfgRef) 0]]
        (moving 0x7200 0x11 ⟨0x10000000, 4, false, true, []⟩ ready)) =
      .next t ∧ Memory.read t.mem 0x10000000 = some 1) ∧
    hasBit ((hwStep (scripted [[.dmaIn [1]]] (streamingMoving false))).view .nis) cfgRef.irq.dma = false ∧
    (∃ t, exec .bootWait (scripted [[.dmaIn [1]]] (streamingMoving false)) = .next t ∧
      Memory.read t.mem 0x10000000 = some 1) ∧
    ∃ t, exec .bootWait (scripted [[.flags 8 0], [], [], [.dmaIn [2]]] (streamingMoving true)) = .next t ∧
      (.dmaaddr, ready.rb.dmaaddr) ∈ writesOf t.trace := by
  refine ⟨fun d h => ?_, exists_next (by decide), rfl, fun d h _ k hk => ?_, exists_next (by decide),
    by decide, exists_next (by decide), exists_next (by decide)⟩
  · simp [scripted, ready, fresh, State.reset, State.created] at h
  · obtain rfl : _ = d := Option.some.inj h
    change k < 4 at hk
    change _ ≠ ((0x10000000 : Word).toNat + k) % 2 ^ 32
    have : (0x10000000 : Word).toNat = 0x10000000 := by decide
    omega

theorem witness_ResponseBufferOnlyOnNonDataSuccess :
    ∃ t, exec (.waitCmd (plain 32)) (scripted [[.flags 1 0]]
        { waiting (plain 32) with rb := { ready.rb with resp0 := 0x900 } }) = .next t ∧
      t.respBuf ≠ (waiting (plain 32)).respBuf := exists_next (by decide)

/-- V-WAIT-6: a flag that is neither error nor command-complete. -/
theorem witness_OnlyNonDataWaitFaults :
    (match exec (.waitCmd (plain 32)) (scripted [[.flags 2 0]] (waiting (plain 32))) with
      | .fault .waitNeitherErrorNorComplete => true
      | _ => false) = true := by decide

/-- A next state of every operation. -/
theorem witness_OperationsWriteOnlyTheirRegisters :
    (∃ t, exec .init (late 1 fresh) = .next t ∧ t.seq = .idle) ∧
    (∃ t, exec (.setMode ⟨400, 0, 1⟩) (late 1 ready) = .next t ∧ t.seq = .idle) ∧
    (∃ t, exec (.sendCmd bootRead) (scripted [] ready) = .next t ∧ t.seq = .issued) ∧
    (∃ t, exec (.waitCmd dataRead) (late 1 (waiting dataRead)) = .next t ∧ t.reply = .fail) ∧
    (∃ t, exec (.cmdwResp48 13 0x18) ready = .next t ∧ t.hid.trigger = false) :=
  ⟨exists_next (by decide), exists_next (by decide), exists_next (by decide), exists_next (by decide),
    exists_next (by decide)⟩

/-- A step of SEQ, of the command engine, and of HW alone. -/
theorem witness_ConstantsStayAndTimeIsMonotone :
    (∃ t, step { scripted [] streaming with port := [3] } = .next t ∧ t.seq = .streaming) ∧
    (∃ t, step (ready.withFetchWord 16 0x0D1A) = .next t ∧ t.hid.trigger = false) ∧
    ∃ t, step (scripted [[.flags 1 0]] ready) = .next t ∧ t.rb.nis = 1 :=
  ⟨exists_next (by decide), exists_next (by decide), exists_next (by decide)⟩

theorem witness_OnlyInitChangesReadiness :
    (∃ t, exec .init (late 1 ready) = .next t ∧ t.h ≠ ready.h ∧ t.h.ready = false) ∧
    ∃ t, exec .bootStop (late 1 ready) = .next t ∧ t.h = ready.h :=
  ⟨exists_next (by decide), exists_next (by decide)⟩

end Sys2Proof.Tests
end

/-! ### What a step runs (O4), and the invariant it keeps (O11) -/

namespace Sys2Proof.Machine

/-! #### The step, by whose turn it is -/

theorem step_of_command {s : State} {i : Instr} (ht : s.hid.trigger = true)
    (hi : decodeCommand s.cfg s.rb.cmd = .ok i) : step s = exec i s := by
  simp [step, ht, hi]

theorem step_of_reserved {s : State} {e : DecodeError} (ht : s.hid.trigger = true)
    (he : decodeCommand s.cfg s.rb.cmd = .error e) : step s = .next (commandUnknown s) := by
  simp [step, ht, he]

theorem step_of_request {s : State} {w : BitVec 128} {r : List (BitVec 128)} {i : Instr}
    (ht : s.hid.trigger = false) (hp : s.port = w :: r) (hi : decodeRequest s.cfg w = .ok i) :
    step s = exec i { s with port := r } := by
  simp [step, ht, hp, hi, requestTaken]

theorem step_of_badRequest {s : State} {w : BitVec 128} {r : List (BitVec 128)} {e : DecodeError}
    (ht : s.hid.trigger = false) (hp : s.port = w :: r) (he : decodeRequest s.cfg w = .error e) :
    step s = .refused (refusalOf e) := by
  simp [step, ht, hp, he]

theorem step_of_noRequest {s : State} (ht : s.hid.trigger = false) (hp : s.port = []) :
    step s = .next (hwStep s) := by
  simp [step, ht, hp]

/-- Settles O4: one lemma for each of the step's five branches. -/
theorem stepRunsTheDecodedInstruction : Obligations.StepRunsTheDecodedInstruction := fun _ =>
  ⟨fun ht => ⟨fun _ => step_of_command ht, fun _ => step_of_reserved ht⟩,
   fun ht => ⟨fun _ _ hp => ⟨fun _ => step_of_request ht hp, fun _ => step_of_badRequest ht hp⟩,
     step_of_noRequest ht⟩⟩

/-- What a step that answers a next state was: an instruction run at the state itself or at the state with
other requests waiting, the take-up of a reserved class, or a step of HW. -/
theorem step_next_cases {s t : State} (h : step s = .next t) :
    (∃ i, exec i s = .next t) ∨ (∃ i r, exec i { s with port := r } = .next t) ∨
    t = commandUnknown s ∨ t = hwStep s := by
  cases ht : s.hid.trigger with
  | true =>
    cases hi : decodeCommand s.cfg s.rb.cmd with
    | ok i => exact .inl ⟨i, (step_of_command ht hi).symm.trans h⟩
    | error e =>
      rw [step_of_reserved ht hi] at h
      exact .inr (.inr (.inl (Host.Outcome.next.inj h).symm))
  | false =>
    cases hp : s.port with
    | nil =>
      rw [step_of_noRequest ht hp] at h
      exact .inr (.inr (.inr (Host.Outcome.next.inj h).symm))
    | cons w r =>
      cases hi : decodeRequest s.cfg w with
      | ok i => exact .inr (.inl ⟨i, r, (step_of_request ht hp hi).symm.trans h⟩)
      | error e => rw [step_of_badRequest ht hp hi] at h; cases h

/-! #### The invariant under the updates operations are made of -/

/-- No access, clock sample or log entry breaks the invariant. -/
theorem Invariant.of_runs {s t : State} (inv : Invariant s) (r : Runs s t) : Invariant t where
  cfgWf := r.cfg ▸ inv.cfgWf
  baseOk := r.h ▸ inv.baseOk
  caps := by rw [r.h, r.cfg, inv.caps]
  cap0 := by rw [r.cap0, r.cfg, inv.cap0]
  cap1 := by rw [r.cap1, r.cfg, inv.cap1]
  regsFit := r.fit inv.cfgWf inv.regsFit
  resetBits := r.cfg ▸ r.resets inv.resetBits
  memWf := r.memWf inv.memWf
  dmaOwned := r.owned inv.dmaOwned
  sentIff := by rw [r.seq, r.sent, inv.sentIff]
  readyOut hq := r.h ▸ inv.readyOut (r.seq ▸ hq)

/-- The sequencer's own fields, and the handle's voltage and readiness, only have to agree with each other. -/
theorem Invariant.seqFields {s : State} (inv : Invariant s) {v : Voltage} {r : Bool} {q : SeqState}
    {c : Option Descriptor} {b : RespBuf} {y : Reply} (hs : q = .issued ↔ c.isSome = true)
    (hr : q ≠ .idle → r = true) :
    Invariant { s with h := { s.h with voltage := v, ready := r }, seq := q, sent := c, respBuf := b,
                       reply := y } :=
  ⟨inv.cfgWf, inv.baseOk, inv.caps, inv.cap0, inv.cap1, inv.regsFit, inv.resetBits, inv.memWf, inv.dmaOwned,
   hs, hr⟩

theorem Invariant.replied {s : State} (inv : Invariant s) (y : Reply) : Invariant { s with reply := y } :=
  inv.seqFields inv.sentIff inv.readyOut

theorem Invariant.respBuf {s : State} (inv : Invariant s) (b : RespBuf) :
    Invariant { s with respBuf := b } :=
  inv.seqFields inv.sentIff inv.readyOut

theorem Invariant.voltage {s : State} (inv : Invariant s) (v : Voltage) :
    Invariant { s with h := { s.h with voltage := v } } :=
  inv.seqFields inv.sentIff inv.readyOut

theorem Invariant.ready {s : State} (inv : Invariant s) :
    Invariant { s with h := { s.h with ready := true } } :=
  inv.seqFields inv.sentIff fun _ => rfl

/-- Coming to rest in IDLE needs nothing of the handle. -/
theorem Invariant.idle {s : State} (inv : Invariant s) (y : Reply) :
    Invariant { s with seq := .idle, sent := none, reply := y } :=
  inv.seqFields (by simp) (by simp)

theorem Invariant.port {s : State} (inv : Invariant s) (r : List (BitVec 128)) :
    Invariant { s with port := r } :=
  ⟨inv.cfgWf, inv.baseOk, inv.caps, inv.cap0, inv.cap1, inv.regsFit, inv.resetBits, inv.memWf, inv.dmaOwned,
   inv.sentIff, inv.readyOut⟩

/-- The DMA engine a take-up starts belongs to the command it puts in flight: both come from the one latched
transfer. -/
theorem takeUpCommand_dmaOwned (k : RespKind) (i : BitVec 6) (w : Word) (s : State) :
    DmaOwned (takeUpCommand k i w s) := by
  intro d hd
  refine ⟨_, rfl, ?_⟩
  obtain ⟨x, hx, -⟩ := Option.bind_eq_some_iff.1 hd
  exact Option.isSome_of_eq_some hx

theorem Invariant.takeUpCommand {s : State} (inv : Invariant s) (k : RespKind) (i : BitVec 6) (w : Word) :
    Invariant (takeUpCommand k i w s) :=
  ⟨inv.cfgWf, inv.baseOk, inv.caps, inv.cap0, inv.cap1, inv.regsFit, inv.resetBits, inv.memWf,
   takeUpCommand_dmaOwned k i w s, inv.sentIff, inv.readyOut⟩

/-! #### The invariant under each operation -/

theorem Invariant.startInit {s : State} (inv : Invariant s) : Invariant (startInit s) :=
  inv.seqFields (by simp) (by simp)

theorem Invariant.powerUp {s : State} (inv : Invariant s) : Invariant (powerUp s) := by
  obtain ⟨w, r, e, -⟩ := powerUp_spec s
  exact e ▸ (inv.of_runs r).voltage _

theorem Invariant.finishInit {s : State} (inv : Invariant s) : Invariant (finishInit s) := by
  obtain ⟨w, r, e, -⟩ := finishInit_spec s
  exact e ▸ (inv.of_runs r).ready

theorem Invariant.runInit {s : State} (inv : Invariant s) : Invariant (runInit s) := by
  obtain ⟨a, rfl, ⟨-, e⟩ | ⟨-, p, b, rfl, rfl, ⟨-, e⟩ | ⟨-, e⟩⟩⟩ := runInit_cases s
  all_goals
    rw [e]
    have hreset := inv.startInit.of_runs (Runs.resetProc s.cfg.reset.all _)
  · exact hreset.replied _
  · exact (hreset.powerUp.of_runs (.setClock _ _)).replied _
  · exact (hreset.powerUp.of_runs (.setClock _ _)).finishInit.replied _

theorem Invariant.runSetMode {s : State} (inv : Invariant s) (m : ModeRec) : Invariant (runSetMode m s) := by
  have hclock := inv.of_runs (Runs.setClock m.freqKHz.toNat s)
  obtain ⟨a, rfl, ⟨-, e⟩ | ⟨-, b, c, rfl, rfl, e⟩⟩ := runSetMode_cases m s
  · exact e ▸ hclock.replied _
  · exact e ▸ (hclock.of_runs ((Runs.regRmw _ _ _).trans (.regRmw _ _ _))).replied _

theorem Runs.programTransfer (c : Descriptor) (s : State) : Runs s (programTransfer c s) := by
  cases hb : c.bootEn with
  | false => exact (programTransfer_data c s hb).1
  | true =>
    rw [programTransfer_boot c s hb]
    exact (programTransfer_data { c with bootEn := false } s rfl).1.trans (armBoot_spec _).1

theorem Invariant.runSendCmd {s : State} (inv : Invariant s) (hr : s.h.ready = true) (c : Descriptor) :
    Invariant (runSendCmd c s) := by
  obtain ⟨a, b, d, e, ha, hb, rfl, rfl, -, h⟩ := runSendCmd_eq c s
  have hab : Runs a b := by
    rw [hb]
    split
    · exact .programTransfer c a
    · exact .refl a
  have r := (((ha ▸ Runs.regWrite .nis _ s : Runs s a).trans hab).trans (.regWrite .arg c.arg b)).trans
    (.regWrite .cmd (cmdWord s.cfg c) _)
  rw [h]
  exact (inv.of_runs r).seqFields (by simp) fun _ => (congrArg Handle.ready r.h).trans hr

theorem Invariant.failWith {s : State} (inv : Invariant s) (c : Cause) (vs : List Word) :
    Invariant (failWith c vs s) := by
  obtain ⟨w, l, r, e, -⟩ := failWith_spec c vs s
  exact e ▸ (inv.of_runs r).idle _

theorem Invariant.decodeResponse {s : State} (inv : Invariant s) (c : Descriptor) :
    Invariant (decodeResponse c s) := by
  obtain ⟨w, q, b, r, e, -⟩ := decodeResponse_spec c s
  exact e ▸ (inv.of_runs r).respBuf b

theorem Invariant.waitBoot {s : State} (inv : Invariant s) (hr : s.h.ready = true) (n : Word) :
    Invariant (waitBoot n s) := by
  obtain ⟨-, e⟩ | ⟨-, a, b, rfl, rfl, e⟩ := waitBoot_cases n s
  · exact e ▸ inv.failWith _ _
  · have r := (Runs.regWrite .boottimeout 0 s).trans (.regWrite .nis s.cfg.irq.bootAck _)
    rw [e]
    exact (inv.of_runs r).seqFields (by simp) fun _ => (congrArg Handle.ready r.h).trans hr

theorem Invariant.waitNonData {s t : State} (inv : Invariant s) {c : Descriptor} {n : Word}
    (h : waitNonData c n s = .next t) : Invariant t := by
  obtain ⟨-, e⟩ | ⟨-, -, a, b, rfl, rfl, e⟩ | ⟨-, -, e⟩ := waitNonData_cases c n s
  · obtain rfl := Host.Outcome.next.inj (e.symm.trans h)
    exact inv.failWith _ _
  · obtain rfl := Host.Outcome.next.inj (e.symm.trans h)
    exact ((inv.decodeResponse c).of_runs (.regWrite _ _ _)).idle _
  · cases e.symm.trans h

/-- The acknowledge a round of the data wait makes where `NIS_DMA` shows (R151, R152). -/
theorem dmaAckIf_spec (p : Prop) [Decidable p] (s : State) :
    Runs s (if p then (dmaAck s).2 else s) ∧ (if p then (dmaAck s).2 else s).log = s.log ∧
    (if p then (dmaAck s).2 else s).env.now = s.env.now := by
  split
  · exact ⟨.dmaAck s, (dmaAck_spec s).2⟩
  · exact ⟨.refl s, rfl, rfl⟩

/-- Every ending of the data wait (R151), with `w` the state its last round reached: past the deadline the
timeout, an error's exit, or, within the deadline, success. -/
theorem dataLoop_endings (t0 : Nat) : ∀ (n : Nat) (s : State), ∃ w, Runs s w ∧ w.log = s.log ∧
    ((t0 + s.cfg.budgets.tData < w.env.now ∧ dataLoop t0 n s = failWith .dataTimeout [] w) ∨
     (∃ e a, dataLoop t0 n s = failWith .hwError [e, a] w) ∨
     (w.env.now ≤ t0 + s.cfg.budgets.tData ∧
        dataLoop t0 n s = { w with seq := .idle, sent := none, reply := .ok }))
  | 0, s => ⟨_, .sampleClockPast _ s, rfl, .inl ⟨sampleClockPast_past _ s, rfl⟩⟩
  | n + 1, s => by
    have ra := Runs.sampleClock s
    obtain ⟨a, rfl, ⟨hlate, e⟩ |
        ⟨hin, x, d, rfl, rfl, ⟨-, f, rfl, e⟩ | ⟨-, q, g, b, rfl, rfl, hb, h⟩⟩⟩ :=
      dataLoop_cases t0 n s
    · exact ⟨_, ra, rfl, .inl ⟨by omega, e⟩⟩
    · exact ⟨_, (ra.trans (.regRead _ _)).trans (.regRead _ _), by simp, .inr (.inl ⟨_, _, e⟩)⟩
    · obtain ⟨rb, hlog, hnow⟩ := dmaAckIf_spec
        (hasBit (regRead .nis (regRead .eis (sampleClock s)).2).1 s.cfg.irq.dma = true)
        (regRead .nis (regRead .eis (sampleClock s)).2).2
      rw [← hb] at rb hlog hnow
      have r : Runs s b := ((ra.trans (.regRead _ _)).trans (.regRead _ _)).trans rb
      simp only [regRead_log, regRead_now, sampleClock_log] at hlog hnow
      have success : ∀ m, (regWrite .nis m b).env.now ≤ t0 + s.cfg.budgets.tData := by
        intro m; rw [regWrite_now]; omega
      obtain ⟨-, z, rfl, e⟩ | ⟨-, -, z, rfl, e⟩ | ⟨-, -, e⟩ := h
      · exact ⟨_, r.trans (.regWrite _ _ _), by simp [hlog], .inr (.inr ⟨success _, e⟩)⟩
      · exact ⟨_, r.trans (.regWrite _ _ _), by simp [hlog], .inr (.inr ⟨success _, e⟩)⟩
      · obtain ⟨w, rloop, hw, hend⟩ := dataLoop_endings t0 n b
        rw [r.cfg, ← e] at hend
        exact ⟨w, r.trans rloop, hw.trans hlog, hend⟩

theorem Invariant.dataLoop {s : State} (inv : Invariant s) (t0 n : Nat) : Invariant (dataLoop t0 n s) := by
  obtain ⟨w, r, -, ⟨-, e⟩ | ⟨_, _, e⟩ | ⟨-, e⟩⟩ := dataLoop_endings t0 n s
  · exact e ▸ (inv.of_runs r).failWith _ _
  · exact e ▸ (inv.of_runs r).failWith _ _
  · exact e ▸ (inv.of_runs r).idle _

theorem Invariant.runWaitCmd {s t : State} (inv : Invariant s) (hr : s.h.ready = true) {c : Descriptor}
    (h : runWaitCmd c s = .next t) : Invariant t := by
  have r := Runs.poll .nis (fun v => v != 0) s.cfg.budgets.tCmd s
  obtain ⟨a, rfl, ⟨-, e⟩ | ⟨n, -, ⟨-, e⟩ | ⟨-, -, e⟩ | ⟨-, -, e⟩⟩⟩ := runWaitCmd_cases c s
  · obtain rfl := Host.Outcome.next.inj (e.symm.trans h)
    exact (inv.of_runs r).failWith _ _
  · obtain rfl := Host.Outcome.next.inj (e.symm.trans h)
    exact (inv.of_runs r).waitBoot (by rw [r.h, hr]) n
  · obtain rfl := Host.Outcome.next.inj (e.symm.trans h)
    exact ((inv.of_runs r).of_runs (.sampleClock _)).dataLoop _ _
  · exact (inv.of_runs r).waitNonData (e.symm.trans h)

theorem Invariant.runBootWait {s : State} (inv : Invariant s) : Invariant (runBootWait s) := by
  obtain ⟨q, a, rfl, rfl, ⟨-, e⟩ | ⟨-, b, rfl, e⟩⟩ := runBootWait_cases s
  · exact e ▸ (inv.of_runs (.regRead _ s)).replied _
  · exact e ▸ (inv.of_runs ((Runs.regRead _ s).trans (.dmaAck _))).replied _

theorem Invariant.runBootStop {s : State} (inv : Invariant s) : Invariant (runBootStop s) := by
  obtain ⟨a, b, d, rfl, rfl, rfl, e⟩ := runBootStop_eq s
  exact e ▸ (inv.of_runs (((Runs.regRmw _ _ s).trans (.clearAll _)).trans (.resetProc _ _))).idle _

/-- Every instruction keeps the invariant. The two that may leave IDLE find the handle ready: SEND_CMD by its
own precondition, WAIT_CMD because it starts outside IDLE. -/
theorem Invariant.exec {s t : State} (inv : Invariant s) {i : Instr} (h : exec i s = .next t) :
    Invariant t := by
  cases i with
  | init => exact exec_init_next h ▸ inv.runInit
  | sendCmd c =>
    obtain ⟨rfl, -, hr, -⟩ := exec_sendCmd_next h
    exact inv.runSendCmd hr c
  | waitCmd c =>
    obtain ⟨h, hq, -⟩ := exec_waitCmd_next h
    exact inv.runWaitCmd (inv.readyOut (by simp [hq])) h
  | bootWait => exact (exec_bootWait_next h).1 ▸ inv.runBootWait
  | bootStop => exact exec_bootStop_next h ▸ inv.runBootStop
  | setMode m => exact (exec_setMode_next h).1 ▸ inv.runSetMode m
  | cmdwRespNone j d | cmdwResp136 j d | cmdwResp48 j d | cmdwResp48b j d =>
    exact Host.Outcome.next.inj h ▸ inv.takeUpCommand _ _ _

/-- Settles O11: by what the step ran. -/
theorem stepKeepsInvariant : Obligations.StepKeepsInvariant := by
  intro s t inv h
  obtain ⟨i, e⟩ | ⟨i, r, e⟩ | rfl | rfl := step_next_cases h
  · exact inv.exec e
  · exact (inv.port r).exec e
  · exact inv.takeUpCommand _ _ _
  · exact inv.of_runs (.hwStep s)

end Sys2Proof.Machine

/-! ### The parts of a command word (O2) -/

namespace Sys2Proof

theorem getLsbD_mask (w b : Nat) : (mask w).getLsbD b = (decide (b < 32) && decide (b < w)) := by
  simp [mask, BitVec.getLsbD_ofNat, Nat.testBit_two_pow_sub_one]

theorem getLsbD_indexMask (cfg : Config) (b : Nat) : cfg.indexMask.getLsbD b =
    decide (b < 32 ∧ cfg.cmd.indexShift ≤ b ∧ b < cfg.cmd.indexShift + 6) := by
  have h6 : (0x3F : Word) = mask 6 := by decide
  unfold Config.indexMask
  rw [h6, BitVec.getLsbD_shiftLeft, getLsbD_mask]
  grind

/-- A value all of whose bits are bits of a value that fits fits too. -/
theorem fits_of_below {w : Nat} {a b : Word} (h : Below a b) (hb : fits w b = true) : fits w a = true := by
  rw [fits_iff] at *
  refine BitVec.eq_of_getLsbD_eq fun i _ => ?_
  have hab := (below_iff a b).1 h i
  have hbm := congrArg (BitVec.getLsbD · i) hb
  simp only [BitVec.getLsbD_and] at hbm ⊢
  grind

theorem Config.wf_iff {cfg : Config} : cfg.wf = true ↔ cfg.shapeOk = true ∧ cfg.layoutOk = true ∧
    cfg.capOk = true ∧ cfg.resetOk = true ∧ cfg.powerOk = true ∧ cfg.clockOk = true ∧ cfg.irqOk = true ∧
    cfg.cmdOk = true ∧ cfg.fieldsOk = true := by
  simp [Config.wf, and_assoc]

/-- What well-formedness says of the command word's fields (R8, R93, log entry 34). -/
theorem Config.cmd_layout {cfg : Config} (h : cfg.wf = true) :
    (∀ k ∈ [cfg.cmd.respNone, cfg.cmd.resp136, cfg.cmd.resp48, cfg.cmd.resp48b],
      k &&& (cfg.cmd.directMask ||| cfg.indexMask) = 0 ∧ fits cfg.regs.cmd.width k = true) ∧
    cfg.cmd.directMask &&& cfg.indexMask = 0 ∧ cfg.cmd.indexShift + 6 ≤ cfg.regs.cmd.width ∧
    fits cfg.regs.cmd.width cfg.cmd.directMask = true := by
  obtain ⟨-, -, -, -, -, -, -, hcmd, -⟩ := Config.wf_iff.1 h
  simp only [Config.cmdOk, Bool.and_eq_true, List.all_cons, List.all_nil, beq_iff_eq,
    decide_eq_true_eq] at hcmd
  obtain ⟨⟨⟨⟨⟨-, k1, k2, k3, k4, -⟩, hd⟩, hs⟩, -⟩, fd, f1, f2, f3, f4, -⟩ := hcmd
  exact ⟨by simp [k1, k2, k3, k4, f1, f2, f3, f4], hd, hs, fd⟩

/-- The windows of a well-formed configuration have all the words R31 names (R7). -/
theorem Config.mem_words {cfg : Config} (h : cfg.wf = true) (x : Reg) : x ∈ cfg.words := by
  have hshape := (Config.wf_iff.1 h).1
  simp only [Config.shapeOk, Bool.and_eq_true, beq_iff_eq] at hshape
  obtain ⟨⟨⟨-, hr⟩, hc⟩, -⟩ := hshape
  have hall : x ∈ Reg.all := by cases x <;> decide
  have hhas : cfg.hasReg x = true := by cases x <;> simp [Config.hasReg, hr, hc]
  exact List.mem_filter.2 ⟨hall, hhas⟩

/-- Every register has one of the access widths, so at most 32 bits (R7, R66). -/
theorem Config.width_le {cfg : Config} (h : cfg.wf = true) (x : Reg) : cfg.width x ≤ 32 := by
  obtain ⟨hshape, hlayout, -⟩ := Config.wf_iff.1 h
  simp only [Config.shapeOk, Config.layoutOk, Place.ok, Bool.and_eq_true, List.all_eq_true,
    List.contains_iff_mem] at hshape hlayout
  obtain ⟨⟨⟨hwidths, -⟩, -⟩, -⟩ := hshape
  obtain ⟨⟨⟨hplaces, -⟩, -⟩, -⟩ := hlayout
  obtain ⟨⟨hplace, -⟩, -⟩ := hplaces x (Config.mem_words h x)
  have h3 := hwidths _ hplace
  simp only [List.mem_cons, List.not_mem_nil, or_false] at h3
  unfold Config.width
  omega

/-- An index of six bits stays within the index field (R94). -/
theorem index_below {cfg : Config} {i : Word} (hi : i.toNat < 64) :
    Below (i <<< cfg.cmd.indexShift) cfg.indexMask := by
  refine (below_iff _ _).2 fun b hb => ?_
  rw [BitVec.getLsbD_shiftLeft, Bool.and_eq_true, Bool.and_eq_true] at hb
  have h6 : b - cfg.cmd.indexShift < 6 := by
    by_contra hge
    have : i.toNat < 2 ^ (b - cfg.cmd.indexShift) :=
      lt_of_lt_of_le hi (Nat.pow_le_pow_right (n := 2) (by norm_num) (show 6 ≤ _ by omega))
    simp [BitVec.getLsbD, Nat.testBit_lt_two_pow this] at hb
  rw [getLsbD_indexMask]
  simp at hb ⊢
  omega

theorem indexMask_fits {cfg : Config} (hs : cfg.cmd.indexShift + 6 ≤ cfg.regs.cmd.width) :
    fits cfg.regs.cmd.width cfg.indexMask = true := by
  refine (fits_iff _ _).2 (BitVec.eq_of_getLsbD_eq fun b _ => ?_)
  rw [BitVec.getLsbD_and, getLsbD_indexMask, getLsbD_mask]
  grind

section CommandWord

variable {cfg : Config} (h : cfg.wf = true) {k : Word}
  (hk : k &&& (cfg.cmd.directMask ||| cfg.indexMask) = 0) (hf : fits cfg.regs.cmd.width k = true)
  (d : Word) {i : Word} (hi : i.toNat < 64)

/-- R91: the word of a class code, direct bits and an index. -/
def commandWord (cfg : Config) (k d i : Word) : Word :=
  trunc cfg.regs.cmd.width (k ||| (d &&& cfg.cmd.directMask) ||| i <<< cfg.cmd.indexShift)

include h hf hi in
/-- The three parts lie within the register, so nothing is cut off. -/
theorem commandWord_eq : commandWord cfg k d i =
    k ||| (d &&& cfg.cmd.directMask) ||| i <<< cfg.cmd.indexShift := by
  obtain ⟨-, -, hs, hdm⟩ := Config.cmd_layout h
  refine trunc_of_fits (fits_or (fits_or hf ?_) (fits_of_below (index_below hi) (indexMask_fits hs)))
  rw [BitVec.and_comm]
  exact fits_and_left d hdm

include h hk hf hi

/-- The three parts do not overlap, so each field's mask gives its part back. -/
theorem commandWord_fields :
    commandWord cfg k d i &&& cfg.cmd.directMask = d &&& cfg.cmd.directMask ∧
    commandWord cfg k d i &&& cfg.indexMask = i <<< cfg.cmd.indexShift ∧
    commandWord cfg k d i &&& ~~~(cfg.cmd.directMask ||| cfg.indexMask) = k := by
  have hdi := (Config.cmd_layout h).2.1
  have hx := (below_iff _ _).1 (index_below (cfg := cfg) hi)
  rw [commandWord_eq h hf d hi]
  generalize i <<< cfg.cmd.indexShift = x at *
  generalize cfg.indexMask = im at *
  refine ⟨?_, ?_, ?_⟩ <;>
    refine BitVec.eq_of_getLsbD_eq fun b hb => ?_
  all_goals
    have hkb := congrArg (BitVec.getLsbD · b) hk
    have hdib := congrArg (BitVec.getLsbD · b) hdi
    have hxb := hx b
    simp only [BitVec.getLsbD_and, BitVec.getLsbD_or, BitVec.getLsbD_not] at hkb hdib ⊢
    grind

theorem commandClass_commandWord : commandClass cfg (commandWord cfg k d i) = k :=
  (commandWord_fields h hk hf d hi).2.2

theorem commandDirect_commandWord :
    commandDirect cfg (commandWord cfg k d i) = (d &&& cfg.cmd.directMask).setWidth 16 :=
  congrArg (BitVec.setWidth 16) (commandWord_fields h hk hf d hi).1

theorem commandIndex_commandWord : commandIndex cfg (commandWord cfg k d i) = i.setWidth 6 := by
  have hs := (Config.cmd_layout h).2.2.1
  have hw : cfg.regs.cmd.width ≤ 32 := Config.width_le h .cmd
  refine BitVec.eq_of_getLsbD_eq fun j hj => ?_
  have hfield := congrArg (BitVec.getLsbD · (cfg.cmd.indexShift + j))
    (commandWord_fields h hk hf d hi).2.1
  simp only [BitVec.getLsbD_and, getLsbD_indexMask, BitVec.getLsbD_shiftLeft] at hfield
  have hlt : cfg.cmd.indexShift + j < 32 := by omega
  simpa [commandIndex, hj, hlt] using hfield

end CommandWord

namespace Machine

/-- `RespClass` of a descriptor is one of the four codes, or 0: either way it stays out of the other two
fields and within the register (R92, R93). -/
theorem respClass_apart {cfg : Config} (h : cfg.wf = true) (c : Descriptor) :
    respClass cfg c &&& (cfg.cmd.directMask ||| cfg.indexMask) = 0 ∧
    fits cfg.regs.cmd.width (respClass cfg c) = true := by
  have hcodes := (Config.cmd_layout h).1
  have hzero : (0 : Word) &&& (cfg.cmd.directMask ||| cfg.indexMask) = 0 ∧
      fits cfg.regs.cmd.width 0 = true := ⟨BitVec.zero_and, fits_zero _⟩
  unfold respClass
  split_ifs
  · exact hzero
  · exact hcodes cfg.cmd.respNone (by simp)
  · exact hcodes cfg.cmd.resp136 (by simp)
  · exact hcodes cfg.cmd.resp48b (by simp)
  · exact hcodes cfg.cmd.resp48 (by simp)
  · exact hzero

/-- R92, by the length; one that `RESP_LENS` lacks, or none of 0, 32, 128, has class bits 0 (log entry 43). -/
theorem respClass_cases (cfg : Config) (c : Descriptor) :
    (cfg.recognises c.respLen = true →
      (c.respLen = 0 → respClass cfg c = cfg.cmd.respNone) ∧
      (c.respLen = 128 → respClass cfg c = cfg.cmd.resp136) ∧
      (c.respLen = 32 → c.busy = true → respClass cfg c = cfg.cmd.resp48b) ∧
      (c.respLen = 32 → c.busy = false → respClass cfg c = cfg.cmd.resp48) ∧
      (c.respLen ≠ 0 → c.respLen ≠ 128 → c.respLen ≠ 32 → respClass cfg c = 0)) ∧
    (cfg.recognises c.respLen = false → respClass cfg c = 0) := by
  refine ⟨fun hr => ⟨fun hl => ?_, fun hl => ?_, fun hl hb => ?_, fun hl hb => ?_, fun h0 h128 h32 => ?_⟩,
    fun hr => ?_⟩
  all_goals simp_all [respClass]

/-- SEND_CMD's word (R91) is that of its class, its direct bits and its index. -/
theorem cmdWord_eq (cfg : Config) (c : Descriptor) :
    cmdWord cfg c = commandWord cfg (respClass cfg c) (c.direct.setWidth 32) (c.index.setWidth 32) := rfl

/-- Settles O2: SEND_CMD's word is made of parts that its three fields give back. -/
theorem commandWordCarriesItsParts : Obligations.CommandWordCarriesItsParts := by
  intro cfg c h hwf
  obtain ⟨hk, hf⟩ := respClass_apart h c
  have hi : (c.index.setWidth 32).toNat < 64 := by
    simp only [Descriptor.wf, decide_eq_true_eq] at hwf
    simp
    omega
  rw [cmdWord_eq, commandClass_commandWord h hk hf _ hi, commandIndex_commandWord h hk hf _ hi,
    commandDirect_commandWord h hk hf _ hi]
  exact ⟨by simp, by simp, respClass_cases cfg c⟩

end Machine
end Sys2Proof

/-! ### The divisor field (O8) -/

namespace Sys2Proof

/-- `b` is one of the bits a move writes. -/
def BitMove.covers (k : BitMove) (b : Nat) : Prop := k.dst ≤ b ∧ b < k.dst + k.len

theorem BitMove.getLsbD_apply {k : BitMove} {b : Nat} (hb : k.covers b) (hlt : b < 32) (n : Nat) :
    (k.apply n).getLsbD b = n.testBit (k.src + (b - k.dst)) := by
  simp only [BitMove.apply, BitVec.getLsbD_ofNat, Nat.testBit_mul_two_pow, Nat.testBit_mod_two_pow,
    Nat.testBit_div_two_pow]
  grind [BitMove.covers]

theorem BitMove.getLsbD_apply_outside {k : BitMove} {b : Nat} (hb : ¬ k.covers b) (n : Nat) :
    (k.apply n).getLsbD b = false := by
  simp only [BitMove.apply, BitVec.getLsbD_ofNat, Nat.testBit_mul_two_pow, Nat.testBit_mod_two_pow]
  grind [BitMove.covers]

/-- A move sets bits of its destination only (R97). -/
theorem BitMove.apply_below (k : BitMove) (n : Nat) :
    Below (k.apply n) (BitVec.ofNat 32 ((2 ^ k.len - 1) * 2 ^ k.dst)) := by
  refine (below_iff _ _).2 fun b hb => ?_
  simp only [BitMove.apply, BitVec.getLsbD_ofNat, Nat.testBit_mul_two_pow, Nat.testBit_mod_two_pow,
    Nat.testBit_two_pow_sub_one] at hb ⊢
  grind

/-- A fold that joins words is the join of its start and the fold from 0. -/
theorem foldl_or_start {α : Type} (f : α → Word) (a : Word) (l : List α) :
    l.foldl (fun w x => w ||| f x) a = a ||| l.foldl (fun w x => w ||| f x) 0 := by
  have : Std.Associative (α := Word) (· ||| ·) := ⟨BitVec.or_assoc⟩
  simpa [List.foldl_map] using
    List.foldl_assoc (op := (· ||| · : Word → Word → Word)) (l := l.map f) (a₁ := a) (a₂ := 0)

theorem foldl_or_cons {α : Type} (f : α → Word) (x : α) (l : List α) :
    (x :: l).foldl (fun w y => w ||| f y) 0 = f x ||| l.foldl (fun w y => w ||| f y) 0 := by
  simpa using foldl_or_start f (0 ||| f x) l

theorem foldl_or_below {α : Type} {f g : α → Word} (h : ∀ x, Below (f x) (g x)) : ∀ l : List α,
    Below (l.foldl (fun w x => w ||| f x) 0) (l.foldl (fun w x => w ||| g x) 0)
  | [] => .refl _
  | x :: l => by
    rw [foldl_or_cons f, foldl_or_cons g]
    refine (below_iff _ _).2 fun b hb => ?_
    rw [BitVec.getLsbD_or, Bool.or_eq_true] at hb ⊢
    exact hb.imp ((below_iff _ _).1 (h x) b) ((below_iff _ _).1 (foldl_or_below h l) b)

/-- Every value of a table is below the join of them all. -/
theorem below_foldl_or : ∀ {l : List Word} {v : Word}, v ∈ l → Below v (l.foldl (· ||| ·) 0)
  | x :: l, v, hv => by
    refine (below_iff _ _).2 fun b hb => ?_
    rw [foldl_or_cons (fun y => y) x l, BitVec.getLsbD_or, Bool.or_eq_true]
    rcases List.mem_cons.1 hv with rfl | hv
    · exact .inl hb
    · exact .inr ((below_iff _ _).1 (below_foldl_or hv) b hb)

/-- No encoding has a bit outside the image (R8). -/
theorem DivEncoding.encode_below (e : DivEncoding) (n : Nat) : Below (e.encode n) e.image := by
  cases e with
  | fields ms => exact foldl_or_below (fun k => k.apply_below n) ms
  | table vs =>
    rcases lt_or_ge n vs.length with hn | hn
    · simpa [DivEncoding.encode, DivEncoding.image, hn] using below_foldl_or (List.getElem_mem hn)
    · simpa [DivEncoding.encode, hn] using below_zero _

theorem encode_fields_cons (k : BitMove) (ms : List BitMove) (n : Nat) :
    (DivEncoding.fields (k :: ms)).encode n = k.apply n ||| (DivEncoding.fields ms).encode n :=
  foldl_or_cons (fun m : BitMove => m.apply n) k ms

theorem encode_fields_outside {b : Nat} (n : Nat) : ∀ {ms : List BitMove}, (∀ k ∈ ms, ¬ k.covers b) →
    ((DivEncoding.fields ms).encode n).getLsbD b = false
  | [], _ => by simp [DivEncoding.encode]
  | k :: ms, h => by
    obtain ⟨hk, hms⟩ := List.forall_mem_cons.1 h
    rw [encode_fields_cons, BitVec.getLsbD_or, k.getLsbD_apply_outside hk, encode_fields_outside n hms]
    rfl

/-- Equal encodings by moves come from field values equal in every source bit. Each destination is written by
one move only, so the first move's bits and the rest's can be read off apart. -/
theorem testBit_eq_of_encode_fields {m n : Nat} : ∀ {ms : List BitMove} {start : Nat},
    movesOk start ms = true → (DivEncoding.fields ms).encode m = (DivEncoding.fields ms).encode n →
    ∀ i, start ≤ i → i < start + (ms.map BitMove.len).sum → m.testBit i = n.testBit i
  | [], start, _, _, i, hlo, hhi => by simp at hhi; omega
  | k :: ms, start, hok, heq, i, hlo, hhi => by
    simp only [movesOk, Bool.and_eq_true, Bool.or_eq_true, decide_eq_true_eq, beq_iff_eq,
      List.all_eq_true] at hok
    obtain ⟨⟨⟨hsrc, h32⟩, hapart⟩, hrest⟩ := hok
    have others : ∀ b, k.covers b → ∀ q, ((DivEncoding.fields ms).encode q).getLsbD b = false := by
      intro b hb q
      refine encode_fields_outside q fun j hj hjb => ?_
      have := hapart j hj
      unfold BitMove.covers at hb hjb
      omega
    have bits : ∀ b, _ := fun b => congrArg (BitVec.getLsbD · b) heq
    simp only [encode_fields_cons, BitVec.getLsbD_or] at bits
    by_cases hi : i < start + k.len
    · have hb : k.covers (k.dst + (i - start)) := ⟨by omega, by omega⟩
      have hbit := bits (k.dst + (i - start))
      rw [others _ hb, others _ hb, k.getLsbD_apply hb (by omega), k.getLsbD_apply hb (by omega)] at hbit
      have hsub : k.src + (i - start) = i := by omega
      simpa [hsub] using hbit
    · refine testBit_eq_of_encode_fields hrest ?_ i (by omega) (by simp at hhi; omega)
      refine BitVec.eq_of_getLsbD_eq fun b _ => ?_
      by_cases hb : k.covers b
      · rw [others b hb, others b hb]
      · simpa [k.getLsbD_apply_outside hb] using bits b

theorem sourceBits_eq_sum (ms : List BitMove) :
    ms.foldl (fun n m => n + m.len) 0 = (ms.map BitMove.len).sum := by
  simp [List.sum_eq_foldl, List.foldl_map]

/-- R8: what `DivEncoding.injective` checks is that `EncodeDiv` is injective up to `maxN`. -/
theorem DivEncoding.encode_injective {e : DivEncoding} {maxN m n : Nat} (h : e.injective maxN = true)
    (hm : m ≤ maxN) (hn : n ≤ maxN) (heq : e.encode m = e.encode n) : m = n := by
  cases e with
  | fields ms =>
    simp only [DivEncoding.injective, Bool.and_eq_true, decide_eq_true_eq, sourceBits_eq_sum] at h
    obtain ⟨hok, hmax⟩ := h
    refine Nat.eq_of_testBit_eq fun i => ?_
    rcases lt_or_ge i (ms.map BitMove.len).sum with hi | hi
    · exact testBit_eq_of_encode_fields hok heq i (Nat.zero_le i) (by omega)
    · have hpow : 2 ^ (ms.map BitMove.len).sum ≤ 2 ^ i := Nat.pow_le_pow_right (by norm_num) hi
      rw [Nat.testBit_lt_two_pow (by omega), Nat.testBit_lt_two_pow (by omega)]
  | table vs =>
    simp only [DivEncoding.injective, Bool.and_eq_true, decide_eq_true_eq] at h
    obtain ⟨hnodup, hmax⟩ := h
    have hm' : m < vs.length := by omega
    have hn' : n < vs.length := by omega
    simp only [DivEncoding.encode, List.getD_eq_getElem _ _ hm', List.getD_eq_getElem _ _ hn'] at heq
    exact (hnodup.getElem_inj_iff).1 heq

/-- Settles O8: the two clauses of `Config.clockOk` about the encoding. -/
theorem divisorEncodingIsInjective : Obligations.DivisorEncodingIsInjective := by
  intro cfg h
  obtain ⟨-, -, -, -, -, hclock, -⟩ := Config.wf_iff.1 h
  simp only [Config.clockOk, Bool.and_eq_true, beq_iff_eq] at hclock
  obtain ⟨⟨⟨⟨⟨-, himage⟩, hinj⟩, -⟩, -⟩, -⟩ := hclock
  exact ⟨fun m n hm hn => DivEncoding.encode_injective hinj hm hn,
    fun n _ => (hasBit_false _ _).1 ((cfg.clock.encodeDiv.encode_below n).no_bit ((hasBit_false _ _).2 himage))⟩

end Sys2Proof

/-! ### Handle creation (O9) -/

namespace Sys2Proof.Machine

theorem createHandle_ok {cfg : Config} {base : Addr} (hc : cfg.wf = true) (hb : base.toNat % 4 = 0)
    (v : Voltage) : createHandle cfg base v = .ok (State.created cfg base v) := by
  simp [createHandle, hc, hb]

theorem createHandle_unaligned {cfg : Config} {base : Addr} (hc : cfg.wf = true) (hb : base.toNat % 4 ≠ 0)
    (v : Voltage) : createHandle cfg base v = .error .access := by
  simp [createHandle, hc, hb]

theorem createHandle_badConfig {cfg : Config} (hc : cfg.wf = false) (base : Addr) (v : Voltage) :
    createHandle cfg base v = .error .config := by
  simp [createHandle, hc]

theorem created_noReset (cfg : Config) (base : Addr) (v : Voltage) : NoReset (State.created cfg base v) :=
  (hasBit_false _ _).2 BitVec.zero_and

/-- Settles O9: by the two checks of handle creation. -/
theorem handleCreationLoadsCapabilities : Obligations.HandleCreationLoadsCapabilities := fun cfg base v =>
  ⟨fun hc hb => ⟨State.created cfg base v, createHandle_ok hc hb v, rfl, rfl, rfl, rfl, rfl, rfl, rfl, rfl, rfl,
      rfl, rfl, rfl, created_noReset cfg base v, rfl, rfl⟩,
   fun hc hb => createHandle_unaligned hc hb v,
   fun hc => createHandle_badConfig hc base v⟩

/-! ### The endings of WAIT_CMD (O42) and their deadlines (O47) -/

/-- What the caller and the trace see of the failing exit (R188, R195). -/
theorem failWith_ends (c : Cause) (vs : List Word) (s : State) :
    (failWith c vs s).reply = .fail ∧ (failWith c vs s).seq = .idle ∧
    (failWith c vs s).respBuf = s.respBuf ∧
    ∃ r, OnlyReads .swreset r ∧ (failWith c vs s).trace = s.trace ++ recoverAccesses s.cfg r ∧
      resetLog s.cfg (s.log ++ [⟨c, vs⟩]) (failWith c vs s).log := by
  obtain ⟨w, l, r, e, hl, ht, hg⟩ := failWith_spec c vs s
  rw [e]
  exact ⟨rfl, rfl, r.respBuf, l, hl, ht, hg⟩

/-- Settles O42: the top-level wait, then the branch its value selects. -/
theorem nonDataWaitEndings : Obligations.NonDataWaitEndings := by
  intro s c hwf hq hs hboot hdata
  rw [exec_waitCmd_run hwf hq hs]
  have r := Runs.poll .nis (fun v => v != 0) s.cfg.budgets.tCmd s
  obtain ⟨l, hl, ht, hlast⟩ := poll_reads .nis (fun v => v != 0) s.cfg.budgets.tCmd s
  have hlog := poll_log .nis (fun v => v != 0) s.cfg.budgets.tCmd s
  refine ⟨l, hl, ?_⟩
  obtain ⟨a, ha, hend⟩ := runWaitCmd_cases c s
  rw [← ha] at r ht hlog
  have fails : ∀ cause vs, runWaitCmd c s = .next (failWith cause vs a) → ∃ t k, runWaitCmd c s = .next t ∧
      t.reply = .fail ∧ t.seq = .idle ∧ OnlyReads .swreset k ∧
      t.trace = s.trace ++ l ++ recoverAccesses s.cfg k ∧
      resetLog s.cfg (s.log ++ [⟨cause, vs⟩]) t.log ∧ t.respBuf = s.respBuf := by
    intro cause vs e
    obtain ⟨hreply, hseq, hbuf, k, hk, htr, hlg⟩ := failWith_ends cause vs a
    rw [ht, r.cfg] at htr
    rw [hlog, r.cfg] at hlg
    exact ⟨_, k, e, hreply, hseq, hk, htr, hlg, hbuf.trans r.respBuf⟩
  obtain ⟨-, e⟩ | ⟨n, hn, ⟨hb, -⟩ | ⟨-, hd, -⟩ | ⟨-, -, e⟩⟩ := hend
  · exact .inl (fails .cmdTimeout [] e)
  · simp [hboot] at hb
  · simp [hdata] at hd
  refine .inr ⟨n, hlast n hn, by simpa using (poll_ok hn).1, ?_⟩
  have hcases := waitNonData_cases c n a
  rw [← e, r.cfg] at hcases
  obtain ⟨herr, e'⟩ | ⟨herr, hcc, _, z, rfl, rfl, e'⟩ | hneither := hcases
  · exact .inl ⟨herr, fails .hwError [n] e'⟩
  · obtain ⟨w, q, b, hrun, ew, htrace, hlw, -, -, h128, h32, hnone⟩ := decodeResponse_spec c a
    have hbuf := (Runs.regWrite .nis s.cfg.irq.cc (decodeResponse c a)).respBuf
    rw [ew] at hbuf e'
    rw [r.cfg, r.respBuf] at *
    refine .inr (.inl ⟨herr, hcc, _, q, e', rfl, rfl, ?_, ?_, fun h hr => ?_, fun h hr => ?_, fun h => ?_⟩)
    · simp [hlw, hlog]
    · simp [htrace, ht, hrun.cfg, r.cfg, wrote]
    · obtain ⟨r3, r2, r1, r0, hq, hb⟩ := h128 h hr
      exact ⟨r3, r2, r1, r0, hq, hbuf.trans hb⟩
    · obtain ⟨r0, hq, hb⟩ := h32 h hr
      exact ⟨r0, hq, hbuf.trans hb⟩
    · exact ⟨(hnone h).1, hbuf.trans (hnone h).2⟩
  · exact .inr (.inr hneither)

/-- A poll that times out never read a value that meets its condition (R11). -/
theorem pollLoop_timeout_reads (x : Reg) (cond : Word → Bool) (b t0 : Nat) : ∀ (n : Nat) (s : State),
    (pollLoop x cond b t0 n s).1 = none → ∃ l, (pollLoop x cond b t0 n s).2.trace = s.trace ++ l ∧
      ∀ a ∈ l, ∃ v, a = .read x v ∧ cond v = false
  | 0, s => fun _ => ⟨[], by simp [pollLoop], by simp⟩
  | n + 1, s => by
    unfold pollLoop
    dsimp only
    split
    · exact fun _ => ⟨[], by simp, by simp⟩
    · split
      · exact nofun
      · next hc =>
        intro h
        obtain ⟨l, ht, hl⟩ := pollLoop_timeout_reads x cond b t0 n _ h
        refine ⟨.read x (regRead x (sampleClock s)).1 :: l, by simp [ht], List.forall_mem_cons.2 ⟨?_, hl⟩⟩
        exact ⟨_, rfl, by simpa using hc⟩

/-- A poll whose first read is made in time and meets the condition returns what it read (R11). -/
theorem poll_first_read {x : Reg} {cond : Word → Bool} {b : Nat} {s : State}
    (ht : (sampleClock (sampleClock s)).env.now - (sampleClock s).env.now ≤ b)
    (hc : cond ((hwStep (sampleClock (sampleClock s))).view x) = true) :
    (poll x cond b s).1 = some ((hwStep (sampleClock (sampleClock s))).view x) := by
  have hin : ¬ b < (sampleClock (sampleClock s)).env.now - (sampleClock s).env.now := by omega
  have hread : cond (regRead x (sampleClock (sampleClock s))).1 = true := hc
  simp only [poll, waitFuel, pollLoop, if_neg hin, hread, if_true]
  rfl

/-- The failing exit logs its cause and, where its reset times out, that; nothing else. -/
theorem failWith_log (c : Cause) (vs : List Word) (s : State) : ∃ l, (failWith c vs s).log = s.log ++ l ∧
    ∀ e ∈ l, e.cause = c ∨ e.cause = .resetTimeout := by
  obtain ⟨-, -, -, r, -, -, h | h⟩ := failWith_ends c vs s
  · exact ⟨_, h, by simp⟩
  · exact ⟨_, h.trans (List.append_assoc _ _ _), by simp⟩

theorem failWith_monotone (c : Cause) (vs : List Word) (s : State) :
    s.env.now ≤ (failWith c vs s).env.now := by
  obtain ⟨w, l, r, e, -⟩ := failWith_spec c vs s
  rw [e]
  exact r.now

/-- What was logged from `s` to `t` holds the timeout `c` only where `t` is past `d`. -/
def LogsLate (c : Cause) (d : Nat) (s t : State) : Prop :=
  ∃ l, t.log = s.log ++ l ∧ ∀ e ∈ l, e.cause = c → d < t.env.now

theorem LogsLate.of_mem {c : Cause} {d : Nat} {s t : State} (h : LogsLate c d s t) {vs : List Word}
    (hm : ⟨c, vs⟩ ∈ t.log.drop s.log.length) : d < t.env.now := by
  obtain ⟨l, hl, hlate⟩ := h
  rw [hl, List.drop_left] at hm
  exact hlate _ hm rfl

theorem LogsLate.of_log_eq {c : Cause} {d : Nat} {s t : State} (h : t.log = s.log) : LogsLate c d s t :=
  ⟨[], by simp [h], by simp⟩

/-- The failing exit logs the timeout `c` late when its own cause is not `c`, or the deadline has passed. -/
theorem LogsLate.failWith {c k : Cause} {d : Nat} {s w : State} (vs : List Word) (hlog : w.log = s.log)
    (hc : c ≠ .resetTimeout) (hk : k = c → d < w.env.now) : LogsLate c d s (failWith k vs w) := by
  obtain ⟨l, hl, hcause⟩ := failWith_log k vs w
  refine ⟨l, hl.trans (congrArg (· ++ l) hlog), fun e he hec => ?_⟩
  have hkc : k = c := by
    rcases hcause e he with h | h
    · exact h.symm.trans hec
    · exact absurd (hec.symm.trans h) hc
  exact (hk hkc).trans_le (failWith_monotone k vs w)

/-- How a wait that started at `s` and had until `d` may have ended in `t`: with OK by then only, and with the
timeout `c` logged after it only. -/
structure InTime (c : Cause) (d : Nat) (s t : State) : Prop where
  ok   : t.reply = .ok → t.env.now ≤ d
  late : LogsLate c d s t

theorem InTime.failWith {c k : Cause} {d : Nat} {s w : State} (vs : List Word) (hlog : w.log = s.log)
    (hc : c ≠ .resetTimeout) (hk : k = c → d < w.env.now) : InTime c d s (failWith k vs w) :=
  ⟨fun h => (by rw [(failWith_ends k vs w).1] at h; cases h), .failWith vs hlog hc hk⟩

/-- A successful exit logs nothing, so it only has to be early enough. -/
theorem InTime.success {c : Cause} {d : Nat} {s t : State} (hlog : t.log = s.log) (ht : t.env.now ≤ d) :
    InTime c d s t :=
  ⟨fun _ => ht, .of_log_eq hlog⟩

/-- The data wait against its own deadline (R151, R193). -/
theorem waitData_inTime (s : State) :
    InTime .dataTimeout ((sampleClock s).env.now + s.cfg.budgets.tData) s (waitData s) := by
  obtain ⟨w, -, hlog, ⟨hlate, e⟩ | ⟨x, a, e⟩ | ⟨hin, e⟩⟩ :=
    dataLoop_endings (sampleClock s).env.now (waitFuel (sampleClock s)) (sampleClock s)
  all_goals
    rw [waitData, e]
  · exact .failWith _ hlog (by decide) fun _ => hlate
  · exact .failWith _ hlog (by decide) nofun
  · exact .success hlog hin

/-- The data wait logs no other timeout than its own. -/
theorem waitData_logsLate {s w : State} (h : w.log = s.log) (d : Nat) :
    LogsLate .cmdTimeout d s (waitData w) := by
  obtain ⟨u, -, hlog, ⟨-, e⟩ | ⟨x, a, e⟩ | ⟨-, e⟩⟩ :=
    dataLoop_endings (sampleClock w).env.now (waitFuel (sampleClock w)) (sampleClock w)
  all_goals
    rw [waitData, e]
  · exact .failWith _ (hlog.trans h) (by decide) nofun
  · exact .failWith _ (hlog.trans h) (by decide) nofun
  · exact .of_log_eq (hlog.trans h)

theorem waitBoot_inTime {s w : State} {d : Nat} (hlog : w.log = s.log) (hd : w.env.now ≤ d) (n : Word) :
    InTime .cmdTimeout d s (waitBoot n w) := by
  obtain ⟨-, e⟩ | ⟨-, a, b, rfl, rfl, e⟩ := waitBoot_cases n w
  all_goals
    rw [e]
  · exact .failWith _ hlog (by decide) nofun
  · exact .success (by simp [hlog]) (by simpa using hd)

theorem waitNonData_inTime {s w t : State} {d : Nat} (hlog : w.log = s.log) (hd : w.env.now ≤ d)
    {c : Descriptor} {n : Word} (h : waitNonData c n w = .next t) : InTime .cmdTimeout d s t := by
  obtain ⟨-, e⟩ | ⟨-, -, a, b, rfl, rfl, e⟩ | ⟨-, -, e⟩ := waitNonData_cases c n w
  · obtain rfl := Host.Outcome.next.inj (e.symm.trans h)
    exact .failWith _ hlog (by decide) nofun
  · obtain rfl := Host.Outcome.next.inj (e.symm.trans h)
    obtain ⟨v, q, b, -, ev, -, hlv, hnow, -⟩ := decodeResponse_spec c w
    exact .success (by simp [ev, hlv, hlog]) (by simpa [ev, hnow] using hd)
  · cases e.symm.trans h

/-- WAIT_CMD against the deadline of its top-level wait (R144, R193): the data branch may succeed later, since
it has a budget of its own. -/
theorem runWaitCmd_inTime {s t : State} {c : Descriptor} (h : runWaitCmd c s = .next t) :
    let d := (sampleClock s).env.now + s.cfg.budgets.tCmd
    LogsLate .cmdTimeout d s t ∧ (c.bootEn = true ∨ c.dataXfer = false → InTime .cmdTimeout d s t) := by
  intro d
  have hlog := poll_log .nis (fun v => v != 0) s.cfg.budgets.tCmd s
  have inTime : InTime .cmdTimeout d s t →
      LogsLate .cmdTimeout d s t ∧ (c.bootEn = true ∨ c.dataXfer = false → InTime .cmdTimeout d s t) :=
    fun i => ⟨i.late, fun _ => i⟩
  obtain ⟨a, rfl, ⟨hn, e⟩ | ⟨n, hn, hbranch⟩⟩ := runWaitCmd_cases c s
  · obtain rfl := Host.Outcome.next.inj (e.symm.trans h)
    exact inTime (.failWith _ hlog (by decide) fun _ => poll_timeout hn)
  · have hd : (poll .nis (fun v => v != 0) s.cfg.budgets.tCmd s).2.env.now ≤ d :=
      Nat.sub_le_iff_le_add'.1 (poll_ok hn).2.1
    obtain ⟨-, e⟩ | ⟨hb, hx, e⟩ | ⟨-, -, e⟩ := hbranch
    · obtain rfl := Host.Outcome.next.inj (e.symm.trans h)
      exact inTime (waitBoot_inTime hlog hd n)
    · obtain rfl := Host.Outcome.next.inj (e.symm.trans h)
      exact ⟨waitData_logsLate hlog d, by simp [hb, hx]⟩
    · exact inTime (waitNonData_inTime hlog hd (e.symm.trans h))

/-- Settles O47: the poll, the data wait and WAIT_CMD each against its deadline. -/
theorem noSuccessAfterTheDeadline : Obligations.NoSuccessAfterTheDeadline := by
  refine ⟨fun x cond b s => ⟨fun v hv => ?_, fun hv => ?_, poll_first_read⟩,
    fun s => ⟨(waitData_inTime s).ok, (waitData_inTime s).late.of_mem⟩, fun s t c h => ?_⟩
  · obtain ⟨hc, hin, -⟩ := poll_ok hv
    exact ⟨hc, Nat.sub_le_iff_le_add'.1 hin⟩
  · exact ⟨poll_timeout hv, pollLoop_timeout_reads x cond b _ _ (sampleClock s) hv⟩
  · obtain ⟨hlate, hok⟩ := runWaitCmd_inTime (exec_waitCmd_next h).1
    exact ⟨fun hb => (hok hb).ok, hlate.of_mem⟩

end Sys2Proof.Machine

/-! ### What an operation changes (O56, O59, O60), and where it is accepted (O34) -/

namespace Sys2Proof.Machine

/-! #### Each operation as one run of accesses and the fields it sets at its end -/

/-- What the parts of INIT before its last keep, beside what `Keeps` says: the sequencer's state, the response
buffer and the handle's readiness (not its voltage). -/
structure BringsUp (s t : State) : Prop where
  keeps   : Keeps s t
  seq     : t.seq = s.seq
  respBuf : t.respBuf = s.respBuf
  ready   : t.h.ready = s.h.ready

theorem BringsUp.ofRuns {s t : State} (r : Runs s t) : BringsUp s t :=
  ⟨.ofRuns r, r.seq, r.respBuf, congrArg Handle.ready r.h⟩

theorem BringsUp.trans {s t u : State} (a : BringsUp s t) (b : BringsUp t u) : BringsUp s u :=
  ⟨a.keeps.trans b.keeps, b.seq.trans a.seq, b.respBuf.trans a.respBuf, b.ready.trans a.ready⟩

theorem BringsUp.voltage (v : Voltage) (s : State) : BringsUp s { s with h := { s.h with voltage := v } } :=
  ⟨.seqFields s v s.h.ready s.seq s.sent s.respBuf s.reply, rfl, rfl, rfl⟩

theorem BringsUp.powerUp (s : State) : BringsUp s (powerUp s) := by
  obtain ⟨w, r, e, -⟩ := powerUp_spec s
  exact e ▸ (BringsUp.ofRuns r).trans (.voltage _ w)

/-- INIT's last part sets the readiness its first part took away; every earlier exit leaves it away (R218). -/
theorem runInit_ends (s : State) : Keeps s (runInit s) ∧ (runInit s).seq = .idle ∧
    (runInit s).respBuf = s.respBuf ∧ ((runInit s).h.ready = true ↔ (runInit s).reply = .ok) := by
  suffices ∃ w r y, BringsUp (startInit s) w ∧ (r = true ↔ y = .ok) ∧
      runInit s = { w with h := { w.h with ready := r }, reply := y } by
    obtain ⟨w, r, y, up, hr, e⟩ := this
    have start : Keeps s (startInit s) := .seqFields s s.h.voltage false .idle none s.respBuf s.reply
    rw [e]
    exact ⟨(start.trans up.keeps).trans (.seqFields w w.h.voltage r w.seq w.sent w.respBuf y), up.seq,
      up.respBuf, hr⟩
  have reset := BringsUp.ofRuns (.resetProc s.cfg.reset.all (startInit s))
  have clock := fun a => (BringsUp.powerUp a).trans (.ofRuns (.setClock s.cfg.clock.initTargetKHz (powerUp a)))
  have notReady : ∀ {w : State}, BringsUp (startInit s) w → (w.h.ready = true ↔ Reply.fail = .ok) :=
    fun up => by simp [up.ready, startInit]
  obtain ⟨a, rfl, ⟨-, e⟩ | ⟨-, p, b, rfl, rfl, ⟨-, e⟩ | ⟨-, e⟩⟩⟩ := runInit_cases s
  · exact ⟨_, _, .fail, reset, notReady reset, e⟩
  · have up := reset.trans (clock _)
    exact ⟨_, _, .fail, up, notReady up, e⟩
  · obtain ⟨w, r, ew, -⟩ := finishInit_spec
      (setClock s.cfg.clock.initTargetKHz (powerUp (resetProc s.cfg.reset.all (startInit s)).2)).2
    exact ⟨w, true, .ok, (reset.trans (clock _)).trans (.ofRuns r), by simp, by rw [e, ew]⟩

/-- `t` is where accesses lead from `s`, with the sequencer's state, the outstanding descriptor, the response
buffer and the reply set at the end: what every operation but INIT does. -/
def EndsIn (s t : State) (q : SeqState) (d : Option Descriptor) (b : RespBuf) (y : Reply) : Prop :=
  ∃ w, Runs s w ∧ t = { w with seq := q, sent := d, respBuf := b, reply := y }

section EndsIn

variable {s t : State} {q : SeqState} {d : Option Descriptor} {b : RespBuf} {y : Reply}

/-- An operation that sets the reply only. -/
theorem EndsIn.replies {w : State} (r : Runs s w) (e : t = { w with reply := y }) :
    EndsIn s t s.seq s.sent s.respBuf y :=
  ⟨w, r, by rw [e, ← r.seq, ← r.sent, ← r.respBuf]⟩

/-- An operation that leaves the response buffer alone. -/
theorem EndsIn.settles {w : State} (r : Runs s w) (e : t = { w with seq := q, sent := d, reply := y }) :
    EndsIn s t q d s.respBuf y :=
  ⟨w, r, by rw [e, ← r.respBuf]⟩

theorem EndsIn.after {a : State} (r : Runs s a) (e : EndsIn a t q d b y) : EndsIn s t q d b y := by
  obtain ⟨w, ra, e⟩ := e
  exact ⟨w, r.trans ra, e⟩

theorem EndsIn.seq (e : EndsIn s t q d b y) : t.seq = q := by
  obtain ⟨w, -, rfl⟩ := e; rfl

theorem EndsIn.respBuf (e : EndsIn s t q d b y) : t.respBuf = b := by
  obtain ⟨w, -, rfl⟩ := e; rfl

theorem EndsIn.reply (e : EndsIn s t q d b y) : t.reply = y := by
  obtain ⟨w, -, rfl⟩ := e; rfl

theorem EndsIn.h (e : EndsIn s t q d b y) : t.h = s.h := by
  obtain ⟨w, r, rfl⟩ := e; exact r.h

theorem EndsIn.keeps (e : EndsIn s t q d b y) : Keeps s t := by
  obtain ⟨w, r, rfl⟩ := e
  exact (Keeps.ofRuns r).trans (.seqFields w w.h.voltage w.h.ready q d b y)

end EndsIn

theorem failWith_endsIn (c : Cause) (vs : List Word) (s : State) :
    EndsIn s (failWith c vs s) .idle none s.respBuf .fail := by
  obtain ⟨w, l, r, e, -⟩ := failWith_spec c vs s
  exact .settles r e

theorem runSetMode_endsIn (m : ModeRec) (s : State) :
    ∃ y, EndsIn s (runSetMode m s) s.seq s.sent s.respBuf y := by
  obtain ⟨a, rfl, ⟨-, e⟩ | ⟨-, b, c, rfl, rfl, e⟩⟩ := runSetMode_cases m s
  · exact ⟨_, .replies (.setClock _ s) e⟩
  · exact ⟨_, .replies (((Runs.setClock _ s).trans (.regRmw _ _ _)).trans (.regRmw _ _ _)) e⟩

theorem runBootWait_endsIn (s : State) : ∃ y, EndsIn s (runBootWait s) s.seq s.sent s.respBuf y := by
  obtain ⟨q, a, rfl, rfl, ⟨-, e⟩ | ⟨-, b, rfl, e⟩⟩ := runBootWait_cases s
  · exact ⟨_, .replies (.regRead _ s) e⟩
  · exact ⟨_, .replies ((Runs.regRead _ s).trans (.dmaAck _)) e⟩

theorem runBootStop_endsIn (s : State) : EndsIn s (runBootStop s) .idle none s.respBuf .none := by
  obtain ⟨a, b, d, rfl, rfl, rfl, e⟩ := runBootStop_eq s
  exact .settles (((Runs.regRmw _ _ s).trans (.clearAll _)).trans (.resetProc _ _)) e

theorem runSendCmd_endsIn (c : Descriptor) (s : State) :
    EndsIn s (runSendCmd c s) .issued (some c) s.respBuf .none := by
  obtain ⟨a, b, d, e, rfl, hb, rfl, rfl, -, h⟩ := runSendCmd_eq c s
  have block : Runs (regWrite .nis s.cfg.irq.nisAll s) b := by
    rw [hb]
    split
    · exact .programTransfer c _
    · exact .refl _
  exact .settles ((((Runs.regWrite _ _ s).trans block).trans (.regWrite _ _ _)).trans (.regWrite _ _ _)) h

theorem waitBoot_endsIn (n : Word) (s : State) :
    ∃ y, EndsIn s (waitBoot n s) (if y = .ok then .streaming else .idle) none s.respBuf y := by
  obtain ⟨-, e⟩ | ⟨-, a, b, rfl, rfl, e⟩ := waitBoot_cases n s
  · exact ⟨.fail, e ▸ failWith_endsIn _ _ s⟩
  · exact ⟨.ok, .settles ((Runs.regWrite _ _ s).trans (.regWrite _ _ _)) e⟩

theorem waitData_endsIn (s : State) : ∃ y, EndsIn s (waitData s) .idle none s.respBuf y := by
  obtain ⟨w, rw, -, hend⟩ :=
    dataLoop_endings (sampleClock s).env.now (waitFuel (sampleClock s)) (sampleClock s)
  have r := (Runs.sampleClock s).trans rw
  have fails : ∀ c vs, waitData s = failWith c vs w → ∃ y, EndsIn s (waitData s) .idle none s.respBuf y :=
    fun c vs e => ⟨_, r.respBuf ▸ e ▸ (failWith_endsIn c vs w).after r⟩
  obtain ⟨-, e⟩ | ⟨x, a, e⟩ | ⟨-, e⟩ := hend
  · exact fails _ _ e
  · exact fails _ _ e
  · exact ⟨_, .settles r e⟩

/-- What may have come from the response buffer `old` to `new` where WAIT_CMD of `c` answered `y` (R20, R80). -/
def FillsBuffer (c : Descriptor) (y : Reply) (old new : RespBuf) : Prop :=
  c.bootEn = false ∧ c.dataXfer = false ∧ y = .ok ∧
    (c.respLen = 128 ∨ (c.respLen = 32 ∧ new = { old with w0 := new.w0 }))

/-- The response decoder writes the buffer for the lengths 128 and 32 only, and for 32 its first word. -/
theorem decodeResponse_runs (c : Descriptor) (s : State) : ∃ w b, Runs s w ∧
    decodeResponse c s = { w with respBuf := b } ∧
    (b ≠ s.respBuf → c.respLen = 128 ∨ (c.respLen = 32 ∧ b = { s.respBuf with w0 := b.w0 })) := by
  obtain ⟨w, q, b, r, e, -, -, -, -, -, h32, hnone⟩ := decodeResponse_spec c s
  refine ⟨w, b, r, e, fun hb => ?_⟩
  have hr : s.cfg.recognises c.respLen = true := by
    by_contra hr
    exact hb (hnone (.inl (by simpa using hr))).2
  by_cases h1 : c.respLen = 128
  · exact .inl h1
  · have h2 : c.respLen = 32 := by
      by_contra h2
      exact hb (hnone (.inr ⟨h1, h2⟩)).2
    obtain ⟨r0, -, rfl⟩ := h32 h2 hr
    exact .inr ⟨h2, rfl⟩

/-- Accesses made after the response buffer was written run as if it had not been. -/
theorem Runs.trans_respBuf {s w u : State} {b : RespBuf} (a : Runs s w)
    (r : Runs { w with respBuf := b } u) : Runs s { u with respBuf := s.respBuf } :=
  a.respBuf ▸ a.trans { r with respBuf := rfl }

theorem waitNonData_endsIn {c : Descriptor} {n : Word} {s t : State} (hb : c.bootEn = false)
    (hx : c.dataXfer = false) (h : waitNonData c n s = .next t) : ∃ b y, EndsIn s t .idle none b y ∧
    (b ≠ s.respBuf → FillsBuffer c y s.respBuf b) := by
  obtain ⟨-, e⟩ | ⟨-, -, a, d, rfl, rfl, e⟩ | ⟨-, -, e⟩ := waitNonData_cases c n s
  · obtain rfl := Host.Outcome.next.inj (e.symm.trans h)
    exact ⟨_, _, failWith_endsIn _ _ s, fun hne => absurd rfl hne⟩
  · obtain rfl := Host.Outcome.next.inj (e.symm.trans h)
    obtain ⟨w, b, r, ew, hfill⟩ := decodeResponse_runs c s
    have write := Runs.regWrite .nis s.cfg.irq.cc (decodeResponse c s)
    generalize regWrite .nis s.cfg.irq.cc (decodeResponse c s) = u at write
    rw [ew] at write
    have hbuf : u.respBuf = b := write.respBuf
    exact ⟨b, .ok, ⟨_, r.trans_respBuf write, hbuf ▸ rfl⟩, fun hne => ⟨hb, hx, rfl, hfill hne⟩⟩
  · cases e.symm.trans h

theorem runWaitCmd_endsIn {c : Descriptor} {s t : State} (h : runWaitCmd c s = .next t) :
    ∃ b y, EndsIn s t (if c.bootEn = true ∧ y = .ok then .streaming else .idle) none b y ∧
      (b ≠ s.respBuf → FillsBuffer c y s.respBuf b) := by
  have r := Runs.poll .nis (fun v => v != 0) s.cfg.budgets.tCmd s
  obtain ⟨a, ha, hbranch⟩ := runWaitCmd_cases c s
  rw [← ha] at r
  have hbuf := r.respBuf
  obtain ⟨-, e⟩ | ⟨n, -, ⟨hb, e⟩ | ⟨hb, -, e⟩ | ⟨hb, hx, e⟩⟩ := hbranch
  all_goals have h := h.symm.trans e
  · obtain rfl := Host.Outcome.next.inj h
    exact ⟨_, .fail, by simpa using (failWith_endsIn _ _ a).after r, fun hne => absurd hbuf hne⟩
  · obtain rfl := Host.Outcome.next.inj h
    obtain ⟨y, ends⟩ := waitBoot_endsIn n a
    exact ⟨_, y, by simpa [hb] using ends.after r, fun hne => absurd hbuf hne⟩
  · obtain rfl := Host.Outcome.next.inj h
    obtain ⟨y, ends⟩ := waitData_endsIn a
    exact ⟨_, y, by simpa [hb] using ends.after r, fun hne => absurd hbuf hne⟩
  · obtain ⟨b, y, ends, hfill⟩ := waitNonData_endsIn hb hx h.symm
    exact ⟨b, y, by simpa [hb] using ends.after r, hbuf ▸ hfill⟩

/-- What an instruction that answers a next state did: INIT, a take-up by the command engine, or an operation
of accesses that leaves the response buffer alone or is a WAIT_CMD that may fill it. -/
theorem exec_next_cases {i : Instr} {s t : State} (h : exec i s = .next t) :
    (i = .init ∧ t = runInit s) ∨ (∃ k j w, t = takeUpCommand k j w s) ∨
    ∃ q d b y, EndsIn s t q d b y ∧
      (b ≠ s.respBuf → ∃ c, i = .waitCmd c ∧ FillsBuffer c y s.respBuf b) := by
  cases i with
  | init => exact .inl ⟨rfl, exec_init_next h⟩
  | sendCmd c =>
    obtain ⟨rfl, -⟩ := exec_sendCmd_next h
    exact .inr (.inr ⟨_, _, _, _, runSendCmd_endsIn c s, fun hne => absurd rfl hne⟩)
  | waitCmd c =>
    obtain ⟨b, y, ends, hfill⟩ := runWaitCmd_endsIn (exec_waitCmd_next h).1
    exact .inr (.inr ⟨_, _, b, y, ends, fun hne => ⟨c, rfl, hfill hne⟩⟩)
  | bootWait =>
    obtain ⟨rfl, -⟩ := exec_bootWait_next h
    obtain ⟨y, ends⟩ := runBootWait_endsIn s
    exact .inr (.inr ⟨_, _, _, y, ends, fun hne => absurd rfl hne⟩)
  | bootStop =>
    obtain rfl := exec_bootStop_next h
    exact .inr (.inr ⟨_, _, _, _, runBootStop_endsIn s, fun hne => absurd rfl hne⟩)
  | setMode m =>
    obtain ⟨rfl, -⟩ := exec_setMode_next h
    obtain ⟨y, ends⟩ := runSetMode_endsIn m s
    exact .inr (.inr ⟨_, _, _, y, ends, fun hne => absurd rfl hne⟩)
  | cmdwRespNone j d | cmdwResp136 j d | cmdwResp48 j d | cmdwResp48b j d =>
    exact .inr (.inl ⟨_, _, _, (Host.Outcome.next.inj h).symm⟩)

/-- Settles O56: of all instructions only a WAIT_CMD that fills the buffer leaves another one. -/
theorem responseBufferOnlyOnNonDataSuccess : Obligations.ResponseBufferOnlyOnNonDataSuccess := by
  intro i s t h hne
  obtain ⟨-, rfl⟩ | ⟨k, j, w, rfl⟩ | ⟨q, d, b, y, ends, hfill⟩ := exec_next_cases h
  · exact absurd (runInit_ends s).2.2.1 hne
  · exact absurd rfl hne
  · rw [ends.respBuf] at hne ⊢
    rw [ends.reply]
    exact hfill hne

/-- Settles O60: INIT by its last part, every other instruction because accesses keep the handle. -/
theorem onlyInitChangesReadiness : Obligations.OnlyInitChangesReadiness := by
  intro i s t h
  refine ⟨fun hne => ?_, ?_⟩
  · obtain ⟨hi, -⟩ | ⟨k, j, w, rfl⟩ | ⟨q, d, b, y, ends, -⟩ := exec_next_cases h
    · exact hi
    · exact absurd rfl hne
    · exact absurd ends.h hne
  · rintro rfl
    exact exec_init_next h ▸ (runInit_ends s).2.2.2

/-! #### What no step changes -/

/-- R16, R17, R47, R203, R207: the constants stay, time, log and trace only grow. -/
structure KeepsConstants (s t : State) : Prop where
  cfg   : t.cfg = s.cfg
  base  : t.h.base = s.h.base
  cap   : t.h.cap = s.h.cap
  cap0  : t.rb.cap0 = s.rb.cap0
  cap1  : t.rb.cap1 = s.rb.cap1
  now   : s.env.now ≤ t.env.now
  log   : s.log <+: t.log
  trace : s.trace <+: t.trace

theorem Keeps.constants {s t : State} (k : Keeps s t) : KeepsConstants s t :=
  ⟨k.cfg, k.base, k.cap, k.cap0, k.cap1, k.now, k.log, k.trace⟩

theorem takeUpCommand_constants (k : RespKind) (j : BitVec 6) (w : Word) (s : State) :
    KeepsConstants s (takeUpCommand k j w s) :=
  ⟨rfl, rfl, rfl, rfl, rfl, le_refl _, List.prefix_refl _, List.prefix_refl _⟩

theorem exec_constants {i : Instr} {s t : State} (h : exec i s = .next t) : KeepsConstants s t := by
  obtain ⟨-, rfl⟩ | ⟨k, j, w, rfl⟩ | ⟨q, d, b, y, ends, -⟩ := exec_next_cases h
  · exact (runInit_ends s).1.constants
  · exact takeUpCommand_constants k j w s
  · exact ends.keeps.constants

/-- Settles O59: by what the step ran. -/
theorem constantsStayAndTimeIsMonotone : Obligations.ConstantsStayAndTimeIsMonotone := by
  intro s t h
  have keeps : KeepsConstants s t := by
    obtain ⟨i, e⟩ | ⟨i, r, e⟩ | rfl | rfl := step_next_cases h
    · exact exec_constants e
    · obtain ⟨hcfg, hbase, hcap, h0, h1, hnow, hlog, htrace⟩ := exec_constants e
      exact ⟨hcfg, hbase, hcap, h0, h1, hnow, hlog, htrace⟩
    · exact takeUpCommand_constants _ _ _ s
    · exact (Keeps.ofRuns (.hwStep s)).constants
  obtain ⟨hcfg, hbase, hcap, h0, h1, hnow, hlog, htrace⟩ := keeps
  exact ⟨hcfg, hbase, hcap, h0, h1, hnow, hlog, htrace⟩

/-! #### Which requests the sequencer accepts -/

theorem exec_setMode_idle {m : ModeRec} {s : State} (hw : m.widthOk = true) (ht : m.timingOk s.cfg = true)
    (hq : s.seq = .idle) : exec (.setMode m) s = .next (runSetMode m s) := by
  simp [exec, execSetMode, hw, ht, hq]

theorem exec_setMode_sequence {m : ModeRec} {s : State} (hw : m.widthOk = true)
    (ht : m.timingOk s.cfg = true) (hq : s.seq ≠ .idle) : exec (.setMode m) s = .refused .sequence := by
  simp [exec, execSetMode, hw, ht, hq]

theorem exec_sendCmd_ready {c : Descriptor} {s : State} (hc : c.wf = true) (hq : s.seq = .idle)
    (hr : s.h.ready = true) : exec (.sendCmd c) s = .next (runSendCmd c s) := by
  simp [exec, execSendCmd, hc, hq, hr]

theorem exec_sendCmd_sequence {c : Descriptor} {s : State} (hc : c.wf = true)
    (hq : ¬ (s.seq = .idle ∧ s.h.ready = true)) : exec (.sendCmd c) s = .refused .sequence := by
  simp [exec, execSendCmd, hc, hq]

theorem exec_waitCmd_sequence {c : Descriptor} {s : State} (hc : c.wf = true)
    (hq : ¬ (s.seq = .issued ∧ s.sent = some c)) : exec (.waitCmd c) s = .refused .sequence := by
  simp [exec, execWaitCmd, hc, hq]

theorem exec_bootWait_streaming {s : State} (hq : s.seq = .streaming) :
    exec .bootWait s = .next (runBootWait s) := by
  simp [exec, execBootWait, hq]

theorem exec_bootWait_sequence {s : State} (hq : s.seq ≠ .streaming) :
    exec .bootWait s = .refused .sequence := by
  simp [exec, execBootWait, hq]

/-- A WAIT_CMD that has started is not refused (R155: it may only fault). -/
theorem runWaitCmd_not_refused (c : Descriptor) (s : State) (r : Refusal) : runWaitCmd c s ≠ .refused r := by
  obtain ⟨a, -, ⟨-, e⟩ | ⟨n, -, ⟨-, e⟩ | ⟨-, -, e⟩ | ⟨-, -, e⟩⟩⟩ := runWaitCmd_cases c s
  · simp [e]
  · simp [e]
  · simp [e]
  · obtain ⟨-, e'⟩ | ⟨-, -, _, _, -, -, e'⟩ | ⟨-, -, e'⟩ := waitNonData_cases c n a <;> simp [e, e']

/-- Settles O34: each request by the state it is accepted in and the state its run ends in. -/
theorem requestsFollowTheSequencer : Obligations.RequestsFollowTheSequencer := by
  intro s
  refine ⟨⟨_, rfl, (runInit_ends s).2.1⟩, ⟨_, rfl, (runBootStop_endsIn s).seq⟩,
    fun m hw ht => ⟨fun hq => ?setMode, exec_setMode_sequence hw ht⟩,
    fun c hc => ⟨fun hq hr => ⟨_, exec_sendCmd_ready hc hq hr, (runSendCmd_endsIn c s).seq⟩,
      exec_sendCmd_sequence hc⟩,
    fun c hc => ⟨fun hq hs => ⟨fun r => ?waitRefused, fun t ht => ?waitSeq⟩, exec_waitCmd_sequence hc⟩,
    fun hq => ?bootWait, exec_bootWait_sequence⟩
  case setMode =>
    obtain ⟨y, ends⟩ := runSetMode_endsIn m s
    exact ⟨_, exec_setMode_idle hw ht hq, ends.seq.trans hq⟩
  case waitRefused =>
    rw [exec_waitCmd_run hc hq hs]
    exact runWaitCmd_not_refused c s r
  case waitSeq =>
    obtain ⟨b, y, ends, -⟩ := runWaitCmd_endsIn (exec_waitCmd_next ht).1
    rw [ends.reply, ends.seq]
  case bootWait =>
    obtain ⟨y, ends⟩ := runBootWait_endsIn s
    exact ⟨_, exec_bootWait_streaming hq, ends.seq.trans hq⟩

end Sys2Proof.Machine

/-! ### Flags come up only where enabled (O23) -/

namespace Sys2Proof.Machine

/-- R174: `t` keeps the enables of `s`, and its flags are flags of `s` or enabled ones. -/
structure Gated (s t : State) : Prop where
  nie : t.rb.nie = s.rb.nie
  eie : t.rb.eie = s.rb.eie
  nis : Below t.rb.nis (s.rb.nis ||| s.rb.nie)
  eis : Below t.rb.eis (s.rb.eis ||| s.rb.eie)

/-- An update of no flag and no enable. -/
theorem Gated.of_flags_eq {s t : State} (hne : t.rb.nie = s.rb.nie) (hee : t.rb.eie = s.rb.eie)
    (hn : t.rb.nis = s.rb.nis) (he : t.rb.eis = s.rb.eis) : Gated s t :=
  ⟨hne, hee, hn ▸ below_or_left _ _, he ▸ below_or_left _ _⟩

theorem Gated.refl (s : State) : Gated s s := .of_flags_eq rfl rfl rfl rfl

theorem below_or_right (a b : Word) : Below b (a ||| b) := BitVec.or_comm b a ▸ below_or_left b a

theorem Gated.trans {s t u : State} (a : Gated s t) (b : Gated t u) : Gated s u where
  nie := b.nie.trans a.nie
  eie := b.eie.trans a.eie
  nis := b.nis.trans (below_or a.nis (a.nie ▸ below_or_right _ _))
  eis := b.eis.trans (below_or a.eis (a.eie ▸ below_or_right _ _))

/-- What a raise leaves: the old flags and bits of the enable. -/
theorem below_raised (w : Nat) (old bits enable : Word) :
    Below (old ||| trunc w (bits &&& enable)) (old ||| enable) :=
  below_or (below_or_left _ _)
    (((below_and_left _ _).trans (below_and_right _ _)).trans (below_or_right _ _))

theorem Gated.raiseNis (b : Word) (s : State) : Gated s (s.raiseNis b) :=
  ⟨rfl, rfl, below_raised _ _ _ _, below_or_left _ _⟩

theorem Gated.raiseEis (b : Word) (s : State) : Gated s (s.raiseEis b) :=
  ⟨rfl, rfl, below_or_left _ _, below_raised _ _ _ _⟩

theorem Gated.raiseError (b : Word) (s : State) : Gated s (s.raiseError b) := by
  unfold State.raiseError
  split
  · exact .refl s
  · exact (Gated.raiseEis b s).trans (.raiseNis _ _)

theorem Gated.load {x : Reg} (hx : isLoaded x = true) (v : Word) (s : State) : Gated s (s.loadReg x v) := by
  have other : ∀ y, isLoaded y = false → (s.loadReg x v).rb.get y = s.rb.get y := fun y hy =>
    Registers.get_set_other _ _ fun e => by simp [e, hx] at hy
  exact .of_flags_eq (other .nie rfl) (other .eie rfl) (other .nis rfl) (other .eis rfl)

theorem Gated.drawReg {x : Reg} (hx : isLoaded x = true) (v : Option Word) (s : State) :
    Gated s (drawReg x v s) := by
  cases v with
  | none => exact .refl s
  | some w => exact .load hx w s

/-! #### Reset and the engines -/

theorem flagsAfterDc_below (cfg : Config) (old drawn enable : Word) :
    Below (flagsAfterDc cfg old drawn enable) (old ||| enable) := by
  unfold flagsAfterDc
  split
  · exact below_or (below_or_left _ _) ((below_and_right _ _).trans (below_or_right _ _))
  · exact below_and_right _ _

/-- A full reset that ends may leave any flags; short of one, a data+command reset is gated too (R169). -/
theorem Gated.endResets (m : Word) (after : Registers) (count : Word) {s : State} (h : NoFullReset s) :
    Gated s (endResets m after count s) := by
  have hfull : hasBit s.rb.swreset s.cfg.reset.all = false := h
  unfold Machine.endResets
  simp only [hfull, Bool.false_and, Bool.false_eq_true, if_false]
  split
  · exact ⟨rfl, rfl, flagsAfterDc_below _ _ _ _, flagsAfterDc_below _ _ _ _⟩
  · exact .of_flags_eq rfl rfl rfl rfl

theorem Gated.setStable (b : Bool) (s : State) : Gated s (setStable b s) := .of_flags_eq rfl rfl rfl rfl

theorem Gated.clockReports (b : Bool) (s : State) : Gated s (clockReports b s) := by
  unfold Machine.clockReports
  split
  · exact .refl s
  · exact .setStable b s

theorem Gated.completeCommand (f : InFlight) (s : State) : Gated s (completeCommand f s) :=
  (Gated.raiseNis s.cfg.irq.cc s).trans (.of_flags_eq rfl rfl rfl rfl)

theorem Gated.commandSent (s : State) : Gated s (commandSent s) := by
  unfold Machine.commandSent
  split
  · split
    · exact .completeCommand _ s
    · exact .refl s
  · exact .refl s

theorem Gated.responseArrives (r0 r1 r2 r3 : Word) (busy : Bool) (s : State) :
    Gated s (responseArrives r0 r1 r2 r3 busy s) := by
  have load0 := Gated.load (x := .resp0) rfl r0 s
  unfold Machine.responseArrives
  split
  · split
    · split
      · exact load0.trans (.completeCommand _ _)
      · exact (((load0.trans (.load rfl r1 _)).trans (.load rfl r2 _)).trans (.load rfl r3 _)).trans
          (.completeCommand _ _)
      · exact load0.trans (.of_flags_eq rfl rfl rfl rfl)
      · exact .refl s
      · exact .refl s
    · exact .refl s
  · exact .refl s

theorem Gated.busyReleased (s : State) : Gated s (busyReleased s) := by
  unfold Machine.busyReleased
  split
  · split
    · exact .completeCommand _ s
    · split
      · exact .of_flags_eq rfl rfl rfl rfl
      · exact .refl s
  · exact .refl s

theorem Gated.errorDetected (b : Word) (a : Option Word) (s : State) : Gated s (errorDetected b a s) := by
  cases a with
  | none => exact .raiseError b s
  | some v => exact (Gated.raiseError b s).trans (.load rfl v _)

theorem Gated.dataOver (b : Word) (s : State) : Gated s (dataOver b s) :=
  (Gated.raiseNis b s).trans (.of_flags_eq rfl rfl rfl rfl)

theorem Gated.byteMoved (x : XferLatch) (d : DmaEngine) (s : State) : Gated s (byteMoved x d s) := by
  unfold Machine.byteMoved
  dsimp only
  split
  · split
    · exact .of_flags_eq rfl rfl rfl rfl
    · exact .dataOver _ s
  · split
    · exact ((Gated.load rfl _ s).trans (.raiseNis _ _)).trans (.of_flags_eq rfl rfl rfl rfl)
    · exact .of_flags_eq rfl rfl rfl rfl

theorem Gated.store (m : List Host.Cell) (s : State) : Gated s { s with mem := m } :=
  .of_flags_eq rfl rfl rfl rfl

theorem Gated.dmaStores : ∀ (bs : List Byte) (s : State), Gated s (dmaStores bs s)
  | [], s => .refl s
  | b :: bs, s => by
    unfold Machine.dmaStores
    split
    · split
      · exact ((Gated.store _ s).trans (.byteMoved _ _ _)).trans (Gated.dmaStores bs _)
      · exact .refl s
    · exact .refl s

theorem Gated.dmaFetches : ∀ (n : Nat) (s : State), Gated s (dmaFetches n s)
  | 0, s => .refl s
  | n + 1, s => by
    unfold Machine.dmaFetches
    split
    · split
      · exact .refl s
      · exact (Gated.byteMoved _ _ s).trans (Gated.dmaFetches n _)
    · exact .refl s

theorem Gated.portBlockMoved (s : State) : Gated s (portBlockMoved s) := by
  unfold Machine.portBlockMoved
  split
  · split
    · split
      · dsimp only
        split
        · exact .dataOver _ s
        · exact .of_flags_eq rfl rfl rfl rfl
      · exact .refl s
    · exact .refl s
  · exact .refl s

theorem Gated.autoStopSent (s : State) : Gated s (autoStopSent s) := by
  unfold Machine.autoStopSent
  split
  · split
    · split
      · exact .dataOver _ s
      · exact .refl s
    · exact .refl s
  · exact .refl s

theorem Gated.bufferReady (s : State) : Gated s (bufferReady s) := by
  unfold Machine.bufferReady
  split
  · split
    · split
      · exact .raiseNis _ s
      · exact .refl s
    · exact .refl s
  · exact .refl s

theorem Gated.bootAckArrives (s : State) : Gated s (bootAckArrives s) := by
  unfold Machine.bootAckArrives
  split
  · split
    · exact .raiseNis _ s
    · exact .refl s
  · exact .refl s

theorem Gated.bootStreamEnds (tc : Bool) (s : State) : Gated s (bootStreamEnds tc s) := by
  unfold Machine.bootStreamEnds
  split
  · exact .dataOver _ s
  · exact .refl s

theorem Gated.dataCounterRuns (c : Word) (s : State) : Gated s (dataCounterRuns c s) := by
  unfold Machine.dataCounterRuns
  split
  · exact .of_flags_eq rfl rfl rfl rfl
  · exact .refl s

theorem Gated.dataCounterExpires (b : Word) (s : State) : Gated s (dataCounterExpires b s) := by
  unfold Machine.dataCounterExpires
  split
  · exact .raiseError b s
  · exact .refl s

theorem Gated.bootCounterRuns (c : Word) (s : State) : Gated s (bootCounterRuns c s) := by
  unfold Machine.bootCounterRuns
  split
  · exact .of_flags_eq rfl rfl rfl rfl
  · exact .refl s

theorem Gated.bootCounterExpires (b : Word) (s : State) : Gated s (bootCounterExpires b s) := by
  unfold Machine.bootCounterExpires
  split
  · exact .raiseError b s
  · exact .refl s

/-! #### The open oracle -/

theorem Gated.oracleMoves (n : Nat) (p : Option Bool) (l : List (Nat × Byte)) (s : State) :
    Gated s (oracleMoves n p l s) := by
  unfold Machine.oracleMoves
  split
  · exact .of_flags_eq rfl rfl rfl rfl
  · exact .refl s

theorem Gated.drawCount (v : Option Word) (s : State) : Gated s (drawCount v s) := by
  cases v with
  | none => exact .refl s
  | some c => exact .of_flags_eq rfl rfl rfl rfl

theorem Gated.abandonCommand (b : Bool) (s : State) : Gated s (abandonCommand b s) := by
  unfold Machine.abandonCommand
  split
  · exact .of_flags_eq rfl rfl rfl rfl
  · exact .refl s

theorem Gated.oracleStep (d : OracleDraw) {s : State} (h : NoFullReset s) : Gated s (oracleStep d s) :=
  (((((((((((((Gated.endResets _ _ _ h).trans (.setStable _ _)).trans
    (.raiseNis d.nis _)).trans (.raiseEis d.eis _)).trans (.drawReg rfl _ _)).trans
    (.drawReg rfl _ _)).trans (.drawReg rfl _ _)).trans (.drawReg rfl _ _)).trans (.drawReg rfl _ _)).trans
    (.drawReg rfl _ _)).trans (.drawReg rfl _ _)).trans (.oracleMoves _ _ _ _)).trans (.drawCount _ _)).trans
    (.abandonCommand _ _)

theorem Gated.event (e : HwEvent) {s : State} (h : NoFullReset s) : Gated s (e.apply s) := by
  cases e with
  | resetEnds m a c => exact .endResets m a c h
  | clock b => exact .clockReports b s
  | commandSent => exact .commandSent s
  | response r0 r1 r2 r3 busy => exact .responseArrives r0 r1 r2 r3 busy s
  | busyReleased => exact .busyReleased s
  | flags n e => exact (Gated.raiseError e s).trans (.raiseNis n _)
  | error b a => exact .errorDetected b a s
  | dmaIn bs => exact .dmaStores bs s
  | dmaOut n => exact .dmaFetches n s
  | portBlock => exact .portBlockMoved s
  | autoStop => exact .autoStopSent s
  | bufferReady => exact .bufferReady s
  | bootAck => exact .bootAckArrives s
  | bootEnd tc => exact .bootStreamEnds tc s
  | dataTick c => exact .dataCounterRuns c s
  | dataExpires b => exact .dataCounterExpires b s
  | bootTick c => exact .bootCounterRuns c s
  | bootExpires b => exact .bootCounterExpires b s
  | oracle d => exact .oracleStep d h

theorem below_new_of_below_or {old new enable : Word} (h : Below new (old ||| enable)) :
    Below (new &&& ~~~old) enable := by
  refine (below_iff _ _).2 fun i hi => ?_
  have hor := (below_iff _ _).1 h i
  simp only [BitVec.getLsbD_and, BitVec.getLsbD_not, BitVec.getLsbD_or] at hi hor
  grind

/-- Settles O23: flags that are old or enabled are, where new, enabled. -/
theorem disabledFlagsAreNotRecorded : Obligations.DisabledFlagsAreNotRecorded := fun _ e h =>
  ⟨below_new_of_below_or (Gated.event e h).nis, below_new_of_below_or (Gated.event e h).eis⟩

end Sys2Proof.Machine

/-! ### The DMA engine of a write transfer, and the pause (O31) -/

namespace Sys2Proof.Machine

theorem movingDma_paused {s : State} {d : DmaEngine} (hd : s.hid.dma = some d) (hp : d.paused = true) :
    movingDma s = none := by
  cases hc : s.hid.cmd with
  | none => simp [movingDma, hc]
  | some f => cases hx : f.xfer <;> simp [movingDma, hc, hd, hx, hp]

theorem dmaStores_still {s : State} (h : movingDma s = none) : ∀ l, dmaStores l s = s
  | [] => rfl
  | _ :: _ => by simp [dmaStores, h]

theorem dmaFetches_still {s : State} (h : movingDma s = none) : ∀ n, dmaFetches n s = s
  | 0 => rfl
  | _ + 1 => by simp [dmaFetches, h]

/-- An engine that only fetches leaves memory alone (R81). -/
theorem dmaFetches_mem {s : State} {d : DmaEngine} (hd : s.hid.dma = some d) (ht : d.toMem = false) (n : Nat) :
    (dmaFetches n s).mem = s.mem :=
  (HwLaw.dmaFetches n s).mem fun e he => by
    obtain rfl : d = e := Option.some.inj (hd.symm.trans he)
    exact ht

theorem resumeDma_engine {s : State} {d : DmaEngine} (hd : s.hid.dma = some d) (v : Word) :
    (resumeDma v s).hid.dma = some { d with pos := v, paused := false } := by
  simp [resumeDma, hd]

/-- The engine moves where the card is live, boot mode is on for a boot stream, and a byte is left (R176,
R179). -/
theorem movingDma_of_flow {s : State} {f : InFlight} {x : XferLatch} {d : DmaEngine}
    (hpow : s.hid.powered = true) (hclk : hasBit s.rb.clkctl s.cfg.clock.cardEn = true)
    (hf : s.hid.cmd = some f) (hx : f.xfer = some x)
    (hboot : x.boot = true → hasBit s.rb.bgc s.cfg.boot.bgcEn = true) (hd : s.hid.dma = some d)
    (hp : d.paused = false) (hl : 0 < d.left) : movingDma s = some (x, d) := by
  have hflow : dataFlows x s = true := by
    simp only [dataFlows, cardLive, hpow, hclk, Bool.true_and]
    cases hb : x.boot
    · rfl
    · simp [hboot hb]
  simp [movingDma, hf, hd, hx, hflow, hp, Nat.ne_of_gt hl]

/-- The engine with one more byte fetched. -/
def DmaEngine.fetching (d : DmaEngine) (b : Option Byte) : DmaEngine := { d with fetched := d.fetched ++ [b] }

theorem dmaFetches_one {s : State} {x : XferLatch} {d : DmaEngine} (h : movingDma s = some (x, d))
    (ht : d.toMem = false) : dmaFetches 1 s =
      byteMoved x (d.fetching (Memory.read s.mem d.pos.toNat)) s := by
  simp [dmaFetches, h, ht, DmaEngine.fetching]

/-! #### After one byte -/

/-- The engine one byte on. -/
def DmaEngine.advanced (d : DmaEngine) : DmaEngine := { d with pos := d.pos + 1, left := d.left - 1 }

section ByteMoved

variable {x : XferLatch} {d : DmaEngine} {s : State}

theorem byteMoved_on (hl : 1 < d.left) (hb : (d.pos + 1).toNat % dmaBoundary s.cfg x.blksize ≠ 0) :
    byteMoved x d s = { s with hid := { s.hid with dma := some d.advanced } } := by
  have h0 : d.left - 1 ≠ 0 := by omega
  unfold byteMoved
  dsimp only
  rw [if_neg h0, if_neg hb]
  rfl

theorem byteMoved_boundary (hl : 1 < d.left) (hb : (d.pos + 1).toNat % dmaBoundary s.cfg x.blksize = 0) :
    (byteMoved x d s).rb = ((s.loadReg .dmaaddr (d.pos + 1)).raiseNis s.cfg.irq.dma).rb ∧
    (byteMoved x d s).hid.dma = some { d.advanced with paused := true } := by
  have h0 : d.left - 1 ≠ 0 := by omega
  unfold byteMoved
  dsimp only
  rw [if_neg h0, if_pos hb]
  exact ⟨rfl, rfl⟩

theorem byteMoved_last_waits (hl : d.left = 1) (hw : x.boot = true ∨ needsAutoStop s.cfg x = true) :
    byteMoved x d s = { s with hid := { s.hid with dma := some d.advanced } } := by
  have h0 : d.left - 1 = 0 := by omega
  have hw : (x.boot || needsAutoStop s.cfg x) = true := by simpa using hw
  unfold byteMoved
  dsimp only
  rw [if_pos h0, if_pos hw]
  rfl

theorem byteMoved_last_ends (hl : d.left = 1) (hb : x.boot = false) (hn : needsAutoStop s.cfg x = false) :
    byteMoved x d s = transferDone s := by
  have h0 : d.left - 1 = 0 := by omega
  have hw : ¬ (x.boot || needsAutoStop s.cfg x) = true := by simp [hb, hn]
  unfold byteMoved
  dsimp only
  rw [if_pos h0, if_neg hw]

end ByteMoved

/-- What the end of a transfer leaves: `NIS_TC` where enabled, and nothing in flight (R177, R185). -/
theorem transferDone_spec (s : State) : (transferDone s).rb.nis = s.rb.nis ||| tcBit s ∧
    (transferDone s).hid.dma = none ∧ (transferDone s).hid.cmd = none := ⟨rfl, rfl, rfl⟩

/-- The automatic stop command ends a DMA transfer that has moved its last byte (R177). -/
theorem autoStopSent_ends {s : State} {f : InFlight} {x : XferLatch} {d : DmaEngine}
    (hlive : cardLive s = true) (hf : s.hid.cmd = some f) (hx : f.xfer = some x) (hd : s.hid.dma = some d)
    (hl : d.left = 0) (hb : x.boot = false) (hn : needsAutoStop s.cfg x = true) :
    autoStopSent s = transferDone s := by
  simp [autoStopSent, hf, hx, hlive, hd, allMoved, hl, hb, hn]

/-- Settles O31: the pause stops both of the engine's events, and one fetched byte is one `byteMoved`, whose
five cases are the five clauses. -/
theorem pausedDmaWaitsForWriteBack : Obligations.PausedDmaWaitsForWriteBack := by
  refine ⟨fun s d hd => ⟨fun ht n => dmaFetches_mem hd ht n, fun hp => ?_, fun v => ?_⟩, ?_⟩
  · have still := movingDma_paused hd hp
    exact ⟨dmaStores_still still, dmaFetches_still still⟩
  · exact ⟨congrArg Registers.dmaaddr (resumeDma_rb v (s.setReg .dmaaddr v)),
      resumeDma_engine (s := s.setReg .dmaaddr v) hd v⟩
  intro s f x d hpow hclk hf hx hboot hd ht hp hl t e
  have et : t = byteMoved x (d.fetching (Memory.read s.mem d.pos.toNat)) s :=
    dmaFetches_one (movingDma_of_flow hpow hclk hf hx hboot hd hp hl) ht
  have ee : e = (d.fetching (Memory.read s.mem d.pos.toNat)).advanced := rfl
  refine ⟨dmaFetches_mem hd ht 1, ?_⟩
  rw [et, ee]
  generalize hg : d.fetching (Memory.read s.mem d.pos.toNat) = g
  obtain ⟨hleft, hpos⟩ : d.left = g.left ∧ d.pos = g.pos := hg ▸ ⟨rfl, rfl⟩
  rw [hleft, hpos]
  refine ⟨fun h1 hb => ?_, fun h1 hb => ?_, fun h1 hb => ?_, fun h1 hb hn => ?_, fun h1 hb hn => ?_⟩
  · rw [byteMoved_on h1 hb]
    exact ⟨rfl, rfl⟩
  · obtain ⟨hrb, hdma⟩ := byteMoved_boundary (s := s) h1 hb
    rw [hrb, hdma]
    exact ⟨rfl, rfl, rfl⟩
  · rw [byteMoved_last_waits h1 (.inl hb)]
    exact ⟨rfl, rfl⟩
  · obtain ⟨hnis, hdma, hcmd⟩ := transferDone_spec s
    rw [byteMoved_last_ends h1 hb hn]
    exact ⟨hdma, hcmd, hnis⟩
  · have hlive : cardLive s = true := by simp [cardLive, hpow, hclk]
    have hover : g.advanced.left = 0 := by simp [DmaEngine.advanced, h1]
    have stops := autoStopSent_ends (s := { s with hid := { s.hid with dma := some g.advanced } })
      hlive hf hx rfl hover hb hn
    rw [byteMoved_last_waits h1 (.inr hn), show HwEvent.autoStop.apply _ = _ from stops]
    exact ⟨rfl, rfl, transferDone_spec _⟩

end Sys2Proof.Machine

/-! ### The take-up of a command word (O33) -/

namespace Sys2Proof.Machine

theorem latchXfer_none {w : Word} {s : State}
    (h : (hasBit w s.cfg.cmd.dataPresent || hasBit s.rb.bgc s.cfg.boot.bgcEn) = false) :
    latchXfer w s = none := by
  simp [latchXfer, h]

/-- The transfer registers and the boot bits of BGC as they stand (R55, R69). -/
def latchedNow (s : State) : XferLatch where
  blksize  := s.rb.blksize
  blkcnt   := s.rb.blkcnt
  xfermode := s.rb.xfermode
  dmaaddr  := s.rb.dmaaddr
  boot     := hasBit s.rb.bgc s.cfg.boot.bgcEn
  bootAck  := hasBit s.rb.bgc s.cfg.boot.bgcAck

theorem latchXfer_some {w : Word} {s : State}
    (h : (hasBit w s.cfg.cmd.dataPresent || hasBit s.rb.bgc s.cfg.boot.bgcEn) = true) :
    latchXfer w s = some (latchedNow s) := by
  simp only [latchXfer, h, if_true]
  rfl

theorem xferBlocks_eq (cfg : Config) (x : XferLatch) : xferBlocks cfg x =
    if hasBit x.xfermode cfg.xfer.multi = true ∧ hasBit x.xfermode cfg.xfer.bce = true
      then x.blkcnt.toNat else 1 := by
  simp [xferBlocks]

theorem startDma_none {cfg : Config} {x : XferLatch} (h : hasBit x.xfermode cfg.xfer.dma = false)
    (free : Nat) : startDma cfg free x = none := by
  simp [startDma, h]

theorem portBlocks_eq {cfg : Config} {x : XferLatch} (h : hasBit x.xfermode cfg.xfer.dma = false)
    (hc : x.blkcnt ≠ 0) (free : Nat) : portBlocks cfg x free = xferBlocks cfg x := by
  simp only [portBlocks, h, Bool.false_eq_true, if_false, if_neg hc]

theorem startDma_some {cfg : Config} {x : XferLatch} (h : hasBit x.xfermode cfg.xfer.dma = true)
    (free : Nat) : startDma cfg free x = some ⟨x.dmaaddr, xferLength cfg x free, false,
      hasBit x.xfermode cfg.xfer.read, []⟩ := by
  simp [startDma, h]

theorem xferLength_eq {cfg : Config} {x : XferLatch} (hc : x.blkcnt ≠ 0)
    (hs : x.blksize &&& cfg.blk.sizeMask ≠ 0) (free : Nat) :
    xferLength cfg x free = xferBlocks cfg x * (x.blksize &&& cfg.blk.sizeMask).toNat := by
  have : (x.blksize &&& cfg.blk.sizeMask).toNat ≠ 0 := by simpa [← BitVec.toNat_inj] using hs
  simp only [xferLength, hc, this, decide_false, Bool.or_self, Bool.false_eq_true, if_false]

/-- Settles O33: all five take-ups are `takeUpCommand`, and what it latches goes by the two conditions of
`latchXfer` and `startDma`. -/
theorem commandEngineLatchesTheCommand : Obligations.CommandEngineLatchesTheCommand := by
  intro s i d word blocks latch
  have latches : ∀ kind j w, latch kind j w (takeUpCommand kind j w s) := by
    intro kind j w
    refine ⟨⟨_, rfl, rfl, rfl, rfl, rfl, rfl, rfl, rfl, rfl, rfl, fun h => ?_, fun h => ?_⟩, rfl, rfl, rfl,
      rfl, rfl⟩
    · simp [takeUpCommand, latchXfer_none h]
    · simp only [takeUpCommand, latchXfer_some h]
      refine ⟨latchedNow s, rfl, rfl, rfl, rfl, rfl, rfl, rfl, fun hd => ⟨startDma_none hd _, fun hc => ?_⟩,
        fun hd => ⟨_, startDma_some hd _, rfl, rfl, rfl, rfl, fun hc hs => ?_⟩⟩
      · exact (portBlocks_eq (x := latchedNow s) hd hc _).trans (xferBlocks_eq _ _)
      · exact (xferLength_eq (x := latchedNow s) hc hs _).trans (congrArg (· * _) (xferBlocks_eq _ _))
  exact ⟨⟨_, rfl, latches _ _ _⟩, ⟨_, rfl, latches _ _ _⟩, ⟨_, rfl, latches _ _ _⟩, ⟨_, rfl, latches _ _ _⟩,
    fun ht e he => ⟨_, step_of_reserved ht he, latches _ _ _⟩⟩

end Sys2Proof.Machine

/-! ### Register accesses (O12), the summary flag (O15), the state after reset (O10) -/

namespace Sys2Proof.Machine

/-- A write acts on the state HW left, with the value cut to the register's width (R10, R73). -/
theorem regWrite_eq (x : Reg) (v : Word) (s : State) : regWrite x v s =
    (writeEffect x (trunc (s.cfg.width x) v) (hwStep s)).note (.write x (trunc (s.cfg.width x) v)) := by
  simp [regWrite]

/-- All a write does to the hidden state (R56, R69, R181, R182), by the register. -/
theorem writeEffect_hid (x : Reg) (v : Word) (s : State) : (writeEffect x v s).hid = { s.hid with
    trigger := if x = .cmd then true else s.hid.trigger
    powered := if x = .pwrctl then hasBit v s.cfg.power.on else s.hid.powered
    bootArmed := if x = .boottimeout then v != 0 else s.hid.bootArmed
    bootCount := if x = .boottimeout then v else s.hid.bootCount
    dma := if x = .dmaaddr then (resumeDma v s).hid.dma else s.hid.dma } := by
  cases x
  case dmaaddr =>
    simp only [writeEffect, resumeDma, State.setReg_hid]
    split <;> rfl
  all_goals rfl

theorem writeEffect_mem (x : Reg) (v : Word) (s : State) : (writeEffect x v s).mem = s.mem := by
  obtain ⟨d, h⟩ := resumeDma_other v (s.setReg .dmaaddr v)
  cases x
  case dmaaddr => simp [writeEffect, h]
  all_goals rfl

/-- RESP, CAP and ACMD12STAT ignore a write (R65). -/
theorem writeEffect_readOnly {x : Reg} (h : x ∈ [.resp0, .resp1, .resp2, .resp3, .cap0, .cap1, .acmd12stat])
    (v : Word) (s : State) : writeEffect x v s = s := by
  simp only [List.mem_cons, List.not_mem_nil, or_false] at h
  rcases h with rfl | rfl | rfl | rfl | rfl | rfl | rfl <;> rfl

/-- A write of CLKCTL leaves `CLK_STABLE` as HW has it (R34). -/
theorem writeEffect_clkctl_stable (v : Word) (s : State) :
    (writeEffect .clkctl v s).rb.clkctl &&& s.cfg.clock.stable = s.rb.clkctl &&& s.cfg.clock.stable := by
  have h : (writeEffect .clkctl v s).rb.clkctl =
      (v &&& ~~~s.cfg.clock.stable) ||| (s.rb.clkctl &&& s.cfg.clock.stable) := rfl
  rw [h]
  refine BitVec.eq_of_getLsbD_eq fun i hi => ?_
  simp only [BitVec.getLsbD_and, BitVec.getLsbD_or, BitVec.getLsbD_not]
  grind

/-- Settles O12: the write's effect by the register's class, its hidden effects by `writeEffect_hid`. -/
theorem registerAccessesActByClass : Obligations.RegisterAccessesActByClass := by
  intro s x v t w u
  have hu : u = (writeEffect x w t).note (.write x w) := regWrite_eq x v s
  have hrb : u.rb = (writeEffect x w t).rb := by rw [hu]; rfl
  have hhid := writeEffect_hid x w t
  rw [show (writeEffect x w t).hid = u.hid by rw [hu]; rfl] at hhid
  have hmem : u.mem = t.mem := by rw [hu]; exact writeEffect_mem x w t
  have hcfg : t.cfg = s.cfg := hwStep_cfg s
  refine ⟨rfl, rfl, rfl, fun y hy => hrb ▸ writeEffect_other x w t hy, fun hx => regWrite_value ?plain v s,
    ?clkctl, ?nis, ?eis, ?swreset, fun hx => ?readOnly, by rw [hhid], by rw [hhid, ← hcfg],
    by rw [hhid], by rw [hhid], by rw [hhid], fun hx => ?otherDma, fun hx d hd => ?ownDma, hmem⟩
  case plain =>
    simp only [List.mem_cons, List.not_mem_nil, or_false] at hx
    rcases hx with rfl | rfl | rfl | rfl | rfl | rfl | rfl | rfl | rfl | rfl | rfl | rfl | rfl | rfl <;> rfl
  case clkctl =>
    rintro rfl
    exact ⟨regWrite_clkBits v s, hrb ▸ hcfg ▸ writeEffect_clkctl_stable w t⟩
  case nis => rintro rfl; rw [hrb]; rfl
  case eis => rintro rfl; rw [hrb]; rfl
  case swreset => rintro rfl; rw [hrb, ← hcfg]; rfl
  case readOnly => rw [hu, writeEffect_readOnly hx]; exact ⟨rfl, rfl⟩
  case otherDma =>
    rw [hhid]
    dsimp only
    split
    · next h => simp [resumeDma, hx.resolve_left (not_not_intro h)]
    · rfl
  case ownDma =>
    subst hx
    rw [hhid]
    exact resumeDma_engine hd w

/-- Settles O15: under the summary reading the one bit is computed from EIS, every other is masked in from NIS. -/
theorem errorFlagReadsAsSummary : Obligations.ErrorFlagReadsAsSummary := by
  intro s i
  have hview : s.view .nis = s.nisValue := rfl
  refine ⟨fun h => ?_, fun h => ?_⟩
  · rw [hview, State.nisValue, h]
    rfl
  · rw [hview, State.nisValue, if_pos h, BitVec.getLsbD_or, BitVec.getLsbD_and, BitVec.getLsbD_not]
    cases hi : s.cfg.irq.err.getLsbD i
    · have hsummary : (if s.rb.eis = 0 then 0 else s.cfg.irq.err).getLsbD i = false := by
        split
        · exact BitVec.getLsbD_zero
        · exact hi
      have hold : s.rb.nis.getLsbD i = true → i < 32 := BitVec.lt_of_getLsbD
      grind
    · by_cases he : s.rb.eis = 0#32 <;> simp [he, hi]

/-- Settles O10: the registers are 0 but for CAP, and nothing is in flight. -/
theorem resetMeetsInvariant : Obligations.ResetMeetsInvariant where
  cfgWf := by decide
  baseOk := rfl
  caps := rfl
  cap0 := rfl
  cap1 := rfl
  regsFit x := by cases x <;> decide
  resetBits := BitVec.zero_and
  memWf := rfl
  dmaOwned := nofun
  sentIff := by decide
  readyOut h := absurd rfl h

end Sys2Proof.Machine

/-! ### Accesses through the register window (O13), write-1-to-clear (O14) -/

namespace Sys2Proof

theorem placesApart_pairwise : ∀ {ps : List Place}, placesApart ps = true →
    ps.Pairwise fun p q => p.apart q = true
  | [], _ => .nil
  | p :: ps, h => by
    simp only [placesApart, Bool.and_eq_true, List.all_eq_true] at h
    exact .cons h.1 (placesApart_pairwise h.2)

theorem Place.apart_symm {p q : Place} (h : p.apart q = true) : q.apart p = true := by
  simpa only [Place.apart, Bool.or_comm] using h

/-- What well-formedness says of a register's place (R7, R8, log entry 1). -/
theorem Config.place_bounds {cfg : Config} (h : cfg.wf = true) (x : Reg) :
    (cfg.width x = 8 ∨ cfg.width x = 16 ∨ cfg.width x = 32) ∧ cfg.offset x < 2 ^ 32 := by
  obtain ⟨hshape, hlayout, -⟩ := Config.wf_iff.1 h
  simp only [Config.shapeOk, Config.layoutOk, Place.ok, Bool.and_eq_true, List.all_eq_true,
    List.contains_iff_mem, decide_eq_true_eq] at hshape hlayout
  obtain ⟨⟨⟨hwidths, -⟩, -⟩, -⟩ := hshape
  obtain ⟨⟨⟨hplaces, -⟩, -⟩, -⟩ := hlayout
  obtain ⟨⟨hwidth, -⟩, hoff⟩ := hplaces x (Config.mem_words h x)
  exact ⟨by simpa [Config.width] using hwidths _ hwidth, hoff⟩

/-- Two registers of a well-formed configuration never start at the same offset (R8). -/
theorem Config.offset_injective {cfg : Config} (h : cfg.wf = true) {x y : Reg}
    (he : cfg.offset x = cfg.offset y) : x = y := by
  by_contra hne
  obtain ⟨-, hlayout, -⟩ := Config.wf_iff.1 h
  simp only [Config.layoutOk, Bool.and_eq_true] at hlayout
  obtain ⟨⟨⟨-, hplaces⟩, -⟩, -⟩ := hlayout
  have symm : Std.Symm fun u v => (cfg.place u).apart (cfg.place v) = true := ⟨fun _ _ => Place.apart_symm⟩
  have hapart : (cfg.place x).apart (cfg.place y) = true :=
    (List.pairwise_map.1 (placesApart_pairwise hplaces)).forall (Config.mem_words h x) (Config.mem_words h y) hne
  have hx := (Config.place_bounds h x).1
  have hy := (Config.place_bounds h y).1
  simp only [Place.apart, Bool.or_eq_true, decide_eq_true_eq] at hapart
  unfold Config.offset Config.width at *
  omega

end Sys2Proof

namespace Sys2Proof.Machine

/-- The register found at a register's own address and width is that register (R66). -/
theorem regAt_own {cfg : Config} (h : cfg.wf = true) (base : Addr) (x : Reg) :
    regAt cfg base (base + BitVec.ofNat 64 (cfg.offset x)) (cfg.width x / 8) = some x := by
  have only : ∀ y, base + BitVec.ofNat 64 (cfg.offset y) = base + BitVec.ofNat 64 (cfg.offset x) → y = x := by
    intro y he
    have hx := (Config.place_bounds h x).2
    have hy := (Config.place_bounds h y).2
    have hoff := congrArg BitVec.toNat (BitVec.add_right_inj base |>.1 he)
    simp only [BitVec.toNat_ofNat] at hoff
    exact Config.offset_injective h (by omega)
  have hwidth : cfg.width x = 8 * (cfg.width x / 8) := by
    have := (Config.place_bounds h x).1
    omega
  unfold regAt
  cases hfind : cfg.words.find? _ with
  | none => simpa [← hwidth] using List.find?_eq_none.1 hfind x (Config.mem_words h x)
  | some y =>
    have hy := List.find?_some hfind
    simp only [Bool.and_eq_true, beq_iff_eq] at hy
    rw [only y hy.1]

/-- No register is found at an address with an access size that is no register's there (R66). -/
theorem regAt_none {cfg : Config} {base a : Addr} {n : Nat}
    (h : ∀ x, a = base + BitVec.ofNat 64 (cfg.offset x) → n ≠ cfg.width x / 8) :
    regAt cfg base a n = none := by
  refine List.find?_eq_none.2 fun x _ hx => ?_
  simp only [Bool.and_eq_true, beq_iff_eq] at hx
  exact h x hx.1.symm (by omega)

/-- Settles O13: by the register the window access finds. -/
theorem windowAccessIsRegisterAccess : Obligations.WindowAccessIsRegisterAccess := by
  refine fun s hwf => ⟨fun x v => ?_, fun a n v h => ?_, fun base v hb => createHandle_unaligned hwf hb v⟩
  · simp [windowRead, windowWrite, regAt_own hwf]
  · simp [windowRead, windowWrite, regAt_none h]

/-- A bit of the flags left by clearing those set in `w`. -/
theorem getLsbD_cleared (old w : Word) (i : Nat) :
    (old &&& ~~~w).getLsbD i = (old.getLsbD i && !w.getLsbD i) := by
  have hlt : old.getLsbD i = true → i < 32 := BitVec.lt_of_getLsbD
  simp only [BitVec.getLsbD_and, BitVec.getLsbD_not]
  grind

/-- Settles O14: a write of NIS or EIS clears in the flags HW left the bits of the value as cut. -/
theorem writeOneClearsOnlyThatFlag : Obligations.WriteOneClearsOnlyThatFlag := fun s v i => by
  rw [regWrite_eq, regWrite_eq]
  exact ⟨getLsbD_cleared (hwStep s).rb.nis _ i, getLsbD_cleared (hwStep s).rb.eis _ i⟩

end Sys2Proof.Machine

/-! ### The DMA engine of a read transfer (O30) -/

namespace Sys2Proof.Machine

/-- Memory with the next byte of the card's stream stored at the engine's address (R64). -/
def storing (d : DmaEngine) (b : Byte) (s : State) : State :=
  { s with mem := Memory.write s.mem d.pos.toNat b }

theorem dmaStores_cons {s : State} {x : XferLatch} {d : DmaEngine} (h : movingDma s = some (x, d))
    (ht : d.toMem = true) (b : Byte) (bs : List Byte) :
    dmaStores (b :: bs) s = dmaStores bs (byteMoved x d (storing d b s)) := by
  simp [dmaStores, h, ht, storing]

/-- Moving on changes no memory. -/
theorem byteMoved_mem (x : XferLatch) (d : DmaEngine) (s : State) : (byteMoved x d s).mem = s.mem := by
  unfold byteMoved
  dsimp only
  split
  · split <;> rfl
  · split <;> rfl

/-- The automatic stop command that follows the last byte ends the transfer (R177). -/
theorem autoStop_after_last {s : State} {f : InFlight} {x : XferLatch} {d : DmaEngine}
    (hlive : cardLive s = true) (hf : s.hid.cmd = some f) (hx : f.xfer = some x) (hl : d.left = 1)
    (hb : x.boot = false) (hn : needsAutoStop s.cfg x = true) :
    let t := HwEvent.autoStop.apply (byteMoved x d s)
    t.rb.nis = s.rb.nis ||| tcBit s ∧ t.hid.dma = none ∧ t.hid.cmd = none := by
  have hover : d.advanced.left = 0 := by simp [DmaEngine.advanced, hl]
  have stops := autoStopSent_ends (s := { s with hid := { s.hid with dma := some d.advanced } })
    hlive hf hx rfl hover hb hn
  rw [byteMoved_last_waits hl (.inr hn), show HwEvent.autoStop.apply _ = _ from stops]
  exact transferDone_spec _

/-- Settles O30: one stored byte is one `byteMoved` of the state that holds it, whose five cases are the last
five clauses. -/
theorem dmaStoresOneByteAndPausesAtBoundaries : Obligations.DmaStoresOneByteAndPausesAtBoundaries := by
  intro s f x d b hpow hclk hf hx hboot hd ht hp hl t e
  have et : t = byteMoved x d (storing d b s) :=
    dmaStores_cons (movingDma_of_flow hpow hclk hf hx hboot hd hp hl) ht b []
  have ee : e = d.advanced := rfl
  have hmem : t.mem = Memory.write s.mem d.pos.toNat b := et ▸ byteMoved_mem x d (storing d b s)
  refine ⟨fun hwf => dmaBoundary_pow hwf x.blksize, by rw [hmem, Memory.read_write_same],
    fun a ha => by rw [hmem, Memory.read_write_other _ _ ha], ?_⟩
  rw [et, ee]
  refine ⟨fun h1 hb => ?on, fun h1 hb => ?boundary, fun h1 hb => ?bootLast, fun h1 hb hn => ?last,
    fun h1 hb hn => ?autoStop⟩
  case on =>
    rw [byteMoved_on (s := storing d b s) h1 hb]
    exact ⟨rfl, rfl⟩
  case boundary =>
    obtain ⟨hrb, hdma⟩ := byteMoved_boundary (s := storing d b s) h1 hb
    rw [hrb, hdma]
    exact ⟨rfl, rfl, rfl⟩
  case bootLast =>
    rw [byteMoved_last_waits h1 (.inl hb)]
    exact ⟨rfl, rfl⟩
  case last =>
    obtain ⟨hnis, hdma, hcmd⟩ := transferDone_spec (storing d b s)
    rw [byteMoved_last_ends (s := storing d b s) h1 hb hn]
    exact ⟨hdma, hcmd, hnis⟩
  case autoStop =>
    have hlive : cardLive s = true := by simp [cardLive, hpow, hclk]
    refine ⟨?_, autoStop_after_last (s := storing d b s) hlive hf hx h1 hb hn⟩
    rw [byteMoved_last_waits (s := storing d b s) h1 (.inr hn)]
    rfl

end Sys2Proof.Machine

/-! ### What HW stores to memory (O32) -/

namespace Sys2Proof.Machine

/-- A read transfer in progress has at most `n` bytes still to move, and `a` is the address of none of them. -/
def Misses (n a : Nat) (s : State) : Prop :=
  ∀ d, s.hid.dma = some d → d.toMem = true → d.left ≤ n ∧ ∀ k, k < d.left → a ≠ (d.pos.toNat + k) % 2 ^ 32

theorem misses_of_noStore {n a : Nat} {s : State} (h : NoStore s) : Misses n a s := fun d hd ht =>
  absurd ht (by simp [h d hd])

/-- The bound is there for any address outside the transfer: the bytes the engine has left. -/
theorem Outside.misses {s : State} {a : Nat} (h : Outside s a) : ∃ n, Misses n a s := by
  cases hd : s.hid.dma with
  | none => exact ⟨0, misses_of_noStore (by simp [NoStore, hd])⟩
  | some d =>
    refine ⟨d.left, fun e he ht => ?_⟩
    obtain rfl : d = e := Option.some.inj (hd.symm.trans he)
    exact ⟨le_refl _, h d hd ht⟩

/-- From `s` to `t`, a transfer of at most `n` bytes that misses `a` goes on missing it, and `a` keeps its
byte. -/
def Spares (n a : Nat) (s t : State) : Prop :=
  Misses n a s → Misses n a t ∧ Memory.read t.mem a = Memory.read s.mem a

section Spares

variable {n a : Nat}

theorem Spares.refl (s : State) : Spares n a s s := fun h => ⟨h, rfl⟩

theorem Spares.trans {s t u : State} (h : Spares n a s t) (k : Spares n a t u) : Spares n a s u := by
  intro m
  obtain ⟨mt, ht⟩ := h m
  obtain ⟨mu, hu⟩ := k mt
  exact ⟨mu, hu.trans ht⟩

/-- An update that leaves memory and the DMA engine alone. -/
theorem Spares.of_same {s t : State} (hm : t.mem = s.mem) (hd : t.hid.dma = s.hid.dma) : Spares n a s t :=
  fun h => ⟨fun d k => h d (hd ▸ k), by rw [hm]⟩

/-- An update that leaves memory alone and after which no engine runs. -/
theorem Spares.of_gone {s t : State} (hm : t.mem = s.mem) (hd : t.hid.dma = none) : Spares n a s t :=
  fun _ => ⟨fun d k => by simp [hd] at k, by rw [hm]⟩

/-- What HW does while no transfer stores to memory. -/
theorem Spares.of_noStore {s t : State} (l : HwLaw s t) (h : NoStore s) : Spares n a s t :=
  fun _ => ⟨misses_of_noStore (l.dma h), by rw [l.mem h]⟩

/-! #### Engines other than the DMA engine -/

theorem Spares.setReg (x : Reg) (v : Word) (s : State) : Spares n a s (s.setReg x v) := .of_same rfl rfl

theorem Spares.completeCommand (f : InFlight) (s : State) : Spares n a s (completeCommand f s) :=
  .of_same rfl rfl

theorem Spares.raiseError (b : Word) (s : State) : Spares n a s (s.raiseError b) := by
  unfold State.raiseError
  split
  · exact .refl s
  · exact .of_same rfl rfl

theorem Spares.endResets (m : Word) (after : Registers) (count : Word) (s : State) :
    Spares n a s (endResets m after count s) := by
  unfold Machine.endResets
  dsimp only
  split
  · exact .of_gone rfl rfl
  · split
    · exact .of_gone rfl rfl
    · exact .of_same rfl rfl

theorem Spares.clockReports (b : Bool) (s : State) : Spares n a s (clockReports b s) := by
  unfold Machine.clockReports
  split
  · exact .refl s
  · exact .of_same rfl rfl

theorem Spares.commandSent (s : State) : Spares n a s (commandSent s) := by
  unfold Machine.commandSent
  split
  · split
    · exact .of_same rfl rfl
    · exact .refl s
  · exact .refl s

theorem Spares.responseArrives (r0 r1 r2 r3 : Word) (busy : Bool) (s : State) :
    Spares n a s (responseArrives r0 r1 r2 r3 busy s) := by
  have load0 : Spares n a s (s.loadReg .resp0 r0) := .setReg _ _ s
  unfold Machine.responseArrives
  split
  · split
    · split
      · exact load0.trans (.completeCommand _ _)
      · exact (((load0.trans (.setReg _ _ _)).trans (.setReg _ _ _)).trans (.setReg _ _ _)).trans
          (.completeCommand _ _)
      · exact load0.trans (.of_same rfl rfl)
      · exact .refl s
      · exact .refl s
    · exact .refl s
  · exact .refl s

theorem Spares.busyReleased (s : State) : Spares n a s (busyReleased s) := by
  unfold Machine.busyReleased
  split
  · split
    · exact .of_same rfl rfl
    · split
      · exact .of_same rfl rfl
      · exact .refl s
  · exact .refl s

theorem Spares.errorDetected (b : Word) (v : Option Word) (s : State) : Spares n a s (errorDetected b v s) := by
  cases v with
  | none => exact .raiseError b s
  | some v => exact (Spares.raiseError b s).trans (.of_same rfl rfl)

theorem Spares.portBlockMoved (s : State) : Spares n a s (portBlockMoved s) := by
  unfold Machine.portBlockMoved
  split
  · split
    · split
      · dsimp only
        split
        · exact .of_gone rfl rfl
        · exact .of_same rfl rfl
      · exact .refl s
    · exact .refl s
  · exact .refl s

theorem Spares.autoStopSent (s : State) : Spares n a s (autoStopSent s) := by
  unfold Machine.autoStopSent
  split
  · split
    · split
      · exact .of_gone rfl rfl
      · exact .refl s
    · exact .refl s
  · exact .refl s

theorem Spares.bufferReady (s : State) : Spares n a s (bufferReady s) := by
  unfold Machine.bufferReady
  split
  · split
    · split
      · exact .of_same rfl rfl
      · exact .refl s
    · exact .refl s
  · exact .refl s

theorem Spares.bootAckArrives (s : State) : Spares n a s (bootAckArrives s) := by
  unfold Machine.bootAckArrives
  split
  · split
    · exact .of_same rfl rfl
    · exact .refl s
  · exact .refl s

theorem Spares.bootStreamEnds (tc : Bool) (s : State) : Spares n a s (bootStreamEnds tc s) := by
  unfold Machine.bootStreamEnds
  split
  · exact .of_gone rfl rfl
  · exact .refl s

theorem Spares.dataCounterRuns (c : Word) (s : State) : Spares n a s (dataCounterRuns c s) := by
  unfold Machine.dataCounterRuns
  split
  · exact .of_same rfl rfl
  · exact .refl s

theorem Spares.dataCounterExpires (b : Word) (s : State) : Spares n a s (dataCounterExpires b s) := by
  unfold Machine.dataCounterExpires
  split
  · exact .raiseError b s
  · exact .refl s

theorem Spares.bootCounterRuns (c : Word) (s : State) : Spares n a s (bootCounterRuns c s) := by
  unfold Machine.bootCounterRuns
  split
  · exact .of_same rfl rfl
  · exact .refl s

theorem Spares.bootCounterExpires (b : Word) (s : State) : Spares n a s (bootCounterExpires b s) := by
  unfold Machine.bootCounterExpires
  split
  · exact .raiseError b s
  · exact .refl s

/-! #### The DMA engine -/

/-- The engine after a byte, if any is left, is one byte on. -/
theorem byteMoved_engine {x : XferLatch} {d e : DmaEngine} {s : State}
    (h : (byteMoved x d s).hid.dma = some e) : e = { d.advanced with paused := e.paused } := by
  unfold byteMoved at h
  dsimp only at h
  split at h
  · split at h
    · obtain rfl := Option.some.inj h; rfl
    · cases h
  · split at h <;> obtain rfl := Option.some.inj h <;> rfl

theorem movingDma_left {s : State} {x : XferLatch} {d : DmaEngine} (h : movingDma s = some (x, d)) :
    0 < d.left := by
  unfold movingDma at h
  split at h
  · split at h
    · split at h
      · grind
      · cases h
    · cases h
  · cases h

/-- `k` bytes on from the address `p + j` is `j + k` bytes on from `p`, also where the address wraps. -/
theorem wrapped_add (p : Word) (j k : Nat) :
    ((p + BitVec.ofNat 32 j).toNat + k) % 2 ^ 32 = (p.toNat + (j + k)) % 2 ^ 32 := by
  simp only [BitVec.toNat_add, BitVec.toNat_ofNat]
  omega

/-- An engine that has moved `j` of its bytes has the others still to move, at the same addresses. -/
theorem Misses.advance {s t : State} {d : DmaEngine} (h : Misses n a s) (hd : s.hid.dma = some d) (j : Nat)
    (hj : j ≤ d.left) (ht : ∀ e, t.hid.dma = some e →
      e.pos = d.pos + BitVec.ofNat 32 j ∧ e.left = d.left - j ∧ e.toMem = d.toMem) : Misses n a t := by
  intro e he hm
  obtain ⟨hpos, hleft, hdir⟩ := ht e he
  obtain ⟨hn, hout⟩ := h d hd (hdir ▸ hm)
  refine ⟨by omega, fun k hk => ?_⟩
  rw [hpos, wrapped_add]
  exact hout (j + k) (by omega)

theorem Spares.dmaStores : ∀ (bs : List Byte) (s : State), Spares n a s (dmaStores bs s)
  | [], s => .refl s
  | b :: bs, s => by
    cases h : movingDma s with
    | none => rw [dmaStores_still h]; exact .refl s
    | some xd =>
      obtain ⟨x, d⟩ := xd
      have hd := (movingDma_some h).1
      cases ht : d.toMem with
      | false => simp only [Machine.dmaStores, h, ht, Bool.false_eq_true, if_false]; exact .refl s
      | true =>
        rw [dmaStores_cons h ht]
        refine Spares.trans (fun hm => ⟨?_, ?_⟩) (Spares.dmaStores bs _)
        · refine hm.advance hd 1 (movingDma_left h) fun e he => ?_
          rw [byteMoved_engine he]
          exact ⟨rfl, rfl, rfl⟩
        · have hne := (hm d hd ht).2 0 (movingDma_left h)
          rw [byteMoved_mem]
          exact Memory.read_write_other s.mem b (by simpa [Nat.mod_eq_of_lt d.pos.isLt] using hne)

/-- The engine of a read transfer fetches nothing (R81). -/
theorem dmaFetches_toMem {s : State} {d : DmaEngine} (hd : s.hid.dma = some d) (ht : d.toMem = true) :
    ∀ m, dmaFetches m s = s
  | 0 => rfl
  | _ + 1 => by
    cases h : movingDma s with
    | none => exact dmaFetches_still h _
    | some xe =>
      obtain ⟨x, e⟩ := xe
      obtain rfl : d = e := Option.some.inj (hd.symm.trans (movingDma_some h).1)
      simp [dmaFetches, h, ht]

theorem Spares.dmaFetches (m : Nat) (s : State) : Spares n a s (dmaFetches m s) := by
  by_cases h : NoStore s
  · exact .of_noStore (.dmaFetches m s) h
  · simp only [NoStore, not_forall, Bool.not_eq_false] at h
    obtain ⟨d, hd, ht⟩ := h
    rw [dmaFetches_toMem hd ht]
    exact .refl s

/-! #### The open oracle -/

theorem Spares.drawReg (x : Reg) (v : Option Word) (s : State) : Spares n a s (drawReg x v s) := by
  cases v with
  | none => exact .refl s
  | some w => exact .of_same rfl rfl

theorem Spares.drawCount (v : Option Word) (s : State) : Spares n a s (drawCount v s) := by
  cases v with
  | none => exact .refl s
  | some c => exact .of_same rfl rfl

theorem Spares.abandonCommand (b : Bool) (s : State) : Spares n a s (abandonCommand b s) := by
  unfold Machine.abandonCommand
  split
  · exact .of_gone rfl rfl
  · exact .refl s

/-- The bytes an oracle step stores are among those it moves (log entry 27). -/
theorem Spares.oracleMoves (m : Nat) (p : Option Bool) (l : List (Nat × Byte)) (s : State) :
    Spares n a s (oracleMoves m p l s) := by
  unfold Machine.oracleMoves
  split
  · next d hd =>
    refine fun h => ⟨h.advance hd (min m d.left) (Nat.min_le_right _ _) fun e he => ?_, ?_⟩
    · obtain rfl := Option.some.inj he
      exact ⟨rfl, rfl, rfl⟩
    · dsimp only
      split
      · next ht =>
        exact oracleBytes_other (fun k hk => (h d hd ht).2 k (hk.trans_le (Nat.min_le_right _ _))) l s.mem
      · rfl
  · exact .refl s

theorem Spares.oracleStep (d : OracleDraw) (s : State) : Spares n a s (oracleStep d s) :=
  (((((((((((((Spares.endResets _ _ _ s).trans (.setReg .clkctl _ _)).trans (.setReg .nis _ _)).trans
    (.setReg .eis _ _)).trans (.drawReg _ _ _)).trans (.drawReg _ _ _)).trans (.drawReg _ _ _)).trans
    (.drawReg _ _ _)).trans (.drawReg _ _ _)).trans (.drawReg _ _ _)).trans (.drawReg _ _ _)).trans
    (.oracleMoves _ _ _ _)).trans (.drawCount _ _)).trans (.abandonCommand _ _)

/-! #### A step of HW -/

theorem Spares.event (e : HwEvent) (s : State) : Spares n a s (e.apply s) := by
  cases e with
  | resetEnds m after c => exact .endResets m after c s
  | clock b => exact .clockReports b s
  | commandSent => exact .commandSent s
  | response r0 r1 r2 r3 busy => exact .responseArrives r0 r1 r2 r3 busy s
  | busyReleased => exact .busyReleased s
  | flags n e => exact (Spares.raiseError e s).trans (.of_same rfl rfl)
  | error b v => exact .errorDetected b v s
  | dmaIn bs => exact .dmaStores bs s
  | dmaOut m => exact .dmaFetches m s
  | portBlock => exact .portBlockMoved s
  | autoStop => exact .autoStopSent s
  | bufferReady => exact .bufferReady s
  | bootAck => exact .bootAckArrives s
  | bootEnd tc => exact .bootStreamEnds tc s
  | dataTick c => exact .dataCounterRuns c s
  | dataExpires b => exact .dataCounterExpires b s
  | bootTick c => exact .bootCounterRuns c s
  | bootExpires b => exact .bootCounterExpires b s
  | oracle d => exact .oracleStep d s

theorem Spares.events : ∀ (l : List HwEvent) (s : State), Spares n a s (l.foldl (fun t e => e.apply t) s)
  | [], s => .refl s
  | e :: l, s => (Spares.event e s).trans (Spares.events l _)

theorem Spares.hwStep (s : State) : Spares n a s (hwStep s) :=
  (Spares.of_same rfl rfl : Spares n a s (advanceScript s)).trans (.events _ _)

end Spares

/-- Settles O32: an address outside the transfer is missed by it for some bound on its bytes. -/
theorem dmaStoresOnlyInsideTheTransfer : Obligations.DmaStoresOnlyInsideTheTransfer := by
  intro s a h
  obtain ⟨n, hm⟩ := Outside.misses h
  exact (Spares.hwStep s hm).2

end Sys2Proof.Machine

/-! ### Which registers an operation writes (O58), and what memory it changes (O55) -/

namespace Sys2Proof.Machine

theorem writesOf_append : ∀ l k : List Access, writesOf (l ++ k) = writesOf l ++ writesOf k
  | [], _ => rfl
  | .write x v :: l, k => congrArg ((x, v) :: ·) (writesOf_append l k)
  | .read _ _ :: l, k => writesOf_append l k

/-- From no address the accesses write to DMAADDR is `a` less than `n` bytes on. -/
def ClearOf (n a : Nat) (l : List Access) : Prop :=
  ∀ v, (.dmaaddr, v) ∈ writesOf l → ∀ k, k < n → a ≠ (v.toNat + k) % 2 ^ 32

theorem clearOf_append {n a : Nat} {l k : List Access} : ClearOf n a (l ++ k) ↔ ClearOf n a l ∧ ClearOf n a k := by
  simp only [ClearOf, writesOf_append, List.mem_append, or_imp, forall_and]

/-- What a run of accesses from `s` to `t` shows in the trace and does to memory: it writes registers of `ws`
only, and a byte keeps its value that neither the transfer in progress nor that transfer moved to an address
written to DMAADDR reaches. -/
def Touches (ws : List Reg) (s t : State) : Prop :=
  ∃ l, t.trace = s.trace ++ l ∧ (∀ p ∈ writesOf l, p.1 ∈ ws) ∧ ∀ n a, ClearOf n a l → Spares n a s t

/-! #### Single accesses -/

/-- A DMA engine written DMAADDR has the same bytes left to move from there on (R56, log entry 42). -/
theorem Misses.resumeDma {n a : Nat} {s : State} {v : Word} (h : Misses n a s)
    (hv : ∀ k, k < n → a ≠ (v.toNat + k) % 2 ^ 32) : Misses n a (resumeDma v s) := by
  intro e he ht
  cases hd : s.hid.dma with
  | none => simp [Machine.resumeDma, hd] at he
  | some d =>
    obtain rfl := Option.some.inj ((resumeDma_engine hd v).symm.trans he)
    have hn := (h d hd ht).1
    exact ⟨hn, fun k hk => hv k (hk.trans_le hn)⟩

theorem Spares.writeEffect {n a : Nat} {x : Reg} {v : Word}
    (h : x = .dmaaddr → ∀ k, k < n → a ≠ (v.toNat + k) % 2 ^ 32) (s : State) :
    Spares n a s (writeEffect x v s) := by
  by_cases hx : x = .dmaaddr
  · subst hx
    exact (Spares.setReg .dmaaddr v s).trans fun hm => ⟨hm.resumeDma (h rfl), by
      rw [writeEffect_mem, State.setReg_mem]⟩
  · exact .of_same (writeEffect_mem x v s) (by simp [writeEffect_hid, hx])

section Touches

variable {ws : List Reg}

theorem Touches.trans {s t u : State} (h : Touches ws s t) (k : Touches ws t u) : Touches ws s u := by
  obtain ⟨l, hl, hlw, hls⟩ := h
  obtain ⟨m, hm, hmw, hms⟩ := k
  refine ⟨l ++ m, by rw [hm, hl, List.append_assoc], fun p hp => ?_, fun n a hc => ?_⟩
  · rw [writesOf_append, List.mem_append] at hp
    exact hp.elim (hlw p) (hmw p)
  · obtain ⟨cl, cm⟩ := clearOf_append.1 hc
    exact (hls n a cl).trans (hms n a cm)

/-- An update that is no access and leaves memory and the DMA engine alone. -/
theorem Touches.of_same {s t : State} (ht : t.trace = s.trace) (hm : t.mem = s.mem)
    (hd : t.hid.dma = s.hid.dma) : Touches ws s t :=
  ⟨[], by simp [ht], by simp [writesOf], fun _ _ _ => .of_same hm hd⟩

theorem Touches.refl (s : State) : Touches ws s s := .of_same rfl rfl rfl

theorem Touches.replied (y : Reply) (s : State) : Touches ws s { s with reply := y } := .of_same rfl rfl rfl

theorem Touches.settled (q : SeqState) (y : Reply) (s : State) :
    Touches ws s { s with seq := q, sent := none, reply := y } := .of_same rfl rfl rfl

theorem Touches.ready (r : Bool) (s : State) : Touches ws s { s with h := { s.h with ready := r } } :=
  .of_same rfl rfl rfl

theorem Touches.voltage (v : Voltage) (s : State) : Touches ws s { s with h := { s.h with voltage := v } } :=
  .of_same rfl rfl rfl

theorem Touches.logged (c : Cause) (vs : List Word) (s : State) : Touches ws s (s.logged c vs) :=
  .of_same rfl rfl rfl

theorem Touches.regRead (x : Reg) (s : State) : Touches ws s (regRead x s).2 :=
  ⟨_, regRead_trace x s, by simp [writesOf], fun _ _ _ => (Spares.hwStep s).trans (.of_same rfl rfl)⟩

theorem Touches.regWrite {x : Reg} (hx : x ∈ ws) (v : Word) (s : State) : Touches ws s (regWrite x v s) := by
  refine ⟨_, regWrite_trace x v s, by simp [writesOf, hx], fun n a hc => ?_⟩
  rw [regWrite_eq]
  refine ((Spares.hwStep s).trans (.writeEffect (fun h => ?_) _)).trans (.of_same rfl rfl)
  exact hc _ (by simp [writesOf, h])

theorem Touches.regRmw {x : Reg} (hx : x ∈ ws) (f : Word → Word) (s : State) : Touches ws s (regRmw x f s) :=
  (Touches.regRead x s).trans (.regWrite hx _ _)

/-! #### Procedures -/

theorem Touches.pollLoop (x : Reg) (cond : Word → Bool) (b t0 : Nat) :
    ∀ (n : Nat) (s : State), Touches ws s (pollLoop x cond b t0 n s).2
  | 0, _ => .of_same rfl rfl rfl
  | n + 1, s => by
    have sample : Touches ws s (sampleClock s) := .of_same rfl rfl rfl
    unfold Machine.pollLoop
    dsimp only
    split
    · exact sample
    · split
      · exact sample.trans (.regRead x _)
      · exact (sample.trans (.regRead x _)).trans (Touches.pollLoop x cond b t0 n _)

theorem Touches.poll (x : Reg) (cond : Word → Bool) (b : Nat) (s : State) : Touches ws s (poll x cond b s).2 :=
  (Touches.of_same rfl rfl rfl : Touches ws s (sampleClock s)).trans (.pollLoop x cond b _ _ _)

theorem Touches.resetProc (hw : .swreset ∈ ws) (m : Word) (s : State) : Touches ws s (resetProc m s).2 := by
  have polled := fun b => (Touches.regWrite hw m s).trans (.poll .swreset (fun v => v &&& m == 0) b _)
  unfold Machine.resetProc
  dsimp only
  split
  · exact polled _
  · exact (polled _).trans (.logged _ _ _)

theorem Touches.clearAll (hn : .nis ∈ ws) (he : .eis ∈ ws) (s : State) : Touches ws s (clearAll s) :=
  (Touches.regWrite hn _ s).trans (.regWrite he _ _)

theorem Touches.setClock (hc : .clkctl ∈ ws) (k : Nat) (s : State) : Touches ws s (setClock k s).2 := by
  have polled := fun w u b => (Touches.regWrite hc w s).trans (.poll .clkctl u b _)
  unfold Machine.setClock
  dsimp only
  split
  · exact (polled _ _ _).trans (.regWrite hc _ _)
  · exact (polled _ _ _).trans (.logged _ _ _)

theorem Touches.dmaAck (hn : .nis ∈ ws) (hd : .dmaaddr ∈ ws) (s : State) : Touches ws s (dmaAck s).2 :=
  ((Touches.regRead _ s).trans (.regWrite hd _ _)).trans (.regWrite hn _ _)

theorem Touches.recover (hw : .swreset ∈ ws) (hn : .nis ∈ ws) (he : .eis ∈ ws) (s : State) :
    Touches ws s (recover s) :=
  (Touches.resetProc hw _ s).trans (.clearAll hn he _)

theorem failWith_eq (c : Cause) (vs : List Word) (s : State) : failWith c vs s =
    { recover (s.logged c vs) with seq := .idle, sent := none, reply := .fail } := rfl

theorem Touches.failWith (hw : .swreset ∈ ws) (hn : .nis ∈ ws) (he : .eis ∈ ws) (c : Cause) (vs : List Word)
    (s : State) : Touches ws s (failWith c vs s) :=
  failWith_eq c vs s ▸ ((Touches.logged c vs s).trans (.recover hw hn he _)).trans (.settled .idle .fail _)

theorem Touches.decodeResponse (c : Descriptor) (s : State) : Touches ws s (decodeResponse c s) := by
  unfold Machine.decodeResponse
  split
  · exact .refl s
  · split
    · exact ((((Touches.regRead _ s).trans (.regRead _ _)).trans (.regRead _ _)).trans (.regRead _ _)).trans
        (.of_same rfl rfl rfl)
    · split
      · exact (Touches.regRead _ s).trans (.of_same rfl rfl rfl)
      · exact .refl s

/-! #### Parts of the operations -/

theorem Touches.powerUp (hp : .pwrctl ∈ ws) (s : State) : Touches ws s (powerUp s) := by
  have off := Touches.regWrite hp 0 s
  unfold Machine.powerUp
  dsimp only
  split
  · exact (off.trans (.regWrite hp _ _)).trans (.voltage _ _)
  · exact off.trans (.voltage _ _)

theorem Touches.finishInit (ht : .timeoutctl ∈ ws) (hn : .nis ∈ ws) (he : .eis ∈ ws) (hni : .nie ∈ ws)
    (hei : .eie ∈ ws) (s : State) : Touches ws s (finishInit s) :=
  ((((Touches.regWrite ht _ s).trans (.clearAll hn he _)).trans (.regWrite hni _ _)).trans
    (.regWrite hei _ _)).trans (.ready true _)

theorem Touches.programTransfer (hc : .blkcnt ∈ ws) (hd : .dmaaddr ∈ ws) (hs : .blksize ∈ ws)
    (hx : .xfermode ∈ ws) (c : Descriptor) (hb : c.bootEn = true → .boottimeout ∈ ws ∧ .bgc ∈ ws) (s : State) :
    Touches ws s (programTransfer c s) := by
  have block := fun v u w y => (((Touches.regWrite hc v s).trans (.regWrite hd u _)).trans
    (.regWrite hs w _)).trans (.regWrite hx y _)
  unfold Machine.programTransfer
  dsimp only
  split
  · next h =>
    obtain ⟨ht, hg⟩ := hb h
    exact ((block _ _ _ _).trans (.regWrite ht _ _)).trans (.regRmw hg _ _)
  · exact block _ _ _ _

theorem Touches.waitBoot (ht : .boottimeout ∈ ws) (hn : .nis ∈ ws) (hw : .swreset ∈ ws) (he : .eis ∈ ws)
    (n : Word) (s : State) : Touches ws s (waitBoot n s) := by
  obtain ⟨-, e⟩ | ⟨-, a, b, rfl, rfl, e⟩ := waitBoot_cases n s
  · exact e ▸ .failWith hw hn he _ _ s
  · exact e ▸ ((Touches.regWrite ht _ s).trans (.regWrite hn _ _)).trans (.settled _ _ _)

theorem Touches.waitNonData (hn : .nis ∈ ws) (hw : .swreset ∈ ws) (he : .eis ∈ ws) {c : Descriptor} {n : Word}
    {s t : State} (h : waitNonData c n s = .next t) : Touches ws s t := by
  obtain ⟨-, e⟩ | ⟨-, -, a, b, rfl, rfl, e⟩ | ⟨-, -, e⟩ := waitNonData_cases c n s
  · obtain rfl := Host.Outcome.next.inj (e.symm.trans h)
    exact .failWith hw hn he _ _ s
  · obtain rfl := Host.Outcome.next.inj (e.symm.trans h)
    exact ((Touches.decodeResponse c s).trans (.regWrite hn _ _)).trans (.settled _ _ _)
  · cases e.symm.trans h

theorem Touches.dataLoop (hd : .dmaaddr ∈ ws) (hn : .nis ∈ ws) (hw : .swreset ∈ ws) (he : .eis ∈ ws) (t0 : Nat) :
    ∀ (n : Nat) (s : State), Touches ws s (dataLoop t0 n s)
  | 0, s => (Touches.of_same rfl rfl rfl : Touches ws s (sampleClockPast _ s)).trans (.failWith hw hn he _ _ _)
  | n + 1, s => by
    have sample : Touches ws s (sampleClock s) := .of_same rfl rfl rfl
    obtain ⟨a, rfl, ⟨-, e⟩ | ⟨-, x, d, rfl, rfl, ⟨-, f, rfl, e⟩ | ⟨-, q, g, b, rfl, rfl, hb, h⟩⟩⟩ :=
      dataLoop_cases t0 n s
    · exact e ▸ sample.trans (.failWith hw hn he _ _ _)
    · exact e ▸ ((sample.trans (.regRead _ _)).trans (.regRead _ _)).trans (.failWith hw hn he _ _ _)
    · have round : Touches ws s b := by
        have read := fun y z => (sample.trans (.regRead y _)).trans (.regRead z _)
        rw [hb]
        split
        · exact (read _ _).trans (.dmaAck hn hd _)
        · exact read _ _
      obtain ⟨-, z, rfl, e⟩ | ⟨-, -, z, rfl, e⟩ | ⟨-, -, e⟩ := h
      · exact e ▸ (round.trans (.regWrite hn _ _)).trans (.settled _ _ _)
      · exact e ▸ (round.trans (.regWrite hn _ _)).trans (.settled _ _ _)
      · exact e ▸ round.trans (Touches.dataLoop hd hn hw he t0 n b)

end Touches

/-! #### The operations -/

/-- The registers an operation may write (R82). -/
def writable : Instr → List Reg
  | .init => [.swreset, .pwrctl, .clkctl, .timeoutctl, .nis, .eis, .nie, .eie]
  | .setMode _ => [.clkctl, .hc2, .hc]
  | .sendCmd c =>
    if c.bootEn then [.nis, .blkcnt, .dmaaddr, .blksize, .xfermode, .boottimeout, .bgc, .arg, .cmd]
    else if c.dataXfer then [.nis, .blkcnt, .dmaaddr, .blksize, .xfermode, .arg, .cmd]
    else [.nis, .arg, .cmd]
  | .waitCmd c =>
    if c.bootEn then [.boottimeout, .nis, .swreset, .eis]
    else if c.dataXfer then [.dmaaddr, .nis, .swreset, .eis]
    else [.nis, .swreset, .eis]
  | .bootWait => [.dmaaddr, .nis]
  | .bootStop => [.bgc, .nis, .eis, .swreset]
  | .cmdwRespNone _ _ | .cmdwResp136 _ _ | .cmdwResp48 _ _ | .cmdwResp48b _ _ => []

theorem runInit_touches (s : State) : Touches (writable .init) s (runInit s) := by
  have reset : Touches (writable .init) s (resetProc s.cfg.reset.all (startInit s)).2 :=
    (Touches.of_same rfl rfl rfl : Touches _ s (startInit s)).trans (.resetProc (by decide) _ _)
  have clock := (reset.trans (.powerUp (by decide) _)).trans
    (.setClock (by decide) s.cfg.clock.initTargetKHz _)
  have finish := clock.trans
    (.finishInit (by decide) (by decide) (by decide) (by decide) (by decide) _)
  obtain ⟨a, rfl, ⟨-, e⟩ | ⟨-, p, b, rfl, rfl, ⟨-, e⟩ | ⟨-, e⟩⟩⟩ := runInit_cases s
  all_goals rw [e]
  · exact reset.trans (.replied _ _)
  · exact clock.trans (.replied _ _)
  · exact finish.trans (.replied _ _)

theorem runSetMode_touches (m : ModeRec) (s : State) : Touches (writable (.setMode m)) s (runSetMode m s) := by
  have clock : Touches [.clkctl, .hc2, .hc] s (setClock m.freqKHz.toNat s).2 := .setClock (by decide) _ s
  obtain ⟨a, rfl, ⟨-, e⟩ | ⟨-, b, c, rfl, rfl, e⟩⟩ := runSetMode_cases m s
  · exact e ▸ clock.trans (.replied _ _)
  · exact e ▸ ((clock.trans (.regRmw (by decide) _ _)).trans (.regRmw (by decide) _ _)).trans (.replied _ _)

theorem runSendCmd_touches (c : Descriptor) (s : State) : Touches (writable (.sendCmd c)) s (runSendCmd c s) := by
  have always : .nis ∈ writable (.sendCmd c) ∧ .arg ∈ writable (.sendCmd c) ∧ .cmd ∈ writable (.sendCmd c) := by
    simp only [writable]
    split
    · decide
    · split <;> decide
  obtain ⟨hnis, harg, hcmd⟩ := always
  obtain ⟨a, b, d, e, rfl, hb, rfl, rfl, -, h⟩ := runSendCmd_eq c s
  have block : Touches (writable (.sendCmd c)) (regWrite .nis s.cfg.irq.nisAll s) b := by
    rw [hb]
    split
    · next hx =>
      cases hboot : c.bootEn with
      | true =>
        simp only [writable, hboot, if_true]
        exact .programTransfer (by decide) (by decide) (by decide) (by decide) c (fun _ => by decide) _
      | false =>
        have hdata : c.dataXfer = true := by simpa [hboot] using hx
        simp only [writable, hboot, hdata, Bool.false_eq_true, if_false, if_true]
        exact .programTransfer (by decide) (by decide) (by decide) (by decide) c (by simp [hboot]) _
    · exact .refl _
  rw [h]
  exact ((((Touches.regWrite hnis _ s).trans block).trans (.regWrite harg _ _)).trans
    (.regWrite hcmd _ _)).trans (.of_same rfl rfl rfl)

theorem runWaitCmd_touches {c : Descriptor} {s t : State} (h : runWaitCmd c s = .next t) :
    Touches (writable (.waitCmd c)) s t := by
  have always : .nis ∈ writable (.waitCmd c) ∧ .swreset ∈ writable (.waitCmd c) ∧
      .eis ∈ writable (.waitCmd c) := by
    simp only [writable]
    split
    · decide
    · split <;> decide
  obtain ⟨hnis, hreset, heis⟩ := always
  obtain ⟨a, ha, hbranch⟩ := runWaitCmd_cases c s
  have poll : Touches (writable (.waitCmd c)) s a := ha ▸ .poll _ _ _ s
  refine poll.trans ?_
  obtain ⟨-, e⟩ | ⟨n, -, ⟨hboot, e⟩ | ⟨hboot, hdata, e⟩ | ⟨-, -, e⟩⟩ := hbranch
  · obtain rfl := Host.Outcome.next.inj (e.symm.trans h)
    exact .failWith hreset hnis heis _ _ a
  · obtain rfl := Host.Outcome.next.inj (e.symm.trans h)
    exact .waitBoot (by simp [writable, hboot]) hnis hreset heis n a
  · obtain rfl := Host.Outcome.next.inj (e.symm.trans h)
    exact (Touches.of_same rfl rfl rfl : Touches _ a (sampleClock a)).trans
      (.dataLoop (by simp [writable, hboot, hdata]) hnis hreset heis _ _ _)
  · exact .waitNonData hnis hreset heis (e.symm.trans h)

theorem runBootWait_touches (s : State) : Touches (writable .bootWait) s (runBootWait s) := by
  obtain ⟨q, a, rfl, rfl, ⟨-, e⟩ | ⟨-, b, rfl, e⟩⟩ := runBootWait_cases s
  · exact e ▸ (Touches.regRead _ s).trans (.replied _ _)
  · exact e ▸ ((Touches.regRead _ s).trans (.dmaAck (by decide) (by decide) _)).trans (.replied _ _)

theorem runBootStop_touches (s : State) : Touches (writable .bootStop) s (runBootStop s) := by
  obtain ⟨a, b, d, rfl, rfl, rfl, e⟩ := runBootStop_eq s
  exact e ▸ (((Touches.regRmw (by decide) _ s).trans (.clearAll (by decide) (by decide) _)).trans
    (.resetProc (by decide) _ _)).trans (.settled _ _ _)

/-- What an instruction that answers a next state did: a run of accesses, or, the command engine, no access and
nothing to memory. -/
theorem exec_touches {i : Instr} {s t : State} (h : exec i s = .next t) :
    Touches (writable i) s t ∨ (t.trace = s.trace ∧ t.mem = s.mem) := by
  cases i with
  | init => exact .inl (exec_init_next h ▸ runInit_touches s)
  | sendCmd c => exact .inl ((exec_sendCmd_next h).1 ▸ runSendCmd_touches c s)
  | waitCmd c => exact .inl (runWaitCmd_touches (exec_waitCmd_next h).1)
  | bootWait => exact .inl ((exec_bootWait_next h).1 ▸ runBootWait_touches s)
  | bootStop => exact .inl (exec_bootStop_next h ▸ runBootStop_touches s)
  | setMode m => exact .inl ((exec_setMode_next h).1 ▸ runSetMode_touches m s)
  | cmdwRespNone j d | cmdwResp136 j d | cmdwResp48 j d | cmdwResp48b j d =>
    obtain rfl := Host.Outcome.next.inj h
    exact .inr ⟨rfl, rfl⟩

/-- What an instruction adds to the trace, and which bytes it leaves alone by what it wrote to DMAADDR. -/
theorem exec_accesses {i : Instr} {s t : State} (h : exec i s = .next t) :
    ∃ l, t.trace = s.trace ++ l ∧ (∀ p ∈ writesOf l, p.1 ∈ writable i) ∧
      ∀ n a, ClearOf n a l → Misses n a s → Memory.read t.mem a = Memory.read s.mem a := by
  obtain ⟨l, ht, hw, hs⟩ | ⟨ht, hm⟩ := exec_touches h
  · exact ⟨l, ht, hw, fun n a hc hmiss => (hs n a hc hmiss).2⟩
  · exact ⟨[], by simp [ht], by simp [writesOf], fun _ _ _ _ => by rw [hm]⟩

/-- Settles O58: every operation's accesses write registers of its list. -/
theorem operationsWriteOnlyTheirRegisters : Obligations.OperationsWriteOnlyTheirRegisters := by
  intro i s t h
  obtain ⟨l, ht, hw, -⟩ := exec_accesses h
  refine ⟨l, ht, fun p hp => ?_⟩
  have hmem := hw p hp
  cases i <;> exact hmem

/-- Without a read transfer in progress no instruction changes memory (R61). -/
theorem exec_mem_of_noStore {i : Instr} {s t : State} (h : exec i s = .next t) (hn : NoStore s) :
    t.mem = s.mem := by
  obtain ⟨-, rfl⟩ | ⟨k, j, w, rfl⟩ | ⟨q, d, b, y, ends, -⟩ := exec_next_cases h
  · exact (runInit_ends s).1.mem hn
  · rfl
  · exact ends.keeps.mem hn

theorem dmaaddr_not_writable {i : Instr} (h : neverResumes i = true) : .dmaaddr ∉ writable i := by
  cases i with
  | sendCmd c =>
    obtain ⟨hdata, hboot⟩ : c.dataXfer = false ∧ c.bootEn = false := by simpa [neverResumes] using h
    simp [writable, hdata, hboot]
  | waitCmd c =>
    cases hboot : c.bootEn with
    | true => simp [writable, hboot]
    | false =>
      have hdata : c.dataXfer = false := by simpa [neverResumes, hboot] using h
      simp [writable, hboot, hdata]
  | bootWait => cases h
  | init | bootStop | setMode | cmdwRespNone | cmdwResp136 | cmdwResp48 | cmdwResp48b => simp [writable]

theorem regRead_value (x : Reg) (s : State) : (regRead x s).1 = (hwStep s).view x := rfl

/-- A BOOT_WAIT that reads `NIS_DMA` clear makes no access but that read (R158). -/
theorem runBootWait_trace {s : State} (h : hasBit ((hwStep s).view .nis) s.cfg.irq.dma = false) :
    (runBootWait s).trace = s.trace ++ [.read .nis (regRead .nis s).1] := by
  obtain ⟨q, a, rfl, rfl, ⟨-, e⟩ | ⟨hq, -⟩⟩ := runBootWait_cases s
  · simp only [e, regRead_trace]
  · simp [regRead_value, h] at hq

/-- Settles O55: by the accesses the instruction made, where a read transfer is in progress. -/
theorem memoryChangesOnlyByDma : Obligations.MemoryChangesOnlyByDma := by
  intro i s t h
  obtain ⟨l, ht, hw, hs⟩ := exec_accesses h
  have same : ∀ l', t.trace = s.trace ++ l' → l' = l := fun l' h' => List.append_cancel_left (h'.symm.trans ht)
  refine ⟨fun hn a => by rw [exec_mem_of_noStore h hn], fun l' h' a ha hv => ?_, fun hi a ha => ?_⟩
  · obtain rfl := same l' h'
    by_cases hn : NoStore s
    · rw [exec_mem_of_noStore h hn]
    · simp only [NoStore, not_forall, Bool.not_eq_false] at hn
      obtain ⟨d, hd, hdir⟩ := hn
      refine hs d.left a (fun v hm => hv v hm d hd hdir) fun e he _ => ?_
      obtain rfl : d = e := Option.some.inj (hd.symm.trans he)
      exact ⟨le_refl _, ha d hd hdir⟩
  · have noAddress : ∀ v, (.dmaaddr, v) ∉ writesOf l := by
      obtain hi | ⟨rfl, hdma⟩ := hi
      · exact fun v hm => dmaaddr_not_writable hi (hw _ hm)
      · rw [← same _ ((exec_bootWait_next h).1 ▸ runBootWait_trace hdma)]
        simp [writesOf]
    obtain ⟨n, hmiss⟩ := ha.misses
    exact hs n a (fun v hm => absurd hm (noAddress v)) hmiss

end Sys2Proof.Machine

/-! ### Decoding and encoding (O1, O3, O5 to O7) -/

namespace Sys2Proof

/-! #### Request words -/

/-- A field of the request word of number `N`. -/
theorem reqField_ofNat {n N lo : Nat} {x : BitVec n} (hN : N < 2 ^ 128) (h : N / 2 ^ lo % 2 ^ n = x.toNat) :
    reqField (BitVec.ofNat 128 N) lo n = x := by
  refine BitVec.eq_of_toNat_eq ?_
  simp only [reqField, BitVec.toNat_ofNat, Nat.mod_eq_of_lt hN, h]

theorem reqBit_ofNat {N i : Nat} {b : Bool} (hN : N < 2 ^ 128) (h : N / 2 ^ i % 2 = bitNat b) :
    reqBit (BitVec.ofNat 128 N) i = b := by
  simp only [reqBit, BitVec.toNat_ofNat, Nat.mod_eq_of_lt hN, h]
  cases b <;> rfl

theorem bitNat_lt (b : Bool) : bitNat b < 2 := by cases b <;> decide

/-- The fields of a descriptor's request word lie beside each other, above the op code (log entry 4). -/
theorem decodeDescriptor_encode {k : Nat} (hk : k < 8) (c : Descriptor) :
    decodeDescriptor (BitVec.ofNat 128 (k + encodeDescriptor c)) = c := by
  have hindex := c.index.isLt
  have harg := c.arg.isLt
  have hdata := bitNat_lt c.dataXfer
  have hread := bitNat_lt c.read
  have hdma := bitNat_lt c.dma
  have hboot := bitNat_lt c.bootEn
  have hbusy := bitNat_lt c.busy
  have hlen := c.respLen.isLt
  have hdirect := c.direct.isLt
  have hcount := c.blkcnt.isLt
  have haddr := c.dmaAddr.isLt
  have hN : k + encodeDescriptor c < 2 ^ 128 := by
    unfold encodeDescriptor
    omega
  show decodeDescriptor _ = ⟨c.index, c.arg, c.dataXfer, c.read, c.dma, c.bootEn, c.busy, c.respLen, c.direct,
    c.blkcnt, c.dmaAddr⟩
  simp only [decodeDescriptor, Descriptor.mk.injEq]
  refine ⟨reqField_ofNat hN ?_, reqField_ofNat hN ?_, reqBit_ofNat hN ?_, reqBit_ofNat hN ?_,
    reqBit_ofNat hN ?_, reqBit_ofNat hN ?_, reqBit_ofNat hN ?_, reqField_ofNat hN ?_, reqField_ofNat hN ?_,
    reqField_ofNat hN ?_, reqField_ofNat hN ?_⟩
  all_goals
    unfold encodeDescriptor
    omega

theorem decodeMode_encode {k : Nat} (hk : k < 8) (m : ModeRec) :
    decodeMode (BitVec.ofNat 128 (k + encodeMode m)) = m := by
  have hfreq := m.freqKHz.isLt
  have htiming := m.timing.isLt
  have hwidth := (m.width - 1).isLt
  have hN : k + encodeMode m < 2 ^ 128 := by
    unfold encodeMode
    omega
  show decodeMode _ = ⟨m.freqKHz, m.timing, m.width⟩
  simp only [decodeMode, ModeRec.mk.injEq]
  refine ⟨reqField_ofNat hN ?_, reqField_ofNat hN ?_, ?_⟩
  · unfold encodeMode
    omega
  · unfold encodeMode
    omega
  · rw [reqField_ofNat (x := m.width - 1) hN (by unfold encodeMode; omega), BitVec.sub_add_cancel]

/-- The operands of a request word stand above its op code. -/
theorem opcode_descriptor (k : Nat) (c : Descriptor) :
    (BitVec.ofNat 128 (k + encodeDescriptor c)).toNat % 8 = k % 8 := by
  rw [BitVec.toNat_ofNat]
  unfold encodeDescriptor
  omega

theorem opcode_mode (k : Nat) (m : ModeRec) :
    (BitVec.ofNat 128 (k + encodeMode m)).toNat % 8 = k % 8 := by
  rw [BitVec.toNat_ofNat]
  unfold encodeMode
  omega

/-- The op codes of a well-formed configuration are six (R85, log entry 34). -/
theorem Config.nOps_eq {cfg : Config} (h : cfg.wf = true) : cfg.shape.nOps = 6 := by
  have hshape := (Config.wf_iff.1 h).1
  simp only [Config.shapeOk, Bool.and_eq_true, beq_iff_eq] at hshape
  exact hshape.2

/-- The assigned op codes with operands (R85): the operands are checked, then the request is the word's. -/
theorem decodeRequest_of_opcode {cfg : Config} (h : cfg.wf = true) (w : BitVec 128) :
    (w.toNat % 8 = 1 → (decodeDescriptor w).wf = true →
      decodeRequest cfg w = .ok (.sendCmd (decodeDescriptor w))) ∧
    (w.toNat % 8 = 2 → (decodeDescriptor w).wf = true →
      decodeRequest cfg w = .ok (.waitCmd (decodeDescriptor w))) ∧
    (w.toNat % 8 = 5 → (decodeMode w).widthOk = true → (decodeMode w).timingOk cfg = true →
      decodeRequest cfg w = .ok (.setMode (decodeMode w))) := by
  have hn := Config.nOps_eq h
  refine ⟨fun hop hc => ?_, fun hop hc => ?_, fun hop hw ht => ?_⟩
  · simp [decodeRequest, hn, hop, hc]
  · simp [decodeRequest, hn, hop, hc]
  · simp [decodeRequest, hn, hop, hw, ht]

/-- R88, whatever `N_OPS` is. -/
theorem decodeRequest_unassigned (cfg : Config) {w : BitVec 128} (h : w.toNat % 8 = 6 ∨ w.toNat % 8 = 7) :
    decodeRequest cfg w = .error .opcode := by
  rcases h with h | h <;> simp [decodeRequest, h]

/-! #### Command words -/

/-- A row of the opcode table's group CMDW: the class code, the response class and the instruction (R92, R104). -/
structure CommandForm where
  code  : Word
  kind  : Machine.RespKind
  instr : BitVec 6 → BitVec 16 → Instr

/-- The four rows of group CMDW. -/
def commandForms (cfg : Config) : List CommandForm :=
  [⟨cfg.cmd.respNone, .none, .cmdwRespNone⟩, ⟨cfg.cmd.resp136, .r136, .cmdwResp136⟩,
   ⟨cfg.cmd.resp48, .r48, .cmdwResp48⟩, ⟨cfg.cmd.resp48b, .r48b, .cmdwResp48b⟩]

theorem commandForms_codes (cfg : Config) : (commandForms cfg).map CommandForm.code =
    [cfg.cmd.respNone, cfg.cmd.resp136, cfg.cmd.resp48, cfg.cmd.resp48b] := rfl

/-- The four class codes are distinct (R8). -/
theorem Config.codes_nodup {cfg : Config} (h : cfg.wf = true) :
    ((commandForms cfg).map CommandForm.code).Nodup := by
  obtain ⟨-, -, -, -, -, -, -, hcmd, -⟩ := Config.wf_iff.1 h
  simp only [Config.cmdOk, Bool.and_eq_true, decide_eq_true_eq] at hcmd
  obtain ⟨⟨⟨⟨⟨hnodup, -⟩, -⟩, -⟩, -⟩, -⟩ := hcmd
  exact hnodup

/-- The class code found in a command word selects the instruction (R104). -/
theorem decodeCommand_of_class {cfg : Config} (h : cfg.wf = true) {p : CommandForm} (hp : p ∈ commandForms cfg)
    {w : Word} (hw : commandClass cfg w = p.code) :
    decodeCommand cfg w = .ok (p.instr (commandIndex cfg w) (commandDirect cfg w)) := by
  have hnodup := Config.codes_nodup h
  simp only [commandForms_codes, List.nodup_cons, List.mem_cons, List.not_mem_nil, or_false, not_or] at hnodup
  obtain ⟨⟨h01, h02, h03⟩, ⟨h12, h13⟩, h23, -⟩ := hnodup
  simp only [commandForms, List.mem_cons, List.not_mem_nil, or_false] at hp
  rcases hp with rfl | rfl | rfl | rfl
  · simp [decodeCommand, hw]
  · simp [decodeCommand, hw, Ne.symm h01]
  · simp [decodeCommand, hw, Ne.symm h02, Ne.symm h12]
  · simp [decodeCommand, hw, Ne.symm h03, Ne.symm h13, Ne.symm h23]

theorem directOk_iff (cfg : Config) (d : BitVec 16) :
    directOk cfg d = true ↔ d.setWidth 32 &&& cfg.cmd.directMask = d.setWidth 32 := by
  simp [directOk]

/-- Direct bits within `DIRECT_MASK` need no cut (R93). -/
theorem encodeCommand_eq {cfg : Config} {d : BitVec 16} (hd : directOk cfg d = true) (k : Word) (i : BitVec 6) :
    encodeCommand cfg k i d = commandWord cfg k (d.setWidth 32) (i.setWidth 32) := by
  simp only [encodeCommand, commandWord, (directOk_iff cfg d).1 hd]

/-- A command word decodes to the row, the index and the direct bits it was made of (R91, R104). -/
theorem decodeCommand_encodeCommand {cfg : Config} (h : cfg.wf = true) {p : CommandForm}
    (hp : p ∈ commandForms cfg) (i : BitVec 6) {d : BitVec 16} (hd : directOk cfg d = true) :
    decodeCommand cfg (encodeCommand cfg p.code i d) = .ok (p.instr i d) := by
  obtain ⟨hapart, hfits⟩ := (Config.cmd_layout h).1 p.code (List.mem_map_of_mem hp)
  have hi : (i.setWidth 32).toNat < 64 := by
    rw [BitVec.toNat_setWidth]
    omega
  rw [encodeCommand_eq hd, decodeCommand_of_class h hp (commandClass_commandWord h hapart hfits _ hi),
    commandIndex_commandWord h hapart hfits _ hi, commandDirect_commandWord h hapart hfits _ hi,
    (directOk_iff cfg d).1 hd]
  simp

/-- A command word has `W_CMD` bits (R41, R91). -/
theorem encodeCommand_fits (cfg : Config) (k : Word) (i : BitVec 6) (d : BitVec 16) :
    fits cfg.regs.cmd.width (encodeCommand cfg k i d) = true := fits_trunc _ _

/-- Settles O1: by the ten forms; the requests with operands by their fields, the command words by their class. -/
theorem decodeInvertsEncode : Obligations.DecodeInvertsEncode := by
  intro cfg i h hwf
  cases i with
  | init | bootWait | bootStop => simp [encode, decode, decodeRequest, Config.nOps_eq h]
  | sendCmd c =>
    have hd := decodeDescriptor_encode (k := 1) (by decide) c
    have hdec := (decodeRequest_of_opcode h _).1 (opcode_descriptor 1 c) (by rwa [hd])
    rwa [hd] at hdec
  | waitCmd c =>
    have hd := decodeDescriptor_encode (k := 2) (by decide) c
    have hdec := (decodeRequest_of_opcode h _).2.1 (opcode_descriptor 2 c) (by rwa [hd])
    rwa [hd] at hdec
  | setMode m =>
    obtain ⟨hw, ht⟩ : m.widthOk = true ∧ m.timingOk cfg = true := by simpa [Instr.wf] using hwf
    have hd := decodeMode_encode (k := 5) (by decide) m
    have hdec := (decodeRequest_of_opcode h _).2.2 (opcode_mode 5 m) (by rwa [hd]) (by rwa [hd])
    rwa [hd] at hdec
  | cmdwRespNone j d => exact decodeCommand_encodeCommand h (p := ⟨_, .none, _⟩) (by simp [commandForms]) j hwf
  | cmdwResp136 j d => exact decodeCommand_encodeCommand h (p := ⟨_, .r136, _⟩) (by simp [commandForms]) j hwf
  | cmdwResp48 j d => exact decodeCommand_encodeCommand h (p := ⟨_, .r48, _⟩) (by simp [commandForms]) j hwf
  | cmdwResp48b j d => exact decodeCommand_encodeCommand h (p := ⟨_, .r48b, _⟩) (by simp [commandForms]) j hwf

/-- Settles O3: by evaluation of the decoder on the twelve words. -/
theorem tableWordsDecodeAsTheSpecSays : Obligations.TableWordsDecodeAsTheSpecSays := by
  unfold Obligations.TableWordsDecodeAsTheSpecSays
  decide

namespace Machine

/-- A fitting word placed in CMD stands there as it was. -/
theorem placeCommand_cmd {w : Word} {s : State} (hw : fits s.cfg.regs.cmd.width w = true) :
    (placeCommand w s).rb.cmd = w := trunc_of_fits hw

/-- Settles O5: the step decodes the word placed, which is the encoding (O1). -/
theorem placedInstructionRuns : Obligations.PlacedInstructionRuns := by
  intro s i h hwf
  have hdec := decodeInvertsEncode s.cfg i h hwf
  refine ⟨fun w hw => ?_, fun w hw => ?_⟩
  · rw [hw] at hdec
    exact step_of_request (s := placeRequest w s) rfl rfl hdec
  · rw [hw] at hdec
    have hfits : fits s.cfg.regs.cmd.width w = true := by
      cases i <;> cases hw <;> exact encodeCommand_fits ..
    refine step_of_command rfl ?_
    rw [placeCommand_cmd hfits]
    exact hdec

/-- Settles O6: the decoder's error is the refusal. -/
theorem unassignedOpcodesRefused : Obligations.UnassignedOpcodesRefused := fun s _ _ ht hp hop =>
  step_of_badRequest ht hp (decodeRequest_unassigned s.cfg hop)

theorem exec_setMode_badWidth {m : ModeRec} (hw : m.widthOk = false) (s : State) :
    exec (.setMode m) s = .refused .width := by
  simp [exec, execSetMode, hw]

theorem exec_setMode_badTiming {m : ModeRec} {s : State} (hw : m.widthOk = true)
    (ht : m.timingOk s.cfg = false) : exec (.setMode m) s = .refused .timing := by
  simp [exec, execSetMode, hw, ht]

theorem exec_badIndex {c : Descriptor} (hc : c.wf = false) (s : State) :
    exec (.sendCmd c) s = .refused .index ∧ exec (.waitCmd c) s = .refused .index := by
  simp [exec, execSendCmd, execWaitCmd, hc]

/-- Settles O7: by the operand checks that come first in the three operations (R94, R102). -/
theorem outOfRangeOperandsRefused : Obligations.OutOfRangeOperandsRefused := by
  intro s
  refine ⟨fun c hc => exec_badIndex ?_ s, fun m h1 h4 h8 => exec_setMode_badWidth ?_ s,
    fun m hw ht => exec_setMode_badTiming ?_ ?_⟩
  · simpa [Descriptor.wf] using hc
  · simpa [ModeRec.widthOk, and_assoc] using And.intro h1 ⟨h4, h8⟩
  · simpa [ModeRec.widthOk, or_assoc] using hw
  · simpa [ModeRec.timingOk] using ht

end Machine
end Sys2Proof

/-! ### The words of a transfer and of a mode (O18, O20) -/

namespace Sys2Proof

/-! #### Mask tests -/

theorem hasBit_comm (a b : Word) : hasBit a b = hasBit b a := by
  rw [hasBit, hasBit, BitVec.and_comm]

theorem hasBit_zero (m : Word) : hasBit 0#32 m = false := (hasBit_false _ _).2 BitVec.zero_and

theorem hasBit_self {m : Word} (h : m ≠ 0) : hasBit m m = true := by
  rwa [hasBit_true, BitVec.and_self]

theorem hasBit_or (a b m : Word) : hasBit (a ||| b) m = (hasBit a m || hasBit b m) := by
  have h : hasBit (a ||| b) m = false ↔ hasBit a m = false ∧ hasBit b m = false := by
    rw [hasBit_false, hasBit_false, hasBit_false, BitVec.and_comm, BitVec.and_or_distrib_left, BitVec.and_comm m,
      BitVec.and_comm m]
    exact BitVec.or_eq_zero_iff
  rw [Bool.eq_iff_iff, ← not_iff_not]
  simpa using h

theorem hasBit_ite (p : Prop) [Decidable p] (a m : Word) :
    hasBit (if p then a else 0) m = (decide p && hasBit a m) := by
  by_cases hp : p <;> simp [hp, hasBit_zero]

/-- A mask apart from the cleared one reads as before (R9). -/
theorem hasBit_andNot {m k : Word} (h : hasBit k m = false) (v : Word) :
    hasBit (v &&& ~~~m) k = hasBit v k := by
  have hk : ~~~m &&& k = k := by
    refine BitVec.eq_of_getLsbD_eq fun b hb => ?_
    have hkm := congrArg (BitVec.getLsbD · b) ((hasBit_false k m).1 h)
    simp only [BitVec.getLsbD_and, BitVec.getLsbD_not] at hkm ⊢
    grind
  rw [hasBit, hasBit, BitVec.and_assoc, hk]

/-- A mask within the cleared one reads 0 (R9). -/
theorem hasBit_andNot_of_below {m k : Word} (h : Below k m) (v : Word) : hasBit (v &&& ~~~m) k = false := by
  rw [hasBit_false, BitVec.and_assoc, BitVec.and_comm (~~~m), show k &&& ~~~m = 0 from h]
  exact BitVec.and_zero

/-- A mask cleared under a condition reads as before where the condition fails. -/
theorem hasBit_clearBits_ite (p : Prop) [Decidable p] (v m : Word) :
    hasBit (v &&& ~~~(if p then m else 0)) m = (!decide p && hasBit v m) := by
  by_cases hp : p
  · rw [if_pos hp, hasBit_andNot_of_below (.refl m)]
    simp [hp]
  · rw [if_neg hp, hasBit_andNot (show hasBit m 0 = false from (hasBit_comm _ _).trans (hasBit_zero m))]
    simp [hp]

/-- Setting bits of `m` leaves every other bit. -/
theorem or_andNot {k m : Word} (h : Below k m) (v : Word) : (v ||| k) &&& ~~~m = v &&& ~~~m := by
  rw [BitVec.and_comm, BitVec.and_or_distrib_left, BitVec.and_comm _ k, show k &&& ~~~m = 0 from h,
    BitVec.and_comm]
  exact BitVec.or_zero

/-- Clearing bits of `m` leaves every other bit. -/
theorem andNot_andNot {k m : Word} (h : Below k m) (v : Word) : v &&& ~~~k &&& ~~~m = v &&& ~~~m := by
  refine BitVec.eq_of_getLsbD_eq fun b hb => ?_
  have hkm := (below_iff k m).1 h b
  simp only [BitVec.getLsbD_and, BitVec.getLsbD_not]
  grind

theorem below_or_right (a b : Word) : Below b (a ||| b) := by
  rw [BitVec.or_comm]
  exact below_or_left b a

theorem Below.or {a b c d : Word} (h : Below a c) (k : Below b d) : Below (a ||| b) (c ||| d) :=
  Machine.below_or (h.trans (below_or_left c d)) (k.trans (below_or_right c d))

theorem below_ite {p : Prop} [Decidable p] {a m : Word} (h : Below a m) : Below (if p then a else 0) m := by
  split
  · exact h
  · exact below_zero m

/-! #### Named single bits of one register (R8) -/

theorem disjointMasks_iff {ms : List Word} :
    disjointMasks ms = true ↔ ms.Pairwise fun m k => hasBit m k = false := by
  induction ms with
  | nil => simp [disjointMasks]
  | cons m ms ih => simp [disjointMasks, List.pairwise_cons, ih, hasBit_false]

/-- Named bits of one register read 1 in themselves and 0 in each other. -/
theorem flagMasksOk_reads {ms : List Word} (h : flagMasksOk ms = true) :
    (∀ m ∈ ms, hasBit m m = true) ∧ ms.Pairwise fun m k => hasBit m k = false ∧ hasBit k m = false := by
  simp only [flagMasksOk, Bool.and_eq_true, List.all_eq_true, disjointMasks_iff] at h
  obtain ⟨hsingle, hapart⟩ := h
  refine ⟨fun m hm => ?_, hapart.imp fun hmk => ⟨hmk, (hasBit_comm _ _).trans hmk⟩⟩
  have hm' := hsingle m hm
  simp only [isSingleBit, Bool.and_eq_true, bne_iff_ne] at hm'
  exact hasBit_self hm'.1

/-- The named bits of XFERMODE, HC and BGC; those of BGC lie within it (R8, log entry 34). -/
theorem Config.fieldsOk_flags {cfg : Config} (h : cfg.wf = true) :
    (flagMasksOk [cfg.xfer.read, cfg.xfer.dma, cfg.xfer.multi, cfg.xfer.bce, cfg.xfer.acmd12] = true) ∧
    (flagMasksOk [cfg.host.w4, cfg.host.w8, cfg.host.hs] = true) ∧
    (flagMasksOk [cfg.boot.bgcEn, cfg.boot.bgcAck] = true ∧
      ∀ b ∈ [cfg.boot.bgcEn, cfg.boot.bgcAck], fits cfg.regs.bgc.width b = true) := by
  obtain ⟨-, -, -, -, -, -, -, -, hfields⟩ := Config.wf_iff.1 h
  simp only [Config.fieldsOk, Bool.and_eq_true, List.all_eq_true] at hfields
  obtain ⟨⟨⟨⟨⟨⟨⟨⟨⟨hx, -⟩, hh⟩, -⟩, hb⟩, hbf⟩, -⟩, -⟩, -⟩, -⟩ := hfields
  exact ⟨hx, hh, hb, hbf⟩

/-- Bits set under a condition. -/
theorem ite_setBits (p : Prop) [Decidable p] (x k : Word) :
    (if p then x ||| k else x) = x ||| (if p then k else 0) := by
  by_cases hp : p <;> simp [hp]

/-- Bits cleared under a condition. -/
theorem ite_clearBits (p : Prop) [Decidable p] (x k : Word) :
    (if p then x &&& ~~~k else x) = x &&& ~~~(if p then k else 0) := by
  by_cases hp : p
  · rw [if_pos hp, if_pos hp]
  · rw [if_neg hp, if_neg hp]
    exact (BitVec.and_allOnes (x := x)).symm

namespace Machine

/-! #### The transfer-mode word -/

theorem hasBit_xferWord (cfg : Config) (c : Descriptor) (m : Word) : hasBit (xferWord cfg c) m =
    (c.read && hasBit cfg.xfer.read m || c.dma && hasBit cfg.xfer.dma m ||
      decide (1 < c.blkcnt.toNat) &&
        (hasBit cfg.xfer.multi m || hasBit cfg.xfer.bce m || hasBit cfg.xfer.acmd12 m)) := by
  simp only [xferWord, hasBit_or, hasBit_ite, Bool.decide_eq_true]

/-- Settles O18: the word is a join of masks that do not meet. -/
theorem transferModeWordHasTheBitsAskedFor : Obligations.TransferModeWordHasTheBitsAskedFor := by
  intro cfg c h w
  obtain ⟨hself, hapart⟩ := flagMasksOk_reads (Config.fieldsOk_flags h).1
  simp only [List.pairwise_cons, List.forall_mem_cons] at hself hapart
  have hw : w = xferWord cfg c := rfl
  refine ⟨?read, ?dma, ?multi, ?bce, ?acmd12, ?noOther⟩
  case noOther =>
    have hmask : cfg.xfer.read ||| cfg.xfer.dma ||| cfg.xfer.multi ||| cfg.xfer.bce ||| cfg.xfer.acmd12 =
        cfg.xfer.read ||| cfg.xfer.dma ||| (cfg.xfer.multi ||| cfg.xfer.bce ||| cfg.xfer.acmd12) := by
      simp only [BitVec.or_assoc]
    rw [hmask]
    exact ((below_ite (.refl _)).or (below_ite (.refl _))).or (below_ite (.refl _))
  all_goals simp [hw, hasBit_xferWord, hself, hapart]

/-! #### SET_MODE's words, and BGC -/

/-- R99, R128: SET_MODE's HC as bits cleared, then bits set. -/
theorem hcWord_eq (cfg : Config) (m : ModeRec) (v : Word) :
    hcWord cfg m v =
      (v &&& ~~~(cfg.host.w4 ||| cfg.host.w8) &&&
        ~~~(if cfg.host.hsClearOnLow && !decide (cfg.host.hsThresholdKHz < m.freqKHz.toNat)
          then cfg.host.hs else 0))
      ||| (if m.width = 4 then cfg.host.w4 else 0) ||| (if m.width = 8 then cfg.host.w8 else 0)
      ||| (if cfg.host.hsThresholdKHz < m.freqKHz.toNat then cfg.host.hs else 0) := by
  simp only [hcWord, ite_setBits, ite_clearBits]

/-- A bus-width bit of HC is what the mode asks for. -/
theorem hasBit_hcWord_width {cfg : Config} (m : ModeRec) (v : Word) {k : Word}
    (hk : Below k (cfg.host.w4 ||| cfg.host.w8)) (hhs : hasBit cfg.host.hs k = false) :
    hasBit (hcWord cfg m v) k =
      (decide (m.width = 4) && hasBit cfg.host.w4 k || decide (m.width = 8) && hasBit cfg.host.w8 k) := by
  have hclear : hasBit k (if cfg.host.hsClearOnLow && !decide (cfg.host.hsThresholdKHz < m.freqKHz.toNat)
      then cfg.host.hs else 0) = false := by
    rw [hasBit_comm, hasBit_ite, hhs, Bool.and_false]
  rw [hcWord_eq, hasBit_or, hasBit_or, hasBit_or, hasBit_andNot hclear, hasBit_andNot_of_below hk]
  simp only [hasBit_ite, hhs, Bool.and_false, Bool.or_false, Bool.false_or]

/-- The high-speed bit of HC (R99, R128). -/
theorem hasBit_hcWord_hs {cfg : Config} (m : ModeRec) (v : Word) (hself : hasBit cfg.host.hs cfg.host.hs = true)
    (h4 : hasBit cfg.host.w4 cfg.host.hs = false) (h8 : hasBit cfg.host.w8 cfg.host.hs = false) :
    hasBit (hcWord cfg m v) cfg.host.hs = (decide (cfg.host.hsThresholdKHz < m.freqKHz.toNat) ||
      (hasBit v cfg.host.hs && !cfg.host.hsClearOnLow)) := by
  have hwidth : hasBit cfg.host.hs (cfg.host.w4 ||| cfg.host.w8) = false := by
    rw [hasBit_comm, hasBit_or, h4, h8]
    rfl
  rw [hcWord_eq, hasBit_or, hasBit_or, hasBit_or, hasBit_clearBits_ite, hasBit_andNot hwidth]
  simp only [hasBit_ite, h4, h8, hself, Bool.and_false, Bool.or_false, Bool.and_true]
  by_cases hfast : cfg.host.hsThresholdKHz < m.freqKHz.toNat <;> cases hlow : cfg.host.hsClearOnLow <;>
    simp [hfast]

/-- No bit of HC changes but the three that are named. -/
theorem hcWord_andNot (cfg : Config) (m : ModeRec) (v : Word) :
    hcWord cfg m v &&& ~~~(cfg.host.w4 ||| cfg.host.w8 ||| cfg.host.hs) =
      v &&& ~~~(cfg.host.w4 ||| cfg.host.w8 ||| cfg.host.hs) := by
  have hw : Below (cfg.host.w4 ||| cfg.host.w8) (cfg.host.w4 ||| cfg.host.w8 ||| cfg.host.hs) := below_or_left _ _
  have hhs : Below cfg.host.hs (cfg.host.w4 ||| cfg.host.w8 ||| cfg.host.hs) := below_or_right _ _
  rw [hcWord_eq, or_andNot (below_ite hhs), or_andNot (below_ite ((below_or_right _ _).trans hw)),
    or_andNot (below_ite ((below_or_left _ _).trans hw)), andNot_andNot (below_ite hhs), andNot_andNot hw]

theorem hc2Word_fields (cfg : Config) (m : ModeRec) (v : Word) :
    hc2Word cfg m v &&& ~~~cfg.host.uhsMask = v &&& ~~~cfg.host.uhsMask ∧
    hc2Word cfg m v &&& cfg.host.uhsMask = (m.timing <<< cfg.host.uhsShift) &&& cfg.host.uhsMask := by
  constructor
  · rw [hc2Word, or_andNot (below_and_right _ _), andNot_andNot (.refl _)]
  · have hclear : v &&& ~~~cfg.host.uhsMask &&& cfg.host.uhsMask = 0 :=
      (hasBit_false _ _).1 (hasBit_andNot_of_below (.refl _) v)
    rw [hc2Word, BitVec.and_comm, BitVec.and_or_distrib_left, BitVec.and_comm, hclear, BitVec.and_comm,
      and_and_self]
    exact BitVec.zero_or

/-- Settles O20: each word clears and sets bits within its mask, and the named bits of a register do not meet. -/
theorem modeUpdatesPreserveOtherBits : Obligations.ModeUpdatesPreserveOtherBits := by
  intro cfg m v h hc fast
  obtain ⟨-, hhost, hboot, -⟩ := Config.fieldsOk_flags h
  obtain ⟨hself, hapart⟩ := flagMasksOk_reads hhost
  obtain ⟨bself, -⟩ := flagMasksOk_reads hboot
  simp only [List.pairwise_cons, List.forall_mem_cons] at hself hapart bself
  obtain ⟨s4, s8, ss, -⟩ := hself
  obtain ⟨⟨⟨-, h84⟩, ⟨h4s, hs4⟩, -⟩, ⟨⟨h8s, hs8⟩, -⟩, -⟩ := hapart
  obtain ⟨ben, back, -⟩ := bself
  obtain ⟨hc2Rest, hc2Field⟩ := hc2Word_fields cfg m v
  refine ⟨?_, ?_, hasBit_hcWord_hs m v ss h4s h8s, hcWord_andNot cfg m v, hc2Rest, hc2Field, ?_, ?_,
    or_andNot (.refl _) v, hasBit_andNot_of_below (.refl _) v, andNot_andNot (.refl _) v⟩
  · rw [hasBit_hcWord_width m v (below_or_left _ _) hs4, s4, h84, Bool.and_true, Bool.and_false, Bool.or_false]
  · rw [hasBit_hcWord_width m v (below_or_right _ _) hs8, s8, (hasBit_comm _ _).trans h84, Bool.and_true,
      Bool.and_false, Bool.false_or]
  · simp [bgcBootOn, hasBit_or, ben]
  · simp [bgcBootOn, hasBit_or, back]

end Machine
end Sys2Proof

/-! ### SET_MODE's accesses (O37), and the take-up after a SEND_CMD (O41) -/

namespace Sys2Proof.Machine

/-! #### SET_MODE -/

/-- Settles O37: the clock's accesses by its poll, then one read-modify-write each of HC2 and HC. -/
theorem setModeProgramsClockTimingWidth : Obligations.SetModeProgramsClockTimingWidth := by
  intro s m hwidth htiming hidle w clk
  obtain ⟨k, hk, clock⟩ := setClock_spec m.freqKHz.toNat s
  obtain ⟨y, ends⟩ := runSetMode_endsIn m s
  obtain ⟨a, ha, run⟩ := runSetMode_cases m s
  have hcfg : a.cfg = s.cfg := ha ▸ (Runs.setClock m.freqKHz.toNat s).cfg
  simp only [← ha] at clock
  refine ⟨_, k, exec_setMode_idle hwidth htiming hidle, ends.seq.trans hidle, hk, ?_⟩
  obtain ⟨hnone, hfail, htrace, hlog⟩ | ⟨hok, hlog, x, hx, hstable, hlast, htrace⟩ := clock
  · obtain ⟨-, e⟩ | ⟨hok, -⟩ := run
    · rw [e]
      exact .inl ⟨hnone, rfl, htrace, hlog⟩
    · simp [hfail] at hok
  · obtain ⟨hfail, -⟩ | ⟨-, b, c, rfl, rfl, e⟩ := run
    · simp [hok] at hfail
    · obtain ⟨trace2, log2, cfg2⟩ := regRmw_spec .hc2 (hc2Word s.cfg m) a
      obtain ⟨trace1, log1, -⟩ := regRmw_spec .hc (hcWord s.cfg m) (regRmw .hc2 (hc2Word s.cfg m) a)
      rw [e]
      refine .inr ⟨rfl, log1.trans (log2.trans hlog), x, (regRead .hc2 a).1,
        (regRead .hc (regRmw .hc2 (hc2Word s.cfg m) a)).1, hx, hlast, hstable, ?_⟩
      simp only [trace1, trace2, cfg2, hcfg, htrace, wrote, w, List.append_assoc, List.cons_append,
        List.nil_append]

/-! #### The registers SEND_CMD leaves -/

theorem latched_isPlain : ∀ x ∈ latchedRegs, isPlain x = true ∧ x ≠ .swreset := by decide

theorem NoReset.regWrite {s : State} (h : NoReset s) {x : Reg} (hx : x ≠ .swreset) (v : Word) :
    NoReset (regWrite x v s) :=
  (Frame.regWrite (List.mem_singleton_self x) hx v s).none (by simpa using hx.symm) h

/-- A value written to a latched register still stands after accesses that write other ones. -/
theorem Frame.latched_value {ws : List Reg} {x : Reg} {v : Word} {s t : State}
    (f : Frame ws (Machine.regWrite x v s) t) (h : NoReset s) (hx : x ∈ latchedRegs) (hw : x ∉ ws)
    (hs : .swreset ∉ ws) : t.rb.get x = trunc (s.cfg.width x) v := by
  obtain ⟨hplain, hne⟩ := latched_isPlain x hx
  exact (f.latched hs (h.regWrite hne v) x hx hw).trans (regWrite_value hplain v s)

theorem programTransfer_eq {c : Descriptor} (hb : c.bootEn = false) (s : State) : programTransfer c s =
    regWrite .xfermode (xferWord s.cfg c) (regWrite .blksize (blkSizeWord s.cfg c)
      (regWrite .dmaaddr c.dmaAddr (regWrite .blkcnt (c.blkcnt.setWidth 32) s))) := by
  simp [programTransfer, hb]

/-- What the transfer block leaves, where BGC held `g` and no reset is in progress (R134 to R136): the two words of
the transfer, and for a boot command the boot bits of BGC. -/
structure Programmed (c : Descriptor) (cfg : Config) (g : Word) (t : State) : Prop where
  noReset  : NoReset t
  blksize  : t.rb.blksize = trunc (cfg.width .blksize) (blkSizeWord cfg c)
  xfermode : t.rb.xfermode = trunc (cfg.width .xfermode) (xferWord cfg c)
  bgc      : c.bootEn = true → t.rb.bgc = trunc (cfg.width .bgc) (bgcBootOn cfg g)

/-- Accesses that write other registers leave the programmed transfer. -/
theorem Programmed.frame {c : Descriptor} {cfg : Config} {g : Word} {t u : State} {ws : List Reg}
    (p : Programmed c cfg g t) (f : Frame ws t u) (hs : .swreset ∉ ws) (hb : .blksize ∉ ws) (hx : .xfermode ∉ ws)
    (hg : .bgc ∉ ws) : Programmed c cfg g u where
  noReset := f.none hs p.noReset
  blksize := (f.latched hs p.noReset .blksize (by decide) hb).trans p.blksize
  xfermode := (f.latched hs p.noReset .xfermode (by decide) hx).trans p.xfermode
  bgc hboot := (f.steady p.noReset.full .bgc (by decide) hg).trans (p.bgc hboot)

theorem programTransfer_data_values {c : Descriptor} {s : State} (hb : c.bootEn = false) (h : NoReset s)
    (g : Word) : Programmed c s.cfg g (programTransfer c s) := by
  have h1 := h.regWrite (x := .blkcnt) (by decide) (c.blkcnt.setWidth 32)
  have h2 := h1.regWrite (x := .dmaaddr) (by decide) c.dmaAddr
  have h3 := h2.regWrite (x := .blksize) (by decide) (blkSizeWord s.cfg c)
  have hblk := Frame.latched_value
    (.regWrite (List.mem_singleton_self .xfermode) (by decide) (xferWord s.cfg c) _) h2 (x := .blksize)
    (v := blkSizeWord s.cfg c) (by decide) (by decide) (by decide)
  have hmode := Frame.latched_value (.refl [] _) h3 (x := .xfermode) (v := xferWord s.cfg c) (by decide) (by decide)
    (by decide)
  simp only [regWrite_cfg] at hblk hmode
  rw [programTransfer_eq hb]
  exact ⟨h3.regWrite (by decide) _, hblk, hmode, fun hboot => by simp [hb] at hboot⟩

/-- Boot arming leaves in BGC both boot bits and what stood there (R99, R136). -/
theorem armBoot_bgc {s : State} (h : NoFullReset s) :
    (armBoot s).rb.bgc = trunc (s.cfg.width .bgc) (bgcBootOn s.cfg s.rb.bgc) := by
  have f : Frame [.boottimeout] s (regWrite .boottimeout s.cfg.boot.timeoutValue s) :=
    .regWrite (by decide) (by decide) _ s
  have hold : (regWrite .boottimeout s.cfg.boot.timeoutValue s).rb.bgc = s.rb.bgc :=
    f.steady h .bgc (by decide) (by decide)
  have hnew := regRmw_value (x := .bgc) (by decide) rfl (bgcBootOn s.cfg) _ (f.full h)
  have e : armBoot s = regRmw .bgc (bgcBootOn s.cfg) (regWrite .boottimeout s.cfg.boot.timeoutValue s) := by
    simp [armBoot]
  rw [regWrite_cfg] at hnew
  rw [e]
  exact hnew.trans (congrArg (fun g => trunc (s.cfg.width .bgc) (bgcBootOn s.cfg g)) hold)

theorem programTransfer_values (c : Descriptor) {s : State} (h : NoReset s) :
    Programmed c s.cfg s.rb.bgc (programTransfer c s) := by
  cases hb : c.bootEn with
  | false => exact programTransfer_data_values hb h _
  | true =>
    have p := programTransfer_data_values (c := { c with bootEn := false }) rfl h s.rb.bgc
    obtain ⟨run, -, -, data⟩ := programTransfer_data { c with bootEn := false } s rfl
    obtain ⟨-, -, -, f⟩ := armBoot_spec (programTransfer { c with bootEn := false } s)
    have hold : (programTransfer { c with bootEn := false } s).rb.bgc = s.rb.bgc :=
      data.steady h.full .bgc (by decide) (by decide)
    have hnew := armBoot_bgc p.noReset.full
    rw [run.cfg, hold] at hnew
    rw [programTransfer_boot c s hb]
    exact ⟨f.none (by decide) p.noReset,
      (f.latched (by decide) p.noReset .blksize (by decide) (by decide)).trans p.blksize,
      (f.latched (by decide) p.noReset .xfermode (by decide) (by decide)).trans p.xfermode, fun _ => hnew⟩

/-- What SEND_CMD leaves for the command engine with no reset in progress (R132 to R139). -/
structure Dispatched (c : Descriptor) (s t : State) : Prop where
  cfg        : t.cfg = s.cfg
  seq        : t.seq = .issued
  trigger    : t.hid.trigger = true
  cmd        : t.rb.cmd = cmdWord s.cfg c
  arg        : t.rb.arg = trunc (s.cfg.width .arg) c.arg
  programmed : c.dataXfer = true ∨ c.bootEn = true → Programmed c s.cfg s.rb.bgc t

theorem cmdWord_fits (cfg : Config) (c : Descriptor) : fits cfg.regs.cmd.width (cmdWord cfg c) = true :=
  fits_trunc _ _

theorem runSendCmd_dispatches (c : Descriptor) {s : State} (h : NoReset s) :
    Dispatched c s (runSendCmd c s) := by
  obtain ⟨a, b, d, e, ha, hb, rfl, rfl, hcfg, run⟩ := runSendCmd_eq c s
  have fa : Frame [.nis] s a := ha ▸ .regWrite (by decide) (by decide) _ s
  have hna : NoReset a := fa.none (by decide) h
  have hbgc : a.rb.bgc = s.rb.bgc := fa.steady h.full .bgc (by decide) (by decide)
  have pa : Programmed c s.cfg s.rb.bgc (programTransfer c a) := by
    have p := programTransfer_values c hna
    rwa [fa.cfg, hbgc] at p
  have hnb : NoReset b := by
    rw [hb]
    split
    · exact pa.noReset
    · exact hna
  have fboth : Frame [.arg, .cmd] b (regWrite .cmd (cmdWord s.cfg c) (regWrite .arg c.arg b)) :=
    (Frame.regWrite (by decide) (by decide) c.arg b).trans (.regWrite (by decide) (by decide) _ _)
  rw [run]
  refine ⟨fboth.cfg.trans hcfg, rfl, rfl, ?_, ?_, fun hx => ?_⟩
  · have hcmd := regWrite_value (x := .cmd) rfl (cmdWord s.cfg c) (regWrite .arg c.arg b)
    rw [regWrite_cfg, hcfg] at hcmd
    exact hcmd.trans (trunc_of_fits (cmdWord_fits s.cfg c))
  · have harg := Frame.latched_value (.regWrite (List.mem_singleton_self .cmd) (by decide) (cmdWord s.cfg c) _) hnb
      (x := .arg) (v := c.arg) (by decide) (by decide) (by decide)
    rwa [hcfg] at harg
  · rw [if_pos (by simpa using hx)] at hb
    exact (hb ▸ pa).frame (fboth.trans (.same rfl rfl rfl)) (by decide) (by decide) (by decide) (by decide)

/-! #### The take-up of the word written -/

/-- What HW finds in SEND_CMD's word (R91, R104). -/
theorem cmdWord_parts {cfg : Config} (h : cfg.wf = true) {c : Descriptor} (hc : c.wf = true) :
    commandClass cfg (cmdWord cfg c) = respClass cfg c ∧
    commandIndex cfg (cmdWord cfg c) = c.index.setWidth 6 ∧
    commandDirect cfg (cmdWord cfg c) = c.direct &&& cfg.cmd.directMask.setWidth 16 := by
  obtain ⟨hindex, hdirect, -⟩ := commandWordCarriesItsParts cfg c h hc
  obtain ⟨hapart, hfits⟩ := respClass_apart h c
  have hi : (c.index.setWidth 32).toNat < 64 := by
    simp only [Descriptor.wf, decide_eq_true_eq] at hc
    rw [BitVec.toNat_setWidth]
    omega
  exact ⟨cmdWord_eq cfg c ▸ commandClass_commandWord h hapart hfits _ hi, hindex, hdirect⟩

/-- The three parts make SEND_CMD's word up again, so what is latched is the word written. -/
theorem encodeCommand_cmdWord (cfg : Config) {c : Descriptor} (hc : c.wf = true) :
    encodeCommand cfg (respClass cfg c) (c.index.setWidth 6) (c.direct &&& cfg.cmd.directMask.setWidth 16) =
      cmdWord cfg c := by
  have hindex : ((c.index.setWidth 6).setWidth 32 : Word) = c.index.setWidth 32 := by
    simp only [Descriptor.wf, decide_eq_true_eq] at hc
    refine BitVec.eq_of_toNat_eq ?_
    simp only [BitVec.toNat_setWidth]
    omega
  have hdirect : ((c.direct &&& cfg.cmd.directMask.setWidth 16).setWidth 32 : Word) =
      c.direct.setWidth 32 &&& cfg.cmd.directMask := by
    refine BitVec.eq_of_getLsbD_eq fun b hb => ?_
    simp only [BitVec.getLsbD_setWidth, BitVec.getLsbD_and, hb]
    have hlt : c.direct.getLsbD b = true → b < 16 := BitVec.lt_of_getLsbD
    grind
  rw [encodeCommand, hindex, hdirect]
  rfl

theorem decodeCommand_reserved {cfg : Config} {w : Word}
    (h : ∀ p ∈ commandForms cfg, commandClass cfg w ≠ p.code) : decodeCommand cfg w = .error .reservedClass := by
  simp only [commandForms, List.forall_mem_cons] at h
  obtain ⟨h0, h1, h2, h3, -⟩ := h
  simp [decodeCommand, h0, h1, h2, h3]

/-- Each of the four rows of group CMDW is taken up with its own class (R104, R171). -/
theorem exec_commandForm {s : State} {p : CommandForm} (hp : p ∈ commandForms s.cfg) (i : BitVec 6)
    (d : BitVec 16) : exec (p.instr i d) s = .next (takeUpCommand p.kind i (encodeCommand s.cfg p.code i d) s) := by
  simp only [commandForms, List.mem_cons, List.not_mem_nil, or_false] at hp
  rcases hp with rfl | rfl | rfl | rfl <;> rfl

/-- The command engine takes a word in CMD up with the response class its code names (R104, R171). -/
theorem step_takesUp {t : State} (h : t.cfg.wf = true) (ht : t.hid.trigger = true)
    (hword : encodeCommand t.cfg (commandClass t.cfg t.rb.cmd) (commandIndex t.cfg t.rb.cmd)
      (commandDirect t.cfg t.rb.cmd) = t.rb.cmd) :
    ∃ k, step t = .next (takeUpCommand k (commandIndex t.cfg t.rb.cmd) t.rb.cmd t) ∧
      ∀ p ∈ commandForms t.cfg, commandClass t.cfg t.rb.cmd = p.code → k = p.kind := by
  by_cases hform : ∃ p ∈ commandForms t.cfg, commandClass t.cfg t.rb.cmd = p.code
  · obtain ⟨p, hp, hcode⟩ := hform
    have hstep := step_of_command ht (decodeCommand_of_class h hp hcode)
    rw [exec_commandForm hp, ← hcode, hword] at hstep
    refine ⟨p.kind, hstep, fun q hq hq' => ?_⟩
    rw [List.inj_on_of_nodup_map (Config.codes_nodup h) hp hq (hcode.symm.trans hq')]
  · push Not at hform
    exact ⟨.reserved, step_of_reserved ht (decodeCommand_reserved hform), fun p hp hp' => absurd hp' (hform p hp)⟩

theorem eq_latchedNow {w : Word} {s : State} {x : XferLatch} (h : latchXfer w s = some x) : x = latchedNow s := by
  cases hlatch : hasBit w s.cfg.cmd.dataPresent || hasBit s.rb.bgc s.cfg.boot.bgcEn with
  | false => simp [latchXfer_none hlatch] at h
  | true => exact Option.some.inj (h.symm.trans (latchXfer_some hlatch))

theorem hasBit_trunc {w : Nat} {m : Word} (h : fits w m = true) (v : Word) : hasBit (trunc w v) m = hasBit v m := by
  rw [hasBit, hasBit, trunc, BitVec.and_assoc, BitVec.and_comm (mask w), (fits_iff w m).1 h]

/-- A boot command's BGC has boot-enable set, once cut to its register (R136). -/
theorem hasBit_bgcBootOn {cfg : Config} (h : cfg.wf = true) (g : Word) :
    hasBit (trunc (cfg.width .bgc) (bgcBootOn cfg g)) cfg.boot.bgcEn = true := by
  obtain ⟨-, -, hflags, hfits⟩ := Config.fieldsOk_flags h
  have hself : hasBit cfg.boot.bgcEn cfg.boot.bgcEn = true := (flagMasksOk_reads hflags).1 _ (by simp)
  have hfit : fits (cfg.width .bgc) cfg.boot.bgcEn = true := hfits _ (by simp)
  rw [hasBit_trunc hfit, bgcBootOn, hasBit_or, hasBit_or, hself]
  simp

/-- Settles O41: what SEND_CMD leaves is what the next step's take-up latches. -/
theorem dispatchedCommandReachesTheEngine : Obligations.DispatchedCommandReachesTheEngine := by
  intro s t c h hreset hexec
  obtain ⟨rfl, -, -, hc⟩ := exec_sendCmd_next hexec
  have sent := runSendCmd_dispatches c hreset
  generalize runSendCmd c s = t at *
  obtain ⟨hclass, hindex, hdirect⟩ := cmdWord_parts h hc
  have word := encodeCommand_cmdWord s.cfg hc
  rw [← hclass, ← hindex, ← hdirect, ← sent.cmd, ← sent.cfg] at word
  obtain ⟨k, hstep, hkind⟩ := step_takesUp (sent.cfg ▸ h) sent.trigger word
  rw [sent.cfg, sent.cmd, hclass] at hkind
  obtain ⟨known, unknown⟩ := respClass_cases s.cfg c
  have none := hkind ⟨s.cfg.cmd.respNone, .none, .cmdwRespNone⟩ (by simp [commandForms])
  have r136 := hkind ⟨s.cfg.cmd.resp136, .r136, .cmdwResp136⟩ (by simp [commandForms])
  have r48 := hkind ⟨s.cfg.cmd.resp48, .r48, .cmdwResp48⟩ (by simp [commandForms])
  have r48b := hkind ⟨s.cfg.cmd.resp48b, .r48b, .cmdwResp48b⟩ (by simp [commandForms])
  have latched : ∀ hx, (latchXfer t.rb.cmd t).isSome = true := fun hx =>
    Option.isSome_of_eq_some (latchXfer_some (w := t.rb.cmd) (s := t) hx)
  refine ⟨_, _, hstep, rfl, rfl, rfl, sent.seq, sent.cmd, ?index, sent.arg, fun hr => ?lens, fun hr h0 => ?unknown,
    fun hp => latched ?_, fun x hx hd => ?regs, fun hb => latched ?_⟩
  case index => rw [sent.cfg, sent.cmd, hindex]
  case lens =>
    obtain ⟨l0, l128, l32b, l32, -⟩ := known hr
    refine ⟨fun hl => none (l0 hl), fun hl => r136 (l128 hl), fun hl => ?_⟩
    cases hbusy : c.busy with
    | true => exact r48b (l32b hl hbusy)
    | false => exact r48 (l32 hl hbusy)
  case unknown =>
    rw [h0] at none
    cases hrec : s.cfg.recognises c.respLen with
    | false => exact none (unknown hrec)
    | true =>
      obtain ⟨l0, l128, l32⟩ := hr.resolve_left (by simp [hrec])
      obtain ⟨-, -, -, -, other⟩ := known hrec
      exact none (other l0 l128 l32)
  case regs =>
    obtain rfl := eq_latchedNow hx
    have p := sent.programmed hd
    exact ⟨p.blksize, p.xfermode⟩
  · simp [sent.cfg, sent.cmd, hp]
  · have hbgc := (sent.programmed (.inr hb)).bgc hb
    simp [sent.cfg, hbgc, hasBit_bgcBootOn h]

end Sys2Proof.Machine

/-! ### The divisor (O16), voltage selection (O17) -/

namespace Sys2Proof.Machine

/-! #### The scan over even divisors -/

theorem divisorMeets_iff (cfg : Config) (base target d : Nat) : divisorMeets cfg base target d = true ↔
    if cfg.clock.divFloor then base / d ≤ target else base ≤ target * d := by
  unfold divisorMeets
  split <;> exact decide_eq_true_iff

/-- `r` is where a scan over even divisors from `d` on comes to rest (R116): the first that meets the target, or
`MAX_DIVISOR`. -/
structure FirstMeeting (cfg : Config) (base target d r : Nat) : Prop where
  even  : r % 2 = 0
  start : d ≤ r
  upTo  : r ≤ cfg.clock.maxDivisor
  meets : divisorMeets cfg base target r = true ∨ r = cfg.clock.maxDivisor
  least : ∀ e, e % 2 = 0 → d ≤ e → e < r → divisorMeets cfg base target e = false

theorem divisorScan_firstMeeting {cfg : Config} {base target : Nat} (hmax : cfg.clock.maxDivisor % 2 = 0) :
    ∀ fuel d : Nat, d % 2 = 0 → d ≤ cfg.clock.maxDivisor → cfg.clock.maxDivisor ≤ d + 2 * fuel →
      FirstMeeting cfg base target d (divisorScan cfg base target fuel d)
  | 0, d, heven, hle, hfuel =>
    ⟨heven, le_refl d, hle, .inr (by rw [divisorScan]; omega), fun e _ hd he => absurd hd (Nat.not_le.2 he)⟩
  | fuel + 1, d, heven, hle, hfuel => by
    unfold divisorScan
    split
    · next hgo =>
      simp only [Bool.and_eq_true, decide_eq_true_eq, Bool.not_eq_true'] at hgo
      obtain ⟨hlt, hno⟩ := hgo
      have rest := divisorScan_firstMeeting hmax (base := base) (target := target) fuel (d + 2) (by omega) (by omega)
        (by omega)
      refine ⟨rest.even, by have := rest.start; omega, rest.upTo, rest.meets, fun e he hd hr => ?_⟩
      obtain rfl | hskip : e = d ∨ d + 2 ≤ e := by omega
      · exact hno
      · exact rest.least e he hskip hr
    · next hstop =>
      refine ⟨heven, le_refl d, hle, ?_, fun e _ hd he => absurd hd (Nat.not_le.2 he)⟩
      by_cases hlt : d < cfg.clock.maxDivisor
      · exact .inl (by simpa [hlt] using hstop)
      · exact .inr (by omega)

theorem divisor_firstMeeting {cfg : Config} {base target : Nat} (heven : cfg.clock.maxDivisor % 2 = 0)
    (htwo : 2 ≤ cfg.clock.maxDivisor) (h : target < base) :
    FirstMeeting cfg base target 2 (divisor cfg base target) := by
  rw [divisor, if_neg (Nat.not_le.2 h)]
  exact divisorScan_firstMeeting heven _ 2 rfl htwo (by omega)

/-- In the exact reading `2 * q` meets the target from `q = ceil(base / (2 * target))` on. -/
theorem divisorMeets_double {cfg : Config} (hexact : cfg.clock.divFloor = false) {base target : Nat}
    (ht : 0 < target) (q : Nat) :
    divisorMeets cfg base target (2 * q) = true ↔ base ⌈/⌉ (2 * target) ≤ q := by
  rw [divisorMeets_iff, hexact, ceilDiv_le_iff_le_mul (by omega), if_neg Bool.false_ne_true, mul_left_comm,
    mul_assoc]

/-- The closed form of the exact reading (R116). -/
theorem FirstMeeting.closedForm {cfg : Config} {base target r : Nat} (h : FirstMeeting cfg base target 2 r)
    (heven : cfg.clock.maxDivisor % 2 = 0) (hexact : cfg.clock.divFloor = false) (ht : 0 < target)
    (hb : 0 < base) : r = min cfg.clock.maxDivisor (2 * (base ⌈/⌉ (2 * target))) := by
  have hpos : ¬ base ⌈/⌉ (2 * target) ≤ 0 := by
    rw [ceilDiv_le_iff_le_mul (by omega)]
    omega
  have hmeets := divisorMeets_double hexact (base := base) ht
  generalize base ⌈/⌉ (2 * target) = c at hpos hmeets ⊢
  obtain ⟨q, rfl⟩ : ∃ q, r = 2 * q := ⟨r / 2, by have := h.even; omega⟩
  have hle : q ≤ c := by
    by_contra hlt
    have hno := h.least (2 * c) (by omega) (by omega) (by omega)
    rw [(hmeets c).2 (le_refl c)] at hno
    exact Bool.noConfusion hno
  have hupTo := h.upTo
  rcases h.meets with hm | hm
  · have hge := (hmeets q).1 hm
    omega
  · omega

/-- Settles O16: `divisor_firstMeeting`, with `FirstMeeting.closedForm` for the exact reading; no divisor meets a
target of 0. -/
theorem divisorIsSmallestMeetingTarget : Obligations.DivisorIsSmallestMeetingTarget := by
  intro cfg base target heven htwo meets d
  refine ⟨fun hle => if_pos hle, fun hlt => ?_⟩
  have first := divisor_firstMeeting heven htwo hlt
  refine ⟨first.even, first.start, first.upTo, first.meets.imp_left (divisorMeets_iff ..).1, fun e he h2 hd hm => ?_,
    fun hexact ht => ?_, fun hexact ht => first.meets.resolve_left fun hm => ?_⟩
  · have hno := first.least e he h2 hd
    rw [(divisorMeets_iff ..).2 hm] at hno
    exact Bool.noConfusion hno
  · rw [← Nat.add_sub_assoc (by omega)]
    exact first.closedForm heven hexact ht (by omega)
  · rw [divisorMeets_iff, hexact, if_neg Bool.false_ne_true, ht] at hm
    omega

/-! #### The preference order -/

theorem find?_cons_getD (p : Voltage → Bool) (v : Voltage) (l : List Voltage) (w : Voltage) :
    ((v :: l).find? p).getD w = if p v then v else (l.find? p).getD w := by
  cases hp : p v <;> simp [hp]

/-- Settles O17: the search of the preference list, unrolled. -/
theorem voltageIsChosenInPreferenceOrder : Obligations.VoltageIsChosenInPreferenceOrder := by
  intro cfg h hpref
  by_cases hv : h.voltage = .none
  · rw [selectVoltage, if_pos hv, if_neg (not_not_intro hv), hpref]
    simp only [find?_cons_getD]
    rfl
  · rw [selectVoltage, if_neg hv, if_pos hv]

end Sys2Proof.Machine

/-! ### BOOT_STOP's accesses (O53), what SET_MODE leaves (O38) -/

namespace Sys2Proof.Machine

/-! #### BOOT_STOP -/

theorem resetProc_resetLog (s : State) : resetLog s.cfg s.log (resetProc s.cfg.dcMask s).2.log := by
  rw [(resetProc_spec s.cfg.dcMask s).2]
  cases (resetProc s.cfg.dcMask s).1
  · exact .inr rfl
  · exact .inl (List.append_nil _)

/-- Settles O53: the three parts of `runBootStop_eq`, one after the other. -/
theorem bootStopEndsTheStream : Obligations.BootStopEndsTheStream := by
  intro s
  have ends := runBootStop_endsIn s
  obtain ⟨a, b, d, ha, hb, rfl, e⟩ := runBootStop_eq s
  obtain ⟨rmwTrace, rmwLog, rmwCfg⟩ := regRmw_spec .bgc (bgcBootOff s.cfg) s
  rw [← ha] at rmwTrace rmwLog rmwCfg
  have hcfg : b.cfg = s.cfg := hb ▸ (Runs.clearAll a).cfg.trans rmwCfg
  have hlog : b.log = s.log := hb ▸ (clearAll_log a).trans rmwLog
  obtain ⟨⟨l, hl, resetTrace⟩, -⟩ := resetProc_spec s.cfg.dcMask b
  have logged := resetProc_resetLog b
  rw [hcfg, hlog] at logged
  refine ⟨_, (regRead .bgc s).1, l, rfl, ends.seq, ends.reply, hl, by rw [e]; exact logged, ?_⟩
  rw [e]
  dsimp only
  rw [resetTrace, hb, clearAll_trace, rmwTrace, ← hb, hcfg, rmwCfg]
  simp only [clearAllAccesses, resetAccesses, wrote, bgcBootOff, List.append_assoc]

/-! #### SET_MODE -/

theorem EndsIn.sent {s t : State} {q : SeqState} {d : Option Descriptor} {b : RespBuf} {y : Reply}
    (e : EndsIn s t q d b y) : t.sent = d := by
  obtain ⟨w, -, rfl⟩ := e; rfl

theorem runSetMode_frame (m : ModeRec) (s : State) : Frame [.clkctl, .hc2, .hc] s (runSetMode m s) := by
  have clock : Frame [.clkctl, .hc2, .hc] s (setClock m.freqKHz.toNat s).2 := .setClock (by decide) _ s
  obtain ⟨a, rfl, ⟨-, e⟩ | ⟨-, b, c, rfl, rfl, e⟩⟩ := runSetMode_cases m s
  · exact e ▸ clock.trans (.same rfl rfl rfl)
  · exact e ▸ ((clock.trans (.regRmw (by decide) (by decide) _ _)).trans
      (.regRmw (by decide) (by decide) _ _)).trans (.same rfl rfl rfl)

/-- A SET_MODE that returned OK: each register holds what its own part wrote (R117, R127, R128). -/
theorem runSetMode_ok {m : ModeRec} {s : State} (h : NoFullReset s) (hok : (runSetMode m s).reply = .ok) :
    (runSetMode m s).rb.hc2 = trunc (s.cfg.width .hc2) (hc2Word s.cfg m s.rb.hc2) ∧
    (runSetMode m s).rb.hc = trunc (s.cfg.width .hc) (hcWord s.cfg m s.rb.hc) ∧
    clkBits (runSetMode m s) = trunc (s.cfg.width .clkctl)
      (clkWord1 s.cfg (divisor s.cfg s.h.cap.baseKHz.toNat m.freqKHz.toNat) ||| s.cfg.clock.cardEn) &&&
        ~~~s.cfg.clock.stable := by
  have clock : Frame [.clkctl] s (setClock m.freqKHz.toNat s).2 := .setClock (by decide) _ s
  obtain ⟨a, ha, ⟨-, e⟩ | ⟨hset, b, c, hb, hc, e⟩⟩ := runSetMode_cases m s
  · simp [e] at hok
  rw [← ha] at clock
  have hna := clock.full h
  have timing : Frame [.hc2] a b := hb ▸ .regRmw (by decide) (by decide) _ a
  have width : Frame [.hc] b c := hc ▸ .regRmw (by decide) (by decide) _ b
  have hnb := timing.full hna
  have hc2Kept : a.rb.hc2 = s.rb.hc2 := clock.steady h .hc2 (by decide) (by decide)
  have hcKept : b.rb.hc = s.rb.hc :=
    (timing.steady hna .hc (by decide) (by decide)).trans (clock.steady h .hc (by decide) (by decide))
  have hc2New : b.rb.hc2 = trunc (a.cfg.width .hc2) (hc2Word s.cfg m a.rb.hc2) :=
    hb ▸ regRmw_value (x := .hc2) (by decide) rfl _ a hna
  have hcNew : c.rb.hc = trunc (b.cfg.width .hc) (hcWord s.cfg m b.rb.hc) :=
    hc ▸ regRmw_value (x := .hc) (by decide) rfl _ b hnb
  rw [hc2Kept, clock.cfg] at hc2New
  rw [hcKept, timing.cfg, clock.cfg] at hcNew
  have clkNew : clkBits a = _ := ha ▸ (setClock_bits m.freqKHz.toNat s h).1 hset
  rw [e]
  exact ⟨(width.steady hnb .hc2 (by decide) (by decide)).trans hc2New, hcNew,
    ((width.clock hnb (by decide)).trans (timing.clock hna (by decide))).trans clkNew⟩

/-- A SET_MODE that did not return OK: only the first write of CLKCTL was made (R117, R125). -/
theorem runSetMode_notOk {m : ModeRec} {s : State} (h : NoFullReset s) (hno : (runSetMode m s).reply ≠ .ok) :
    (runSetMode m s).rb.hc2 = s.rb.hc2 ∧ (runSetMode m s).rb.hc = s.rb.hc ∧
    clkBits (runSetMode m s) = trunc (s.cfg.width .clkctl)
      (clkWord1 s.cfg (divisor s.cfg s.h.cap.baseKHz.toNat m.freqKHz.toNat)) &&& ~~~s.cfg.clock.stable := by
  have clock : Frame [.clkctl] s (setClock m.freqKHz.toNat s).2 := .setClock (by decide) _ s
  obtain ⟨a, rfl, ⟨hfail, e⟩ | ⟨-, b, c, -, -, e⟩⟩ := runSetMode_cases m s
  · rw [e]
    exact ⟨clock.steady h .hc2 (by decide) (by decide), clock.steady h .hc (by decide) (by decide),
      (setClock_bits m.freqKHz.toNat s h).2 hfail⟩
  · exact absurd (by rw [e]) hno

theorem steadyRegs_notIn_setMode : ∀ x ∈ steadyRegs, x ≠ .hc2 → x ≠ .hc → x ∉ [Reg.clkctl, .hc2, .hc] := by
  decide

/-- Settles O38: the values by the result, the rest by the frame. -/
theorem setModeChangesOnlyItsRegisters : Obligations.SetModeChangesOnlyItsRegisters := by
  intro s t m ht h w
  obtain ⟨rfl, -⟩ := exec_setMode_next ht
  have f := runSetMode_frame m s
  obtain ⟨y, ends⟩ := runSetMode_endsIn m s
  exact ⟨runSetMode_ok h, runSetMode_notOk h,
    fun x hx h2 h1 => f.steady h x hx (steadyRegs_notIn_setMode x hx h2 h1),
    fun hk => ⟨f.nis hk (by decide) (by decide), f.eis hk (by decide) (by decide)⟩,
    f.powered h (by decide), f.armed h (by decide),
    fun hr => ⟨fun x hx => f.latched (by decide) hr x hx (by revert x; decide),
      f.trigger (by decide) hr (by decide)⟩,
    ends.h, ends.sent, ends.respBuf, ends.keeps.port⟩

end Sys2Proof.Machine

/-! ### INIT: its three endings (O35), and what it leaves (O36) -/

namespace Sys2Proof.Machine

/-! #### The reset -/

/-- The reset's poll timed out: its accesses and the log entry are all there is (R110, R111). -/
theorem resetProc_timeout {m : Word} {s : State} (h : (resetProc m s).1 = false) :
    (poll .swreset (fun v => v &&& m == 0) s.cfg.budgets.tReset (regWrite .swreset m s)).1 = none ∧
    (resetProc m s).2.log = s.log ++ [⟨.resetTimeout, [m]⟩] ∧
    ∃ l, OnlyReads .swreset l ∧ (resetProc m s).2.trace = s.trace ++ resetAccesses s.cfg m l := by
  obtain ⟨htrace, hlog⟩ := resetProc_spec m s
  have hpoll := (resetProc_poll m s).1
  rw [h] at hlog hpoll
  exact ⟨Option.isNone_iff_eq_none.1 (Option.isSome_eq_false_iff.1 hpoll.symm), hlog, htrace⟩

/-- A full reset whose poll ended is no longer in progress (R32, R111). -/
theorem resetProc_noFullReset {s : State} (h : (resetProc s.cfg.reset.all s).1 = true) :
    NoFullReset (resetProc s.cfg.reset.all s).2 := by
  obtain ⟨-, y, -, -, -, -, hzero, hy, -⟩ := resetProc_ok h
  rwa [NoFullReset, hasBit_false, hy, (Runs.resetProc _ s).cfg]

/-! #### The power sequence -/

/-- What PWRCTL holds after the power sequence for a voltage (R98, R114). -/
def powerSetting (cfg : Config) (v : Voltage) : Word := trunc (cfg.width .pwrctl) ((pwrWord cfg v).getD 0)

/-- The power sequence powers the bus for every voltage but none (R8, R114, R182, log entry 12). -/
theorem hasBit_powerSetting {cfg : Config} (h : cfg.wf = true) (v : Voltage) :
    hasBit (powerSetting cfg v) cfg.power.on = (v != .none) := by
  obtain ⟨-, -, -, -, hpower, -⟩ := Config.wf_iff.1 h
  simp only [Config.powerOk, isSingleBit, Bool.and_eq_true, List.all_cons, bne_iff_ne] at hpower
  obtain ⟨⟨⟨hne, -⟩, -⟩, hfits, -⟩ := hpower
  refine (hasBit_trunc hfits _).trans ?_
  cases v with
  | none => exact hasBit_zero _
  | v18 | v30 | v33 => exact (hasBit_or _ _ _).trans (by rw [hasBit_self hne]; rfl)

theorem regWrite_pwrctl (v : Word) (s : State) :
    (regWrite .pwrctl v s).rb.pwrctl = trunc (s.cfg.width .pwrctl) v ∧
    (regWrite .pwrctl v s).hid.powered = hasBit (trunc (s.cfg.width .pwrctl) v) s.cfg.power.on := by
  refine ⟨regWrite_value (x := .pwrctl) rfl v s, ?_⟩
  rw [regWrite_eq, State.note_hid, writeEffect_hid, hwStep_cfg]
  rfl

theorem powerUp_power (s : State) :
    (powerUp s).rb.pwrctl = powerSetting s.cfg (selectVoltage s.cfg s.h) ∧
    (powerUp s).hid.powered = hasBit (powerSetting s.cfg (selectVoltage s.cfg s.h)) s.cfg.power.on := by
  have second := fun w => regWrite_pwrctl w (regWrite .pwrctl 0 s)
  simp only [regWrite_cfg] at second
  unfold powerUp powerSetting
  cases hw : pwrWord s.cfg (selectVoltage s.cfg s.h) with
  | none => simpa [hw] using regWrite_pwrctl 0 s
  | some w => simpa [hw] using second w

theorem Frame.powerUp (s : State) : Frame [.pwrctl] s (powerUp s) := by
  obtain ⟨w, -, e, -, -, f⟩ := powerUp_spec s
  exact e ▸ f.trans (.same rfl rfl rfl)

/-- Where INIT stands once the reset has ended and the power sequence is done, `l` the reads of the reset's poll
(R110). -/
structure PoweredUp (s p : State) (l : List Access) : Prop where
  cfg         : p.cfg = s.cfg
  cap         : p.h.cap = s.h.cap
  ready       : p.h.ready = false
  voltage     : p.h.voltage = selectVoltage s.cfg s.h
  log         : p.log = s.log
  trace       : p.trace = s.trace ++ resetAccesses s.cfg s.cfg.reset.all l ++
    powerAccesses s.cfg (selectVoltage s.cfg s.h)
  noFullReset : NoFullReset p
  pwrctl      : p.rb.pwrctl = powerSetting s.cfg (selectVoltage s.cfg s.h)
  powered     : p.hid.powered = hasBit (powerSetting s.cfg (selectVoltage s.cfg s.h)) s.cfg.power.on

theorem powerUp_poweredUp {s a : State} {l : List Access} (r : Runs (startInit s) a) (hn : NoFullReset a)
    (hlog : a.log = s.log) (htrace : a.trace = s.trace ++ resetAccesses s.cfg s.cfg.reset.all l) :
    PoweredUp s (powerUp a) l := by
  have hsel : selectVoltage a.cfg a.h = selectVoltage s.cfg s.h := by rw [r.cfg, r.h]; rfl
  obtain ⟨hpwrctl, hpowered⟩ := powerUp_power a
  have hnp := (Frame.powerUp a).full hn
  obtain ⟨w, up, e, wtrace, wlog, -⟩ := powerUp_spec a
  rw [hsel, r.cfg] at hpwrctl hpowered wtrace
  rw [hsel] at e
  have hh : w.h = (startInit s).h := up.h.trans r.h
  rw [e] at hpwrctl hpowered hnp ⊢
  exact ⟨up.cfg.trans r.cfg, (congrArg Handle.cap hh : w.h.cap = _), (congrArg Handle.ready hh : w.h.ready = _),
    rfl, wlog.trans hlog, wtrace.trans (congrArg (· ++ _) htrace), hnp, hpwrctl, hpowered⟩

/-- INIT's reset, with `y` what ended its poll, and the power sequence after it (R110). -/
theorem resetProc_poweredUp {s : State} (h : (resetProc s.cfg.reset.all (startInit s)).1 = true) :
    ∃ l y, OnlyReads .swreset l ∧
      (poll .swreset (fun x => x &&& s.cfg.reset.all == 0) s.cfg.budgets.tReset
        (regWrite .swreset s.cfg.reset.all (startInit s))).1 = some y ∧
      l.getLast? = some (.read .swreset y) ∧ y &&& s.cfg.reset.all = 0 ∧
      PoweredUp s (powerUp (resetProc s.cfg.reset.all (startInit s)).2) l := by
  obtain ⟨l, y, hl, htrace, hy, hlast, hzero, -, hlog⟩ := resetProc_ok h
  exact ⟨l, y, hl, hy, hlast, hzero, powerUp_poweredUp (.resetProc _ _) (resetProc_noFullReset h) hlog htrace⟩

/-! #### The clock -/

/-- INIT's clock programming, by its poll (R110, R117). -/
theorem PoweredUp.clock {s p : State} {l : List Access} (up : PoweredUp s p l) :
    let khz := s.cfg.clock.initTargetKHz
    let w := clkWord1 s.cfg (divisor s.cfg s.h.cap.baseKHz.toNat khz)
    let clk := poll .clkctl (fun x => hasBit x s.cfg.clock.stable) s.cfg.budgets.tClk (regWrite .clkctl w p)
    ∃ k, OnlyReads .clkctl k ∧
      ((clk.1 = none ∧ (setClock khz p).1 = false ∧
          (setClock khz p).2.trace = p.trace ++ wrote s.cfg .clkctl w :: k ∧
          (setClock khz p).2.log = s.log ++ [⟨.clockTimeout, []⟩]) ∨
       ((setClock khz p).1 = true ∧ (setClock khz p).2.log = s.log ∧
          ∃ x, clk.1 = some x ∧ hasBit x s.cfg.clock.stable = true ∧ k.getLast? = some (.read .clkctl x) ∧
            (setClock khz p).2.trace = p.trace ++ wrote s.cfg .clkctl w :: k ++
              [wrote s.cfg .clkctl (x ||| s.cfg.clock.cardEn)])) := by
  have spec := setClock_spec s.cfg.clock.initTargetKHz p
  simp only [up.cfg, up.cap, up.log] at spec
  exact spec

/-! #### The last part -/

theorem finishInit_h (s : State) : (finishInit s).h = { s.h with ready := true } := by
  obtain ⟨w, r, e, -⟩ := finishInit_spec s
  rw [e, ← r.h]

theorem finishInit_log (s : State) : (finishInit s).log = s.log := by
  obtain ⟨w, -, e, -, hlog, -⟩ := finishInit_spec s
  rw [e, ← hlog]

theorem finishInit_trace (s : State) : (finishInit s).trace = s.trace ++
    ([wrote s.cfg .timeoutctl s.cfg.timeoutValue] ++ clearAllAccesses s.cfg ++
      [wrote s.cfg .nie s.cfg.irq.nieAll, wrote s.cfg .eie s.cfg.irq.eieAll]) := by
  obtain ⟨w, -, e, htrace, -⟩ := finishInit_spec s
  rw [e, ← htrace]

theorem Frame.finishInit (s : State) : Frame [.timeoutctl, .nis, .eis, .nie, .eie] s (finishInit s) := by
  obtain ⟨w, -, e, -, -, f⟩ := finishInit_spec s
  exact e ▸ f.trans (.same rfl rfl rfl)

theorem steady_isPlain : ∀ x ∈ steadyRegs, isPlain x = true ∧ x ≠ .swreset := by decide

/-- A value written to a steady register still stands after accesses that write other ones. -/
theorem Frame.steady_value {ws : List Reg} {x : Reg} {v : Word} {s t : State}
    (f : Frame ws (Machine.regWrite x v s) t) (h : NoFullReset s) (hx : x ∈ steadyRegs) (hw : x ∉ ws) :
    t.rb.get x = trunc (s.cfg.width x) v := by
  obtain ⟨hplain, hne⟩ := steady_isPlain x hx
  have hn := (Frame.regWrite (List.mem_singleton_self x) hne v s).full h
  exact (f.steady hn x hx hw).trans (regWrite_value hplain v s)

theorem finishInit_eq (s : State) : ∃ a c d e, a = regWrite .timeoutctl s.cfg.timeoutValue s ∧ c = clearAll a ∧
    d = regWrite .nie s.cfg.irq.nieAll c ∧ e = regWrite .eie s.cfg.irq.eieAll d ∧ c.cfg = s.cfg ∧
    finishInit s = { e with h := { e.h with ready := true } } := by
  have hcfg := (Runs.clearAll (regWrite .timeoutctl s.cfg.timeoutValue s)).cfg.trans (regWrite_cfg _ _ _)
  refine ⟨_, _, _, _, rfl, rfl, rfl, rfl, hcfg, ?_⟩
  unfold finishInit
  simp only [regWrite_cfg, hcfg]

/-- INIT's last part leaves the timeout control and the two enables as configured (R119, R121). -/
theorem finishInit_values {s : State} (h : NoFullReset s) :
    (finishInit s).rb.timeoutctl = trunc (s.cfg.width .timeoutctl) s.cfg.timeoutValue ∧
    (finishInit s).rb.nie = trunc (s.cfg.width .nie) s.cfg.irq.nieAll ∧
    (finishInit s).rb.eie = trunc (s.cfg.width .eie) s.cfg.irq.eieAll := by
  obtain ⟨a, c, d, e, ha, hc, hd, he, hcfg, eq⟩ := finishInit_eq s
  have timeout : Frame [.timeoutctl] s a := ha ▸ .regWrite (by decide) (by decide) _ s
  have clear : Frame [.nis, .eis, .nie, .eie] a c := hc ▸ .clearAll (by decide) (by decide) a
  have nie : ∀ ws, .nie ∈ ws → Frame ws c d := fun _ hw => hd ▸ .regWrite hw (by decide) _ c
  have eie : ∀ ws, .eie ∈ ws → Frame ws d e := fun _ hw => he ▸ .regWrite hw (by decide) _ d
  have hnc := clear.full (timeout.full h)
  have rest := (clear.trans (nie _ (by decide))).trans (eie _ (by decide))
  have nieNew := (hd ▸ eie [.eie] (by decide)).steady_value hnc (x := .nie) (by decide) (by decide)
  have eieNew : e.rb.eie = trunc (d.cfg.width .eie) s.cfg.irq.eieAll := he ▸ regWrite_value (x := .eie) rfl _ d
  rw [hcfg] at nieNew
  rw [(nie [.nie] (by decide)).cfg, hcfg] at eieNew
  rw [eq]
  exact ⟨(ha ▸ rest).steady_value h (x := .timeoutctl) (by decide) (by decide), nieNew, eieNew⟩

/-! #### The operation -/

/-- INIT ends with no descriptor outstanding, as it started (R25, R110). -/
theorem runInit_sent (s : State) : (runInit s).sent = none := by
  have reset := Runs.resetProc s.cfg.reset.all (startInit s)
  have clock : ∀ {a : State}, a.sent = none →
      (setClock s.cfg.clock.initTargetKHz (powerUp a)).2.sent = none := fun {a} h => by
    obtain ⟨w, r, e, -⟩ := powerUp_spec a
    rw [(Runs.setClock _ _).sent, e]
    exact r.sent.trans h
  obtain ⟨a, rfl, ⟨-, e⟩ | ⟨-, p, b, rfl, rfl, ⟨-, e⟩ | ⟨-, e⟩⟩⟩ := runInit_cases s
  · exact e ▸ reset.sent
  · exact e ▸ clock reset.sent
  · obtain ⟨w, r, ew, -⟩ := finishInit_spec
      (setClock s.cfg.clock.initTargetKHz (powerUp (resetProc s.cfg.reset.all (startInit s)).2)).2
    rw [e, ew]
    exact r.sent.trans (clock reset.sent)

/-- Settles O35: the reset by its poll, then the power sequence and the clock by its poll, then INIT's last part. -/
theorem initEndsInOneOfThreeWays : Obligations.InitEndsInOneOfThreeWays := by
  intro s v w rst clk
  have hseq := (runInit_ends s).2.1
  obtain ⟨a, ha, ⟨hfail, e⟩ | ⟨hok, p, b, hp, hb, ends⟩⟩ := runInit_cases s
  · have hrun := Runs.resetProc s.cfg.reset.all (startInit s)
    obtain ⟨hnone, hlog, l, hl, htrace⟩ := resetProc_timeout hfail
    rw [← ha] at hrun hlog htrace
    refine ⟨_, l, rfl, hseq, hl, .inl ⟨hnone, ?_⟩⟩
    rw [e]
    exact ⟨rfl, (congrArg Handle.ready hrun.h : a.h.ready = _), (congrArg Handle.voltage hrun.h : a.h.voltage = _),
      htrace, hlog⟩
  obtain ⟨l, y, hl, hy, hlast, hzero, up⟩ := resetProc_poweredUp hok
  have hclk : regWrite .clkctl w (powerUp rst.2) = regWrite .clkctl w p := by
    rw [hp, ha, (resetProc_poll s.cfg.reset.all (startInit s)).2 hok]
    rfl
  rw [← ha, ← hp] at up
  obtain ⟨k, hk, clock⟩ := up.clock
  have hrun := Runs.setClock s.cfg.clock.initTargetKHz p
  simp only [← hb] at clock hrun
  have hvolt : b.h.voltage = v := (congrArg Handle.voltage hrun.h).trans up.voltage
  have hready : b.h.ready = false := (congrArg Handle.ready hrun.h).trans up.ready
  have htrace : ∀ q, p.trace ++ q = s.trace ++ resetAccesses s.cfg s.cfg.reset.all l ++ powerAccesses s.cfg v ++ q :=
    fun q => congrArg (· ++ q) up.trace
  refine ⟨_, l, rfl, hseq, hl, .inr ⟨y, k, _, hy, hlast, hzero, hk, ?voltage, rfl, ?clock⟩⟩
  case voltage =>
    obtain ⟨-, e⟩ | ⟨-, e⟩ := ends
    · rw [e]
      exact hvolt
    · rw [e]
      exact (congrArg Handle.voltage (finishInit_h b)).trans hvolt
  case clock =>
    simp only [clk, hclk, ← htrace]
    obtain ⟨hnone, hfail, ctrace, clog⟩ | ⟨hset, clog, x, hx, hstable, hxlast, ctrace⟩ := clock
    · obtain ⟨-, e⟩ | ⟨hset, -⟩ := ends
      · rw [e]
        exact .inl ⟨hnone, rfl, hready, ctrace, clog⟩
      · simp [hfail] at hset
    · obtain ⟨hfail, -⟩ | ⟨-, e⟩ := ends
      · simp [hset] at hfail
      · rw [e]
        refine .inr ⟨rfl, (congrArg Handle.ready (finishInit_h b) :), (finishInit_log b).trans clog, x, hx, hxlast,
          hstable, (finishInit_trace b).trans ?_⟩
        simp only [ctrace, hrun.cfg, up.cfg, w, List.append_assoc, List.cons_append, List.nil_append]

/-- Settles O36: the frame by `runInit_ends`; the values part by part, each kept by the parts that follow. -/
theorem initEstablishesPowerClockAndEnables : Obligations.InitEstablishesPowerClockAndEnables := by
  intro s t ht
  obtain rfl := exec_init_next ht
  obtain ⟨keeps, -, hbuf, hready⟩ := runInit_ends s
  refine ⟨⟨keeps.base, keeps.cap, keeps.cap0, keeps.cap1, hbuf, keeps.port, keeps.cfg, runInit_sent s⟩,
    fun hwf hok => ?_⟩
  intro v w
  obtain ⟨a, rfl, ⟨-, e⟩ | ⟨hreset, p, b, hp, hb, ⟨-, e⟩ | ⟨hset, e⟩⟩⟩ := runInit_cases s
  · simp [e] at hok
  · simp [e] at hok
  obtain ⟨l, -, -, -, -, -, up⟩ := resetProc_poweredUp hreset
  rw [← hp] at up
  have hnp := up.noFullReset
  have clock : Frame [.clkctl] p b := hb ▸ .setClock (by decide) _ p
  have finish := Frame.finishInit b
  have hnb := clock.full hnp
  have hclk := hb ▸ (setClock_bits s.cfg.clock.initTargetKHz p hnp).1 hset
  obtain ⟨htimeout, hnie, heie⟩ := finishInit_values hnb
  have hvolt : (finishInit b).h.voltage = v := by
    rw [finishInit_h, hb, (Runs.setClock _ _).h]
    exact up.voltage
  have hpwrctl : (finishInit b).rb.pwrctl = powerSetting s.cfg v :=
    (finish.steady hnb .pwrctl (by decide) (by decide)).trans
      ((clock.steady hnp .pwrctl (by decide) (by decide)).trans up.pwrctl)
  have hpowered : (finishInit b).hid.powered = (v != .none) :=
    (finish.powered hnb (by decide)).trans
      ((clock.powered hnp (by decide)).trans (up.powered.trans (hasBit_powerSetting hwf v)))
  rw [up.cfg, up.cap] at hclk
  rw [clock.cfg, up.cfg] at htimeout hnie heie
  refine ⟨?_, hready.2 hok, ?_⟩
  · rw [e]
    exact finish.full hnb
  · rw [e]
    refine ⟨hvolt, hpwrctl.trans ?_, hpowered, (finish.clock hnb (by decide)).trans hclk, htimeout, hnie, heie⟩
    clear_value v
    cases v <;> rfl

end Sys2Proof.Machine

/-! ### SEND_CMD's accesses (O39), and what it leaves (O40) -/

namespace Sys2Proof.Machine

/-! #### The accesses -/

/-- The accesses of the transfer block, with `g` what BGC read if the command is a boot command (R134 to R136). -/
def transferAccesses (cfg : Config) (c : Descriptor) (g : Word) : List Access :=
  [wrote cfg .blkcnt (c.blkcnt.setWidth 32), wrote cfg .dmaaddr c.dmaAddr, wrote cfg .blksize (blkSizeWord cfg c),
   wrote cfg .xfermode (xferWord cfg c)] ++
  (if c.bootEn = true then
    [wrote cfg .boottimeout cfg.boot.timeoutValue, .read .bgc g, wrote cfg .bgc (bgcBootOn cfg g)]
   else [])

theorem programTransfer_accesses (c : Descriptor) (s : State) :
    (∃ g, (programTransfer c s).trace = s.trace ++ transferAccesses s.cfg c g) ∧
    (programTransfer c s).log = s.log := by
  cases hb : c.bootEn with
  | false =>
    obtain ⟨-, trace, log, -⟩ := programTransfer_data c s hb
    exact ⟨⟨0, by simpa [transferAccesses, hb] using trace⟩, log⟩
  | true =>
    obtain ⟨run, trace, log, -⟩ := programTransfer_data { c with bootEn := false } s rfl
    obtain ⟨-, ⟨g, armTrace⟩, armLog, -⟩ := armBoot_spec (programTransfer { c with bootEn := false } s)
    rw [trace, run.cfg, List.append_assoc] at armTrace
    rw [programTransfer_boot c s hb]
    refine ⟨⟨g, armTrace.trans ?_⟩, armLog.trans log⟩
    rw [transferAccesses, if_pos hb]
    rfl

/-- Settles O39: the accesses before the transfer block, the block where the command has one, and ARG and CMD. -/
theorem sendCmdWritesTheCommandLast : Obligations.SendCmdWritesTheCommandLast := by
  intro s c hc hidle hready
  have ends := runSendCmd_endsIn c s
  obtain ⟨a, b, d, e, ha, hb, rfl, rfl, hcfg, run⟩ := runSendCmd_eq c s
  have hacfg : a.cfg = s.cfg := ha ▸ regWrite_cfg .nis _ s
  obtain ⟨⟨g, blockTrace⟩, blockLog⟩ := programTransfer_accesses c a
  have htrace : b.trace = a.trace ++
      (if c.dataXfer = true ∨ c.bootEn = true then transferAccesses s.cfg c g else []) := by
    simp only [hb, Bool.or_eq_true]
    split
    · rw [blockTrace, hacfg]
    · exact (List.append_nil _).symm
  have hlog : b.log = a.log := by
    rw [hb]
    split
    · exact blockLog
    · rfl
  refine ⟨_, g, exec_sendCmd_ready hc hidle hready, ends.seq, ends.reply, ?log, ?trace⟩
  case log => simp [run, hlog, ha]
  case trace =>
    simp only [run, regWrite_trace, regWrite_cfg, hcfg, htrace, ha, List.append_assoc]
    rfl

/-! #### The registers it writes -/

theorem mem_writable_sendCmd {c : Descriptor} {x : Reg} : x ∈ writable (.sendCmd c) ↔
    x ∈ [Reg.nis, .arg, .cmd] ∨
    ((c.dataXfer = true ∨ c.bootEn = true) ∧ x ∈ [Reg.blkcnt, .dmaaddr, .blksize, .xfermode]) ∨
    (c.bootEn = true ∧ x ∈ [Reg.boottimeout, .bgc]) := by
  simp only [writable]
  split_ifs with hb hd
  · simp [hb]
    tauto
  · simp [hb, hd]
    tauto
  · simp [hb, hd]

theorem Frame.programTransfer {ws : List Reg} {c : Descriptor}
    (hx : ∀ x ∈ [Reg.blkcnt, .dmaaddr, .blksize, .xfermode], x ∈ ws)
    (hb : c.bootEn = true → ∀ x ∈ [Reg.boottimeout, .bgc], x ∈ ws) (s : State) :
    Frame ws s (programTransfer c s) := by
  cases hboot : c.bootEn with
  | false =>
    obtain ⟨-, -, -, data⟩ := programTransfer_data c s hboot
    exact data.mono hx
  | true =>
    obtain ⟨-, -, -, data⟩ := programTransfer_data { c with bootEn := false } s rfl
    obtain ⟨-, -, -, arm⟩ := armBoot_spec (Machine.programTransfer { c with bootEn := false } s)
    rw [programTransfer_boot c s hboot]
    exact (data.mono hx).trans (arm.mono (hb hboot))

theorem runSendCmd_frame (c : Descriptor) (s : State) : Frame (writable (.sendCmd c)) s (runSendCmd c s) := by
  have always : ∀ x ∈ [Reg.nis, .arg, .cmd], x ∈ writable (.sendCmd c) := fun x hx =>
    mem_writable_sendCmd.2 (.inl hx)
  obtain ⟨a, b, d, e, rfl, hb, rfl, rfl, -, run⟩ := runSendCmd_eq c s
  have block : Frame (writable (.sendCmd c)) (regWrite .nis s.cfg.irq.nisAll s) b := by
    rw [hb]
    split
    · next hblock =>
      exact .programTransfer (fun x hx => mem_writable_sendCmd.2 (.inr (.inl ⟨by simpa using hblock, hx⟩)))
        (fun hboot x hx => mem_writable_sendCmd.2 (.inr (.inr ⟨hboot, hx⟩))) _
    · exact .refl _ _
  rw [run]
  exact ((((Frame.regWrite (always _ (by decide)) (by decide) _ s).trans block).trans
    (.regWrite (always _ (by decide)) (by decide) _ _)).trans
    (.regWrite (always _ (by decide)) (by decide) _ _)).trans (.same rfl rfl rfl)

/-! #### Boot arming -/

theorem regWrite_boottimeout_armed (v : Word) (s : State) :
    (regWrite .boottimeout v s).hid.bootArmed = (trunc (s.cfg.width .boottimeout) v != 0) := by
  rw [regWrite_eq, State.note_hid, writeEffect_hid, hwStep_cfg]
  rfl

/-- The read-modify-write of BGC leaves the boot-timeout counter as it was armed (R136). -/
theorem armBoot_boottimeout {s : State} (h : NoFullReset s) :
    (armBoot s).rb.boottimeout = trunc (s.cfg.width .boottimeout) s.cfg.boot.timeoutValue ∧
    (armBoot s).hid.bootArmed = (trunc (s.cfg.width .boottimeout) s.cfg.boot.timeoutValue != 0) := by
  have written : Frame [.boottimeout] s (regWrite .boottimeout s.cfg.boot.timeoutValue s) :=
    .regWrite (by decide) (by decide) _ s
  have rest : Frame [.bgc] (regWrite .boottimeout s.cfg.boot.timeoutValue s) (armBoot s) :=
    .regRmw (by decide) (by decide) _ _
  exact ⟨rest.steady_value h (x := .boottimeout) (by decide) (by decide),
    (rest.armed (written.full h) (by decide)).trans (regWrite_boottimeout_armed _ s)⟩

/-- A boot command's accesses before boot arming, and those after it. -/
theorem runSendCmd_boot {c : Descriptor} (hb : c.bootEn = true) (s : State) : ∃ w,
    Frame [.nis, .blkcnt, .dmaaddr, .blksize, .xfermode] s w ∧ Frame [.arg, .cmd] (armBoot w) (runSendCmd c s) := by
  obtain ⟨a, b, d, e, rfl, hblock, rfl, rfl, -, run⟩ := runSendCmd_eq c s
  obtain ⟨-, -, -, data⟩ :=
    programTransfer_data { c with bootEn := false } (regWrite .nis s.cfg.irq.nisAll s) rfl
  rw [if_pos (by simp [hb]), programTransfer_boot c _ hb] at hblock
  refine ⟨_, (Frame.regWrite (by decide) (by decide) _ s).trans (data.mono (by decide)), ?_⟩
  rw [run, ← hblock]
  exact ((Frame.regWrite (by decide) (by decide) _ b).trans (.regWrite (by decide) (by decide) _ _)).trans
    (.same rfl rfl rfl)

theorem runSendCmd_armed {c : Descriptor} (hb : c.bootEn = true) {s : State} (h : NoFullReset s) :
    (runSendCmd c s).rb.boottimeout = trunc (s.cfg.width .boottimeout) s.cfg.boot.timeoutValue ∧
    (runSendCmd c s).hid.bootArmed = (trunc (s.cfg.width .boottimeout) s.cfg.boot.timeoutValue != 0) := by
  obtain ⟨w, before, after⟩ := runSendCmd_boot hb s
  have hw := before.full h
  obtain ⟨armed, hidden⟩ := armBoot_boottimeout hw
  obtain ⟨-, -, -, arm⟩ := armBoot_spec w
  rw [before.cfg] at armed hidden
  exact ⟨(after.steady (arm.full hw) .boottimeout (by decide) (by decide)).trans armed,
    (after.armed (arm.full hw) (by decide)).trans hidden⟩

/-! #### The operation -/

/-- Registers HW leaves alone short of a full reset and no SEND_CMD writes. -/
theorem untouched_by_sendCmd (c : Descriptor) : ∀ x ∈ [Reg.pwrctl, .timeoutctl, .nie, .eie, .hc, .hc2],
    x ∈ steadyRegs ∧ x ∉ writable (.sendCmd c) := by
  simp [mem_writable_sendCmd, steadyRegs]

/-- Settles O40: the values by what was dispatched and by boot arming, the rest by the frame. -/
theorem sendCmdChangesOnlyItsRegisters : Obligations.SendCmdChangesOnlyItsRegisters := by
  intro s t c hexec hreset
  obtain ⟨rfl, -⟩ := exec_sendCmd_next hexec
  have ends := runSendCmd_endsIn c s
  have sent := runSendCmd_dispatches c hreset
  have f := runSendCmd_frame c s
  have hfull := hreset.full
  have hs : .swreset ∉ writable (.sendCmd c) := by simp [mem_writable_sendCmd]
  refine ⟨sent.arg, sent.cmd, sent.trigger, fun hx => ?block, fun hd hb => ?noBlock, fun hb => ?boot,
    fun hb => ?noBoot, fun x hx => ?others, f.clock hfull (by simp [mem_writable_sendCmd]),
    f.powered hfull (by simp [mem_writable_sendCmd]),
    f.eis ⟨hfull, .inr hreset⟩ hs (by simp [mem_writable_sendCmd]), f.none hs hreset,
    ends.h, ends.sent, ends.respBuf, ends.keeps.port⟩
  case block =>
    have p := sent.programmed hx
    exact ⟨p.blksize, p.xfermode⟩
  case noBlock =>
    exact ⟨f.latched hs hreset .blksize (by decide) (by simp [mem_writable_sendCmd, hd, hb]),
      f.latched hs hreset .xfermode (by decide) (by simp [mem_writable_sendCmd, hd, hb])⟩
  case boot =>
    obtain ⟨armed, hidden⟩ := runSendCmd_armed hb hfull
    exact ⟨armed, hidden, (sent.programmed (.inr hb)).bgc hb⟩
  case noBoot =>
    have hunwritten : ∀ x ∈ [Reg.boottimeout, .bgc], x ∉ writable (.sendCmd c) := by
      simp [mem_writable_sendCmd, hb]
    exact ⟨f.steady hfull .boottimeout (by decide) (hunwritten _ (by decide)),
      f.armed hfull (hunwritten _ (by decide)), f.steady hfull .bgc (by decide) (hunwritten _ (by decide))⟩
  case others =>
    obtain ⟨hsteady, hunwritten⟩ := untouched_by_sendCmd c x hx
    exact f.steady hfull x hsteady hunwritten

end Sys2Proof.Machine

/-! ### The response words (O19), the DMA acknowledge (O50), WAIT_CMD (O43 to O46, O57) -/

namespace Sys2Proof

/-- `NIS_DMA` lies within NIS (R8, log entry 34). -/
theorem Config.dma_fits {cfg : Config} (h : cfg.wf = true) : fits (cfg.width .nis) cfg.irq.dma = true := by
  obtain ⟨-, -, -, -, -, -, hirq, -⟩ := Config.wf_iff.1 h
  simp only [Config.irqOk, Bool.and_eq_true, List.all_cons] at hirq
  obtain ⟨-, -, -, hdma, -⟩ := hirq
  exact hdma

namespace Machine

/-! #### The response words -/

/-- A word of a value shifted left by 8: that word shifted, with the high byte of the word below. -/
theorem extractLsb'_shiftLeft_8 (v : BitVec 128) (k : Nat) (hk : k + 64 ≤ 128) :
    (v <<< 8).extractLsb' (k + 32) 32 =
      (v.extractLsb' (k + 32) 32 <<< 8) ||| (v.extractLsb' k 32 >>> 24) := by
  refine BitVec.eq_of_getLsbD_eq fun i hi => ?_
  simp only [BitVec.getLsbD_extractLsb', BitVec.getLsbD_shiftLeft, BitVec.getLsbD_or,
    BitVec.getLsbD_ushiftRight]
  grind

/-- The lowest word has none below it. -/
theorem extractLsb'_shiftLeft_8_low (v : BitVec 128) :
    (v <<< 8).extractLsb' 0 32 = v.extractLsb' 0 32 <<< 8 := by
  refine BitVec.eq_of_getLsbD_eq fun i hi => ?_
  simp only [BitVec.getLsbD_extractLsb', BitVec.getLsbD_shiftLeft]
  grind

/-- The reassembly of the words of `v` gives the words of `v <<< 8` (R148). -/
theorem reassemble_words (v : BitVec 128) :
    reassemble (v.extractLsb' 96 32) (v.extractLsb' 64 32) (v.extractLsb' 32 32) (v.extractLsb' 0 32) =
      ⟨(v <<< 8).extractLsb' 96 32, (v <<< 8).extractLsb' 64 32, (v <<< 8).extractLsb' 32 32,
        (v <<< 8).extractLsb' 0 32⟩ := by
  rw [extractLsb'_shiftLeft_8 v 64 (by decide), extractLsb'_shiftLeft_8 v 32 (by decide),
    extractLsb'_shiftLeft_8 v 0 (by decide), extractLsb'_shiftLeft_8_low]
  rfl

theorem append_extractLsb'_words (v : BitVec 128) : v.extractLsb' 96 32 ++ v.extractLsb' 64 32 ++
    v.extractLsb' 32 32 ++ v.extractLsb' 0 32 = v := by
  rw [BitVec.extractLsb'_append_extractLsb'_eq_extractLsb' (by decide),
    BitVec.extractLsb'_append_extractLsb'_eq_extractLsb' (by decide),
    BitVec.extractLsb'_append_extractLsb'_eq_extractLsb' (by decide)]
  exact BitVec.extractLsb'_eq_self

theorem extractLsb'_append_words (r3 r2 r1 r0 : Word) :
    (r3 ++ r2 ++ r1 ++ r0).extractLsb' 96 32 = r3 ∧ (r3 ++ r2 ++ r1 ++ r0).extractLsb' 64 32 = r2 ∧
    (r3 ++ r2 ++ r1 ++ r0).extractLsb' 32 32 = r1 ∧ (r3 ++ r2 ++ r1 ++ r0).extractLsb' 0 32 = r0 := by
  have drop : ∀ {n k : Nat} {hi : BitVec n} {lo : Word}, 32 ≤ k →
      (hi ++ lo).extractLsb' k 32 = hi.extractLsb' (k - 32) 32 := BitVec.extractLsb'_append_eq_of_le
  refine ⟨?_, ?_, ?_, BitVec.extractLsb'_append_eq_right⟩
  · rw [drop (by decide), drop (by decide)]
    exact BitVec.extractLsb'_append_eq_left
  · rw [drop (by decide), drop (by decide)]
    exact BitVec.extractLsb'_append_eq_right
  · rw [drop (by decide)]
    exact BitVec.extractLsb'_append_eq_right

/-- Settles O19: both ways by `reassemble_words`, since a right and then a left shift by 8 only clears the low
byte. -/
theorem responseReassemblyRoundTrips : Obligations.ResponseReassemblyRoundTrips := by
  constructor
  · intro r3 r2 r1 r0 b
    obtain ⟨h3, h2, h1, h0⟩ := extractLsb'_append_words r3 r2 r1 r0
    have words := reassemble_words (r3 ++ r2 ++ r1 ++ r0)
    rw [h3, h2, h1, h0] at words
    simp only [b, words]
    exact append_extractLsb'_words _
  · intro r q b
    simp only [b, q, reassemble_words, BitVec.shiftLeft_ushiftRight, BitVec.extractLsb'_and]
    exact ⟨BitVec.and_allOnes, BitVec.and_allOnes, BitVec.and_allOnes, rfl⟩

/-! #### The DMA acknowledge -/

/-- What a read of DMAADDR returns fits it where registers hold values of their width. -/
theorem regRead_dmaaddr_fits {s : State} (hc : s.cfg.wf = true) (h : RegsFit s) :
    fits (s.cfg.width .dmaaddr) (regRead .dmaaddr s).1 = true :=
  hwStep_cfg s ▸ (Runs.hwStep s).fit hc h .dmaaddr

/-- Settles O50: neither write is cut, so the accesses are those of `dmaAck_spec`, the last of them clearing the
flag. -/
theorem dmaAcknowledgeWritesBackThenClears : Obligations.DmaAcknowledgeWritesBackThenClears := by
  intro s hc hfit a
  have hnis := trunc_of_fits (Config.dma_fits hc)
  refine ⟨rfl, (dmaAck_spec s).1.trans ?_, ?_⟩
  · simp only [dmaAckAccesses, wrote, hnis]
    rw [show (dmaAck s).1 = a from rfl, trunc_of_fits (regRead_dmaaddr_fits hc hfit)]
  · have cleared := regWrite_nis_cleared s.cfg.irq.dma (regWrite .dmaaddr a (regRead .dmaaddr s).2)
    rw [regWrite_cfg, regRead_cfg, hnis] at cleared
    rw [hasBit_false, dmaAck, regWrite_cfg, regRead_cfg]
    exact cleared

/-! #### WAIT_CMD: the first flag -/

/-- A poll whose first read is made in time and meets the condition ends with that read (R11). -/
theorem poll_eq_first_read {x : Reg} {cond : Word → Bool} {b : Nat} {s : State}
    (ht : (sampleClock (sampleClock s)).env.now - (sampleClock s).env.now ≤ b)
    (hc : cond ((hwStep (sampleClock (sampleClock s))).view x) = true) :
    poll x cond b s = (some ((hwStep (sampleClock (sampleClock s))).view x),
      (regRead x (sampleClock (sampleClock s))).2) := by
  have hread : cond (regRead x (sampleClock (sampleClock s))).1 = true := hc
  simp only [poll, waitFuel, pollLoop, if_neg (Nat.not_lt.2 ht), hread, if_true]
  rfl

/-- WAIT_CMD when the first read of NIS is in time and shows a flag: the branch the descriptor selects, from
that read (R143, R144). -/
theorem runWaitCmd_first_flag {s : State} (c : Descriptor)
    (ht : (sampleClock (sampleClock s)).env.now - (sampleClock s).env.now ≤ s.cfg.budgets.tCmd)
    (hn : (hwStep (sampleClock (sampleClock s))).view .nis ≠ 0) :
    let n := (hwStep (sampleClock (sampleClock s))).view .nis
    let a := (regRead .nis (sampleClock (sampleClock s))).2
    runWaitCmd c s = if c.bootEn then .next (waitBoot n a)
      else if c.dataXfer then .next (waitData a) else waitNonData c n a := by
  have hpoll := poll_eq_first_read (x := .nis) (cond := fun v => v != 0) ht (by simpa using hn)
  simp only [runWaitCmd, hpoll]

theorem ne_zero_of_hasBit {v m : Word} (h : hasBit v m = true) : v ≠ 0 := by
  rintro rfl
  simp [hasBit_zero] at h

/-- Settles O43: the first read selects the branch of `waitNonData`. -/
theorem nonDataWaitCompletesOnFirstFlag : Obligations.NonDataWaitCompletesOnFirstFlag := by
  intro s c hwf hq hs hboot hdata u n ht
  rw [exec_waitCmd_run hwf hq hs]
  have run : n ≠ 0 → runWaitCmd c s = waitNonData c n (regRead .nis u).2 := fun hn => by
    simpa [hboot, hdata] using runWaitCmd_first_flag c ht hn
  have hcases := waitNonData_cases c n (regRead .nis u).2
  have hcfg : (regRead .nis u).2.cfg = s.cfg := regRead_cfg _ _
  rw [hcfg] at hcases
  have hlog : u.log = s.log := sampleClock_log _
  obtain ⟨herr, e⟩ | ⟨herr, hcc, _, z, rfl, rfl, e⟩ | ⟨herr, hcc, e⟩ := hcases
  · refine ⟨by simp [herr], fun h => ?_, by simp [herr]⟩
    obtain ⟨hreply, hseq, -⟩ := failWith_ends .hwError [n] (regRead .nis u).2
    exact ⟨_, (run (ne_zero_of_hasBit h)).trans e, hreply, hseq⟩
  · refine ⟨fun _ h => ⟨_, (run (ne_zero_of_hasBit h)).trans e, rfl, rfl, ?_⟩, by simp [herr], by simp [hcc]⟩
    obtain ⟨w, q, b, -, ew, -, hw, -⟩ := decodeResponse_spec c (regRead .nis u).2
    simp [ew, hw, hlog]
  · exact ⟨by simp [hcc], by simp [herr], fun h _ _ => (run h).trans e⟩

/-- NIS, read as `q`, ends the data wait in success, `f` being the flag that is cleared: buffer-read-ready, else
transfer-complete (R153, R154). -/
def EndsRound (cfg : Config) (q f : Word) : Prop :=
  hasBit q cfg.irq.brr = true ∧ f = cfg.irq.brr ∨
  hasBit q cfg.irq.brr = false ∧ hasBit q cfg.irq.tc = true ∧ f = cfg.irq.tc

/-- The data wait's first round, made in time: an error's exit, or success by a flag (R151, R153, R154). -/
theorem waitData_first_round {s : State}
    (ht : (sampleClock (sampleClock s)).env.now - (sampleClock s).env.now ≤ s.cfg.budgets.tData) :
    let d := sampleClock (sampleClock s)
    let e := (hwStep d).view .eis
    let q := (hwStep (regRead .eis d).2).view .nis
    (e ≠ 0 → (waitData s).reply = .fail ∧ (waitData s).seq = .idle) ∧
    ∀ f, EndsRound s.cfg q f → e = 0 → (waitData s).reply = .ok ∧ (waitData s).seq = .idle ∧
      (waitData s).log = s.log ∧ (waitData s).trace.getLast? = some (wrote s.cfg .nis f) := by
  intro d e q
  obtain ⟨a, rfl, ⟨hlate, -⟩ | ⟨-, x, y, hx, rfl, ⟨hne, z, -, run⟩ | ⟨hz, p, g, b, hp, rfl, hb, h⟩⟩⟩ :=
    dataLoop_cases (sampleClock s).env.now (sampleClock s).env.script.length (sampleClock s)
  · exact absurd ht (Nat.not_le.2 hlate)
  · refine ⟨fun _ => ?_, fun f _ he => absurd (hx.trans he) hne⟩
    rw [waitData, waitFuel, run]
    obtain ⟨hreply, hseq, -⟩ := failWith_ends .hwError [x, (regRead .acmd12stat (regRead .eis d).2).1]
      (regRead .acmd12stat (regRead .eis d).2).2
    exact ⟨hreply, hseq⟩
  · refine ⟨fun he => absurd (hx.symm.trans hz) he, fun f hf _ => ?_⟩
    obtain rfl : p = q := hp
    have run : dataLoop (sampleClock s).env.now (waitFuel (sampleClock s)) (sampleClock s) =
        { regWrite .nis f b with seq := .idle, sent := none, reply := .ok } := by
      obtain ⟨hbrr, rfl⟩ | ⟨hbrr, htc, rfl⟩ := hf
      · simpa [waitFuel, hbrr] using h
      · simpa [waitFuel, hbrr, htc] using h
    obtain ⟨rb, hlog, -⟩ := dmaAckIf_spec (hasBit q (sampleClock s).cfg.irq.dma = true)
      (regRead .nis (regRead .eis (sampleClock (sampleClock s))).2).2
    rw [← hb] at rb hlog
    simp only [regRead_log, sampleClock_log] at hlog
    have hcfg : b.cfg = s.cfg := by simpa using rb.cfg
    rw [waitData, run]
    exact ⟨rfl, rfl, by simp [hlog], by simp [hcfg, wrote]⟩

/-- Settles O44: the first read selects the branch, and the data branch's first round its ending. -/
theorem bootAndDataWaitsCompleteOnFirstFlag : Obligations.BootAndDataWaitsCompleteOnFirstFlag := by
  intro s c hwf hq hs hkind u n ht hn
  rw [exec_waitCmd_run hwf hq hs, runWaitCmd_first_flag c ht hn]
  have hcfg : (regRead .nis u).2.cfg = s.cfg := regRead_cfg _ _
  have hlog : u.log = s.log := sampleClock_log _
  refine ⟨fun hboot => ?boot, fun hboot => ?data⟩
  case boot =>
    have hcases := waitBoot_cases n (regRead .nis u).2
    rw [hcfg] at hcases
    rw [if_pos hboot]
    obtain ⟨hack, e⟩ | ⟨hack, _, _, rfl, rfl, e⟩ := hcases
    · obtain ⟨hreply, hseq, -⟩ := failWith_ends .bootNoAck [n] (regRead .nis u).2
      exact ⟨by simp [hack], fun _ => ⟨_, rfl, e ▸ hreply, e ▸ hseq⟩⟩
    · exact ⟨fun _ => ⟨_, congrArg _ e, rfl, rfl, by simp [hlog]⟩, by simp [hack]⟩
  case data =>
    intro a d e q hd
    have hdata : c.dataXfer = true := by simpa [hboot] using hkind
    rw [if_neg (by simp [hboot]), if_pos hdata]
    obtain ⟨hfail, hok⟩ := waitData_first_round (s := a) (hcfg.symm ▸ hd)
    have halog : a.log = s.log := (regRead_log .nis u).trans hlog
    rw [hcfg, halog] at hok
    exact ⟨fun he => ⟨_, rfl, hfail he⟩, fun he hbrr => ⟨_, rfl, hok _ (.inl ⟨hbrr, rfl⟩) he⟩,
      fun he hbrr htc => ⟨_, rfl, hok _ (.inr ⟨hbrr, htc, rfl⟩) he⟩⟩

/-! #### WAIT_CMD: the endings with boot-enable and with data -/

/-- The top-level wait of WAIT_CMD, with the reads `l` of NIS and the state `a` they lead to: a timeout, or the
branch the descriptor selects, on the flags read last (R142 to R144). -/
theorem runWaitCmd_endings (c : Descriptor) (s : State) : ∃ l a, OnlyReads .nis l ∧ Runs s a ∧
    a.trace = s.trace ++ l ∧ a.log = s.log ∧
    (runWaitCmd c s = .next (failWith .cmdTimeout [] a) ∨
     ∃ n, l.getLast? = some (.read .nis n) ∧ n ≠ 0 ∧ runWaitCmd c s =
      if c.bootEn then .next (waitBoot n a) else if c.dataXfer then .next (waitData a)
      else waitNonData c n a) := by
  obtain ⟨l, hl, ht, hlast⟩ := poll_reads .nis (fun v => v != 0) s.cfg.budgets.tCmd s
  refine ⟨l, _, hl, .poll .nis (fun v => v != 0) s.cfg.budgets.tCmd s, ht, poll_log .nis _ _ s, ?_⟩
  cases hp : (poll .nis (fun v => v != 0) s.cfg.budgets.tCmd s).1 with
  | none => exact .inl (by simp only [runWaitCmd, hp])
  | some n =>
    exact .inr ⟨n, hlast n hp, by simpa using (poll_ok hp).1, by simp only [runWaitCmd, hp]⟩

/-- The failing exit of a wait that began at `s` and has reached `a` (R188, R195). -/
theorem failWith_after {s a : State} {l : List Access} (r : Runs s a) (ht : a.trace = l) (hlog : a.log = s.log)
    (c : Cause) (vs : List Word) :
    (failWith c vs a).reply = .fail ∧ (failWith c vs a).seq = .idle ∧
    (failWith c vs a).respBuf = s.respBuf ∧
    ∃ k, OnlyReads .swreset k ∧ (failWith c vs a).trace = l ++ recoverAccesses s.cfg k ∧
      resetLog s.cfg (s.log ++ [⟨c, vs⟩]) (failWith c vs a).log := by
  obtain ⟨hreply, hseq, hbuf, k, hk, htrace, hlg⟩ := failWith_ends c vs a
  rw [ht, r.cfg] at htrace
  rw [hlog, r.cfg] at hlg
  exact ⟨hreply, hseq, hbuf.trans r.respBuf, k, hk, htrace, hlg⟩

/-- Settles O45: the top-level wait, then the boot branch on the flags it read. -/
theorem bootWaitCommandEndings : Obligations.BootWaitCommandEndings := by
  intro s c hwf hq hs hboot
  rw [exec_waitCmd_run hwf hq hs]
  obtain ⟨l, a, hl, r, ht, hlog, e | ⟨n, hlast, hn, e⟩⟩ := runWaitCmd_endings c s
  · obtain ⟨hreply, hseq, hbuf, fails⟩ := failWith_after r ht hlog .cmdTimeout []
    exact ⟨_, l, e, hl, hbuf, .inl ⟨hreply, hseq, fails⟩⟩
  · rw [if_pos hboot] at e
    have branch := waitBoot_cases n a
    rw [r.cfg] at branch
    obtain ⟨hack, e'⟩ | ⟨hack, _, _, rfl, rfl, e'⟩ := branch
    · obtain ⟨hreply, hseq, hbuf, fails⟩ := failWith_after r ht hlog .bootNoAck [n]
      exact ⟨_, l, e.trans (congrArg _ e'), hl, hbuf, .inr ⟨n, hlast, hn, .inl ⟨hack, hreply, hseq, fails⟩⟩⟩
    · have writes := r.trans ((Runs.regWrite .boottimeout 0 a).trans (.regWrite .nis s.cfg.irq.bootAck _))
      exact ⟨_, l, e.trans (congrArg _ e'), hl, writes.respBuf,
        .inr ⟨n, hlast, hn, .inr ⟨hack, rfl, rfl, by simp [hlog], by simp [ht, r.cfg, wrote]⟩⟩⟩

/-- The accesses of a round of the data wait that finds no error, up to its tests of `NIS_BRR` and `NIS_TC`: from
`s` to `b`, with `q` what NIS read (R151). -/
theorem dataRound_trace {s b : State} {q : Word} (hq : q = (regRead .nis (regRead .eis s).2).1)
    (he : (regRead .eis s).1 = 0)
    (hb : b = if hasBit q s.cfg.irq.dma = true then (dmaAck (regRead .nis (regRead .eis s).2).2).2
      else (regRead .nis (regRead .eis s).2).2) :
    ∃ x, b.trace = s.trace ++ roundAccesses s.cfg q x := by
  have reads : (regRead .nis (regRead .eis s).2).2.trace = s.trace ++ [.read .eis 0, .read .nis q] := by
    simp [he, hq]
  have hcfg : (regRead .nis (regRead .eis s).2).2.cfg = s.cfg := by simp
  generalize (regRead .nis (regRead .eis s).2).2 = g at hb reads hcfg
  refine ⟨(dmaAck g).1, ?_⟩
  by_cases hdma : hasBit q s.cfg.irq.dma = true
  · simp [hb, roundAccesses, hdma, (dmaAck_spec g).1, reads, hcfg]
  · simp [hb, roundAccesses, hdma, reads]

/-- Every ending of the data wait with its accesses (R151): after the quiet rounds `m`, the deadline, the two
reads of an error, or a round that shows a flag and the write that clears it. -/
theorem dataLoop_accesses (t0 : Nat) : ∀ (n : Nat) (s : State), ∃ m w, QuietRounds s.cfg m ∧ Runs s w ∧
    w.log = s.log ∧
    ((w.trace = s.trace ++ m ∧ dataLoop t0 n s = failWith .dataTimeout [] w) ∨
     (∃ e x, e ≠ 0 ∧ w.trace = s.trace ++ m ++ [.read .eis e, .read .acmd12stat x] ∧
        dataLoop t0 n s = failWith .hwError [e, x] w) ∨
     (∃ q x f, EndsRound s.cfg q f ∧
        w.trace = s.trace ++ m ++ roundAccesses s.cfg q x ++ [wrote s.cfg .nis f] ∧
        dataLoop t0 n s = { w with seq := .idle, sent := none, reply := .ok }))
  | 0, s => ⟨[], _, .none, .sampleClockPast _ s, rfl, .inl ⟨by simp, rfl⟩⟩
  | n + 1, s => by
    have clock := Runs.sampleClock s
    obtain ⟨_, rfl, ⟨-, e⟩ | ⟨-, x, _, rfl, rfl, ⟨hx, _, rfl, e⟩ | ⟨hx, q, _, b, hq, rfl, hb, h⟩⟩⟩ :=
      dataLoop_cases t0 n s
    · exact ⟨[], _, .none, clock, rfl, .inl ⟨by simp, e⟩⟩
    · exact ⟨[], _, .none, (clock.trans (.regRead _ _)).trans (.regRead _ _), by simp,
        .inr (.inl ⟨_, _, hx, by simp, e⟩)⟩
    · obtain ⟨y, ht⟩ := dataRound_trace hq hx hb
      obtain ⟨ack, hlog, -⟩ := dmaAckIf_spec (hasBit q s.cfg.irq.dma = true)
        (regRead .nis (regRead .eis (sampleClock s)).2).2
      rw [← hb] at ack hlog
      have r : Runs s b := ((clock.trans (.regRead _ _)).trans (.regRead _ _)).trans ack
      simp only [regRead_log, sampleClock_log, sampleClock_trace, sampleClock_cfg] at hlog ht
      have clears : ∀ f, (regWrite .nis f b).trace =
          s.trace ++ [] ++ roundAccesses s.cfg q y ++ [wrote s.cfg .nis f] := by
        simp [ht, r.cfg, wrote]
      obtain ⟨hbrr, _, rfl, e⟩ | ⟨hbrr, htc, _, rfl, e⟩ | ⟨hbrr, htc, e⟩ := h
      · exact ⟨[], _, .none, r.trans (.regWrite _ _ _), by simp [hlog],
          .inr (.inr ⟨q, y, _, .inl ⟨hbrr, rfl⟩, clears _, e⟩)⟩
      · exact ⟨[], _, .none, r.trans (.regWrite _ _ _), by simp [hlog],
          .inr (.inr ⟨q, y, _, .inr ⟨hbrr, htc, rfl⟩, clears _, e⟩)⟩
      · obtain ⟨m, w, hm, rest, hw, hend⟩ := dataLoop_accesses t0 n b
        rw [r.cfg] at hm hend
        rw [ht, ← e] at hend
        refine ⟨_, w, .more q y m hbrr htc hm, r.trans rest, hw.trans hlog, ?_⟩
        simpa only [List.append_assoc] using hend

/-- Settles O46: the top-level wait, then the endings of the data branch. -/
theorem dataWaitEndings : Obligations.DataWaitEndings := by
  intro s c hwf hq hs hboot hdata
  rw [exec_waitCmd_run hwf hq hs]
  obtain ⟨l, a, hl, r, ht, hlog, e | ⟨n, hlast, hn, e⟩⟩ := runWaitCmd_endings c s
  · obtain ⟨hreply, hseq, hbuf, fails⟩ := failWith_after r ht hlog .cmdTimeout []
    exact ⟨_, l, e, hseq, hl, hbuf, .inl ⟨hreply, fails⟩⟩
  · rw [if_neg (by simp [hboot]), if_pos hdata] at e
    obtain ⟨m, w, hm, rounds, hw, hend⟩ :=
      dataLoop_accesses (sampleClock a).env.now (waitFuel (sampleClock a)) (sampleClock a)
    have rw' : Runs s w := (r.trans (.sampleClock a)).trans rounds
    have hlogw : w.log = s.log := hw.trans hlog
    simp only [sampleClock_cfg, sampleClock_trace, r.cfg, ht] at hm hend
    obtain ⟨htrace, e'⟩ | ⟨x, y, hx, htrace, e'⟩ | ⟨q, y, f, hf, htrace, e'⟩ := hend
    all_goals rw [waitData, e'] at e
    · obtain ⟨hreply, hseq, hbuf, fails⟩ := failWith_after rw' htrace hlogw .dataTimeout []
      exact ⟨_, l, e, hseq, hl, hbuf, .inr ⟨n, m, hlast, hn, hm, .inl ⟨hreply, fails⟩⟩⟩
    · obtain ⟨hreply, hseq, hbuf, k, hk, htr, hlg⟩ := failWith_after rw' htrace hlogw .hwError [x, y]
      exact ⟨_, l, e, hseq, hl, hbuf,
        .inr ⟨n, m, hlast, hn, hm, .inr (.inl ⟨hreply, k, x, y, hk, hx, htr, hlg⟩)⟩⟩
    · refine ⟨_, l, e, rfl, hl, rw'.respBuf, .inr ⟨n, m, hlast, hn, hm, .inr (.inr ?_)⟩⟩
      obtain ⟨hbrr, rfl⟩ | ⟨hbrr, htc, rfl⟩ := hf
      · exact .inl ⟨rfl, hlogw, q, y, hbrr, htrace⟩
      · exact .inr ⟨rfl, hlogw, q, y, hbrr, htc, htrace⟩

/-! #### WAIT_CMD: the fault -/

theorem exec_waitCmd_fault {c : Descriptor} {s : State} {f : Fault} (h : exec (.waitCmd c) s = .fault f) :
    runWaitCmd c s = .fault f ∧ s.seq = .issued ∧ s.sent = some c := by
  cases hc : c.wf
  · cases (exec_badIndex hc s).2.symm.trans h
  · by_cases hq : s.seq = .issued ∧ s.sent = some c
    · exact ⟨(exec_waitCmd_run hc hq.1 hq.2).symm.trans h, hq⟩
    · cases (exec_waitCmd_sequence hc hq).symm.trans h

/-- Only the non-data branch can fault: the top-level timeout and the other branches end in a state (R155). -/
theorem runWaitCmd_fault {c : Descriptor} {s : State} {f : Fault} (h : runWaitCmd c s = .fault f) :
    c.bootEn = false ∧ c.dataXfer = false := by
  obtain ⟨a, -, ⟨-, e⟩ | ⟨n, -, ⟨-, e⟩ | ⟨-, -, e⟩ | ⟨hb, hx, -⟩⟩⟩ := runWaitCmd_cases c s
  · cases e.symm.trans h
  · cases e.symm.trans h
  · cases e.symm.trans h
  · exact ⟨hb, hx⟩

/-- Settles O57: SEND_CMD, BOOT_WAIT and SET_MODE complete or are refused, the instructions other than these
and WAIT_CMD complete. -/
theorem onlyNonDataWaitFaults : Obligations.OnlyNonDataWaitFaults := by
  intro i s f h
  cases i with
  | waitCmd c =>
    obtain ⟨hrun, hq, hs⟩ := exec_waitCmd_fault h
    obtain ⟨hb, hx⟩ := runWaitCmd_fault hrun
    exact ⟨c, rfl, hb, hx, hq, hs⟩
  | sendCmd c => simp only [exec, execSendCmd] at h; split_ifs at h
  | bootWait => simp only [exec, execBootWait] at h; split_ifs at h
  | setMode m => simp only [exec, execSetMode] at h; split_ifs at h
  | init | bootStop | cmdwRespNone | cmdwResp136 | cmdwResp48 | cmdwResp48b => cases h

end Machine
end Sys2Proof

/-! ### The boot helpers (O51, O52, O54) -/

namespace Sys2Proof

theorem below_and {a b : Word} (h : Below a b) (m : Word) : Below (a &&& m) (b &&& m) :=
  (below_iff _ _).2 fun i hi => by
    rw [BitVec.getLsbD_and, Bool.and_eq_true] at hi ⊢
    exact hi.imp_left ((below_iff a b).1 h i)

namespace Machine

/-! #### BOOT_WAIT -/

/-- Settles O51: the read alone, or the read and then the accesses of `dmaAck_spec`. -/
theorem bootWaitReportsAndAcknowledges : Obligations.BootWaitReportsAndAcknowledges := by
  intro s hstreaming
  obtain ⟨ackTrace, ackLog, -⟩ := dmaAck_spec (regRead .nis s).2
  obtain ⟨_, ends⟩ := runBootWait_endsIn s
  refine ⟨runBootWait s, (regRead .nis s).1, (dmaAck (regRead .nis s).2).1,
    exec_bootWait_streaming hstreaming, ends.seq.trans hstreaming, ?_⟩
  obtain ⟨_, _, rfl, rfl, ⟨hdma, e⟩ | ⟨hdma, _, rfl, e⟩⟩ := runBootWait_cases s
  · exact ⟨by rw [e]; exact regRead_log .nis s, regRead_value .nis s, by simp [e, hdma], by simp [e, hdma]⟩
  · exact ⟨by rw [e]; exact ackLog.trans (regRead_log .nis s), regRead_value .nis s, by simp [e, hdma],
      by simp [e, hdma, ackTrace]⟩

/-- The acknowledge clears no flag of NIS but `NIS_DMA` (R152). -/
theorem dmaAck_nis_keeps {s : State} (h : KeepsFlags s) :
    Below (s.rb.nis &&& ~~~s.cfg.irq.dma) (dmaAck s).2.rb.nis := by
  have writeBack : Frame [.dmaaddr] s (regWrite .dmaaddr (regRead .dmaaddr s).1 (regRead .dmaaddr s).2) :=
    (Frame.regRead _ .dmaaddr s).trans (.regWrite (by decide) (by decide) _ _)
  have clear := regWrite_nis_keeps s.cfg.irq.dma _ (writeBack.keepsFlags (by decide) h)
  rw [← writeBack.cfg] at clear ⊢
  exact (below_and (writeBack.nis h (by decide) (by decide)) _).trans clear

theorem runBootWait_frame (s : State) : Frame [.nis, .dmaaddr] s (runBootWait s) := by
  obtain ⟨_, _, -, rfl, ⟨-, e⟩ | ⟨-, _, rfl, e⟩⟩ := runBootWait_cases s
  · exact e ▸ (Frame.regRead _ .nis s).trans (.same rfl rfl rfl)
  · exact e ▸ ((Frame.regRead _ .nis s).trans (.dmaAck (by decide) (by decide) _)).trans (.same rfl rfl rfl)

/-- BOOT_WAIT clears no flag of NIS but `NIS_DMA`, by its acknowledge (R158). -/
theorem runBootWait_nis_keeps {s : State} (h : KeepsFlags s) :
    Below (s.rb.nis &&& ~~~s.cfg.irq.dma) (runBootWait s).rb.nis := by
  have read : Frame [] s (regRead .nis s).2 := .regRead _ .nis s
  have kept := read.nis h (by decide) (by decide)
  obtain ⟨_, _, -, rfl, ⟨-, e⟩ | ⟨-, _, rfl, e⟩⟩ := runBootWait_cases s
  · rw [e]
    exact (below_and_left _ _).trans kept
  · have ack := dmaAck_nis_keeps (read.keepsFlags (by decide) h)
    rw [e, ← read.cfg]
    exact (below_and kept _).trans ack

/-! #### BOOT_STOP -/

/-- After the read-modify-write of BGC only NIS, EIS and SWRESET are written (R162). -/
theorem runBootStop_afterBgc {s : State} (hc : s.cfg.wf = true) :
    Frame [.nis, .eis, .swreset] (regRmw .bgc (bgcBootOff s.cfg) s) (runBootStop s) := by
  obtain ⟨a, b, _, ha, hb, rfl, e⟩ := runBootStop_eq s
  have status : Frame [.nis, .eis, .swreset] a b := hb ▸ .clearAll (by decide) (by decide) a
  have hcfg : b.cfg = s.cfg := status.cfg.trans (ha ▸ (Runs.regRmw _ _ s).cfg)
  have reset : Frame [.nis, .eis, .swreset] b (resetProc b.cfg.dcMask b).2 :=
    .dcReset (by decide) b (hcfg ▸ hc)
  rw [hcfg] at reset
  rw [e, ← ha]
  exact (status.trans reset).trans (.same rfl rfl rfl)

theorem runBootStop_frame {s : State} (hc : s.cfg.wf = true) :
    Frame [.bgc, .nis, .eis, .swreset] s (runBootStop s) :=
  (Frame.regRmw (by decide) (by decide) _ s).trans ((runBootStop_afterBgc hc).mono (by decide))

/-- BOOT_STOP clears boot-enable and keeps BGC's other bits (R162, R229). -/
theorem runBootStop_bgc {s : State} (hc : s.cfg.wf = true) (h : NoFullReset s) :
    (runBootStop s).rb.bgc = trunc (s.cfg.width .bgc) (bgcBootOff s.cfg s.rb.bgc) := by
  have rmw : Frame [.bgc] s (regRmw .bgc (bgcBootOff s.cfg) s) := .regRmw (by decide) (by decide) _ s
  exact ((runBootStop_afterBgc hc).steady (rmw.full h) .bgc (by decide) (by decide)).trans
    (regRmw_value (x := .bgc) (by decide) rfl _ s h)

theorem steadyRegs_notIn_bootWait : ∀ x ∈ steadyRegs, x ∉ [Reg.nis, .dmaaddr] := by decide

theorem latchedRegs_notIn_bootWait : ∀ x ∈ latchedRegs, x ∉ [Reg.nis, .dmaaddr] := by decide

theorem steadyRegs_notIn_bootStop : ∀ x ∈ steadyRegs, x ≠ .bgc → x ∉ [Reg.bgc, .nis, .eis, .swreset] := by
  decide

/-- Settles O52: by the two frames, with the flags BOOT_WAIT's acknowledge leaves and the value BOOT_STOP's
read-modify-write leaves. -/
theorem bootHelpersPreserveTheRest : Obligations.BootHelpersPreserveTheRest := by
  intro s t hc h
  refine ⟨fun ht => ?_, fun ht => ?_⟩
  · obtain ⟨rfl, -⟩ := exec_bootWait_next ht
    have f := runBootWait_frame s
    obtain ⟨_, ends⟩ := runBootWait_endsIn s
    exact ⟨fun x hx => f.steady h x hx (steadyRegs_notIn_bootWait x hx), f.clock h (by decide),
      f.powered h (by decide), f.armed h (by decide),
      fun hk => ⟨f.eis hk (by decide) (by decide), runBootWait_nis_keeps hk⟩,
      fun hr => ⟨fun x hx => f.latched (by decide) hr x hx (latchedRegs_notIn_bootWait x hx),
        f.trigger (by decide) hr (by decide)⟩,
      ends.h, ends.sent, ends.respBuf, ends.keeps.port⟩
  · obtain rfl := exec_bootStop_next ht
    have f := runBootStop_frame hc
    have ends := runBootStop_endsIn s
    exact ⟨runBootStop_bgc hc h, fun x hx hne => f.steady h x hx (steadyRegs_notIn_bootStop x hx hne),
      f.clock h (by decide), f.powered h (by decide), f.armed h (by decide), f.full h, ends.h, ends.sent,
      ends.respBuf, ends.keeps.port⟩

/-! #### BOOT_STOP twice -/

theorem OnlyReads.writesOf_eq_nil {x : Reg} : ∀ {l : List Access}, OnlyReads x l → writesOf l = []
  | [], _ => rfl
  | a :: l, h => by
    obtain ⟨ha, hl⟩ := List.forall_mem_cons.1 h
    obtain ⟨v, rfl⟩ := ha
    exact (OnlyReads.writesOf_eq_nil hl : writesOf l = [])

/-- The writes of a BOOT_STOP that writes `v` to BGC (R162). -/
def bootStopWrites (cfg : Config) (v : Word) : List (Reg × Word) :=
  [(.bgc, v), (.nis, trunc (cfg.width .nis) cfg.irq.nisAll), (.eis, trunc (cfg.width .eis) cfg.irq.eisAll),
   (.swreset, trunc (cfg.width .swreset) cfg.dcMask)]

/-- What BOOT_STOP writes depends on the configuration and on BGC alone: its read of BGC returns what stood
there, so BGC holds in the end the value written. -/
theorem runBootStop_writes {s : State} (hc : s.cfg.wf = true) (h : NoFullReset s) : ∃ a,
    (runBootStop s).trace = s.trace ++ a ∧ writesOf a = bootStopWrites s.cfg (runBootStop s).rb.bgc := by
  obtain ⟨t, g, l, ht, -, -, hl, -, htrace⟩ := bootStopEndsTheStream s
  obtain rfl := exec_bootStop_next ht
  have first : (regRmw .bgc (bgcBootOff s.cfg) s).trace <+: (runBootStop s).trace := by
    obtain ⟨_, _, _, rfl, rfl, rfl, e⟩ := runBootStop_eq s
    rw [e]
    exact ((Runs.clearAll _).trans (.resetProc _ _)).trace
  have hg : s.rb.bgc = g := by
    rw [(regRmw_spec .bgc _ s).1, htrace, List.append_assoc, List.append_assoc,
      List.prefix_append_right_inj] at first
    obtain ⟨hread, -⟩ := List.cons_prefix_cons.1 first
    exact (regRead_steady (x := .bgc) (by decide) s h).symm.trans (Access.read.inj hread).2
  refine ⟨_, by rw [htrace, List.append_assoc, List.append_assoc], ?_⟩
  simp only [writesOf, wrote, clearAllAccesses, resetAccesses, hl.writesOf_eq_nil,
    runBootStop_bgc hc h, hg, bgcBootOff, bootStopWrites, List.cons_append, List.nil_append]

/-- Boot-enable reads 0 in the value BOOT_STOP writes, whatever BGC held (R162). -/
theorem hasBit_trunc_bgcBootOff (cfg : Config) (w : Nat) (g : Word) :
    hasBit (trunc w (bgcBootOff cfg g)) cfg.boot.bgcEn = false :=
  (below_and_left _ _).no_bit (hasBit_andNot_of_below (.refl _) g)

/-- Clearing boot-enable again changes nothing. -/
theorem trunc_bgcBootOff_idem (cfg : Config) (w : Nat) (g : Word) :
    trunc w (bgcBootOff cfg (trunc w (bgcBootOff cfg g))) = trunc w (bgcBootOff cfg g) := by
  refine BitVec.eq_of_getLsbD_eq fun i hi => ?_
  simp only [trunc, bgcBootOff, BitVec.getLsbD_and]
  grind

/-- Settles O54: the second BOOT_STOP finds the BGC the first one left, and clearing boot-enable again leaves
it as it is. -/
theorem bootStopIsIdempotent : Obligations.BootStopIsIdempotent := by
  intro s t u hc h ht hu
  obtain rfl := exec_bootStop_next ht
  obtain rfl := exec_bootStop_next hu
  have f := runBootStop_frame hc
  have hc' : (runBootStop s).cfg.wf = true := f.cfg ▸ hc
  have hbgc := runBootStop_bgc hc h
  have same : (runBootStop (runBootStop s)).rb.bgc = (runBootStop s).rb.bgc := by
    rw [runBootStop_bgc hc' (f.full h), f.cfg, hbgc, trunc_bgcBootOff_idem]
  obtain ⟨a, htrace, hwrites⟩ := runBootStop_writes hc h
  obtain ⟨b, htrace', hwrites'⟩ := runBootStop_writes hc' (f.full h)
  rw [f.cfg, same] at hwrites'
  exact ⟨a, b, htrace, htrace', hwrites.trans hwrites'.symm, same,
    by rw [hbgc]; exact hasBit_trunc_bgcBootOff _ _ _,
    (runBootStop_endsIn _).seq.trans (runBootStop_endsIn s).seq.symm⟩

end Machine
end Sys2Proof

/-! ### What a step of HW keeps (O21, O22) -/

namespace Sys2Proof.Machine

/-- Settles O21: the registers by the frame of a HW step that writes none, the rest by its law. -/
theorem hardwareLeavesSoftwareRegistersAlone : Obligations.HardwareLeavesSoftwareRegistersAlone := by
  intro s t
  have f := Frame.hwStep [] s
  have l := hwStep_law s
  exact ⟨fun h => ⟨fun x hx => f.steady h x hx List.not_mem_nil, f.clock h List.not_mem_nil,
      f.powered h List.not_mem_nil, f.armed h List.not_mem_nil⟩,
    fun h => ⟨fun x hx => f.latched List.not_mem_nil h x hx List.not_mem_nil,
      f.trigger List.not_mem_nil h List.not_mem_nil⟩,
    l.cap0, l.cap1, l.resets, l.cfg, l.h, l.seq, l.sent, l.respBuf, l.reply, l.log, l.trace, l.port⟩

/-- Settles O22: by the flag clauses of the frame of a HW step. -/
theorem flagsStaySetUntilCleared : Obligations.FlagsStaySetUntilCleared := fun s h =>
  have f := Frame.hwStep [] s
  ⟨f.nis h List.not_mem_nil List.not_mem_nil, f.eis h List.not_mem_nil List.not_mem_nil⟩

end Sys2Proof.Machine

/-! ### Flags raised (O24), and engines without a live card (O25) -/

namespace Sys2Proof.Machine

/-! #### What a raise leaves -/

theorem raiseNis_get_other (b : Word) (s : State) {y : Reg} (h : y ≠ .nis) :
    (s.raiseNis b).rb.get y = s.rb.get y := Registers.get_set_other _ _ h

/-- All an error report does: the enabled bits in EIS, and, where there is one, the summary flag in NIS
(R174, R175). -/
theorem raiseError_spec (b : Word) (s : State) :
    (s.raiseError b).rb.eis = s.rb.eis ||| trunc (s.cfg.width .eis) (b &&& s.rb.eie) ∧
    (s.raiseError b).rb.nis = (if trunc (s.cfg.width .eis) (b &&& s.rb.eie) = 0 then s.rb.nis
      else s.rb.nis ||| trunc (s.cfg.width .nis) (s.cfg.irq.err &&& s.rb.nie)) ∧
    (∀ y, y ∉ [Reg.nis, .eis] → (s.raiseError b).rb.get y = s.rb.get y) ∧
    (s.raiseError b).hid = s.hid := by
  unfold State.raiseError
  split
  · next h => exact ⟨by rw [h]; exact BitVec.or_zero.symm, rfl, fun _ _ => rfl, rfl⟩
  · refine ⟨rfl, rfl, fun y hy => ?_, rfl⟩
    obtain ⟨hnis, heis⟩ : y ≠ .nis ∧ y ≠ .eis := by simpa using hy
    exact (raiseNis_get_other _ _ hnis).trans (Registers.get_set_other _ _ heis)

theorem trunc_and (w : Nat) (a b : Word) : trunc w (a &&& b) = trunc w a &&& b := by
  rw [trunc, trunc, BitVec.and_assoc, BitVec.and_comm b, BitVec.and_assoc]

/-- Settles O24: the error report, and then the load of ACMD12STAT, which touches no flag. -/
theorem errorsSetTheSummaryFlag : Obligations.ErrorsSetTheSummaryFlag := by
  intro s bits v h t
  obtain ⟨heis, hnis, -⟩ := raiseError_spec bits s
  rw [trunc_and, if_neg h] at hnis
  rw [trunc_and] at heis
  have hcfg : (s.raiseError bits).cfg = s.cfg := (HwLaw.raiseError bits s).cfg
  have hstat : t.rb.acmd12stat = trunc ((s.raiseError bits).cfg.width .acmd12stat) v := rfl
  exact ⟨heis, hnis, hcfg ▸ hstat⟩

/-! #### The triggers of the transfer's events -/

/-- The command in flight has a transfer. -/
def Transfers (s : State) (f : InFlight) (x : XferLatch) : Prop := s.hid.cmd = some f ∧ f.xfer = some x

theorem Transfers.unique {s : State} {f g : InFlight} {x y : XferLatch} (h : Transfers s f x)
    (k : Transfers s g y) : f = g ∧ x = y := by
  obtain ⟨hf, hx⟩ := h
  obtain ⟨hg, hy⟩ := k
  obtain rfl : f = g := Option.some.inj (hf.symm.trans hg)
  exact ⟨rfl, Option.some.inj (hx.symm.trans hy)⟩

/-- A block can move through the buffer port: a transfer without DMA whose data flows has one left (R177,
R178). -/
def PortOpen (s : State) (f : InFlight) (x : XferLatch) : Prop :=
  Transfers s f x ∧ hasBit x.xfermode s.cfg.xfer.dma = false ∧ dataFlows x s = true ∧ f.portLeft ≠ 0

/-- The automatic stop command is due: all has moved of a transfer that ends with one (R177). -/
def AutoStopDue (s : State) (f : InFlight) (x : XferLatch) : Prop :=
  Transfers s f x ∧ cardLive s = true ∧ allMoved s.cfg f s.hid.dma = true ∧ needsAutoStop s.cfg x = true ∧
    x.boot = false

/-- A boot stream is in progress (R179). -/
def BootStreams (s : State) (f : InFlight) (x : XferLatch) : Prop :=
  Transfers s f x ∧ cardLive s = true ∧ x.boot = true ∧ hasBit s.rb.bgc s.cfg.boot.bgcEn = true

theorem portTransfer_eq_some {cfg : Config} {f : InFlight} {x : XferLatch} :
    portTransfer cfg f = some x ↔ f.xfer = some x ∧ hasBit x.xfermode cfg.xfer.dma = false := by
  unfold portTransfer
  cases f.xfer with
  | none => simp
  | some y =>
    simp only [Option.some.injEq]
    split
    · next h =>
      simp only [reduceCtorEq, false_iff]
      rintro ⟨rfl, hport⟩
      simp [h] at hport
    · next h =>
      simp only [Option.some.injEq, iff_self_and]
      rintro rfl
      simpa using h

theorem portBlockMoved_idle {s : State} (h : ∀ f x, ¬ PortOpen s f x) : portBlockMoved s = s := by
  unfold portBlockMoved
  split
  · next f hf =>
    split
    · next x hp =>
      obtain ⟨hx, hport⟩ := portTransfer_eq_some.1 hp
      split
      · next hc =>
        obtain ⟨hflow, hleft⟩ : dataFlows x s = true ∧ f.portLeft ≠ 0 := by simpa using hc
        exact absurd ⟨⟨hf, hx⟩, hport, hflow, hleft⟩ (h f x)
      · rfl
    · rfl
  · rfl

theorem portBlockMoved_open {s : State} {f : InFlight} {x : XferLatch} (h : PortOpen s f x) :
    portBlockMoved s =
      if f.portLeft = 1 ∧ x.boot = false ∧ needsAutoStop s.cfg x = false then transferDone s
      else { s with hid := { s.hid with cmd := some { f with portLeft := f.portLeft - 1 } } } := by
  obtain ⟨⟨hf, hx⟩, hport, hflow, hleft⟩ := h
  have hone : f.portLeft - 1 = 0 ↔ f.portLeft = 1 := by omega
  simp [portBlockMoved, hf, portTransfer_eq_some.2 ⟨hx, hport⟩, hflow, hleft, hone, and_assoc]

theorem bufferReady_idle {s : State}
    (h : ∀ f x, PortOpen s f x → hasBit x.xfermode s.cfg.xfer.read = false) : bufferReady s = s := by
  unfold bufferReady
  split
  · next f hf =>
    split
    · next x hp =>
      obtain ⟨hx, hport⟩ := portTransfer_eq_some.1 hp
      split
      · next hc =>
        obtain ⟨⟨hflow, hread⟩, hleft⟩ :
          (dataFlows x s = true ∧ hasBit x.xfermode s.cfg.xfer.read = true) ∧ f.portLeft ≠ 0 := by simpa using hc
        exact absurd (h f x ⟨⟨hf, hx⟩, hport, hflow, hleft⟩) (by simp [hread])
      · rfl
    · rfl
  · rfl

theorem bufferReady_open {s : State} {f : InFlight} {x : XferLatch} (h : PortOpen s f x)
    (hr : hasBit x.xfermode s.cfg.xfer.read = true) : bufferReady s = s.raiseNis s.cfg.irq.brr := by
  obtain ⟨⟨hf, hx⟩, hport, hflow, hleft⟩ := h
  simp [bufferReady, hf, portTransfer_eq_some.2 ⟨hx, hport⟩, hflow, hleft, hr]

theorem autoStopSent_idle {s : State} (h : ∀ f x, ¬ AutoStopDue s f x) : autoStopSent s = s := by
  unfold autoStopSent
  split
  · next f hf =>
    split
    · next x hx =>
      split
      · next hc =>
        obtain ⟨⟨⟨hlive, hall⟩, hneeds⟩, hboot⟩ : ((cardLive s = true ∧ allMoved s.cfg f s.hid.dma = true) ∧
          needsAutoStop s.cfg x = true) ∧ x.boot = false := by simpa using hc
        exact absurd ⟨⟨hf, hx⟩, hlive, hall, hneeds, hboot⟩ (h f x)
      · rfl
    · rfl
  · rfl

theorem autoStopSent_due {s : State} {f : InFlight} {x : XferLatch} (h : AutoStopDue s f x) :
    autoStopSent s = transferDone s := by
  obtain ⟨⟨hf, hx⟩, hlive, hall, hneeds, hboot⟩ := h
  simp [autoStopSent, hf, hx, hlive, hall, hneeds, hboot]

theorem bootStream_idle {s : State} (h : ∀ f x, ¬ BootStreams s f x) : bootStream s = none := by
  unfold bootStream
  split
  · next f hf =>
    split
    · next x hx =>
      split
      · next hc =>
        obtain ⟨⟨hlive, hboot⟩, hen⟩ :
          (cardLive s = true ∧ x.boot = true) ∧ hasBit s.rb.bgc s.cfg.boot.bgcEn = true := by simpa using hc
        exact absurd ⟨⟨hf, hx⟩, hlive, hboot, hen⟩ (h f x)
      · rfl
    · rfl
  · rfl

theorem bootStream_of {s : State} {f : InFlight} {x : XferLatch} (h : BootStreams s f x) :
    bootStream s = some x := by
  obtain ⟨⟨hf, hx⟩, hlive, hboot, hen⟩ := h
  simp [bootStream, hf, hx, hlive, hboot, hen]

theorem bootAckArrives_idle {s : State} (h : bootStream s = none) : bootAckArrives s = s := by
  simp [bootAckArrives, h]

theorem bootStreamEnds_idle {s : State} (h : bootStream s = none) (tc : Bool) : bootStreamEnds tc s = s := by
  simp [bootStreamEnds, h]

/-! #### Without a live card -/

theorem cardLive_eq_false {s : State} : cardLive s = false ↔
    s.hid.powered = false ∨ hasBit s.rb.clkctl s.cfg.clock.cardEn = false := by
  rw [cardLive, Bool.and_eq_false_iff]

theorem dataFlows_dead {s : State} (h : cardLive s = false) (x : XferLatch) : dataFlows x s = false := by
  simp [dataFlows, h]

theorem movingDma_dead {s : State} (h : cardLive s = false) : movingDma s = none := by
  unfold movingDma
  split
  · split
    · simp [dataFlows_dead h]
    · rfl
  · rfl

theorem commandSent_dead {s : State} (h : cardLive s = false) : commandSent s = s := by
  unfold commandSent
  split <;> simp [h]

theorem responseArrives_dead {s : State} (h : cardLive s = false) (r0 r1 r2 r3 : Word) (busy : Bool) :
    responseArrives r0 r1 r2 r3 busy s = s := by
  unfold responseArrives
  split <;> simp [h]

theorem busyReleased_dead {s : State} (h : cardLive s = false) : busyReleased s = s := by
  unfold busyReleased
  split <;> simp [h]

theorem not_portOpen_dead {s : State} (h : cardLive s = false) (f : InFlight) (x : XferLatch) :
    ¬ PortOpen s f x := fun ⟨_, _, hflow, _⟩ => by simp [dataFlows_dead h] at hflow

theorem not_autoStopDue_dead {s : State} (h : cardLive s = false) (f : InFlight) (x : XferLatch) :
    ¬ AutoStopDue s f x := fun ⟨_, hlive, _⟩ => by simp [h] at hlive

theorem not_bootStreams_dead {s : State} (h : cardLive s = false) (f : InFlight) (x : XferLatch) :
    ¬ BootStreams s f x := fun ⟨_, hlive, _⟩ => by simp [h] at hlive

/-- Settles O25: each card-side event has a live card among its conditions. -/
theorem unpoweredCardAnswersNothing : Obligations.UnpoweredCardAnswersNothing := by
  intro s e hdead he
  have h := cardLive_eq_false.2 hdead
  have noStream := bootStream_idle (not_bootStreams_dead h)
  rcases he with rfl | ⟨r0, r1, r2, r3, busy, rfl⟩ | rfl | ⟨l, rfl⟩ | ⟨n, rfl⟩ | rfl | rfl | rfl | rfl | ⟨tc, rfl⟩
  · exact commandSent_dead h
  · exact responseArrives_dead h r0 r1 r2 r3 busy
  · exact busyReleased_dead h
  · exact dmaStores_still (movingDma_dead h) l
  · exact dmaFetches_still (movingDma_dead h) n
  · exact portBlockMoved_idle (not_portOpen_dead h)
  · exact autoStopSent_idle (not_autoStopDue_dead h)
  · exact bufferReady_idle fun f x ho => absurd ho (not_portOpen_dead h f x)
  · exact bootAckArrives_idle noStream
  · exact bootStreamEnds_idle noStream tc

end Sys2Proof.Machine

/-! ### Resets that end (O26, O27) -/

namespace Sys2Proof.Machine

theorem endResets_full {s : State} {m : Word} (h : hasBit s.rb.swreset s.cfg.reset.all = true)
    (hm : Below s.cfg.reset.all m) (after : Registers) (n : Word) :
    endResets m after n s = fullResetEffect after n (s.setReg .swreset (s.rb.swreset &&& ~~~m)) := by
  simp [endResets, h, hasBit_andNot_of_below hm]

theorem endResets_dc {s : State} {m : Word} (hn : NoFullReset s)
    (h : hasBit s.rb.swreset s.cfg.dcMask = true) (hm : Below s.cfg.dcMask m) (after : Registers) (n : Word) :
    endResets m after n s = dcResetEffect after n (s.setReg .swreset (s.rb.swreset &&& ~~~m)) := by
  have hfull : hasBit s.rb.swreset s.cfg.reset.all = false := hn
  simp [endResets, hfull, h, hasBit_andNot_of_below hm]

/-- What a reset leaves in a register it draws (R30, R58). -/
theorem unspecified_get (cfg : Config) (after : Registers) {x : Reg} (h0 : x ≠ .cap0) (h1 : x ≠ .cap1) :
    (unspecified cfg after).get x = if cfg.resetZero then 0 else trunc (cfg.width x) (after.get x) := by
  unfold unspecified
  split
  · cases x <;> first | rfl | exact absurd rfl h0 | exact absurd rfl h1
  · cases x <;> rfl

/-- A completed full reset draws every register but SWRESET and CAP (R168). -/
theorem fullResetEffect_get (after : Registers) (n : Word) (s : State) {x : Reg} (hs : x ≠ .swreset)
    (h0 : x ≠ .cap0) (h1 : x ≠ .cap1) :
    (fullResetEffect after n s).rb.get x = (unspecified s.cfg after).get x := by
  cases x <;> first | rfl | exact absurd rfl hs | exact absurd rfl h0 | exact absurd rfl h1

/-- The command and transfer registers, which a completed data+command reset draws (R169). -/
def dcDrawnRegs : List Reg :=
  [.arg, .cmd, .blksize, .blkcnt, .xfermode, .dmaaddr, .resp0, .resp1, .resp2, .resp3, .acmd12stat]

theorem dcResetEffect_get_drawn (after : Registers) (n : Word) (s : State) : ∀ x ∈ dcDrawnRegs,
    (dcResetEffect after n s).rb.get x = (unspecified s.cfg after).get x := by
  simp [dcDrawnRegs, dcResetEffect, Registers.get]

/-- A completed data+command reset changes the flags and the registers it draws only (R169). -/
theorem dcResetEffect_get_kept (after : Registers) (n : Word) (s : State) {x : Reg} (hn : x ≠ .nis)
    (he : x ≠ .eis) (hx : x ∉ dcDrawnRegs) : (dcResetEffect after n s).rb.get x = s.rb.get x := by
  cases x <;> first | rfl | exact absurd rfl hn | exact absurd rfl he | exact absurd (by decide) hx

theorem dcDrawnRegs_notCap : ∀ x ∈ dcDrawnRegs, x ≠ .cap0 ∧ x ≠ .cap1 := by decide

theorem keptByDcReset : ∀ x ∈ [Reg.pwrctl, .clkctl, .hc, .hc2, .timeoutctl, .nie, .eie, .bgc, .boottimeout,
    .cap0, .cap1], x ≠ .swreset ∧ x ≠ .nis ∧ x ≠ .eis ∧ x ∉ dcDrawnRegs := by decide

theorem flagsAfterDc_keeps {cfg : Config} (h : cfg.dcKeepsFlags = true) (old drawn enable : Word) :
    flagsAfterDc cfg old drawn enable = old ||| (drawn &&& enable) := if_pos h

theorem flagsAfterDc_draws {cfg : Config} (h : cfg.dcKeepsFlags = false) (old drawn enable : Word) :
    flagsAfterDc cfg old drawn enable = drawn &&& (old ||| enable) := if_neg (by simp [h])

/-- Settles O26: `RST_ALL` reads 0 after the mask, so the event is the full reset's effect. -/
theorem fullResetForgetsTheCommand : Obligations.FullResetForgetsTheCommand := by
  intro s m after n hrun hm t
  have ht : t = fullResetEffect after n (s.setReg .swreset (s.rb.swreset &&& ~~~m)) :=
    endResets_full hrun hm after n
  have hsw : t.rb.swreset = if s.cfg.fullEndsDc then 0 else s.rb.swreset &&& ~~~m := by rw [ht]; rfl
  have hcfg : t.cfg = s.cfg := by rw [ht]; rfl
  have hover : NoFullReset t := by
    unfold NoFullReset
    rw [hsw, hcfg]
    split
    · exact hasBit_zero _
    · exact hasBit_andNot_of_below hm _
  refine ⟨hsw, hover, ?_⟩
  rw [ht]
  exact ⟨rfl, rfl, rfl, rfl, rfl,
    fun x hs h0 h1 => (fullResetEffect_get after n _ hs h0 h1).trans (unspecified_get s.cfg after h0 h1),
    rfl, rfl, rfl, rfl⟩

/-- Settles O27: with no full reset the event is the data+command reset's effect, whose flags are those of
`flagsAfterDc`. -/
theorem dataCommandResetPreservesClockAndVoltage : Obligations.DataCommandResetPreservesClockAndVoltage := by
  intro s m after n hn hrun hm t
  have ht : t = dcResetEffect after n (s.setReg .swreset (s.rb.swreset &&& ~~~m)) :=
    endResets_dc hn hrun hm after n
  have hnis : t.rb.nis = flagsAfterDc s.cfg s.rb.nis ((unspecified s.cfg after).get .nis) s.rb.nie := by
    rw [ht]; rfl
  have heis : t.rb.eis = flagsAfterDc s.cfg s.rb.eis ((unspecified s.cfg after).get .eis) s.rb.eie := by
    rw [ht]; rfl
  rw [unspecified_get _ _ (by decide) (by decide)] at hnis heis
  refine ⟨?ended, ?cmd, ?dma, ?trigger, fun x hx => ?kept, ⟨fun h => ?adds, fun h => ?draws⟩,
    fun x hx => ?drawn, ?rest⟩
  case adds => exact ⟨hnis.trans (flagsAfterDc_keeps h _ _ _), heis.trans (flagsAfterDc_keeps h _ _ _)⟩
  case draws => exact ⟨hnis.trans (flagsAfterDc_draws h _ _ _), heis.trans (flagsAfterDc_draws h _ _ _)⟩
  all_goals rw [ht]
  case ended => exact hasBit_andNot_of_below hm _
  case kept =>
    obtain ⟨hsw, hne, hee, hd⟩ := keptByDcReset x hx
    exact (dcResetEffect_get_kept after n _ hne hee hd).trans (Registers.get_set_other _ _ hsw)
  case drawn =>
    obtain ⟨h0, h1⟩ := dcDrawnRegs_notCap x hx
    exact (dcResetEffect_get_drawn after n _ x hx).trans (unspecified_get s.cfg after h0 h1)
  case rest => exact ⟨rfl, rfl, rfl, rfl, rfl, rfl⟩
  all_goals rfl

end Sys2Proof.Machine

/-! ### The command engine's completion (O28) -/

namespace Sys2Proof.Machine

theorem loadReg_get_other {x y : Reg} (v : Word) (s : State) (h : y ≠ x) :
    (s.loadReg x v).rb.get y = s.rb.get y := Registers.get_set_other _ _ h

/-- A 136-bit response in RESP[0..3] (R172). -/
def loadResp (r0 r1 r2 r3 : Word) (s : State) : State :=
  (((s.loadReg .resp0 r0).loadReg .resp1 r1).loadReg .resp2 r2).loadReg .resp3 r3

theorem loadResp_words (r0 r1 r2 r3 : Word) (s : State) :
    (loadResp r0 r1 r2 r3 s).rb.get .resp0 = trunc (s.cfg.width .resp0) r0 ∧
    (loadResp r0 r1 r2 r3 s).rb.get .resp1 = trunc (s.cfg.width .resp1) r1 ∧
    (loadResp r0 r1 r2 r3 s).rb.get .resp2 = trunc (s.cfg.width .resp2) r2 ∧
    (loadResp r0 r1 r2 r3 s).rb.get .resp3 = trunc (s.cfg.width .resp3) r3 := by
  simp [loadResp, Registers.get_set_other]

theorem loadResp_keeps (r0 r1 r2 r3 : Word) (s : State) :
    (loadResp r0 r1 r2 r3 s).rb.nis = s.rb.nis ∧ (loadResp r0 r1 r2 r3 s).rb.nie = s.rb.nie ∧
    (loadResp r0 r1 r2 r3 s).cfg = s.cfg := by
  simp [loadResp, Registers.set]

theorem loadResp_get_other (r0 r1 r2 r3 : Word) (s : State) {y : Reg} (h0 : y ≠ .resp0) (h1 : y ≠ .resp1)
    (h2 : y ≠ .resp2) (h3 : y ≠ .resp3) : (loadResp r0 r1 r2 r3 s).rb.get y = s.rb.get y := by
  simp [loadResp, Registers.get_set_other, h0, h1, h2, h3]

/-- The command with its response seen and its completion reported (R172). -/
def InFlight.completed (f : InFlight) : InFlight := { f with respSeen := true, cmdDone := true }

/-- What completion leaves: `NIS_CC` where enabled, and the command, unless it leaves the engine (R172, R185). -/
theorem completeCommand_spec (f : InFlight) (s : State) :
    (completeCommand f s).rb.nis = s.rb.nis ||| trunc (s.cfg.width .nis) (s.cfg.irq.cc &&& s.rb.nie) ∧
    (∀ y, y ≠ .nis → (completeCommand f s).rb.get y = s.rb.get y) ∧
    (completeCommand f s).hid = { s.hid with cmd := f.completed.settle } :=
  ⟨rfl, fun _ h => raiseNis_get_other _ s h, rfl⟩

theorem settle_eq_none {f : InFlight} :
    f.settle = none ↔ f.cmdDone = true ∧ f.xfer = none ∧ f.busy = false := by
  simp [InFlight.settle, and_assoc]

/-- A command stays with the engine while the card is busy (R185). -/
theorem settle_of_busy {f : InFlight} (h : f.busy = true) : f.settle = some f := by
  simp [InFlight.settle, h]

theorem responseArrives_none {s : State} {f : InFlight} (hf : s.hid.cmd = some f) (hk : f.kind = .none)
    (r0 r1 r2 r3 : Word) (busy : Bool) : responseArrives r0 r1 r2 r3 busy s = s := by
  simp [responseArrives, hf, hk]

section Completion

variable {s : State} {f : InFlight} (hlive : cardLive s = true) (hf : s.hid.cmd = some f)
include hlive hf

theorem commandSent_completes (hk : f.kind = .none) (hd : f.cmdDone = false) :
    commandSent s = completeCommand f s := by
  simp [commandSent, hf, hlive, hk, hd]

theorem responseArrives_r48 (hk : f.kind = .r48) (hr : f.respSeen = false) (r0 r1 r2 r3 : Word) (busy : Bool) :
    responseArrives r0 r1 r2 r3 busy s = completeCommand { f with busy := busy } (s.loadReg .resp0 r0) := by
  simp [responseArrives, hf, hlive, hk, hr]

theorem responseArrives_r136 (hk : f.kind = .r136) (hr : f.respSeen = false) (r0 r1 r2 r3 : Word)
    (busy : Bool) : responseArrives r0 r1 r2 r3 busy s = completeCommand f (loadResp r0 r1 r2 r3 s) := by
  simp [responseArrives, hf, hlive, hk, hr, loadResp]

theorem responseArrives_r48b (hk : f.kind = .r48b) (hr : f.respSeen = false) (r0 r1 r2 r3 : Word)
    (busy : Bool) : responseArrives r0 r1 r2 r3 busy s =
      { s.loadReg .resp0 r0 with hid := { s.hid with cmd := some { f with respSeen := true } } } := by
  simp [responseArrives, hf, hlive, hk, hr]

theorem busyReleased_completes (hk : f.kind = .r48b) (hr : f.respSeen = true) (hd : f.cmdDone = false) :
    busyReleased s = completeCommand f s := by
  simp [busyReleased, hf, hlive, hk, hr, hd]

theorem busyReleased_settles (hk : f.kind ≠ .r48b) (hb : f.busy = true) :
    busyReleased s = { s with hid := { s.hid with cmd := InFlight.settle { f with busy := false } } } := by
  simp [busyReleased, hf, hlive, hk, hb]

/-- A class-48 command without data leaves the engine with its response, or with the release of busy (R185,
log entry 40). -/
theorem class48_leaves (hk : f.kind = .r48) (hr : f.respSeen = false) (hx : f.xfer = none)
    (r0 r1 r2 r3 : Word) (busy : Bool) :
    let t := responseArrives r0 r1 r2 r3 busy s
    (t.hid.cmd = none ↔ busy = false) ∧ (busyReleased t).hid.cmd = none ∧ (busyReleased t).rb = t.rb := by
  intro t
  have ht : t = completeCommand { f with busy := busy } (s.loadReg .resp0 r0) :=
    responseArrives_r48 hlive hf hk hr r0 r1 r2 r3 busy
  have hcmd : t.hid.cmd = InFlight.settle (InFlight.completed { f with busy := busy }) := by rw [ht]; rfl
  have hlive' : cardLive t = true := by rw [ht]; exact hlive
  have hleaves : t.hid.cmd = none ↔ busy = false := by
    rw [hcmd, settle_eq_none]
    simp [InFlight.completed, hx]
  refine ⟨hleaves, ?_⟩
  cases busy with
  | false =>
    have hnone := hleaves.2 rfl
    simp [busyReleased, hnone]
  | true =>
    rw [settle_of_busy rfl] at hcmd
    rw [busyReleased_settles hlive' hcmd (by simp [InFlight.completed, hk]) rfl]
    exact ⟨settle_eq_none.2 ⟨rfl, hx, rfl⟩, rfl⟩

end Completion

/-- Settles O28: by the class of the command in flight. -/
theorem responseLoadsBeforeCommandComplete : Obligations.ResponseLoadsBeforeCommandComplete := by
  intro s f r0 r1 r2 r3 busy hpow hclk hf hseen hdone cc t b z
  have hlive : cardLive s = true := by simp [cardLive, hpow, hclk]
  refine ⟨fun hk => ?none, fun hk => ?r48, fun hk => ?r136, fun hk => ?r48b⟩
  case none =>
    have hz : z = completeCommand f s := commandSent_completes hlive hf hk hdone
    obtain ⟨hnis, others, -⟩ := completeCommand_spec f s
    exact ⟨hz ▸ hnis, hz ▸ others, responseArrives_none hf hk r0 r1 r2 r3 busy⟩
  case r48 =>
    have ht : t = completeCommand { f with busy := busy } (s.loadReg .resp0 r0) :=
      responseArrives_r48 hlive hf hk hseen r0 r1 r2 r3 busy
    obtain ⟨hnis, others, -⟩ := completeCommand_spec { f with busy := busy } (s.loadReg .resp0 r0)
    rw [← ht] at hnis others
    exact ⟨others .resp0 (by decide), hnis, fun x hn h0 => (others x hn).trans (loadReg_get_other r0 s h0),
      fun hx => class48_leaves hlive hf hk hseen hx r0 r1 r2 r3 busy⟩
  case r136 =>
    have ht : t = completeCommand f (loadResp r0 r1 r2 r3 s) :=
      responseArrives_r136 hlive hf hk hseen r0 r1 r2 r3 busy
    obtain ⟨hnis, others, -⟩ := completeCommand_spec f (loadResp r0 r1 r2 r3 s)
    obtain ⟨w0, w1, w2, w3⟩ := loadResp_words r0 r1 r2 r3 s
    obtain ⟨nis, nie, cfg⟩ := loadResp_keeps r0 r1 r2 r3 s
    rw [nis, nie, cfg, ← ht] at hnis
    rw [← ht] at others
    refine ⟨(others .resp0 (by decide)).trans w0, (others .resp1 (by decide)).trans w1,
      (others .resp2 (by decide)).trans w2, (others .resp3 (by decide)).trans w3, hnis, fun x hx => ?_⟩
    obtain ⟨hn, h0, h1, h2, h3⟩ : x ≠ .nis ∧ x ≠ .resp0 ∧ x ≠ .resp1 ∧ x ≠ .resp2 ∧ x ≠ .resp3 := by
      simpa using hx
    exact (others x hn).trans (loadResp_get_other r0 r1 r2 r3 s h0 h1 h2 h3)
  case r48b =>
    have ht : t = _ := responseArrives_r48b hlive hf hk hseen r0 r1 r2 r3 busy
    have hrb : t.rb = (s.loadReg .resp0 r0).rb := by rw [ht]
    have hlive' : cardLive t = true := by rw [ht]; exact hlive
    have hcmd : t.hid.cmd = some { f with respSeen := true } := by rw [ht]
    have hcfg : t.cfg = s.cfg := by rw [ht]; rfl
    have hb : b = completeCommand { f with respSeen := true } t := busyReleased_completes hlive' hcmd hk rfl hdone
    obtain ⟨hnis, others, -⟩ := completeCommand_spec { f with respSeen := true } t
    rw [← hb] at hnis others
    rw [hrb, hcfg] at hnis
    exact ⟨by rw [hrb]; rfl, by rw [hrb]; rfl, others .resp0 (by decide), hnis,
      fun x hn h0 => (others x hn).trans (hrb ▸ loadReg_get_other r0 s h0)⟩

end Sys2Proof.Machine

/-! ### The engines' own events (O29) -/

namespace Sys2Proof.Machine

/-- What the end of the data leaves: these flags, where enabled, and nothing in flight (R177, R179). -/
theorem dataOver_leaves (b : Word) (s : State) :
    (dataOver b s).rb.nis = s.rb.nis ||| trunc (s.cfg.width .nis) (b &&& s.rb.nie) ∧
    (∀ y, y ∉ [Reg.nis] → (dataOver b s).rb.get y = s.rb.get y) ∧
    (dataOver b s).hid.cmd = none ∧ (dataOver b s).hid.dma = none :=
  ⟨rfl, fun _ h => raiseNis_get_other b s (by simpa using h), rfl, rfl⟩

theorem clockReports_stable {s : State} (h : hasBit s.rb.clkctl s.cfg.clock.intEn = true) :
    clockReports true s = setStable true s := by
  simp [clockReports, h]

theorem clockReports_idle {s : State} (h : hasBit s.rb.clkctl s.cfg.clock.intEn = false) :
    clockReports true s = s := by
  simp [clockReports, h]

theorem watchedTransfer_none {s : State} (h : ∀ f, s.hid.cmd = some f → f.xfer = none) :
    watchedTransfer s = none := by
  unfold watchedTransfer
  split
  · next f hf => simp [h f hf]
  · rfl

theorem watchedTransfer_of {s : State} {f : InFlight} {x : XferLatch} (h : Transfers s f x) :
    watchedTransfer s = some f := by
  obtain ⟨hf, hx⟩ := h
  simp [watchedTransfer, hf, hx]

theorem dataCounter_watched {s : State} {f : InFlight} (h : watchedTransfer s = some f) (c : Word) :
    dataCounterRuns c s = { s with hid := { s.hid with cmd := some { f with dataCount := c } } } ∧
    dataCounterExpires c s = s.raiseError c := by
  simp [dataCounterRuns, dataCounterExpires, h]

theorem dataCounter_idle {s : State} (h : watchedTransfer s = none) (c : Word) :
    dataCounterRuns c s = s ∧ dataCounterExpires c s = s := by
  simp [dataCounterRuns, dataCounterExpires, h]

theorem bootCounter_armed {s : State} (h : s.hid.bootArmed = true) (c : Word) :
    bootCounterRuns c s = { s with hid := { s.hid with bootCount := c } } ∧
    bootCounterExpires c s = s.raiseError c := by
  simp [bootCounterRuns, bootCounterExpires, h]

theorem bootCounter_idle {s : State} (h : s.hid.bootArmed = false) (c : Word) :
    bootCounterRuns c s = s ∧ bootCounterExpires c s = s := by
  simp [bootCounterRuns, bootCounterExpires, h]

theorem bootAckArrives_stream {s : State} {x : XferLatch} (h : bootStream s = some x) :
    bootAckArrives s = if x.bootAck then s.raiseNis s.cfg.irq.bootAck else s := by
  simp [bootAckArrives, h]

theorem bootStreamEnds_stream {s : State} {x : XferLatch} (h : bootStream s = some x) (tc : Bool) :
    bootStreamEnds tc s =
      dataOver (if tc then s.cfg.irq.bootTerm ||| s.cfg.irq.tc else s.cfg.irq.bootTerm) s := by
  simp [bootStreamEnds, h]

/-- Without DMA all has moved when the port has no block left (R177). -/
theorem allMoved_port {cfg : Config} {f : InFlight} {x : XferLatch} (hx : f.xfer = some x) :
    allMoved cfg f none = true ↔ hasBit x.xfermode cfg.xfer.dma = false ∧ f.portLeft = 0 := by
  have hport : (portTransfer cfg f).isSome = true ↔ hasBit x.xfermode cfg.xfer.dma = false := by
    simp [Option.isSome_iff_exists, portTransfer_eq_some, hx]
  simp [allMoved, hport]

/-- A transfer whose data has not all moved: the DMA engine, or the port, has some left (R177). -/
theorem not_allMoved {s : State} {f : InFlight} {x : XferLatch} (hx : f.xfer = some x)
    (h : (∃ d, s.hid.dma = some d ∧ 0 < d.left) ∨
      (s.hid.dma = none ∧ (¬ hasBit x.xfermode s.cfg.xfer.dma = false ∨ 0 < f.portLeft))) :
    ¬ allMoved s.cfg f s.hid.dma = true := by
  rcases h with ⟨d, hd, hl⟩ | ⟨hd, h⟩
  · have : d.left ≠ 0 := by omega
    simp [hd, allMoved, this]
  · rw [hd, allMoved_port hx]
    rintro ⟨hport, hleft⟩
    exact h.elim (· hport) (by omega)

theorem cardLive_of_dataFlows {s : State} {x : XferLatch} (h : dataFlows x s = true) : cardLive s = true := by
  simp only [dataFlows, Bool.and_eq_true] at h
  exact h.1

/-- The automatic stop command that follows the port's last block ends the transfer (R177). -/
theorem autoStop_after_lastBlock {s : State} {f : InFlight} {x : XferLatch} (h : Transfers s f x)
    (hport : hasBit x.xfermode s.cfg.xfer.dma = false) (hflow : dataFlows x s = true) (hb : x.boot = false)
    (hn : needsAutoStop s.cfg x = true) (hd : s.hid.dma = none) :
    let t : State := { s with hid := { s.hid with cmd := some { f with portLeft := 0 } } }
    autoStopSent t = transferDone t := by
  intro t
  have hmoved : allMoved t.cfg { f with portLeft := 0 } t.hid.dma = true := by
    rw [show t.hid.dma = none from hd]
    exact (allMoved_port (f := { f with portLeft := 0 }) h.2).2 ⟨hport, rfl⟩
  exact autoStopSent_due (s := t) ⟨⟨rfl, h.2⟩, cardLive_of_dataFlows hflow, hmoved, hn, hb⟩

/-! #### What keeps the events of the transfer in flight from acting -/

section InFlightTransfer

variable {s : State} {f : InFlight} {x : XferLatch} (transfers : Transfers s f x)
include transfers

theorem not_portOpen (h : ¬ hasBit x.xfermode s.cfg.xfer.dma = false ∨ f.portLeft = 0 ∨ dataFlows x s = false)
    (g : InFlight) (y : XferLatch) : ¬ PortOpen s g y := by
  rintro ⟨hg, hport, hflow, hleft⟩
  obtain ⟨rfl, rfl⟩ := transfers.unique hg
  rcases h with h | h | h
  · exact h hport
  · exact hleft h
  · simp [h] at hflow

theorem not_autoStopDue (h : cardLive s = false ∨ x.boot = true ∨ needsAutoStop s.cfg x = false ∨
      (∃ d, s.hid.dma = some d ∧ 0 < d.left) ∨
      (s.hid.dma = none ∧ (¬ hasBit x.xfermode s.cfg.xfer.dma = false ∨ 0 < f.portLeft)))
    (g : InFlight) (y : XferLatch) : ¬ AutoStopDue s g y := by
  rintro ⟨hg, hlive, hall, hneeds, hboot⟩
  obtain ⟨rfl, rfl⟩ := transfers.unique hg
  rcases h with h | h | h | h
  · simp [h] at hlive
  · simp [h] at hboot
  · simp [h] at hneeds
  · exact not_allMoved transfers.2 h hall

theorem not_bootStreams (h : x.boot = false ∨ hasBit s.rb.bgc s.cfg.boot.bgcEn = false)
    (g : InFlight) (y : XferLatch) : ¬ BootStreams s g y := by
  rintro ⟨hg, -, hboot, hen⟩
  obtain ⟨rfl, rfl⟩ := transfers.unique hg
  rcases h with h | h
  · simp [h] at hboot
  · simp [h] at hen

/-- The port's last block leaves a boot stream, or a transfer with automatic stop, in flight (R177, R179). -/
theorem portBlockMoved_lastWaits (hport : hasBit x.xfermode s.cfg.xfer.dma = false)
    (hflow : dataFlows x s = true) (hl : f.portLeft = 1) (hw : x.boot = true ∨ needsAutoStop s.cfg x = true) :
    portBlockMoved s = { s with hid := { s.hid with cmd := some { f with portLeft := 0 } } } := by
  have waits : ¬ (f.portLeft = 1 ∧ x.boot = false ∧ needsAutoStop s.cfg x = false) := by
    rintro ⟨-, hb, hn⟩
    simp [hb, hn] at hw
  rw [portBlockMoved_open ⟨transfers, hport, hflow, by omega⟩, if_neg waits, hl]

end InFlightTransfer

/-- Settles O29: each event by its trigger, which for the transfer's events is `PortOpen`, `AutoStopDue` or
`BootStreams`. -/
theorem engineEventsSetTheirFlags : Obligations.EngineEventsSetTheirFlags := by
  intro s raised errors others reports ends
  have reported : ∀ {b t}, t = s.raiseError b → reports b t := fun h => h ▸ raiseError_spec _ s
  have ended : ∀ {b t}, t = dataOver b s → ends b t := fun h => h ▸ dataOver_leaves _ s
  have raised_alone : ∀ b, (s.raiseNis b).rb.nis = raised b ∧ others [.nis] (s.raiseNis b) ∧
      (s.raiseNis b).hid = s.hid :=
    fun b => ⟨rfl, fun y hy => raiseNis_get_other b s (by simpa using hy), rfl⟩
  refine ⟨fun h => ?stable, clockReports_idle, rfl,
    fun h => ⟨fun c => ?bootTick, fun b => reported (bootCounter_armed h b).2⟩, bootCounter_idle,
    fun h => ?noTransfer, fun f x hf hx => ?transfer⟩
  case stable => exact congrArg (fun t => t.rb.clkctl) (clockReports_stable h)
  case bootTick =>
    have ht : (HwEvent.bootTick c).apply s = _ := (bootCounter_armed h c).1
    rw [ht]
    exact ⟨rfl, rfl⟩
  case noTransfer =>
    have no : ∀ f x, ¬ Transfers s f x := fun f x ⟨hf, hx⟩ => by simp [h f hf] at hx
    have noStream := bootStream_idle fun f x hb => no f x hb.1
    refine ⟨?_, dataCounter_idle (watchedTransfer_none h)⟩
    simp only [List.forall_mem_cons]
    exact ⟨bootAckArrives_idle noStream, bootStreamEnds_idle noStream false, bootStreamEnds_idle noStream true,
      bufferReady_idle fun f x ho => absurd ho.1 (no f x), portBlockMoved_idle fun f x ho => no f x ho.1,
      autoStopSent_idle fun f x hd => no f x hd.1, by simp⟩
  case transfer =>
    intro port left
    have transfers : Transfers s f x := ⟨hf, hx⟩
    have watched := watchedTransfer_of transfers
    have isOpen : port → dataFlows x s = true → f.portLeft ≠ 0 → PortOpen s f x := fun hp hd hl =>
      ⟨transfers, hp, hd, hl⟩
    refine ⟨fun c => (dataCounter_watched watched c).1, fun b => reported (dataCounter_watched watched b).2,
      fun h => ?closed, fun h => ?write, fun h => ?notDue, fun hp hd => ⟨fun hr hl => ?ready, fun hl => ?more,
        fun hl hw => portBlockMoved_lastWaits transfers hp hd hl hw, fun hl hb hn => ?last,
        fun hl hb hn hdma => ?stop⟩,
      fun hlive hb hen => ?stream, fun h => ?noStream⟩
    case closed =>
      have shut := not_portOpen transfers h
      exact ⟨bufferReady_idle fun g y ho => absurd ho (shut g y), portBlockMoved_idle shut⟩
    case write => exact bufferReady_idle fun g y ho => (transfers.unique ho.1).2 ▸ h
    case notDue => exact autoStopSent_idle (not_autoStopDue transfers h)
    case ready =>
      have ht : HwEvent.bufferReady.apply s = _ := bufferReady_open (isOpen hp hd (by omega)) hr
      exact ht ▸ raised_alone s.cfg.irq.brr
    case more =>
      exact (portBlockMoved_open (isOpen hp hd (by omega))).trans (if_neg (by omega))
    case last =>
      exact ended ((portBlockMoved_open (isOpen hp hd (by omega))).trans (if_pos ⟨hl, hb, hn⟩))
    case stop =>
      have hlast : HwEvent.portBlock.apply s = left 0 := portBlockMoved_lastWaits transfers hp hd hl (.inr hn)
      have hstop : HwEvent.autoStop.apply (left 0) = dataOver s.cfg.irq.tc (left 0) :=
        autoStop_after_lastBlock transfers hp hd hb hn hdma
      rw [hlast, hstop]
      exact dataOver_leaves s.cfg.irq.tc (left 0)
    case stream =>
      have hstream := bootStream_of ⟨transfers, hlive, hb, hen⟩
      have hack : HwEvent.bootAck.apply s = _ := bootAckArrives_stream hstream
      refine ⟨fun ha => ?_, fun ha => ?_, fun tc => ?_⟩
      · rw [hack, if_pos ha]
        exact raised_alone s.cfg.irq.bootAck
      · rw [hack, if_neg (by simp [ha])]
      · exact ended (bootStreamEnds_stream hstream tc)
    case noStream =>
      have idle := bootStream_idle (not_bootStreams transfers h)
      exact ⟨bootAckArrives_idle idle, bootStreamEnds_idle idle⟩

end Sys2Proof.Machine

/-! ### Recovery (O48), and what WAIT_CMD leaves (O49) -/

namespace Sys2Proof

/-- Clearing more bits leaves no others. -/
theorem below_andNot {k m : Word} (h : Below k m) (v : Word) : Below (v &&& ~~~m) (v &&& ~~~k) := by
  rw [← andNot_andNot h v]
  exact below_and_left _ _

namespace Machine

/-! #### Recovery -/

/-- The write of EIS is the last of the status clearing (R120). -/
theorem clearAll_eis_cleared (s : State) :
    (clearAll s).rb.eis &&& trunc (s.cfg.width .eis) s.cfg.irq.eisAll = 0 := by
  have cleared := regWrite_eis_cleared s.cfg.irq.eisAll (regWrite .nis s.cfg.irq.nisAll s)
  rw [regWrite_cfg] at cleared
  rw [clearAll, regWrite_cfg]
  exact cleared

/-- Settles O48: the accesses and the log by `recover_spec`, the flags by the last write of each register. -/
theorem recoveryResetsThenClears : Obligations.RecoveryResetsThenClears := by
  intro s
  obtain ⟨l, hl, htrace, hlog⟩ := recover_spec s
  have r := Runs.recover s
  have cleared := clearAll_eis_cleared (resetProc s.cfg.dcMask s).2
  rw [(Runs.resetProc s.cfg.dcMask s).cfg] at cleared
  exact ⟨l, hl, htrace, hlog, cleared, regWrite_nis_cleared _ s, r.seq, r.h, r.respBuf⟩

/-! #### Accesses that clear only some flags of NIS -/

/-- From `s` to `t` no reset is started, at most the registers `ws` are written, and of NIS at most the flags `m`
are cleared. -/
structure ClearsOnly (ws : List Reg) (m : Word) (s t : State) : Prop where
  frame   : Frame ws s t
  noReset : .swreset ∉ ws
  nis     : KeepsFlags s → Below (s.rb.nis &&& ~~~m) t.rb.nis

section ClearsOnly

variable {ws ws' : List Reg} {m : Word} {s t u : State}

theorem ClearsOnly.trans (a : ClearsOnly ws m s t) (b : ClearsOnly ws m t u) : ClearsOnly ws m s u where
  frame := a.frame.trans b.frame
  noReset := a.noReset
  nis h := by
    have kept := (below_and (a.nis h) (~~~m)).trans (b.nis (a.frame.keepsFlags a.noReset h))
    rwa [and_and_self] at kept

theorem ClearsOnly.mono (a : ClearsOnly ws m s t) (h : ws ⊆ ws') (hs : .swreset ∉ ws') :
    ClearsOnly ws' m s t :=
  ⟨a.frame.mono h, hs, a.nis⟩

/-- Accesses that do not write NIS clear no flag. -/
theorem ClearsOnly.ofFrame (f : Frame ws s t) (hs : .swreset ∉ ws) (hn : .nis ∉ ws) : ClearsOnly ws m s t :=
  ⟨f, hs, fun h => (below_and_left _ _).trans (f.nis h hs hn)⟩

/-- Accesses that only read clear no flag. -/
theorem ClearsOnly.ofReads (f : Frame [] s t) (hs : .swreset ∉ ws) : ClearsOnly ws m s t :=
  (ClearsOnly.ofFrame f (by decide) (by decide)).mono (List.nil_subset ws) hs

theorem ClearsOnly.clearNis {k : Word} (hk : Below k m) (s : State) :
    ClearsOnly [.nis] m s (regWrite .nis k s) :=
  ⟨.regWrite (by decide) (by decide) k s, by decide, fun h =>
    (below_andNot hk _).trans (regWrite_nis_keeps k s h)⟩

theorem ClearsOnly.dmaAck (hm : Below s.cfg.irq.dma m) : ClearsOnly [.dmaaddr, .nis] m s (dmaAck s).2 :=
  ⟨.dmaAck (by decide) (by decide) s, by decide, fun h =>
    (below_andNot hm _).trans (dmaAck_nis_keeps h)⟩

end ClearsOnly

/-! #### The two exits of WAIT_CMD -/

/-- The registers a WAIT_CMD that returns OK may write (R150 to R154). -/
def waitOkWrites (c : Descriptor) : List Reg := if c.bootEn then [.boottimeout, .nis] else [.dmaaddr, .nis]

/-- The flags of NIS a WAIT_CMD that returns OK may clear (R145, R150 to R154). -/
def waitOkClears (cfg : Config) (c : Descriptor) : Word :=
  if c.bootEn then cfg.irq.bootAck
  else if c.dataXfer then cfg.irq.dma ||| cfg.irq.brr ||| cfg.irq.tc
  else cfg.irq.cc

/-- How a wait that began at `s` ends: by the failing exit, before which it wrote at most what the DMA acknowledge
writes, or by the successful one, having written `ws`; of NIS it cleared at most the flags `m`. -/
inductive WaitEnds (ws : List Reg) (m : Word) (s : State) : State → Prop
  | fails (cause : Cause) (vs : List Word) {w : State} (f : ClearsOnly [.dmaaddr, .nis] m s w) :
      WaitEnds ws m s (failWith cause vs w)
  | succeeds (q : SeqState) {w : State} (f : ClearsOnly ws m s w) :
      WaitEnds ws m s { w with seq := q, sent := none, reply := .ok }

section WaitEnds

variable {ws ws' : List Reg} {m : Word} {s a t : State} {c : Descriptor} {n : Word}

theorem WaitEnds.after (p : ClearsOnly ws' m s a) (hfail : ws' ⊆ [.dmaaddr, .nis]) (hok : ws' ⊆ ws)
    (e : WaitEnds ws m a t) : WaitEnds ws m s t := by
  cases e with
  | fails cause vs f => exact .fails cause vs ((p.mono hfail f.noReset).trans f)
  | succeeds q f => exact .succeeds q ((p.mono hok f.noReset).trans f)

/-- A failing WAIT_CMD: its recovery writes SWRESET, NIS and EIS as well. -/
theorem WaitEnds.frame_of_fail (e : WaitEnds ws m s t) (hc : s.cfg.wf = true) (h : t.reply = .fail) :
    Frame [.dmaaddr, .nis, .eis, .swreset] s t := by
  cases e with
  | fails cause vs f =>
    have before := f.frame
    exact (before.mono (by decide)).trans
      (.failWith (by decide) (by decide) (by decide) cause vs _ (before.cfg ▸ hc))
  | succeeds q f => cases h

theorem WaitEnds.clearsOnly_of_ok (e : WaitEnds ws m s t) (h : t.reply = .ok) : ClearsOnly ws m s t := by
  cases e with
  | fails cause vs f => cases h
  | succeeds q f => exact ⟨f.frame.trans (.same rfl rfl rfl), f.noReset, f.nis⟩

theorem WaitEnds.reply (e : WaitEnds ws m s t) : t.reply = .fail ∨ t.reply = .ok := by
  cases e with
  | fails => exact .inl rfl
  | succeeds => exact .inr rfl

theorem waitBoot_ends (n : Word) (s : State) :
    WaitEnds [.boottimeout, .nis] s.cfg.irq.bootAck s (waitBoot n s) := by
  obtain ⟨-, e⟩ | ⟨-, _, _, rfl, rfl, e⟩ := waitBoot_cases n s
  all_goals rw [e]
  · exact .fails _ _ (.ofReads (.refl _ _) (by decide))
  · have disarm : ClearsOnly [.boottimeout] s.cfg.irq.bootAck s (regWrite .boottimeout 0 s) :=
      .ofFrame (.regWrite (by decide) (by decide) 0 s) (by decide) (by decide)
    exact .succeeds _ ((disarm.mono (by decide) (by decide)).trans
      ((ClearsOnly.clearNis (.refl _) _).mono (by decide) (by decide)))

theorem waitNonData_ends (h : waitNonData c n s = .next t) :
    WaitEnds [.dmaaddr, .nis] s.cfg.irq.cc s t := by
  obtain ⟨-, e⟩ | ⟨-, -, _, _, rfl, rfl, e⟩ | ⟨-, -, e⟩ := waitNonData_cases c n s
  · obtain rfl := Host.Outcome.next.inj (e.symm.trans h)
    exact .fails _ _ (.ofReads (.refl _ _) (by decide))
  · obtain rfl := Host.Outcome.next.inj (e.symm.trans h)
    have decode : ClearsOnly [.nis] s.cfg.irq.cc s (decodeResponse c s) :=
      .ofReads (.decodeResponse [] c s) (by decide)
    exact .succeeds _ ((decode.trans (.clearNis (.refl _) _)).mono (by decide) (by decide))
  · cases e.symm.trans h

/-- The data wait, for any flags `m` among which are those its rounds clear (R151 to R154). -/
theorem dataLoop_ends {cfg : Config} {m : Word} (hdma : Below cfg.irq.dma m) (hbrr : Below cfg.irq.brr m)
    (htc : Below cfg.irq.tc m) (t0 : Nat) : ∀ (n : Nat) (s : State), s.cfg = cfg →
      WaitEnds [.dmaaddr, .nis] m s (dataLoop t0 n s)
  | 0, s => fun _ => .fails .dataTimeout [] (.ofReads (.same rfl rfl rfl) (by decide))
  | n + 1, s => fun hcfg => by
    have clock : Frame [] s (sampleClock s) := .sampleClock [] s
    have error := clock.trans (.regRead [] .eis _)
    obtain ⟨_, rfl, ⟨-, e⟩ | ⟨-, _, _, rfl, rfl, ⟨-, _, rfl, e⟩ | ⟨-, q, g, b, -, rfl, hb, h⟩⟩⟩ :=
      dataLoop_cases t0 n s
    · exact e ▸ .fails _ _ (.ofReads clock (by decide))
    · exact e ▸ .fails _ _ (.ofReads (error.trans (.regRead [] .acmd12stat _)) (by decide))
    · have flags := error.trans (.regRead [] .nis _)
      have round : ClearsOnly [.dmaaddr, .nis] m s b := by
        have read : ClearsOnly [.dmaaddr, .nis] m s _ := .ofReads flags (by decide)
        rw [hb]
        split
        · exact read.trans (.dmaAck (flags.cfg.trans hcfg ▸ hdma))
        · exact read
      have clears : ∀ {k : Word}, Below k m → ClearsOnly [.dmaaddr, .nis] m s (regWrite .nis k b) := fun hk =>
        round.trans ((ClearsOnly.clearNis hk b).mono (by decide) (by decide))
      obtain ⟨-, _, rfl, e⟩ | ⟨-, -, _, rfl, e⟩ | ⟨-, -, e⟩ := h
      · exact e ▸ .succeeds _ (clears (hcfg ▸ hbrr))
      · exact e ▸ .succeeds _ (clears (hcfg ▸ htc))
      · rw [e]
        exact .after round (List.Subset.refl _) (List.Subset.refl _)
          (dataLoop_ends hdma hbrr htc t0 n b (round.frame.cfg.trans hcfg))

theorem waitData_ends (s : State) :
    WaitEnds [.dmaaddr, .nis] (s.cfg.irq.dma ||| s.cfg.irq.brr ||| s.cfg.irq.tc) s (waitData s) := by
  have clock := Frame.sampleClock [] s
  exact .after (.ofReads clock (by decide)) (List.nil_subset _) (List.nil_subset _)
    (dataLoop_ends ((below_or_left _ _).trans (below_or_left _ _)) ((below_or_right _ _).trans (below_or_left _ _))
      (below_or_right _ _) _ _ _ clock.cfg)

theorem runWaitCmd_ends (h : runWaitCmd c s = .next t) :
    WaitEnds (waitOkWrites c) (waitOkClears s.cfg c) s t := by
  obtain ⟨a, ha, hbranch⟩ := runWaitCmd_cases c s
  have poll : Frame [] s a := ha ▸ .poll [] .nis _ _ s
  refine .after (.ofReads poll (by decide)) (List.nil_subset _) (List.nil_subset _) ?_
  rw [← poll.cfg]
  obtain ⟨-, e⟩ | ⟨n, -, ⟨hboot, e⟩ | ⟨hboot, hdata, e⟩ | ⟨hboot, hdata, e⟩⟩ := hbranch
  all_goals have h := e.symm.trans h
  · obtain rfl := Host.Outcome.next.inj h
    exact .fails _ _ (.ofReads (.refl _ _) (by decide))
  · obtain rfl := Host.Outcome.next.inj h
    simpa only [waitOkWrites, waitOkClears, hboot, if_true] using waitBoot_ends n a
  · obtain rfl := Host.Outcome.next.inj h
    simpa only [waitOkWrites, waitOkClears, hboot, hdata, if_true, Bool.false_eq_true, if_false]
      using waitData_ends a
  · simpa only [waitOkWrites, waitOkClears, hboot, hdata, Bool.false_eq_true, if_false]
      using waitNonData_ends h

/-- A boot success leaves the boot-timeout counter written 0, so disarmed (R150). -/
theorem waitBoot_disarms (h : NoFullReset s) (hok : (waitBoot n s).reply = .ok) :
    (waitBoot n s).rb.boottimeout = 0 ∧ (waitBoot n s).hid.bootArmed = false := by
  obtain ⟨-, e⟩ | ⟨-, _, _, rfl, rfl, e⟩ := waitBoot_cases n s
  all_goals rw [e] at hok ⊢
  · cases hok
  · have disarm : Frame [.boottimeout] s (regWrite .boottimeout 0 s) := .regWrite (by decide) (by decide) 0 s
    have ack : Frame [.nis] (regWrite .boottimeout 0 s)
        (regWrite .nis s.cfg.irq.bootAck (regWrite .boottimeout 0 s)) := .regWrite (by decide) (by decide) _ _
    have zero : trunc (s.cfg.width .boottimeout) 0 = 0 := BitVec.zero_and
    have armed := (ack.armed (disarm.full h) (by decide)).trans (regWrite_boottimeout_armed 0 s)
    have value := ack.steady_value h (x := .boottimeout) (by decide) (by decide)
    rw [zero] at armed value
    exact ⟨value, armed⟩

theorem runWaitCmd_disarms (hboot : c.bootEn = true) (h : NoFullReset s) (hrun : runWaitCmd c s = .next t)
    (hok : t.reply = .ok) : t.rb.boottimeout = 0 ∧ t.hid.bootArmed = false := by
  obtain ⟨a, ha, hbranch⟩ := runWaitCmd_cases c s
  have poll : Frame [] s a := ha ▸ .poll [] .nis _ _ s
  obtain ⟨-, e⟩ | ⟨n, -, ⟨-, e⟩ | ⟨hno, -⟩ | ⟨hno, -⟩⟩ := hbranch
  · obtain rfl := Host.Outcome.next.inj (e.symm.trans hrun)
    cases hok
  · obtain rfl := Host.Outcome.next.inj (e.symm.trans hrun)
    exact waitBoot_disarms (poll.full h) hok
  all_goals cases hno.symm.trans hboot

end WaitEnds

/-! #### The operation -/

/-- The registers WAIT_CMD may write, whatever the descriptor and however it ends (R82). -/
def waitWrites : List Reg := [.boottimeout, .dmaaddr, .nis, .eis, .swreset]

theorem runWaitCmd_frame {c : Descriptor} {s t : State} (hc : s.cfg.wf = true) (h : runWaitCmd c s = .next t) :
    Frame waitWrites s t := by
  have ends := runWaitCmd_ends h
  obtain hfail | hok := ends.reply
  · exact (ends.frame_of_fail hc hfail).mono (by decide)
  · refine (ends.clearsOnly_of_ok hok).frame.mono ?_
    unfold waitOkWrites
    split <;> decide

/-- BOOTTIMEOUT and its arming stand unless WAIT_CMD saw a boot acknowledge (R150). -/
theorem runWaitCmd_keeps_boottimeout {c : Descriptor} {s t : State} (hc : s.cfg.wf = true) (h : NoFullReset s)
    (hrun : runWaitCmd c s = .next t) (hend : c.bootEn = false ∨ t.reply = .fail) :
    t.rb.boottimeout = s.rb.boottimeout ∧ t.hid.bootArmed = s.hid.bootArmed := by
  have ends := runWaitCmd_ends hrun
  have kept : ∀ {ws : List Reg}, Frame ws s t → .boottimeout ∉ ws →
      t.rb.boottimeout = s.rb.boottimeout ∧ t.hid.bootArmed = s.hid.bootArmed := fun f hw =>
    ⟨f.steady h .boottimeout (by decide) hw, f.armed h hw⟩
  obtain hfail | hok := ends.reply
  · exact kept (ends.frame_of_fail hc hfail) (by decide)
  · have hboot : c.bootEn = false := by simpa [hok] using hend
    exact kept (ends.clearsOnly_of_ok hok).frame (by simp [waitOkWrites, hboot])

theorem steadyRegs_notIn_waitWrites : ∀ x ∈ steadyRegs, x ≠ .boottimeout → x ∉ waitWrites := by decide

/-- A successful WAIT_CMD writes neither EIS nor CMD nor what a command latches. -/
theorem notIn_waitOkWrites (c : Descriptor) : ∀ x ∈ Reg.eis :: latchedRegs, x ∉ waitOkWrites c := by
  unfold waitOkWrites
  split <;> decide

/-- Settles O49: the registers by the frame, BOOTTIMEOUT and the flags by the exit taken, the rest by how every
WAIT_CMD ends. -/
theorem waitCmdPreservesProgramming : Obligations.WaitCmdPreservesProgramming := by
  intro s t c hc h ht
  obtain ⟨hrun, -⟩ := exec_waitCmd_next ht
  have f := runWaitCmd_frame hc hrun
  obtain ⟨_, _, ends, -⟩ := runWaitCmd_endsIn hrun
  have exits := runWaitCmd_ends hrun
  have untouched := notIn_waitOkWrites c
  refine ⟨fun x hx hne => f.steady h x hx (steadyRegs_notIn_waitWrites x hx hne),
    runWaitCmd_keeps_boottimeout hc h hrun, fun hboot => runWaitCmd_disarms hboot h hrun,
    f.clock h (by decide), f.powered h (by decide), f.full h, ends.h, ends.keeps.port, ends.sent,
    fun hok hk => ?flags, fun hok hr => ?latched⟩
  case flags =>
    have success := exits.clearsOnly_of_ok hok
    exact ⟨success.frame.eis hk success.noReset (untouched _ (by decide)), success.nis hk⟩
  case latched =>
    have success := exits.clearsOnly_of_ok hok
    exact ⟨fun x hx => success.frame.latched success.noReset hr x hx (untouched x (List.mem_cons_of_mem _ hx)),
      success.frame.trigger success.noReset hr (untouched _ (by decide))⟩

end Machine
end Sys2Proof
